-- ==== Sys2Proof/Word.lean ====
section
/-! DEFINITION. The 16-bit word of the part (00_scope.md, Conventions) and its plainest arithmetic. -/

namespace Sys2Proof

/-- A word is 16 bits; bit 15 is the most significant (00_scope.md, Conventions). -/
abbrev Word := BitVec 16

/-- The word that carries a number, low 16 bits. -/
def word (n : Nat) : Word := BitVec.ofNat 16 n

/-- The word that carries a signed number in two's complement (R179). -/
def signedWord (i : Int) : Word := BitVec.ofInt 16 i

/-- 1 for yes and 0 for no (R179). -/
def flagWord (b : Bool) : Word := if b then 1 else 0

end Sys2Proof
end

