-- ==== Sys2Proof/Syntax.lean ====
section
/-! DEFINITION. The commands the part takes: one constructor of `Instr` per row of spec/opcode_table.json, with what each
row carries in from the outside. -/

namespace Sys2Proof

/-- The two modes of the part (R7, R8). -/
inductive Mode where
  | interpose
  | transparent
  deriving DecidableEq, Repr

/-- The four strap profiles of the geometry (R177). -/
inductive Profile where
  | a
  | b
  | c
  | d
  deriving DecidableEq, Repr

/-- The straps, read once at power-on (R177). -/
structure Straps where
  unit : Fin 8
  profile : Profile
  mode : Mode
  deriving DecidableEq, Repr

/-- What the Read Channel finds in one bit cell: the separator out of lock, or the amplitude at the sampling point in 16
levels (R91). -/
inductive BitCell where
  | outOfLock
  | amplitude (level : Fin 16)
  deriving DecidableEq, Repr

/-- The read signal of one sector window (R89, R91, R92). `header` is present when the header sync was found, and holds the
cells of the three header words; `data` is present when the data sync was found within the window, and holds the cells of
the W data words and the data check word. -/
structure SectorSignal where
  header : Option (List BitCell)
  data : Option (List BitCell)
  deriving DecidableEq, Repr

/-- The kinds of controller request with their parts (R1). -/
inductive Request where
  | select
  | seek (cylinder : Nat)
  | recalibrate
  | read (head sector : Nat)
  | write (head sector : Nat) (words : List Word)
  | format (head : Nat)
  | sense
  deriving DecidableEq, Repr

/-- The commands, one constructor per row of spec/opcode_table.json.
A controller request (`select` to `sense`) names the strapped unit. An operand `permit` is the level of Media Write Permit
and `protect` the level of the drive's write-protect line as they stand when the row is taken (R33, R93, R94). An operand
`elapsed` is the ticks of 10 µs that have passed since the row before (R95, R154). A command of the command sector carries
its parameter words (R163). -/
inductive Instr where
  | powerOn (straps : Straps) (ready fault : Bool)
  | controllerClear
  | otherUnitRequest (unit : Fin 8) (request : Request)
  | select
  | seek (cylinder : Nat)
  | recalibrate
  | read (head sector : Nat)
  | write (head sector : Nat) (words : List Word) (permit : Bool)
  | format (head : Nat) (permit : Bool)
  | sense (permit : Bool)
  | loadSectorData (words : List Word)
  | driveGrant (permit : Bool)
  | seekComplete
  | positioningLimitExpiry (permit : Bool)
  | settleEnd
  | indexPulse (elapsed : Nat) (protect : Bool)
  | indexLoss (gateRaised : Bool)
  | readSectorEnd (signal : SectorSignal)
  | captureSectorDecoded (sector : Nat) (signal : SectorSignal)
  | captureEnd
  | sectorWriteEnd (header : Option (List BitCell)) (protect permit : Bool)
  | formatWorkEnd (headers : List (Option (List BitCell)))
  | recoveryPassEnd (signals : List (Nat × SectorSignal))
  | jobActivation
  | batchWindowExpiry
  | holdDeadline
  | waitingWriteEntry (permit : Bool)
  | flushLatencyExpiry
  | driveReadyRise
  | driveReadyFall
  | driveFault
  | faultClearEnd
  | faultLineFall
  | unloadRequest (elapsed : Nat)
  | unloadRelease
  | showStatus (params : List Word)
  | readResult (params : List Word)
  | readMapEntry (params : List Word)
  | readStoreData (params : List Word)
  | listMap (params : List Word)
  | readRegion (params : List Word)
  | readLadder (params : List Word)
  | readDriveSector (params : List Word)
  | loadRegion (params : List Word)
  | deleteRegion (params : List Word)
  | loadLadderStep (params : List Word)
  | clearLadder (params : List Word)
  | recoverTrack (params : List Word)
  | cancelTrack (params : List Word)
  | suspendEngine (params : List Word)
  | resumeEngine (params : List Word)
  | resetEngine (params : List Word)
  | loadSector (params : List Word)
  | dropSector (params : List Word)
  | clearMap (params : List Word)
  | permitUnload (params : List Word)
  | forceUnload (params : List Word)
  | setGuard (params : List Word)
  | setMode (params : List Word)
  | setGeometry (params : List Word)
  | setTiming (params : List Word)
  | setTrim (params : List Word)
  | setControlAddress (params : List Word)
  | enableFormat (params : List Word)
  | clearEvents (params : List Word)
  | confirm (params : List Word)
  | badCommand (code : Word) (params : List Word)
  deriving DecidableEq, Repr

end Sys2Proof
end

