-- ==== Sys2Proof/Config.lean ====
section
/-! DEFINITION. What the part fixes: its sizes and limits, the strap profiles, the built-in ladder, the default region and
the command codes. -/

namespace Sys2Proof

/-- The geometry in force: C cylinders, H heads, S sectors per track, W words per sector, and the nominal index period in
ms (R177). -/
structure Geometry where
  cylinders : Nat
  heads : Nat
  sectors : Nat
  words : Nat
  periodMs : Nat
  deriving DecidableEq, Repr

/-- Whether the step's first pass clears the accumulators (R102, R141). -/
inductive VoteMode where
  | accumulate
  | reset
  deriving DecidableEq, Repr

/-- One step of a ladder, its eight fields in the order of R102. -/
structure LadderStep where
  strobe : Int
  headOffset : Int
  threshold : Nat
  passes : Nat
  voteMode : VoteMode
  flipLimit : Nat
  flipCeiling : Nat
  inference : Bool
  deriving DecidableEq, Repr

/-- The fate of a controller WRITE (R24). -/
inductive WritePolicy where
  | pass
  | divert
  | refuse
  deriving DecidableEq, Repr

/-- Whether a failed drive read leads to recovery (R24). -/
inductive ReadPolicy where
  | pass
  | recover
  deriving DecidableEq, Repr

/-- One region entry, its seven fields in the order of R24. -/
structure Region where
  low : Nat
  high : Nat
  write : WritePolicy
  read : ReadPolicy
  prefetch : Bool
  ladder : Nat
  keepBest : Bool
  deriving DecidableEq, Repr

/-- The settings of a cylinder that lies in no slot (R25); its range is given as cylinder 0 alone, as READ REGION shows an
empty slot (R29). -/
def defaultRegion : Region :=
  { low := 0, high := 0, write := .divert, read := .recover, prefetch := false, ladder := 0, keepBest := true }

/-- The geometry of each strap profile (R177). -/
def profileGeometry : Profile → Geometry
  | .a => { cylinders := 210, heads := 2, sectors := 16, words := 256, periodMs := 25 }
  | .b => { cylinders := 420, heads := 2, sectors := 16, words := 256, periodMs := 25 }
  | .c => { cylinders := 600, heads := 4, sectors := 24, words := 128, periodMs := 20 }
  | .d => { cylinders := 760, heads := 8, sectors := 32, words := 64, periodMs := 16 }

/-- The built-in ladder 0 (R103). -/
def builtinLadder : List LadderStep :=
  [ ⟨0, 0, 8, 2, .accumulate, 0, 4, false⟩,
    ⟨-2, 0, 8, 2, .accumulate, 0, 4, false⟩,
    ⟨2, 0, 8, 2, .accumulate, 1, 4, false⟩,
    ⟨0, 12, 6, 3, .reset, 1, 4, true⟩,
    ⟨0, -12, 6, 3, .reset, 2, 4, true⟩,
    ⟨0, 0, 4, 4, .accumulate, 3, 6, true⟩ ]

namespace Config

/-- Region Table slots (R24). -/
def regionSlots : Nat := 16
/-- Ladders of the Ladder Table (R101). -/
def ladders : Nat := 8
/-- Steps a ladder can hold (R101). -/
def ladderSteps : Nat := 12
/-- Slots of the Sector Store (R42). -/
def storeSlots : Nat := 1024
/-- Entries the Post Queue holds (R60). -/
def postEntries : Nat := 8
/-- Failed flush writes at which a post entry is discarded (R66). -/
def flushFailures : Nat := 3
/-- Track jobs the Recovery Queue holds (R113). -/
def recoveryJobs : Nat := 16
/-- Mis-seeks that end a job (R126). -/
def misSeeks : Nat := 3
/-- Places of the Result Queue (R174). -/
def resultPlaces : Nat := 64
/-- Ticks of 10 µs in a millisecond (R95). -/
def ticksPerMs : Nat := 100
/-- The positioning limit of 250 ms, in ticks (R83). -/
def positioningTicks : Nat := 25000
/-- The 10 s of a second Unload Request, in ticks (R154). -/
def secondUnloadTicks : Nat := 1000000
/-- The value at which the tick count saturates (R95). -/
def tickCeiling : Nat := 65535
/-- Consecutive periods that load a pack (R152). -/
def spinUpPeriods : Nat := 8
/-- Consecutive periods outside the band that begin a speed fault (R96). -/
def speedFaultPeriods : Nat := 2
/-- Consecutive periods inside the band that clear it (R96). -/
def speedClearPeriods : Nat := 8
/-- The Offset DAC code of the mechanical centre (R85). -/
def centreCode : Int := 8192
/-- The largest Offset DAC code (R85). -/
def maxCode : Int := 16383
/-- The threshold of centre conditions (R10, R87). -/
def centreThreshold : Nat := 8
/-- The signature of a command sector, words 0 and 1 (R163). -/
def signature : List Word := [0o071523, 0o106254]
/-- The value that names the region default in RECOVER TRACK (R179). -/
def regionDefault : Word := 0o177777

end Config

/-! The command codes (R179). -/
namespace Code

def showStatus : Word := 0o001
def readResult : Word := 0o002
def readMapEntry : Word := 0o003
def readStoreData : Word := 0o004
def listMap : Word := 0o005
def readRegion : Word := 0o006
def readLadder : Word := 0o007
def readDriveSector : Word := 0o010
def loadRegion : Word := 0o020
def deleteRegion : Word := 0o021
def loadLadderStep : Word := 0o022
def clearLadder : Word := 0o023
def recoverTrack : Word := 0o040
def cancelTrack : Word := 0o041
def suspendEngine : Word := 0o042
def resumeEngine : Word := 0o043
def resetEngine : Word := 0o044
def loadSector : Word := 0o060
def dropSector : Word := 0o061
def clearMap : Word := 0o062
def permitUnload : Word := 0o100
def forceUnload : Word := 0o101
def setGuard : Word := 0o102
def setMode : Word := 0o120
def setGeometry : Word := 0o121
def setTiming : Word := 0o122
def setTrim : Word := 0o123
def setControlAddress : Word := 0o124
def enableFormat : Word := 0o125
def clearEvents : Word := 0o140
def confirm : Word := 0o141

/-- Every code that names a command (R179). -/
def catalogue : List Word :=
  [ showStatus, readResult, readMapEntry, readStoreData, listMap, readRegion, readLadder, readDriveSector, loadRegion,
    deleteRegion, loadLadderStep, clearLadder, recoverTrack, cancelTrack, suspendEngine, resumeEngine, resetEngine,
    loadSector, dropSector, clearMap, permitUnload, forceUnload, setGuard, setMode, setGeometry, setTiming, setTrim,
    setControlAddress, enableFormat, clearEvents, confirm ]

end Code

/-- The code a command row of the table carries in word 2 of its command sector (R163, R179); none for the other rows. -/
def Instr.code? : Instr → Option Word
  | .powerOn _ _ _ | .controllerClear | .otherUnitRequest _ _ | .select | .seek _ | .recalibrate | .read _ _
  | .write _ _ _ _ | .format _ _ | .sense _ | .loadSectorData _ | .driveGrant _ | .seekComplete
  | .positioningLimitExpiry _ | .settleEnd | .indexPulse _ _ | .indexLoss _ | .readSectorEnd _
  | .captureSectorDecoded _ _ | .captureEnd | .sectorWriteEnd _ _ _ | .formatWorkEnd _ | .recoveryPassEnd _
  | .jobActivation | .batchWindowExpiry | .holdDeadline | .waitingWriteEntry _ | .flushLatencyExpiry
  | .driveReadyRise | .driveReadyFall | .driveFault | .faultClearEnd | .faultLineFall | .unloadRequest _
  | .unloadRelease => none
  | .showStatus _ => some Code.showStatus
  | .readResult _ => some Code.readResult
  | .readMapEntry _ => some Code.readMapEntry
  | .readStoreData _ => some Code.readStoreData
  | .listMap _ => some Code.listMap
  | .readRegion _ => some Code.readRegion
  | .readLadder _ => some Code.readLadder
  | .readDriveSector _ => some Code.readDriveSector
  | .loadRegion _ => some Code.loadRegion
  | .deleteRegion _ => some Code.deleteRegion
  | .loadLadderStep _ => some Code.loadLadderStep
  | .clearLadder _ => some Code.clearLadder
  | .recoverTrack _ => some Code.recoverTrack
  | .cancelTrack _ => some Code.cancelTrack
  | .suspendEngine _ => some Code.suspendEngine
  | .resumeEngine _ => some Code.resumeEngine
  | .resetEngine _ => some Code.resetEngine
  | .loadSector _ => some Code.loadSector
  | .dropSector _ => some Code.dropSector
  | .clearMap _ => some Code.clearMap
  | .permitUnload _ => some Code.permitUnload
  | .forceUnload _ => some Code.forceUnload
  | .setGuard _ => some Code.setGuard
  | .setMode _ => some Code.setMode
  | .setGeometry _ => some Code.setGeometry
  | .setTiming _ => some Code.setTiming
  | .setTrim _ => some Code.setTrim
  | .setControlAddress _ => some Code.setControlAddress
  | .enableFormat _ => some Code.enableFormat
  | .clearEvents _ => some Code.clearEvents
  | .confirm _ => some Code.confirm
  | .badCommand code _ => some code

/-- The parameter words of a command row (R163); none for the other rows. -/
def Instr.params : Instr → List Word
  | .powerOn _ _ _ | .controllerClear | .otherUnitRequest _ _ | .select | .seek _ | .recalibrate | .read _ _
  | .write _ _ _ _ | .format _ _ | .sense _ | .loadSectorData _ | .driveGrant _ | .seekComplete
  | .positioningLimitExpiry _ | .settleEnd | .indexPulse _ _ | .indexLoss _ | .readSectorEnd _
  | .captureSectorDecoded _ _ | .captureEnd | .sectorWriteEnd _ _ _ | .formatWorkEnd _ | .recoveryPassEnd _
  | .jobActivation | .batchWindowExpiry | .holdDeadline | .waitingWriteEntry _ | .flushLatencyExpiry
  | .driveReadyRise | .driveReadyFall | .driveFault | .faultClearEnd | .faultLineFall | .unloadRequest _
  | .unloadRelease => []
  | .showStatus ps | .readResult ps | .readMapEntry ps | .readStoreData ps | .listMap ps | .readRegion ps
  | .readLadder ps | .readDriveSector ps | .loadRegion ps | .deleteRegion ps | .loadLadderStep ps | .clearLadder ps
  | .recoverTrack ps | .cancelTrack ps | .suspendEngine ps | .resumeEngine ps | .resetEngine ps | .loadSector ps
  | .dropSector ps | .clearMap ps | .permitUnload ps | .forceUnload ps | .setGuard ps | .setMode ps | .setGeometry ps
  | .setTiming ps | .setTrim ps | .setControlAddress ps | .enableFormat ps | .clearEvents ps | .confirm ps
  | .badCommand _ ps => ps

end Sys2Proof
end

