-- ==== Sys2Proof/WellFormed.lean ====
section
/-! DEFINITION. Which commands can arrive at all: the sizes of what a row carries in. The part's own range tests (a head of H
or more, a missing parameter) are no business of this file: such commands arrive and are answered. -/

namespace Sys2Proof

/-- A data field of a sector has 64, 128 or 256 words (R178). -/
def sectorSized (n : Nat) : Bool := n == 64 || n == 128 || n == 256

/-- Three header words (R89). -/
def headerSized (cells : Option (List BitCell)) : Bool :=
  match cells with
  | none => true
  | some l => l.length == 48

/-- W data words and the data check word (R89, R137). -/
def dataSized (cells : Option (List BitCell)) : Bool :=
  match cells with
  | none => true
  | some l => l.length == 1040 || l.length == 2064 || l.length == 4112

/-- The read signal of one sector window (R89). -/
def SectorSignal.wellFormed (g : SectorSignal) : Bool := headerSized g.header && dataSized g.data

/-- A request as the cable carries it: a WRITE has a whole sector of words (R1). -/
def Request.wellFormed : Request → Bool
  | .write _ _ words => sectorSized words.length
  | .select | .seek _ | .recalibrate | .read _ _ | .format _ | .sense => true

/-- Sector numbers in strictly ascending order, each below 32 (R92, R178). -/
def ascendingSectors : List Nat → Bool
  | [] => true
  | [n] => n < 32
  | n :: m :: rest => n < m && ascendingSectors (m :: rest)

/-- The sizes of what a command carries (R1, R89, R92, R163). -/
def Instr.wellFormed : Instr → Bool
  | .otherUnitRequest _ r => r.wellFormed
  | .write _ _ words _ => sectorSized words.length
  | .loadSectorData words => sectorSized words.length
  | .readSectorEnd g => g.wellFormed
  | .captureSectorDecoded n g => n < 32 && g.wellFormed
  | .sectorWriteEnd h _ _ => headerSized h
  | .formatWorkEnd hs => hs.length ≤ 32 && hs.all headerSized
  | .recoveryPassEnd gs => ascendingSectors (gs.map (·.1)) && gs.all (fun g => g.2.wellFormed)
  | .powerOn _ _ _ | .controllerClear | .select | .seek _ | .recalibrate | .read _ _ | .format _ _ | .sense _
  | .driveGrant _ | .seekComplete | .positioningLimitExpiry _ | .settleEnd | .indexPulse _ _ | .indexLoss _
  | .captureEnd | .jobActivation | .batchWindowExpiry | .holdDeadline | .waitingWriteEntry _ | .flushLatencyExpiry
  | .driveReadyRise | .driveReadyFall | .driveFault | .faultClearEnd | .faultLineFall | .unloadRequest _
  | .unloadRelease => true
  | .badCommand code ps => !Code.catalogue.contains code && ps.length < 65536
  | .showStatus ps | .readResult ps | .readMapEntry ps | .readStoreData ps | .listMap ps | .readRegion ps
  | .readLadder ps | .readDriveSector ps | .loadRegion ps | .deleteRegion ps | .loadLadderStep ps | .clearLadder ps
  | .recoverTrack ps | .cancelTrack ps | .suspendEngine ps | .resumeEngine ps | .resetEngine ps | .loadSector ps
  | .dropSector ps | .clearMap ps | .permitUnload ps | .forceUnload ps | .setGuard ps | .setMode ps | .setGeometry ps
  | .setTiming ps | .setTrim ps | .setControlAddress ps | .enableFormat ps | .clearEvents ps | .confirm ps =>
      ps.length < 65536

end Sys2Proof
end

