-- ==== Sys2Proof/Decode.lean ====
section
/-! DEFINITION. The decoder of the opcode table. spec/opcode_table.json gives no row any bits (every row's "fields" is empty
and no row has "fixed" bits), so no word spells a command (log 35). The codes of command sectors are no bits of the table:
they are read by the Command Interface (Machine/Commands.lean, R163). -/

namespace Sys2Proof

/-- The command a word spells by the table's bits: none, since the table gives its rows no bits (log 35). -/
def decodeTableWord (_nbits _w : Nat) : Option Instr := none

end Sys2Proof
end

