-- ==== Sys2Proof/Machine/State.lean ====
section
/-! DEFINITION. The state of the part as plain data: every register, table, queue, buffer, flag, line and record the spec
names, and the state right after reset. What the spec's words make a consequence of other state (the response selector, the
run phase, the FLUSH request, the reservations, the free pool, the job states) is computed from it in Machine/Ops.lean and
the files after it, not held twice (log 9). -/

namespace Sys2Proof.Machine

/-! ## Addresses -/

/-- A track (cylinder, head). -/
structure Track where
  cyl : Nat
  head : Nat
  deriving DecidableEq, Repr

/-- A sector address (cylinder, head, sector). -/
structure Addr where
  cyl : Nat
  head : Nat
  sector : Nat
  deriving DecidableEq, Repr

/-! ## The Controller Port -/

/-- Completion statuses (R9). -/
inductive Status where
  | done
  | dataCheck
  | headerCheck
  | seekError
  | notReady
  | writeProtected
  | writeFault
  deriving DecidableEq, Repr

/-- What the part answers on the cable (R9): a completion status with the data it carries, or the four indications of
SENSE. -/
inductive Completion where
  | status (status : Status) (data : List Word)
  | sense (ready seekComplete writeProtected fault : Bool)
  deriving DecidableEq, Repr

/-- How far an outstanding request has come (R2): its drive work stands ungranted; is granted; it waits on the sector of a
running capture (R72, R73); it is held (R17); or its drive work was ended by a drive fault and the answer waits for the end
of the fault clear (R98). -/
inductive Stage where
  | standing
  | working
  | capturing
  | held
  | clearing
  deriving DecidableEq, Repr

/-- An outstanding request with what its rules keep of it: a READ keeps the region looked up when it was taken (R25, R32)
and whether it was taken in INTERPOSE mode (R7). -/
inductive PortWork where
  | read (addr : Addr) (region : Region) (interpose : Bool)
  | write (addr : Addr) (words : List Word)
  | format (track : Track)
  | seek
  | recalibrate
  deriving DecidableEq, Repr

/-- The outstanding request (R2). -/
structure Outstanding where
  work : PortWork
  stage : Stage
  deriving DecidableEq, Repr

/-- What a hold keeps beside its address and deadline (R17): for a READ the last read's data, for a WRITE its words. -/
inductive HoldKind where
  | read (lastData : List Word)
  | write (words : List Word)
  deriving DecidableEq, Repr

/-- A hold (R17); the deadline is a moment, in ticks. -/
structure Hold where
  kind : HoldKind
  addr : Addr
  deadline : Nat
  deriving DecidableEq, Repr

/-- The state of the Controller Port (01_requests_from_the_controller.md). -/
structure Port where
  unit : Fin 8
  mode : Mode
  virtCyl : Nat
  virtHead : Nat
  outstanding : Option Outstanding
  hold : Option Hold
  formatEnable : Bool
  deriving DecidableEq, Repr

/-! ## The timing values -/

/-- The three timing values, in ms (R173). -/
structure Timing where
  holdLimit : Nat
  batchWindow : Nat
  flushLatency : Nat
  deriving DecidableEq, Repr

/-! ## The Substitution Map and the Sector Store -/

/-- The origin of a map entry with the fields only that origin has (R40). -/
inductive Origin where
  | direct
  | vote (inferred : Bool)
  | flip (flips : Nat) (inferred : Bool)
  | bestEffort
  | diverted
  | loaded
  deriving DecidableEq, Repr

/-- A map entry (R40). -/
structure MapEntry where
  addr : Addr
  origin : Origin
  epoch : BitVec 32
  slot : Nat
  deriving DecidableEq, Repr

/-- What a store slot holds (R43). -/
structure StoredSector where
  words : List Word
  check : Word
  deriving DecidableEq, Repr

/-- The Substitution Map in address order (R40) and the Sector Store by slot number (R42, R43). A slot keeps its former
words when it is freed (R42); a slot not listed has never been written. -/
structure SubstMap where
  entries : List MapEntry
  store : List (Nat × StoredSector)
  deriving DecidableEq, Repr

/-! ## The Post Queue and the Track Buffers -/

/-- A post entry (R60); the time of first arrival is a moment, in ticks. -/
structure PostEntry where
  addr : Addr
  data : List Word
  firstArrival : Nat
  failed : Nat
  inFlight : Bool
  mergedInFlight : Bool
  deriving DecidableEq, Repr

/-- The Post Queue, oldest first (R60), and whether flushing is held for Media Write Permit (R64). -/
structure PostQueue where
  entries : List PostEntry
  heldForPermit : Bool
  deriving DecidableEq, Repr

/-- A track buffer (R70): the track it holds, and its GOOD sectors by number; a sector not listed is invalid. -/
structure TrackBuffer where
  track : Option Track
  good : List (Nat × List Word)
  deriving DecidableEq, Repr

/-- The four track buffers by number, and the last-use order, most recently used first (R70). -/
structure Buffers where
  slots : List TrackBuffer
  order : List Nat
  deriving DecidableEq, Repr

/-! ## The Drive Sequencer -/

/-- The drive condition: READY, or NOT_READY with its cause (R77). -/
inductive DriveCond where
  | ready
  | off
  | fault
  deriving DecidableEq, Repr

/-- The activity of the sequencer (R79). POSITIONING carries whether a recalibrate or a seek is awaited and the end of the
positioning limit (R83); CLEARING carries the end of the N-tick wait (R98). -/
inductive Activity where
  | idle
  | positioning (recalibrating : Bool) (deadline : Nat)
  | settling
  | reading
  | writing
  | verifying
  | clearing (deadline : Nat)
  deriving DecidableEq, Repr

/-- Where the drive work of a FORMAT stands (R94): it waits for the index that begins its writing revolution, it writes, or
it verifies. -/
inductive FormatPhase where
  | awaitIndex
  | writing
  | verifying
  deriving DecidableEq, Repr

/-- The drive work of a request or a grant (R82). A `read` may become a capture when it is granted (R12, R71). A `capture`
knows the sector it was made for, the buffer it fills (none once that buffer was emptied, R76) and the sectors decoded in
its revolution. A `flush` knows the words of the write it has begun (R67) and whether its entry was dropped (R68). A
`recovery` pass knows the step's values and the pending set as they were at the grant (R109, R124). -/
inductive Work where
  | read (addr : Addr) (prefetch : Bool)
  | capture (track : Track) (want : Nat) (buffer : Option Nat) (decoded : List Nat)
  | driveSector (addr : Addr)
  | seek (track : Track)
  | recalibrate
  | write (addr : Addr) (words : List Word)
  | format (track : Track) (phase : FormatPhase)
  | flush (addr : Addr) (writing : Option (List Word)) (dropped : Bool)
  | recovery (track : Track) (step : LadderStep) (firstPass : Bool) (sectors : List Nat)
  deriving DecidableEq, Repr

/-- The two owners of CONTROLLER requests (R80). -/
inductive Client where
  | port
  | commandInterface
  deriving DecidableEq, Repr

/-- A standing CONTROLLER request (R80). -/
structure ControllerRequest where
  client : Client
  work : Work
  deriving DecidableEq, Repr

/-- The running grant (R82): its work, whether its positioning allowance is used (R84), the read conditions it was given
(R85, R87), whether a settle revolution was spent and the offset clamped (R92), whether it was aborted while a seek or
recalibrate was in progress (R100), and the sectors of a recovery pass that have left their job's pending set since the grant,
whose outcomes are passed over even where they have joined it again (R118, R124, R128). -/
structure Grant where
  work : Work
  allowanceUsed : Bool
  code : Nat
  strobe : Int
  threshold : Nat
  settleSpent : Bool
  clamped : Bool
  aborted : Bool
  passedOver : List Nat
  deriving DecidableEq, Repr

/-- The Drive Sequencer's record (R77 to R80). -/
structure Drive where
  cond : DriveCond
  physCyl : Option Nat
  physHead : Nat
  offsetCode : Nat
  settled : Bool
  strobe : Int
  threshold : Nat
  trim : Int
  activity : Activity
  grant : Option Grant
  requests : List ControllerRequest
  recoveryRequest : Bool
  deriving DecidableEq, Repr

/-- The Revolution Timer and the speed check (R95, R96, R97). `counting` is no until the first index pulse after power-on
or a rise of ready; `watching` is yes from an index pulse until a loss is taken. -/
structure RevTimer where
  count : Nat
  counting : Bool
  lastPeriod : Nat
  speedFault : Bool
  outside : Nat
  inside : Nat
  watching : Bool
  deriving DecidableEq, Repr

/-- What the writing revolution of a FORMAT writes in one sector window (R89, R94): the three header words, the data words and
their check word. -/
structure FormattedSector where
  header : List Word
  words : List Word
  check : Word
  deriving DecidableEq, Repr

/-- What the part commands the drive to do, in the order commanded: seek, recalibrate, fault clear, a data field written
with its check word, the writing revolution of a FORMAT with what it writes in each window, in the order of the windows. -/
inductive DriveAction where
  | seek (cyl : Nat)
  | recalibrate
  | faultClear
  | writeSector (addr : Addr) (words : List Word) (check : Word)
  | formatTrack (track : Track) (sectors : List FormattedSector)
  deriving DecidableEq, Repr

/-! ## The Recovery Engine -/

/-- The origin of a track job (R114). -/
inductive JobOrigin where
  | commanded
  | automatic
  deriving DecidableEq, Repr

/-- The outcome of a decided sector with the fields only that outcome has (R114, R179). -/
inductive SectorOutcome where
  | direct
  | vote (inferred : Bool)
  | flip (flips : Nat) (inferred : Bool)
  | unresolved
  | kept
  | notStored
  | superseded
  | alreadyHeld
  deriving DecidableEq, Repr

/-- An entry of an outcome list (R114). -/
structure OutcomeEntry where
  sector : Nat
  outcome : SectorOutcome
  step : Nat
  deriving DecidableEq, Repr

/-- A track job (R114). Its state (QUEUED, ACTIVE, PARKED, ENDING) is its place in the Recovery Queue. -/
structure Job where
  track : Track
  ladder : Nat
  origin : JobOrigin
  urgent : Bool
  keepBest : Bool
  epoch : BitVec 32
  pending : List Nat
  outcomes : List OutcomeEntry
  step : Nat
  passesDone : Nat
  passes : Nat
  settles : Nat
  misSeeks : Nat
  clamped : Bool
  recalFirst : Bool
  bank : Option Nat
  reservation : Bool
  deriving DecidableEq, Repr

/-- One bit position of an accumulator: its score and its last value (R136). -/
structure BitVote where
  score : Int
  last : Option Bool
  deriving DecidableEq, Repr

/-- A vote accumulator (R136). Positions not listed in `votes` are empty: score 0, last value none. -/
structure Accumulator where
  votes : List BitVote
  count : Nat
  inferred : Bool
  deriving DecidableEq, Repr

/-- The empty accumulator (R136). -/
def Accumulator.empty : Accumulator := { votes := [], count := 0, inferred := false }

/-- The Recovery Queue (R113, R134), the batch window's deadline (R119), the suspend flag and the hold reasons (R115,
R116), and the two accumulator banks by sector number (R136); a sector not listed in a bank has the empty accumulator. -/
structure Engine where
  active : Option Job
  parked : Option Job
  ending : Option Job
  queued : List Job
  window : Option Nat
  suspended : Bool
  noPack : Bool
  speed : Bool
  transparent : Bool
  resultsFull : Bool
  banks : List (List (Nat × Accumulator))
  deriving DecidableEq, Repr

/-- How a job ended (R129). -/
inductive Ending where
  | completed
  | seekFailed
  | cancelled
  | abandoned
  deriving DecidableEq, Repr

/-- A result record (R130). -/
structure ResultRecord where
  epoch : BitVec 32
  track : Track
  origin : JobOrigin
  ending : Ending
  passes : Nat
  settles : Nat
  misSeeks : Nat
  clamped : Bool
  outcomes : List OutcomeEntry
  deriving DecidableEq, Repr

/-! ## The Pack Monitor -/

/-- The pack states (R151). -/
inductive PackState where
  | empty
  | spinningUp
  | loaded
  | unloadPending
  | unloading
  deriving DecidableEq, Repr

/-- The Unload Guards (R151, R155). -/
inductive UnloadGuard where
  | auto
  | waitEngine
  | waitPermit
  deriving DecidableEq, Repr

/-- The Pack Monitor (R151); the time of first unload request is a moment, in ticks. -/
structure Pack where
  state : PackState
  spinUp : Nat
  epoch : BitVec 32
  unloadGuard : UnloadGuard
  firstRequest : Option Nat
  permitGiven : Bool
  unloadRelease : Bool
  deriving DecidableEq, Repr

/-! ## The Command Interface -/

/-- The result codes (R165), with none for the 0 of power-on. -/
inductive ResultCode where
  | none
  | ok
  | clamped
  | confirmRequired
  | sequenceLost
  | badCommand
  | badParameter
  | overlap
  | notIdle
  | full
  | notFound
  | noPack
  deriving DecidableEq, Repr

/-- The command-interface state with its pending record (R166, R51). -/
inductive Sequence where
  | ready
  | awaitConfirm (code : Word)
  | awaitData (addr : Addr)
  deriving DecidableEq, Repr

/-- The kinds of reply (R179). -/
inductive ReplyKind where
  | result
  | mapEntry
  | storeData
  | mapList
  | region
  | ladder
  | driveSector
  deriving DecidableEq, Repr

/-- A reply (R169). `driveRead` is present while a READ DRIVE SECTOR is unfinished, and says whether its request has been
granted (R172). -/
structure Reply where
  kind : ReplyKind
  result : ResultCode
  ready : Bool
  contents : List Word
  parts : Nat
  pointer : Nat
  driveRead : Option Bool
  deriving DecidableEq, Repr

/-- The Command Interface (10_the_command_sector.md). The response selector is REPLY exactly while a reply is held
(R168). -/
structure CommandInterface where
  controlAddr : Addr
  sequence : Sequence
  reply : Option Reply
  toggle : Bool
  lastCommand : Word
  lastResult : ResultCode
  deriving DecidableEq, Repr

/-! ## The lines and the whole state -/

/-- The levels of the input lines (log 6): drive ready, drive fault, drive write-protect, Media Write Permit. -/
structure Lines where
  ready : Bool
  fault : Bool
  writeProtect : Bool
  permit : Bool
  deriving DecidableEq, Repr

/-- The state of the part. `now` (log 1), `completions` and `driveLog` (log 8) and `pending` are the model's own. -/
structure State where
  now : Nat
  geom : Geometry
  lines : Lines
  port : Port
  timing : Timing
  regions : List (Option Region)
  ladders : List (List LadderStep)
  map : SubstMap
  posts : PostQueue
  buffers : Buffers
  drive : Drive
  timer : RevTimer
  engine : Engine
  results : List ResultRecord
  events : BitVec 10
  pack : Pack
  ci : CommandInterface
  completions : List Completion
  driveLog : List DriveAction
  pending : List Instr
  deriving DecidableEq, Repr

/-- The faults of the part: it has none that stop it (INVENTORY.md, Faults). -/
inductive Fault where
  /-- Raised by no meaning: the spec gives the part no stop, so this reason never appears in a run. Safe. -/
  | never
  deriving DecidableEq, Repr

/-- The refusals of the model. -/
inductive Refusal where
  /-- Raised by an arm of `exec` whose row has no meaning yet; no arm raises it in this model. Safe. -/
  | notModelled (mnemonic : String)
  deriving DecidableEq, Repr

/-- The state right after power-on with every strap open (unit 0, profile A, INTERPOSE, R177) and every input line
deasserted (log 10): each block at its power-on values (R3, R24, R40, R42, R60, R70, R77, R78, R79, R95, R96, R101, R103,
R113, R115, R136, R151, R162, R166, R168, R171, R173, R174, R176). -/
def State.reset : State :=
  { now := 0
    geom := profileGeometry .a
    lines := { ready := false, fault := false, writeProtect := false, permit := false }
    port := { unit := 0, mode := .interpose, virtCyl := 0, virtHead := 0, outstanding := none, hold := none,
              formatEnable := false }
    timing := { holdLimit := 400, batchWindow := 100, flushLatency := 200 }
    regions := List.replicate 16 none
    ladders := builtinLadder :: List.replicate 7 []
    map := { entries := [], store := [] }
    posts := { entries := [], heldForPermit := false }
    buffers := { slots := List.replicate 4 { track := none, good := [] }, order := [0, 1, 2, 3] }
    drive := { cond := .off, physCyl := none, physHead := 0, offsetCode := 8192, settled := false, strobe := 0,
               threshold := 8, trim := 0, activity := .idle, grant := none, requests := [], recoveryRequest := false }
    timer := { count := 0, counting := false, lastPeriod := 0, speedFault := false, outside := 0, inside := 0,
               watching := false }
    engine := { active := none, parked := none, ending := none, queued := [], window := none, suspended := false,
                noPack := true, speed := false, transparent := false, resultsFull := false, banks := [[], []] }
    results := []
    events := 0
    pack := { state := .empty, spinUp := 0, epoch := 0, unloadGuard := .waitPermit, firstRequest := none,
              permitGiven := false, unloadRelease := false }
    ci := { controlAddr := { cyl := 209, head := 1, sector := 15 }, sequence := .ready, reply := none, toggle := false,
            lastCommand := 0, lastResult := .none }
    completions := []
    driveLog := []
    pending := [] }

end Sys2Proof.Machine
end

