-- ==== Sys2Proof/Machine/Channel.lean ====
section
/-! DEFINITION. The check word (R90), the Read Channel (R91), the pass outcome of a sector (R92), the Offset DAC code (R85)
and the speed band (R95). -/

namespace Sys2Proof.Machine

/-! ## Bits and words -/

/-- The bits of a word, most significant first (R90, R137). -/
def wordBits (w : Word) : List Bool :=
  [w.getLsbD 15, w.getLsbD 14, w.getLsbD 13, w.getLsbD 12, w.getLsbD 11, w.getLsbD 10, w.getLsbD 9, w.getLsbD 8,
   w.getLsbD 7, w.getLsbD 6, w.getLsbD 5, w.getLsbD 4, w.getLsbD 3, w.getLsbD 2, w.getLsbD 1, w.getLsbD 0]

/-- The number whose binary digits, most significant first, are the bits, after the digits already read. -/
def bitsToNat : Nat → List Bool → Nat
  | acc, [] => acc
  | acc, b :: rest => bitsToNat (2 * acc + b.toNat) rest

/-- The first `n` words of a list of bits, most significant bit first (R137); bits beyond the list are 0. -/
def bitsToWords : Nat → List Bool → List Word
  | 0, _ => []
  | n + 1, bits =>
      let bs := bits.take 16
      word (bitsToNat 0 bs * 2 ^ (16 - bs.length)) :: bitsToWords n (bits.drop 16)

/-- Exactly `n` words: cut at `n`, filled with zeros. -/
def fitWords : Nat → List Word → List Word
  | 0, _ => []
  | n + 1, [] => 0 :: fitWords n []
  | n + 1, w :: ws => w :: fitWords n ws

/-! ## The check word -/

/-- One bit into the CRC-16 register (R90): the register shifts left, and the polynomial's low sixteen terms go in when the
bit shifted out differs from the data bit. -/
def crcBit (reg : Word) (b : Bool) : Word :=
  if reg.getLsbD 15 == b then reg <<< 1 else (reg <<< 1) ^^^ (0o010041 : Word)

/-- One word into the register, most significant bit first (R90). -/
def crcWord (reg w : Word) : Word := (wordBits w).foldl crcBit reg

/-- The CRC-16 of a list of words, from a register of all ones (R90). -/
def crc (ws : List Word) : Word := ws.foldl crcWord 0o177777

/-! ## The Read Channel -/

/-- The quality of a decoded bit (R91). -/
inductive Quality where
  | strong
  | weak
  | erased
  deriving DecidableEq, Repr

/-- One bit cell decoded against the threshold (R91). -/
def decodeCell (threshold : Nat) : BitCell → Bool × Quality
  | .outOfLock => (false, .erased)
  | .amplitude a =>
      if threshold + 2 ≤ a.val then (true, .strong)
      else if threshold ≤ a.val then (true, .weak)
      else if threshold < a.val + 2 then (false, .weak)
      else (false, .strong)

/-- Exactly `n` decoded bits: cells the signal does not hold are read with the separator out of lock (log 7). -/
def decodeCells (threshold : Nat) : Nat → List BitCell → List (Bool × Quality)
  | 0, _ => []
  | n + 1, [] => decodeCell threshold .outOfLock :: decodeCells threshold n []
  | n + 1, c :: cs => decodeCell threshold c :: decodeCells threshold n cs

/-! ## Pass outcomes -/

/-- The kinds of pass outcome (R92). -/
inductive OutcomeKind where
  | good
  | dataCheck
  | wrongAddress
  | headerCheck
  | noData
  deriving DecidableEq, Repr

/-- A pass outcome (R92): its kind, the three header words as decoded (zeros where the header sync was not found), and the
decoded bits of data field and check word with their qualities, present when the data sync was found. -/
structure PassOutcome where
  kind : OutcomeKind
  header : List Word
  bits : Option (List (Bool × Quality))
  deriving DecidableEq, Repr

/-- Header word 1 of a sector: the head in the high byte, the sector in the low byte (R89). -/
def headSectorWord (head sector : Nat) : Word := word (head * 256 + sector)

/-- The three header words as decoded (R91, R92). -/
def decodeHeader (threshold : Nat) (cells : Option (List BitCell)) : List Word :=
  match cells with
  | none => [0, 0, 0]
  | some l => bitsToWords 3 ((decodeCells threshold 48 l).map (·.1))

/-- A header is valid when its sync is found and its check word equals the CRC-16 of words 0 and 1 (R89). -/
def headerValid (threshold : Nat) (cells : Option (List BitCell)) : Bool :=
  let h := decodeHeader threshold cells
  cells.isSome && h.getD 2 0 == crc (h.take 2)

/-- A header is matching when it is valid and gives the address the operation expects (R89). -/
def headerMatching (threshold : Nat) (a : Addr) (cells : Option (List BitCell)) : Bool :=
  let h := decodeHeader threshold cells
  headerValid threshold cells && h.getD 0 0 == word a.cyl && h.getD 1 0 == headSectorWord a.head a.sector

/-- A valid header of another cylinder than the target (R84, R93). -/
def headerOfOtherCylinder (threshold : Nat) (cyl : Nat) (cells : Option (List BitCell)) : Bool :=
  headerValid threshold cells && (decodeHeader threshold cells).getD 0 0 != word cyl

/-- The words of a data field: the bits as decoded, so that an ERASED bit is 0 (R10, R91). -/
def bitsWords (n : Nat) (bits : List (Bool × Quality)) : List Word := bitsToWords n (bits.map (·.1))

/-- A data field of W words with its check word passes when the CRC-16 of the data words equals the check word (R90). -/
def dataPasses (w : Nat) (ws : List Word) : Bool := crc (ws.take w) == ws.getD w 0

/-- The pass outcome of one sector window for an expected address, read at a threshold, in a geometry of W words (R92). -/
def passOutcome (threshold w : Nat) (a : Addr) (g : SectorSignal) : PassOutcome :=
  let bits := g.data.map (decodeCells threshold (16 * w + 16))
  let kind :=
    if headerMatching threshold a g.header then
      match bits with
      | some b => if dataPasses w (bitsWords (w + 1) b) then .good else .dataCheck
      | none => .dataCheck
    else if headerValid threshold g.header then .wrongAddress
    else if g.header.isSome || g.data.isSome then .headerCheck
    else .noData
  { kind := kind, header := decodeHeader threshold g.header, bits := bits }

/-- The outcome of a window in which neither sync was found (R92). -/
def PassOutcome.nothing : PassOutcome := { kind := .noData, header := [0, 0, 0], bits := none }

/-- The W data words and the data check word as decoded, zero where the data sync was not found (R172). -/
def PassOutcome.field (o : PassOutcome) (w : Nat) : List Word :=
  match o.bits with
  | some b => bitsWords (w + 1) b
  | none => fitWords (w + 1) []

/-- The answer data of a sector: its W data words as decoded, or W zero words when no data sync was found (R10). -/
def PassOutcome.answerData (o : PassOutcome) (w : Nat) : List Word := (o.field w).take w

/-- A WRONG_ADDRESS outcome whose header gives another cylinder (R10, R84, R126). -/
def PassOutcome.otherCylinder (o : PassOutcome) (cyl : Nat) : Bool :=
  o.kind == .wrongAddress && o.header.getD 0 0 != word cyl

/-! ## The Offset DAC and the speed band -/

/-- A number brought to the nearest end of a range (00_scope.md, Conventions: clamped). -/
def clampInt (low high x : Int) : Int := if x < low then low else if high < x then high else x

/-- A number brought to the nearest end of a range. -/
def clampNat (low high x : Nat) : Nat := if x < low then low else if high < x then high else x

/-- Steps 1 and 2 of the code working, before the clamp (R85). -/
def rawCode (trim headOffset : Int) : Int := (headOffset * 8192).tdiv 50 + Config.centreCode + trim

/-- The Offset DAC code of a head offset under a trim (R85). -/
def offsetCode (trim headOffset : Int) : Nat := (clampInt 0 Config.maxCode (rawCode trim headOffset)).toNat

/-- Whether the clamp of step 3 changes the code (R85). -/
def offsetClamped (trim headOffset : Int) : Bool :=
  clampInt 0 Config.maxCode (rawCode trim headOffset) != rawCode trim headOffset

/-- The centre code (R85). -/
def centreCode (trim : Int) : Nat := offsetCode trim 0

/-- The nominal period N in ticks (R95). -/
def nominalTicks (g : Geometry) : Nat := g.periodMs * Config.ticksPerMs

/-- Whether an index period lies in the speed band (R95). -/
def inBand (g : Geometry) (period : Nat) : Bool :=
  let n := nominalTicks g
  n - 3 * n / 100 ≤ period && period ≤ n + 3 * n / 100

end Sys2Proof.Machine
end

