-- ==== Sys2Proof/Machine/Flags.lean ====
section
/-! DEFINITION. The flags of the part: the event set (R176), the hold reasons and the engine state shown (R115, R116), the
pack states in which data requests are served (R6). -/

namespace Sys2Proof.Machine

/-- The ten kinds of event (R176). -/
inductive Event where
  | postDiscard
  | storeFull
  | resultsFull
  | speedFault
  | indexLost
  | packLost
  | driveFault
  | unloadRequested
  | sequenceLost
  | holdExpired
  deriving DecidableEq, Repr

/-- The bit of an event in the event word (R179). -/
def Event.bit : Event → Nat
  | .postDiscard => 0
  | .storeFull => 1
  | .resultsFull => 2
  | .speedFault => 3
  | .indexLost => 4
  | .packLost => 5
  | .driveFault => 6
  | .unloadRequested => 7
  | .sequenceLost => 8
  | .holdExpired => 9

/-- The event word with one event set (R176). -/
def withEvent (e : Event) (events : BitVec 10) : BitVec 10 := events ||| BitVec.ofNat 10 (2 ^ e.bit)

/-- Whether an event is set. -/
def hasEvent (e : Event) (events : BitVec 10) : Bool := events.getLsbD e.bit

/-- The event word with every event of the mask cleared; mask bits that name no event are ignored (R176). -/
def clearEvents (mask : Word) (events : BitVec 10) : BitVec 10 := events &&& ~~~(mask.setWidth 10)

/-- Setting an event of the state (R176). -/
def State.setEvent (e : Event) (s : State) : State := { s with events := withEvent e s.events }

/-- A pack is LOADED or UNLOAD_PENDING: data requests are served (R6). -/
def packServes (p : PackState) : Bool := p == .loaded || p == .unloadPending

/-- The jobs of the queue that are not in the queued portion: ACTIVE, PARKED, ENDING (R113). -/
def Engine.placed (e : Engine) : List Job := e.active.toList ++ e.parked.toList ++ e.ending.toList

/-- Every job of the Recovery Queue (R113, R134). -/
def Engine.jobs (e : Engine) : List Job := e.placed ++ e.queued

/-- The jobs that are QUEUED, ACTIVE or PARKED: every job but one left ENDING (R106, R113, R131). -/
def Engine.liveJobs (e : Engine) : List Job := e.active.toList ++ e.parked.toList ++ e.queued

/-- The queue's length (R113). -/
def Engine.length (e : Engine) : Nat := e.jobs.length

/-- The reservations: the jobs that hold one (R122, R130). -/
def Engine.reservations (e : Engine) : Nat := (e.placed.filter (·.reservation)).length

/-- The run phase, by its definition in R115. -/
inductive RunPhase where
  | idle
  | collecting
  | running
  deriving DecidableEq, Repr

/-- The run phase: COLLECTING while a window is open, RUNNING while the queue holds jobs and none is, IDLE otherwise
(R115). -/
def Engine.runPhase (e : Engine) : RunPhase :=
  if e.window.isSome then .collecting else if e.length = 0 then .idle else .running

/-- Any hold reason present (R115). -/
def Engine.held (e : Engine) : Bool := e.noPack || e.speed || e.transparent || e.resultsFull

/-- The engine is stopped while any hold reason is present or the suspend flag is set (R115). -/
def Engine.stopped (e : Engine) : Bool := e.held || e.suspended

/-- Stopped by anything but RESULTS_FULL: what counts for the activation test (R122). -/
def Engine.stoppedForActivation (e : Engine) : Bool := e.noPack || e.speed || e.transparent || e.suspended

/-- The engine state shown (R115). -/
inductive EngineShown where
  | idle
  | collecting
  | running
  | suspended
  | held
  deriving DecidableEq, Repr

/-- The engine state shown in the status record (R115). -/
def Engine.shown (e : Engine) : EngineShown :=
  if e.held then .held
  else if e.suspended then .suspended
  else match e.runPhase with
    | .idle => .idle
    | .collecting => .collecting
    | .running => .running

/-- The state in which a status read inverts the activity toggle: COLLECTING, or RUNNING with a job ACTIVE or PARKED
(R171). -/
def Engine.atWork (e : Engine) : Bool :=
  e.shown == .collecting || (e.shown == .running && (e.active.isSome || e.parked.isSome))

/-- A reservation can be made while records held plus reservations is below 64 (R122). -/
def State.canReserve (s : State) : Bool := s.results.length + s.engine.reservations < Config.resultPlaces

end Sys2Proof.Machine
end

