-- ==== Sys2Proof/Machine/Formats.lean ====
section
/-! DEFINITION. The word values and layouts software sees (R179): enumerated values, entries, records and reply parts. -/

namespace Sys2Proof.Machine

/-! ## Word values (R179), in octal as the manual gives them -/

def Mode.toWord : Mode → Word
  | .interpose => 0o0
  | .transparent => 0o1

def WritePolicy.toWord : WritePolicy → Word
  | .pass => 0o0
  | .divert => 0o1
  | .refuse => 0o2

def ReadPolicy.toWord : ReadPolicy → Word
  | .pass => 0o0
  | .recover => 0o1

def VoteMode.toWord : VoteMode → Word
  | .accumulate => 0o0
  | .reset => 0o1

def PackState.toWord : PackState → Word
  | .empty => 0o0
  | .spinningUp => 0o1
  | .loaded => 0o2
  | .unloadPending => 0o3
  | .unloading => 0o4

def EngineShown.toWord : EngineShown → Word
  | .idle => 0o0
  | .collecting => 0o1
  | .running => 0o2
  | .suspended => 0o3
  | .held => 0o4

def Sequence.toWord : Sequence → Word
  | .ready => 0o0
  | .awaitConfirm _ => 0o1
  | .awaitData _ => 0o2

def DriveCond.toWord : DriveCond → Word
  | .ready => 0o0
  | .off => 0o1
  | .fault => 0o2

def Origin.toWord : Origin → Word
  | .direct => 0o1
  | .vote _ => 0o2
  | .flip _ _ => 0o3
  | .bestEffort => 0o4
  | .diverted => 0o5
  | .loaded => 0o6

def JobOrigin.toWord : JobOrigin → Word
  | .commanded => 0o1
  | .automatic => 0o2

def SectorOutcome.toNat : SectorOutcome → Nat
  | .direct => 0o1
  | .vote _ => 0o2
  | .flip _ _ => 0o3
  | .unresolved => 0o4
  | .kept => 0o5
  | .notStored => 0o6
  | .superseded => 0o7
  | .alreadyHeld => 0o10

def Ending.toWord : Ending → Word
  | .completed => 0o1
  | .seekFailed => 0o2
  | .cancelled => 0o3
  | .abandoned => 0o4

def OutcomeKind.toWord : OutcomeKind → Word
  | .good => 0o1
  | .dataCheck => 0o2
  | .headerCheck => 0o3
  | .wrongAddress => 0o4
  | .noData => 0o5

/-- READ DRIVE SECTOR completion SEEK_ERROR. -/
def seekErrorWord : Word := 0o6

/-- READ DRIVE SECTOR completion NOT_READY. -/
def notReadyWord : Word := 0o7

def ReplyKind.toWord : ReplyKind → Word
  | .result => 0o2
  | .mapEntry => 0o3
  | .storeData => 0o4
  | .mapList => 0o5
  | .region => 0o6
  | .ladder => 0o7
  | .driveSector => 0o10

/-- Reply kind STATUS, word 0 of the status record. -/
def statusKindWord : Word := 0o1

def ResultCode.toWord : ResultCode → Word
  | .none => 0o0
  | .ok => 0o1
  | .clamped => 0o2
  | .confirmRequired => 0o3
  | .sequenceLost => 0o4
  | .badCommand => 0o5
  | .badParameter => 0o6
  | .overlap => 0o7
  | .notIdle => 0o10
  | .full => 0o11
  | .notFound => 0o12
  | .noPack => 0o13

/-! ## Fields -/

/-- The two words of an epoch, high word first (R153, R179). -/
def epochWords (e : BitVec 32) : List Word := [e.extractLsb' 16 16, e.extractLsb' 0 16]

/-- Words that hold a number in each bit given, least significant first (R179). -/
def bitsWord : List Bool → Nat
  | [] => 0
  | b :: rest => b.toNat + 2 * bitsWord rest

/-- The flips of an origin, 0 where absent (R56). -/
def Origin.flips : Origin → Nat
  | .flip k _ => k
  | .direct | .vote _ | .bestEffort | .diverted | .loaded => 0

/-- The header-inferred flag of an origin, no where absent (R56). -/
def Origin.inferred : Origin → Bool
  | .vote h | .flip _ h => h
  | .direct | .bestEffort | .diverted | .loaded => false

/-- The flips of an outcome, 0 where absent (R150). -/
def SectorOutcome.flips : SectorOutcome → Nat
  | .flip k _ => k
  | .direct | .vote _ | .unresolved | .kept | .notStored | .superseded | .alreadyHeld => 0

/-- The header-inferred flag of an outcome, no where absent (R139, R150). -/
def SectorOutcome.inferred : SectorOutcome → Bool
  | .vote h | .flip _ h => h
  | .direct | .unresolved | .kept | .notStored | .superseded | .alreadyHeld => false

/-- An entry of a result record in its two words (R179). -/
def OutcomeEntry.toWords (e : OutcomeEntry) : List Word :=
  [ word (e.sector * 256 + e.outcome.toNat),
    word (e.step * 256 + e.outcome.flips * 16 + e.outcome.inferred.toNat) ]

/-- The contents of a RESULT reply (R175, R179). -/
def ResultRecord.contents (r : ResultRecord) (stillHeld : Nat) : List Word :=
  word stillHeld :: epochWords r.epoch ++
    [word r.track.cyl, word r.track.head, JobOrigin.toWord r.origin, Ending.toWord r.ending, word r.passes, word r.settles,
     word r.misSeeks, flagWord r.clamped, word r.outcomes.length] ++ r.outcomes.flatMap OutcomeEntry.toWords

/-- A ladder step in its eight words (R179). -/
def stepWords (t : LadderStep) : List Word :=
  [signedWord t.strobe, signedWord t.headOffset, word t.threshold, word t.passes, VoteMode.toWord t.voteMode,
   word t.flipLimit, word t.flipCeiling, flagWord t.inference]

/-- The contents of a REGION reply (R29, R179). -/
def regionContents (slot : Nat) (entry : Option Region) : List Word :=
  let r := entry.getD defaultRegion
  [word slot, flagWord entry.isSome, word r.low, word r.high, WritePolicy.toWord r.write, ReadPolicy.toWord r.read,
   flagWord r.prefetch, word r.ladder, flagWord r.keepBest]

/-- The contents of a MAP_ENTRY reply (R56, R179). -/
def mapEntryContents (a : Addr) (entry : Option MapEntry) : List Word :=
  [word a.cyl, word a.head, word a.sector] ++
    match entry with
    | some e =>
        [1, Origin.toWord e.origin, word e.origin.flips, flagWord e.origin.inferred] ++ epochWords e.epoch ++ [word e.slot]
    | none => [0, 0, 0, 0, 0, 0, 0]

/-- An item of a MAP_LIST reply (R58). -/
def mapListItem (e : MapEntry) : List Word :=
  [word e.addr.cyl, headSectorWord e.addr.head e.addr.sector, Origin.toWord e.origin]

/-- The contents of a DRIVE_SECTOR reply (R172). -/
def driveSectorContents (a : Addr) (completion : Word) (header field : List Word) : List Word :=
  [word a.cyl, word a.head, word a.sector, completion] ++ header ++ field

/-! ## Replies and the status record -/

/-- The parts a reply of `c` contents words has (R169). -/
def partsFor (w c : Nat) : Nat := if c ≤ w - 5 then 1 else 2

/-- A reply formed with its contents, ready from that moment (R169). -/
def formReply (kind : ReplyKind) (result : ResultCode) (w : Nat) (contents : List Word) : Reply :=
  { kind := kind, result := result, ready := true, contents := contents, parts := partsFor w contents.length,
    pointer := 0, driveRead := none }

/-- Part `i` of a ready reply: the header and its W−5 contents words, zero-filled (R169). -/
def Reply.part (r : Reply) (w i : Nat) : List Word :=
  [ReplyKind.toWord r.kind, ResultCode.toWord r.result, 1, word i, word r.parts] ++
    fitWords (w - 5) (r.contents.drop (i * (w - 5)))

/-- What a READ returns while the ready flag is 0 (R169). -/
def Reply.notReadyPart (r : Reply) (w : Nat) : List Word :=
  [ReplyKind.toWord r.kind, ResultCode.toWord .ok, 0, 0, word r.parts] ++ fitWords (w - 5) []

/-- The pending command code of the status record: 0 when READY, the pending code in AWAIT_CONFIRM, the LOAD SECTOR code in
AWAIT_DATA (R170). -/
def Sequence.pendingCode : Sequence → Word
  | .ready => 0
  | .awaitConfirm code => code
  | .awaitData _ => Code.loadSector

/-- The status record, words 0 to 22, zero-filled (R170, R179). -/
def State.statusRecord (s : State) : List Word :=
  fitWords s.geom.words
    ([statusKindWord, Mode.toWord s.port.mode, PackState.toWord s.pack.state] ++ epochWords s.pack.epoch ++
      [EngineShown.toWord s.engine.shown,
       word (bitsWord [s.engine.noPack, s.engine.speed, s.engine.transparent, s.engine.resultsFull]),
       word (bitsWord [s.engine.suspended, s.engine.window.isSome, s.ci.toggle]),
       word s.engine.length, word s.results.length, word s.engine.reservations, word s.posts.entries.length,
       word s.map.entries.length, word (Config.storeSlots - s.map.entries.length), s.events.setWidth 16,
       s.ci.lastCommand, ResultCode.toWord s.ci.lastResult, Sequence.toWord s.ci.sequence,
       Sequence.pendingCode s.ci.sequence, DriveCond.toWord s.drive.cond, flagWord s.timer.speedFault,
       word s.timer.lastPeriod, signedWord s.drive.trim])

end Sys2Proof.Machine
end

