-- ==== Sys2Proof/Machine/Operands.lean ====
section
/-! DEFINITION. The parameters of commands (R163, R179): the values a parameter word may name, addresses within the
geometry, sector sets, the words of a command sector. -/

namespace Sys2Proof.Machine

/-- A flag parameter: 1 yes, 0 no, any other word names no allowed value (R179). -/
def flagOf (w : Word) : Option Bool := if w = 0 then some false else if w = 1 then some true else none

def modeOf (w : Word) : Option Mode :=
  if w = 0 then some .interpose else if w = 1 then some .transparent else none

def writePolicyOf (w : Word) : Option WritePolicy :=
  if w = 0 then some .pass else if w = 1 then some .divert else if w = 2 then some .refuse else none

def readPolicyOf (w : Word) : Option ReadPolicy :=
  if w = 0 then some .pass else if w = 1 then some .recover else none

def voteModeOf (w : Word) : Option VoteMode :=
  if w = 0 then some .accumulate else if w = 1 then some .reset else none

def guardOf (w : Word) : Option UnloadGuard :=
  if w = 0 then some .auto else if w = 1 then some .waitEngine else if w = 2 then some .waitPermit else none

/-- An address within the geometry in force. -/
def Addr.within (a : Addr) (g : Geometry) : Bool := a.cyl < g.cylinders && a.head < g.heads && a.sector < g.sectors

/-- A track within the geometry in force. -/
def Track.within (t : Track) (g : Geometry) : Bool := t.cyl < g.cylinders && t.head < g.heads

/-- The track of an address. -/
def Addr.track (a : Addr) : Track := { cyl := a.cyl, head := a.head }

/-- A sector of a track. -/
def Track.at (t : Track) (n : Nat) : Addr := { cyl := t.cyl, head := t.head, sector := n }

/-- The address three parameters name: cylinder, head, sector, within the geometry; none when a parameter is missing or the
address lies outside (R51, R53, R56, R58, R162, R172). Parameters beyond the third are not examined. -/
def addrOf (g : Geometry) : List Word → Option Addr
  | c :: h :: n :: _ =>
      let a : Addr := { cyl := c.toNat, head := h.toNat, sector := n.toNat }
      if a.within g then some a else none
  | _ => none

/-- The sectors a sector set names, ascending (R179). -/
def sectorSet (first second : Word) : List Nat :=
  (List.range 32).filter (fun n => if n < 16 then first.getLsbD n else second.getLsbD (n - 16))

/-- The sectors RECOVER TRACK names: an empty set names every sector of the track; none when a sector of S or more is named
(R117). -/
def namedSectors (g : Geometry) (first second : Word) : Option (List Nat) :=
  let ns := sectorSet first second
  if ns.isEmpty then some (List.range g.sectors)
  else if ns.all (fun n => n < g.sectors) then some ns
  else none

/-- The region entry eight parameters name, with its slot, or none where R26 refuses. -/
def regionOf (g : Geometry) : List Word → Option (Nat × Region)
  | slot :: low :: high :: wp :: rp :: pf :: lad :: kb :: _ =>
      match writePolicyOf wp, readPolicyOf rp, flagOf pf, flagOf kb with
      | some wp, some rp, some pf, some kb =>
          if slot.toNat < Config.regionSlots ∧ low.toNat ≤ high.toNat ∧ high.toNat < g.cylinders ∧
              lad.toNat < Config.ladders then
            some (slot.toNat, { low := low.toNat, high := high.toNat, write := wp, read := rp, prefetch := pf,
                                ladder := lad.toNat, keepBest := kb })
          else none
      | _, _, _, _ => none
  | _ => none

/-- The clamped step of LOAD LADDER STEP's third to tenth parameters, and whether any field was changed by the clamp (R102,
R104, R105); none where the vote mode or header inference names no allowed value. -/
def stepOf : List Word → Option (LadderStep × Bool)
  | strobe :: off :: thr :: passes :: vm :: fl :: fc :: inf :: _ =>
      match voteModeOf vm, flagOf inf with
      | some vm, some inf =>
          let t : LadderStep :=
            { strobe := clampInt (-6) 6 strobe.toInt, headOffset := clampInt (-50) 50 off.toInt,
              threshold := clampNat 0 15 thr.toNat, passes := clampNat 1 8 passes.toNat, voteMode := vm,
              flipLimit := clampNat 0 4 fl.toNat, flipCeiling := clampNat 0 127 fc.toNat, inference := inf }
          some (t, t.strobe != strobe.toInt || t.headOffset != off.toInt || t.threshold != thr.toNat ||
                   t.passes != passes.toNat || t.flipLimit != fl.toNat || t.flipCeiling != fc.toNat)
      | _, _ => none
  | _ => none

/-- The geometry five parameters name, or none where a value lies outside its limit (R178). -/
def geometryOf : List Word → Option Geometry
  | c :: h :: n :: w :: p :: _ =>
      if 1 ≤ c.toNat ∧ c.toNat ≤ 1024 ∧ 1 ≤ h.toNat ∧ h.toNat ≤ 16 ∧ 1 ≤ n.toNat ∧ n.toNat ≤ 32 ∧
          (w.toNat = 64 ∨ w.toNat = 128 ∨ w.toNat = 256) ∧ 10 ≤ p.toNat ∧ p.toNat ≤ 60 then
        some { cylinders := c.toNat, heads := h.toNat, sectors := n.toNat, words := w.toNat, periodMs := p.toNat }
      else none
  | _ => none

/-- The W words of a command sector with a code and its parameters (R163). -/
def commandSector (w : Nat) (code : Word) (params : List Word) : List Word :=
  fitWords w (Config.signature ++ [code, word params.length] ++ params)

end Sys2Proof.Machine
end

