-- ==== Sys2Proof/Machine/Voting.lean ====
section
/-! DEFINITION. The vote of one sector (08_voting_and_candidate_search.md): folding a read, the candidate, the candidate
search. -/

namespace Sys2Proof.Machine

/-- The empty value of a bit position (R136). -/
def BitVote.empty : BitVote := { score := 0, last := none }

/-- The weight of a quality (R140). -/
def Quality.weight : Quality → Int
  | .strong => 3
  | .weak => 1
  | .erased => 0

/-- One decoded bit folded into its position (R140). -/
def foldBit (v : BitVote) (b : Bool × Quality) : BitVote :=
  { score := clampInt (-127) 127 (if b.1 then v.score + b.2.weight else v.score - b.2.weight)
    last := if b.2 = .erased then v.last else some b.1 }

/-- A contributing read folded position by position (R140); positions not listed are empty. -/
def foldBits : List BitVote → List (Bool × Quality) → List BitVote
  | vs, [] => vs
  | [], b :: bs => foldBit BitVote.empty b :: foldBits [] bs
  | v :: vs, b :: bs => foldBit v b :: foldBits vs bs

/-- A contributing read folded into an accumulator (R139, R140). `inferred` says that the read was a HEADER_CHECK. -/
def Accumulator.fold (a : Accumulator) (bits : List (Bool × Quality)) (inferred : Bool) : Accumulator :=
  { votes := foldBits a.votes bits, count := min 255 (a.count + 1), inferred := a.inferred || inferred }

/-- The candidate bit of a position (R142). -/
def BitVote.candidate (v : BitVote) : Bool :=
  if 0 < v.score then true else if v.score < 0 then false else v.last.getD false

/-- The confidence of a position (R142). -/
def BitVote.confidence (v : BitVote) : Nat := v.score.natAbs

/-- The candidate's bits, one per position listed (R142); positions not listed give 0. -/
def Accumulator.candidateBits (a : Accumulator) : List Bool := a.votes.map BitVote.candidate

/-- The W data words of a sector's candidate (R142). -/
def Accumulator.candidateWords (a : Accumulator) (w : Nat) : List Word := bitsToWords w a.candidateBits

/-- A candidate, as bits, passes when its data words' CRC-16 equals its check word (R143). -/
def bitsPass (w : Nat) (bits : List Bool) : Bool := dataPasses w (bitsToWords (w + 1) bits)

/-- One eligible position placed among the positions taken so far, by ascending confidence, and after those of equal
confidence (R145). -/
def insertPosition (p : Nat × Nat) : List (Nat × Nat) → List (Nat × Nat)
  | [] => [p]
  | q :: rest => if p.1 < q.1 then p :: q :: rest else q :: insertPosition p rest

/-- The positions taken: of the positions from index `i` on with confidence at most the ceiling, the first `limit` by
ascending confidence and then ascending position (R145). A position is a pair (confidence, index). -/
def takePositions (limit ceiling : Nat) : Nat → List BitVote → List (Nat × Nat) → List (Nat × Nat)
  | _, [], taken => taken
  | i, v :: vs, taken =>
      takePositions limit ceiling (i + 1) vs
        (if v.confidence ≤ ceiling then (insertPosition (v.confidence, i) taken).take limit else taken)

/-- Every subset of a list of positions, the empty one among them (R146). -/
def subsets : List Nat → List (List Nat)
  | [] => [[]]
  | p :: rest => subsets rest ++ (subsets rest).map (p :: ·)

/-- The bits with the listed positions inverted, the first bit being position `i` (R146). -/
def invertAt (ps : List Nat) : Nat → List Bool → List Bool
  | _, [] => []
  | i, b :: bs => (if i ∈ ps then !b else b) :: invertAt ps (i + 1) bs

/-- The non-empty subsets of the positions taken whose inversion makes the candidate pass (R145, R146). -/
def passingSubsets (w limit ceiling : Nat) (a : Accumulator) : List (List Nat) :=
  let bits := a.candidateBits
  ((subsets ((takePositions limit ceiling 0 a.votes []).map (·.2))).filter (fun ps => !ps.isEmpty)).filter
    (fun ps => bitsPass w (invertAt ps 0 bits))

/-- What a sector is resolved as, without its words (R147). -/
inductive Resolution where
  | direct
  | vote (inferred : Bool)
  | flip (flips : Nat) (inferred : Bool)
  deriving DecidableEq, Repr

/-- The evaluation of a sector after a contributing read, under the step's flip limit and ceiling (R144): none when the
sector stays pending, else the resolution with the words handed on (R147). -/
def evaluate (w limit ceiling : Nat) (a : Accumulator) : Option (Resolution × List Word) :=
  if a.count < 2 then none
  else if bitsPass w a.candidateBits then some (.vote a.inferred, a.candidateWords w)
  else if limit = 0 then none
  else
    match passingSubsets w limit ceiling a with
    | [ps] => some (.flip ps.length a.inferred, bitsToWords w (invertAt ps 0 a.candidateBits))
    | _ => none

/-- The origin of the map entry a resolution makes (R48). -/
def Resolution.mapOrigin : Resolution → Origin
  | .direct => .direct
  | .vote h => .vote h
  | .flip k h => .flip k h

/-- The outcome a stored resolution enters (R48, R147). -/
def Resolution.outcome : Resolution → SectorOutcome
  | .direct => .direct
  | .vote h => .vote h
  | .flip k h => .flip k h

end Sys2Proof.Machine
end

