-- ==== Sys2Proof/Machine/Ops.lean ====
section
/-! DEFINITION. The shared operations over the state: time, answers, the Substitution Map and Sector Store, the Region Table
lookup, the Track Buffers, the Post Queue's lookups, the lines. -/

namespace Sys2Proof.Machine

/-! ## Time (log 1, log 2) -/

/-- A duration in ms, in ticks of 10 µs (R95). -/
def msTicks (ms : Nat) : Nat := ms * Config.ticksPerMs

/-- `k` ticks pass: the clock moves on, and the Revolution Timer's count with it, saturating (R95). -/
def State.advance (k : Nat) (s : State) : State :=
  { s with now := s.now + k
           timer := { s.timer with count := min Config.tickCeiling (s.timer.count + k) } }

/-- The clock runs on to a moment, if it has not reached it (log 2). -/
def State.advanceTo (t : Nat) (s : State) : State := s.advance (t - s.now)

/-! ## Answers and outputs (R9) -/

/-- An answer goes out on the cable. -/
def State.answer (st : Status) (data : List Word) (s : State) : State :=
  { s with completions := s.completions ++ [.status st data] }

/-- The outstanding request is answered; it and its hold are cleared (R2, R17). -/
def State.finishRequest (st : Status) (data : List Word) (s : State) : State :=
  { s with completions := s.completions ++ [.status st data]
           port := { s.port with outstanding := none, hold := none } }

/-- A command to the drive. -/
def State.command (a : DriveAction) (s : State) : State := { s with driveLog := s.driveLog ++ [a] }

/-- The level of Media Write Permit as the row that is taken finds it (R33, log 6). -/
def State.setPermit (level : Bool) (s : State) : State := { s with lines := { s.lines with permit := level } }

/-- The level of the drive's write-protect line as the row that is taken finds it (R93, R94, log 6). -/
def State.setProtect (level : Bool) (s : State) : State := { s with lines := { s.lines with writeProtect := level } }

/-! ## Tables by number: lists of pairs in strictly rising order of number -/

/-- The contents under a number. -/
def tableGet {α : Type} (k : Nat) : List (Nat × α) → Option α
  | [] => none
  | p :: rest => if p.1 = k then some p.2 else tableGet k rest

/-- New contents under a number, the order kept. -/
def tablePut {α : Type} (k : Nat) (v : α) : List (Nat × α) → List (Nat × α)
  | [] => [(k, v)]
  | p :: rest =>
      if k < p.1 then (k, v) :: p :: rest else if k = p.1 then (k, v) :: rest else p :: tablePut k v rest

/-- A number taken out of the table. -/
def tableDel {α : Type} (k : Nat) : List (Nat × α) → List (Nat × α)
  | [] => []
  | p :: rest => if p.1 = k then rest else p :: tableDel k rest

/-- A table is in its one form: its numbers rise strictly. -/
def tableWf {α : Type} : List (Nat × α) → Bool
  | [] => true
  | [_] => true
  | p :: q :: rest => p.1 < q.1 && tableWf (q :: rest)

/-- A sector number put into a set kept as an ascending list without repeats. -/
def insertSector (n : Nat) : List Nat → List Nat
  | [] => [n]
  | m :: rest => if n < m then n :: m :: rest else if n = m then m :: rest else m :: insertSector n rest

/-! ## The Substitution Map and the Sector Store (R40 to R44) -/

/-- Address order: by cylinder, then head, then sector (R40). -/
def Addr.before (a b : Addr) : Bool :=
  a.cyl < b.cyl || (a.cyl == b.cyl && (a.head < b.head || (a.head == b.head && a.sector < b.sector)))

/-- An entry put into the map at its place, an entry of the same address replaced (R40). -/
def insertEntry (e : MapEntry) : List MapEntry → List MapEntry
  | [] => [e]
  | f :: rest =>
      if e.addr.before f.addr then e :: f :: rest
      else if e.addr = f.addr then e :: rest
      else f :: insertEntry e rest

/-- The entries are in strictly rising address order, so no address has two (R40). -/
def entriesWf : List MapEntry → Bool
  | [] => true
  | [_] => true
  | e :: f :: rest => e.addr.before f.addr && entriesWf (f :: rest)

/-- The map entry of an address. -/
def State.entryAt (a : Addr) (s : State) : Option MapEntry := s.map.entries.find? (fun e => e.addr == a)

/-- A serving entry: any origin but BEST_EFFORT (R41). -/
def Origin.serving : Origin → Bool
  | .bestEffort => false
  | .direct | .vote _ | .flip _ _ | .diverted | .loaded => true

/-- Whether an address has a serving entry (R41). -/
def State.servingAt (a : Addr) (s : State) : Bool :=
  match s.entryAt a with
  | some e => e.origin.serving
  | none => false

/-- A slot is bound to a map entry (R42). -/
def slotBound (entries : List MapEntry) (n : Nat) : Bool := entries.any (fun e => e.slot == n)

/-- The first free slot from slot `n` on, among the next `fuel` slots (R42). -/
def freeSlotFrom (entries : List MapEntry) : Nat → Nat → Option Nat
  | _, 0 => none
  | n, fuel + 1 => if slotBound entries n then freeSlotFrom entries (n + 1) fuel else some n

/-- The lowest-numbered free slot (R42). -/
def State.freeSlot (s : State) : Option Nat := freeSlotFrom s.map.entries 0 Config.storeSlots

/-- Words placed in a slot under an entry of an address, with the current epoch and a check word computed by the part (R40,
R43). -/
def State.putEntry (a : Addr) (o : Origin) (ws : List Word) (slot : Nat) (s : State) : State :=
  { s with map :=
      { entries := insertEntry { addr := a, origin := o, epoch := s.pack.epoch, slot := slot } s.map.entries
        store := tablePut slot { words := ws, check := crc ws } s.map.store } }

/-- Words stored for an address: in the slot of its entry, or in the lowest-numbered free slot; none when a new slot is
needed and none is free (R40, R42). -/
def State.storeSector (a : Addr) (o : Origin) (ws : List Word) (s : State) : Option State :=
  match s.entryAt a with
  | some e => some (s.putEntry a o ws e.slot)
  | none =>
      match s.freeSlot with
      | some n => some (s.putEntry a o ws n)
      | none => none

/-- The entry of an address removed, its slot freed (R42). -/
def State.removeEntry (a : Addr) (s : State) : State :=
  { s with map := { s.map with entries := s.map.entries.filter (fun e => e.addr != a) } }

/-- Every entry of a track removed (R47). -/
def State.removeTrackEntries (t : Track) (s : State) : State :=
  { s with map := { s.map with entries := s.map.entries.filter (fun e => e.addr.track != t) } }

/-- Every entry removed (R54, R55). -/
def State.clearEntries (s : State) : State := { s with map := { s.map with entries := [] } }

/-- What a slot holds; a slot never written is empty (log 11). -/
def State.slotContents (n : Nat) (s : State) : StoredSector :=
  (tableGet n s.map.store).getD { words := [], check := 0 }

/-- The W words of a slot (R43). -/
def State.slotWords (n : Nat) (s : State) : List Word := fitWords s.geom.words (s.slotContents n).words

/-! ## The Region Table lookup (R25) -/

/-- A region covers a cylinder. -/
def Region.covers (r : Region) (cyl : Nat) : Bool := r.low ≤ cyl && cyl ≤ r.high

/-- The first occupied slot whose range contains the cylinder. -/
def findRegion (cyl : Nat) : List (Option Region) → Option Region
  | [] => none
  | none :: rest => findRegion cyl rest
  | some r :: rest => if Region.covers r cyl then some r else findRegion cyl rest

/-- The region of a cylinder: the occupied slot whose range contains it, else the default region (R25). -/
def State.regionAt (cyl : Nat) (s : State) : Region := (findRegion cyl s.regions).getD defaultRegion

/-! ## The Post Queue's lookups (R60) -/

/-- The post entry of an address. -/
def State.postAt (a : Addr) (s : State) : Option PostEntry := s.posts.entries.find? (fun p => p.addr == a)

/-- The Post Queue's entries changed. -/
def State.withPosts (entries : List PostEntry) (s : State) : State := { s with posts := { s.posts with entries := entries } }

/-- The post entry of an address changed where it stands. -/
def updatePost (a : Addr) (f : PostEntry → PostEntry) (l : List PostEntry) : List PostEntry :=
  l.map (fun p => if p.addr = a then f p else p)

/-- A FLUSH grant whose entry leaves the queue is marked: its result will be discarded (R68). -/
def Work.markDropped (gone : Addr → Bool) : Work → Work
  | .flush b w d => .flush b w (d || gone b)
  | w => w

/-- The running grant's work changed. -/
def Drive.mapWork (f : Work → Work) (d : Drive) : Drive :=
  { d with grant := d.grant.map (fun g => { g with work := f g.work }) }

/-- Entries dropped by a DIVERT write or a FORMAT (R46, R47, R68): they leave at once, no flush is made, no event set. -/
def State.dropPosts (gone : Addr → Bool) (s : State) : State :=
  { s with posts := { s.posts with entries := s.posts.entries.filter (fun p => !gone p.addr) }
           drive := s.drive.mapWork (Work.markDropped gone) }

/-- Every post entry discarded at a forced release or a pack loss, with POST_DISCARD when at least one was (R69). -/
def State.discardPosts (s : State) : State :=
  if s.posts.entries.isEmpty then s else (s.withPosts []).setEvent .postDiscard

/-- The Post Queue asks for the drive (R62): an entry, a pack served, no speed fault, condition READY, flushing not held. -/
def State.flushRequested (s : State) : Bool :=
  !s.posts.entries.isEmpty && packServes s.pack.state && !s.timer.speedFault && s.drive.cond == .ready &&
    !s.posts.heldForPermit

/-- The FLUSH request is overdue when the oldest entry's age exceeds the Flush Latency (R62). -/
def State.flushOverdue (s : State) : Bool :=
  s.flushRequested &&
    match s.posts.entries with
    | [] => false
    | p :: _ => msTicks s.timing.flushLatency < s.now - p.firstArrival

/-! ## The Track Buffers (R70 to R76) -/

/-- The buffer that holds a track, by number, the first slot being number `i`. -/
def findBuffer (t : Track) : Nat → List TrackBuffer → Option Nat
  | _, [] => none
  | i, b :: rest => if b.track = some t then some i else findBuffer t (i + 1) rest

/-- A buffer by number. -/
def State.buffer (i : Nat) (s : State) : TrackBuffer := s.buffers.slots.getD i { track := none, good := [] }

/-- The GOOD data of a sector, with the number of the buffer that holds it (R11). -/
def State.bufferedSector (a : Addr) (s : State) : Option (Nat × List Word) :=
  match findBuffer a.track 0 s.buffers.slots with
  | none => none
  | some i => (tableGet a.sector (s.buffer i).good).map (fun ws => (i, ws))

/-- A buffer becomes the most recently used (R71, R74). -/
def State.useBuffer (i : Nat) (s : State) : State :=
  { s with buffers := { s.buffers with order := i :: s.buffers.order.filter (fun j => j != i) } }

/-- A buffer's contents changed. -/
def State.setBuffer (i : Nat) (b : TrackBuffer) (s : State) : State :=
  { s with buffers := { s.buffers with slots := s.buffers.slots.set i b } }

/-- The buffer chosen for a capture of a track (R71): the one that holds it; else the latest in the last-use order that
holds no track; else the last in the order. -/
def State.chooseBuffer (t : Track) (s : State) : Nat :=
  match findBuffer t 0 s.buffers.slots with
  | some i => i
  | none =>
      match s.buffers.order.reverse.find? (fun i => (s.buffer i).track == none) with
      | some i => i
      | none => s.buffers.order.getLastD 0

/-- A buffer given to a track and made the most recently used (R71): its sectors stay when it holds the track already, and
become invalid otherwise. -/
def State.giveBuffer (i : Nat) (t : Track) (s : State) : State :=
  (if (s.buffer i).track = some t then s else s.setBuffer i { track := some t, good := [] }).useBuffer i

/-- A sector made invalid in a buffer that holds its track (R75). -/
def TrackBuffer.invalidate (a : Addr) (b : TrackBuffer) : TrackBuffer :=
  if b.track = some a.track then { b with good := tableDel a.sector b.good } else b

/-- A sector made invalid in any buffer holding its track (R75). -/
def State.invalidateSector (a : Addr) (s : State) : State :=
  { s with buffers := { s.buffers with slots := s.buffers.slots.map (TrackBuffer.invalidate a) } }

/-- A running capture of an emptied track stores nothing more (R76). -/
def Work.loseBuffer (t : Track) : Work → Work
  | .capture u want i decoded => .capture u want (if u = t then none else i) decoded
  | w => w

/-- The buffer of a track emptied whole, keeping its place in the last-use order (R76). -/
def State.emptyTrackBuffer (t : Track) (s : State) : State :=
  { s with buffers := { s.buffers with
             slots := s.buffers.slots.map (fun b => if b.track = some t then { track := none, good := [] } else b) }
           drive := s.drive.mapWork (Work.loseBuffer t) }

/-- Every buffer emptied, the last-use order kept (R70, R76). -/
def State.emptyBuffers (s : State) : State :=
  { s with buffers := { s.buffers with slots := s.buffers.slots.map (fun _ => { track := none, good := [] }) } }

end Sys2Proof.Machine
end

