-- ==== Sys2Proof/Machine/Engine.lean ====
section
/-! DEFINITION. The Recovery Engine's shared operations (07_the_recovery_engine.md, 08_voting_and_candidate_search.md):
accumulators, offers to the map, decisions, job endings, the engine's requests, making and merging jobs. -/

namespace Sys2Proof.Machine

/-! ## The engine's fields -/

/-- The engine changed. -/
def State.withEngine (f : Engine → Engine) (s : State) : State := { s with engine := f s.engine }

/-- A bank's accumulators by number (R136). -/
def Engine.bank (i : Nat) (e : Engine) : List (Nat × Accumulator) := e.banks.getD i []

/-- A bank's accumulators replaced. -/
def Engine.setBank (i : Nat) (accs : List (Nat × Accumulator)) (e : Engine) : Engine :=
  { e with banks := e.banks.set i accs }

/-- A sector's accumulator in a job's bank; a job without a bank has none (R114). -/
def Engine.accumulator (b : Option Nat) (n : Nat) (e : Engine) : Accumulator :=
  match b with
  | none => Accumulator.empty
  | some i => (tableGet n (e.bank i)).getD Accumulator.empty

/-- A sector's accumulator replaced in a job's bank. -/
def Engine.putAccumulator (b : Option Nat) (n : Nat) (a : Accumulator) (e : Engine) : Engine :=
  match b with
  | none => e
  | some i => e.setBank i (tablePut n a (e.bank i))

/-- A sector's accumulator made empty or discarded (R136). -/
def Engine.dropAccumulator (b : Option Nat) (n : Nat) (e : Engine) : Engine :=
  match b with
  | none => e
  | some i => e.setBank i (tableDel n (e.bank i))

/-- A bank freed, every accumulator in it empty (R129, R136). -/
def Engine.freeBank (b : Option Nat) (e : Engine) : Engine :=
  match b with
  | none => e
  | some i => e.setBank i []

/-- A RECOVERY grant is running for the ACTIVE or ENDING job: one that no command has aborted (R100). -/
def Drive.recoveryRunning (d : Drive) : Bool :=
  match d.grant with
  | some g =>
      match g.work with
      | .recovery _ _ _ _ => !g.aborted
      | .read _ _ | .capture _ _ _ _ | .driveSector _ | .seek _ | .recalibrate | .write _ _ | .format _ _ | .flush _ _ _ =>
          false
  | none => false

/-- A sector of the ACTIVE job has left the pending set: in a pass already granted its outcome is passed over when the pass ends,
even where the sector joins the set again before that (R118, R124, R128). -/
def State.passOver (n : Nat) (s : State) : State :=
  if s.drive.recoveryRunning then
    { s with drive := { s.drive with grant := s.drive.grant.map (fun g => { g with passedOver := insertSector n g.passedOver }) } }
  else s

/-- The RECOVERY request made or withdrawn (R80, R124). -/
def State.setRecoveryRequest (b : Bool) (s : State) : State := { s with drive := { s.drive with recoveryRequest := b } }

/-! ## Outcome lists -/

/-- An entry put into an outcome list at its sector's place (R114). -/
def insertOutcome (e : OutcomeEntry) : List OutcomeEntry → List OutcomeEntry
  | [] => [e]
  | f :: rest =>
      if e.sector < f.sector then e :: f :: rest
      else if e.sector = f.sector then e :: rest
      else f :: insertOutcome e rest

/-- A sector leaves the pending set with an outcome at the job's current step (R114). -/
def Job.decide (n : Nat) (o : SectorOutcome) (j : Job) : Job :=
  { j with pending := j.pending.filter (fun m => m != n)
           outcomes := insertOutcome { sector := n, outcome := o, step := j.step } j.outcomes }

/-- Whether the outcome list has an entry for a sector. -/
def Job.hasOutcome (n : Nat) (j : Job) : Bool := j.outcomes.any (fun e => e.sector == n)

/-! ## Offers to the map (R48, R49) -/

/-- What an offer met (R48, R49). -/
inductive OfferResult where
  | stored
  | full
  | superseded
  deriving DecidableEq, Repr

/-- Decided words or a kept candidate offered to the map for an address (R48, R49): discarded when the address has a post
entry or a DIVERTED or LOADED entry; else stored in the entry's slot or the lowest free one; else STORE_FULL is set. -/
def State.offer (a : Addr) (o : Origin) (ws : List Word) (s : State) : OfferResult × State :=
  if (s.postAt a).isSome then (.superseded, s)
  else if (s.entryAt a).any (fun e => e.origin == .diverted || e.origin == .loaded) then (.superseded, s)
  else
    match s.storeSector a o ws with
    | some s' => (.stored, s')
    | none => (.full, s.setEvent .storeFull)

/-! ## Decisions (R147, R125) -/

/-- A held READ of the address, if one stands, is answered (R18). -/
def State.answerHeldRead (a : Addr) (st : Status) (ws : List Word) (s : State) : State :=
  match s.port.hold with
  | some h =>
      match h.kind with
      | .read _ => if h.addr = a then s.finishRequest st ws else s
      | .write _ => s
  | none => s

/-- A pending sector of the ACTIVE job resolved (R147): its words are offered to the map, whose answer may turn the outcome
(R48), it leaves the pending set, its accumulator is discarded, and a held READ of it is answered DONE (R18). -/
def State.resolveSector (n : Nat) (r : Resolution) (ws : List Word) (s : State) : State :=
  match s.engine.active with
  | none => s
  | some j =>
      let a := j.track.at n
      let (res, s1) := s.offer a r.mapOrigin ws
      let o := match res with
        | .stored => r.outcome
        | .full => .notStored
        | .superseded => .superseded
      let s2 := s1.withEngine (fun e => { e.dropAccumulator j.bank n with active := some (j.decide n o) })
      match res with
      | .stored | .full => s2.answerHeldRead a .done ws
      | .superseded => s2

/-- A contributing read of a sector: folded, then evaluated under the step values of the grant (R140, R144). -/
def State.contribute (step : LadderStep) (n : Nat) (bits : List (Bool × Quality)) (inferred : Bool) (s : State) : State :=
  match s.engine.active with
  | none => s
  | some j =>
      let a := (s.engine.accumulator j.bank n).fold bits inferred
      let s1 := s.withEngine (Engine.putAccumulator j.bank n a)
      match evaluate s.geom.words step.flipLimit step.flipCeiling a with
      | some (r, ws) => s1.resolveSector n r ws
      | none => s1

/-- One outcome of a pass examined (R125 step 4, R138, R139, R141): passed over when the sector is no longer pending; its
accumulator made empty first on the first pass of a RESET step. A sector that left the pending set while the pass ran does not
come here (`State.takeReport`). -/
def State.examine (step : LadderStep) (firstPass : Bool) (s : State) (p : Nat × PassOutcome) : State :=
  match s.engine.active with
  | none => s
  | some j =>
      if p.1 ∈ j.pending then
        let s1 :=
          if firstPass && step.voteMode == .reset then s.withEngine (Engine.dropAccumulator j.bank p.1) else s
        match p.2.kind, p.2.bits with
        | .good, _ => s1.resolveSector p.1 .direct (p.2.answerData s.geom.words)
        | .dataCheck, some b => s1.contribute step p.1 b false
        | .headerCheck, some b => if step.inference then s1.contribute step p.1 b true else s1
        | .dataCheck, none | .headerCheck, none | .wrongAddress, _ | .noData, _ => s1
      else s

/-! ## The engine's own request, preemption, hold reasons -/

/-- The head of the queued portion is urgent (R123). -/
def Engine.headUrgent (e : Engine) : Bool :=
  match e.queued with
  | [] => false
  | j :: _ => j.urgent

/-- The preemption test (R123): a non-urgent ACTIVE job whose pass is not running is parked when no job is PARKED, the head
is urgent, the engine is not stopped and a reservation can be made. Its standing request is withdrawn. -/
def State.preempt (s : State) : State :=
  match s.engine.active with
  | none => s
  | some j =>
      if !j.urgent && s.engine.parked.isNone && s.engine.headUrgent && !s.engine.stopped && s.canReserve &&
          !s.drive.recoveryRunning then
        (s.withEngine (fun e => { e with active := none, parked := some j })).setRecoveryRequest false
      else s

/-- The ACTIVE job keeps one RECOVERY request standing while the engine is not stopped and no grant of it runs (R124); a
stopped engine has none (R116). -/
def State.requestPass (s : State) : State :=
  s.setRecoveryRequest (s.engine.active.isSome && !s.engine.stopped && !s.drive.recoveryRunning)

/-- The tests the engine makes whenever one of their conditions may have come to hold: preemption, then the next pass (R116,
R123, R124). The activation of R122 is the row JOB_ACTIVATION (log 4). -/
def State.poke (s : State) : State := s.preempt.requestPass

/-- RESULTS_FULL is removed when a place is free, or when no job awaits activation (R116). -/
def State.liftResultsFull (s : State) : State :=
  if s.canReserve || (s.engine.queued.isEmpty && s.engine.parked.isNone) then
    s.withEngine (fun e => { e with resultsFull := false })
  else s

/-- After a job has left the queue: an empty queue closes the window (R119), RESULTS_FULL may be lifted (R116), and the
engine makes its tests. -/
def State.afterQueueChange (s : State) : State :=
  ((s.withEngine (fun e => if e.length = 0 then { e with window := none } else e)).liftResultsFull).poke

/-! ## Job endings (R129, R130) -/

/-- The result record of a job (R130). -/
def Job.record (ending : Ending) (j : Job) : ResultRecord :=
  { epoch := j.epoch, track := j.track, origin := j.origin, ending := ending, passes := j.passes, settles := j.settles,
    misSeeks := j.misSeeks, clamped := j.clamped, outcomes := j.outcomes }

/-- One sector left undecided at its job's end (R129 step 1, R148): under keep-best, with at least one contributing read, its
candidate is offered as BEST_EFFORT. -/
def leaveUndecided (p : State × Job) (n : Nat) : State × Job :=
  let acc := p.1.engine.accumulator p.2.bank n
  if p.2.keepBest && 1 ≤ acc.count then
    let (res, s1) := p.1.offer (p.2.track.at n) .bestEffort (acc.candidateWords p.1.geom.words)
    (s1, p.2.decide n (match res with
      | .stored => .kept
      | .full => .unresolved
      | .superseded => .superseded))
  else (p.1, p.2.decide n .unresolved)

/-- The held READ of a pending sector answered at the job's end (R18, R129 step 2, R148): DATA_CHECK, with the candidate when
a contributing read was folded, else with the last read's data. -/
def State.answerHeldAtEnd (j : Job) (s : State) : State :=
  match s.port.hold with
  | some h =>
      match h.kind with
      | .read last =>
          if h.addr.track = j.track ∧ h.addr.sector ∈ j.pending then
            let acc := s.engine.accumulator j.bank h.addr.sector
            s.finishRequest .dataCheck (if 1 ≤ acc.count then acc.candidateWords s.geom.words else last)
          else s
      | .write _ => s
  | none => s

/-- Steps 1 to 3 of an ending, for a job already taken from its place (R129). The sectors still pending are left undecided, and their
candidates offered, in ascending sector order, the order in which the pending set is kept: R49, R129 and R148 give none (DESIGN
CHOICE, log 44). -/
def State.closeSectors (j : Job) (s : State) : State × Job :=
  let (s1, j1) := j.pending.foldl leaveUndecided (s, j)
  (s1.answerHeldAtEnd j, j1)

/-- Step 5 of an ending (R130): the record takes the job's reservation, or a free place, or is dropped with
RESULTS_FULL. -/
def State.placeRecord (ending : Ending) (j : Job) (s : State) : State :=
  if j.reservation || s.canReserve then { s with results := s.results ++ [j.record ending] }
  else s.setEvent .resultsFull

/-- Steps 4 to 6 of an ending, for a job already taken from its place (R129). -/
def State.closeJob (ending : Ending) (j : Job) (s : State) : State :=
  ((s.withEngine (Engine.freeBank j.bank)).placeRecord ending j).afterQueueChange

/-- A job ends (R129); it has already been taken from its place in the queue. -/
def State.endJob (ending : Ending) (j : Job) (s : State) : State :=
  let (s1, j1) := s.closeSectors j
  s1.closeJob ending j1

/-- The ACTIVE job ends: its standing request is withdrawn (R124). -/
def State.endActive (ending : Ending) (j : Job) (s : State) : State :=
  ((s.withEngine (fun e => { e with active := none })).setRecoveryRequest false).endJob ending j

/-- The job left ENDING by a release completes its ending ABANDONED (R134). -/
def State.finishEnding (s : State) : State :=
  match s.engine.ending with
  | none => s
  | some j => (s.withEngine (fun e => { e with ending := none })).closeJob .abandoned j

/-- The queued jobs end one after another, in queue order; `fuel` bounds their number (R133, R134). -/
def State.endQueued (ending : Ending) : Nat → State → State
  | 0, s => s
  | fuel + 1, s =>
      match s.engine.queued with
      | [] => s
      | j :: rest => State.endQueued ending fuel ((s.withEngine (fun e => { e with queued := rest })).endJob ending j)

/-- The PARKED job ends. -/
def State.endParked (ending : Ending) (s : State) : State :=
  match s.engine.parked with
  | none => s
  | some j => (s.withEngine (fun e => { e with parked := none })).endJob ending j

/-- Every job ends ABANDONED: ACTIVE, PARKED, then QUEUED in queue order (R133, R134). -/
def State.abandonJobs (s : State) : State :=
  let s1 := match s.engine.active with
    | none => s
    | some j => s.endActive .abandoned j
  let s2 := s1.endParked .abandoned
  s2.endQueued .abandoned s2.engine.queued.length

/-! ## Supersession (R128) -/

/-- The first queued job of a track with a sector pending, taken out, with the jobs before and after it. -/
def splitQueued (t : Track) : List Job → Option (List Job × Job × List Job)
  | [] => none
  | j :: rest =>
      if j.track = t then some ([], j, rest)
      else (splitQueued t rest).map (fun p => (j :: p.1, p.2.1, p.2.2))

/-- A sector of the ACTIVE job superseded (R128): a running pass passes it over, and an emptied job ends at once, unless its
grant is running. -/
def State.supersedeActive (n : Nat) (j : Job) (s : State) : State :=
  let j1 := j.decide n .superseded
  let s1 := (s.withEngine (Engine.dropAccumulator j.bank n)).passOver n
  if j1.pending.isEmpty && !s.drive.recoveryRunning then s1.endActive .completed j1
  else s1.withEngine (fun e => { e with active := some j1 })

/-- A sector of the PARKED job superseded (R128): an emptied job ends at once. -/
def State.supersedeParked (n : Nat) (j : Job) (s : State) : State :=
  let j1 := j.decide n .superseded
  let s1 := s.withEngine (Engine.dropAccumulator j.bank n)
  if j1.pending.isEmpty then (s1.withEngine (fun e => { e with parked := none })).endJob .completed j1
  else s1.withEngine (fun e => { e with parked := some j1 })

/-- A sector of a QUEUED job superseded (R128): an emptied job ends at once and leaves the queued portion. -/
def State.supersedeQueued (n : Nat) (before : List Job) (j : Job) (after : List Job) (s : State) : State :=
  let j1 := j.decide n .superseded
  if j1.pending.isEmpty then (s.withEngine (fun e => { e with queued := before ++ after })).endJob .completed j1
  else s.withEngine (fun e => { e with queued := before ++ j1 :: after })

/-- The pending sector of an address leaves its job with outcome SUPERSEDED, in every job state (R128). -/
def State.supersede (a : Addr) (s : State) : State :=
  match s.engine.active.filter (fun j => j.track == a.track) with
  | some j => if a.sector ∈ j.pending then s.supersedeActive a.sector j else s
  | none =>
      match s.engine.parked.filter (fun j => j.track == a.track) with
      | some j => if a.sector ∈ j.pending then s.supersedeParked a.sector j else s
      | none =>
          match splitQueued a.track s.engine.queued with
          | some (before, j, after) =>
              if a.sector ∈ j.pending then s.supersedeQueued a.sector before j after else s
          | none => s

/-! ## Making and merging jobs (R118 to R120) -/

/-- A new job with the values of creation (R114). -/
def newJob (t : Track) (ladder : Nat) (origin : JobOrigin) (urgent keepBest : Bool) (epoch : BitVec 32) : Job :=
  { track := t, ladder := ladder, origin := origin, urgent := urgent, keepBest := keepBest, epoch := epoch, pending := [],
    outcomes := [], step := 0, passesDone := 0, passes := 0, settles := 0, misSeeks := 0, clamped := false,
    recalFirst := false, bank := none, reservation := false }

/-- One named sector treated by the first row of R118's table that applies, for an automatic request too (log 36). -/
def Job.treat (serving : Bool) (n : Nat) (j : Job) : Job :=
  if n ∈ j.pending then j
  else if serving then
    if j.hasOutcome n then j
    else { j with outcomes := insertOutcome { sector := n, outcome := .alreadyHeld, step := j.step } j.outcomes }
  else
    { j with pending := insertSector n j.pending, outcomes := j.outcomes.filter (fun e => e.sector != n) }

/-- The named sectors treated in turn (R118). -/
def State.treatAll (ns : List Nat) (j : Job) (s : State) : Job :=
  ns.foldl (fun j n => j.treat (s.servingAt (j.track.at n)) n) j

/-- The accumulators of sectors that join the pending set are given empty (R118, R149). -/
def Engine.emptyJoined (ns : List Nat) (before : List Nat) (b : Option Nat) (e : Engine) : Engine :=
  ns.foldl (fun e n => if n ∈ before then e else e.dropAccumulator b n) e

/-- A request merged into the ACTIVE or PARKED job (R118). -/
def State.mergeInto (ns : List Nat) (urgent : Bool) (j : Job) (s : State) : Job :=
  let j1 := s.treatAll ns j
  { j1 with urgent := j1.urgent || urgent }

/-- A job placed after every QUEUED job whose urgent flag is yes, and before all others (R120). -/
def insertUrgent (j : Job) : List Job → List Job
  | [] => [j]
  | k :: rest => if k.urgent then k :: insertUrgent j rest else j :: k :: rest

/-- Track order: by cylinder and, within a cylinder, by head (R119). -/
def Track.notAfter (t u : Track) : Bool := t.cyl < u.cyl || (t.cyl == u.cyl && t.head ≤ u.head)

/-- A job put into a list sorted by track, after jobs of the same track. -/
def insertByTrack (j : Job) : List Job → List Job
  | [] => [j]
  | k :: rest => if k.track.notAfter j.track then k :: insertByTrack j rest else j :: k :: rest

/-- The batch sorted by ascending cylinder and, within a cylinder, by ascending head (R119). -/
def sortBatch : List Job → List Job
  | [] => []
  | j :: rest => insertByTrack j (sortBatch rest)

/-- The window closed and the batch sorted (R119). -/
def Engine.closeWindow (e : Engine) : Engine :=
  if e.window.isSome then { e with window := none, queued := sortBatch e.queued } else e

/-- An urgent job enters the queued portion: an open window closes, the batch is sorted behind it (R120). -/
def Engine.enterUrgent (j : Job) (e : Engine) : Engine :=
  let e1 := e.closeWindow
  { e1 with queued := insertUrgent j e1.queued }

/-- Where a track's job stands (R113). -/
inductive JobPlace where
  | active (j : Job)
  | parked (j : Job)
  | queued (before : List Job) (j : Job) (after : List Job)
  | absent
  deriving DecidableEq, Repr

/-- The place of a track's job, an ENDING job left aside (R131). -/
def Engine.place (t : Track) (e : Engine) : JobPlace :=
  match e.active.filter (fun j => j.track == t) with
  | some j => .active j
  | none =>
      match e.parked.filter (fun j => j.track == t) with
      | some j => .parked j
      | none =>
          match splitQueued t e.queued with
          | some (before, j, after) => .queued before j after
          | none => .absent

/-- An automatic request taken (R120), or none when the queue holds 16 jobs and none for the track. A sector that has come to have
a serving entry since its READ was taken is treated by the table of R118, not made pending as R120 says (DEDUCED, log 36): in a
new job it is ALREADY_HELD and the job ends COMPLETED at once; in an existing job it is ALREADY_HELD or keeps its outcome. -/
def State.automaticRequest (a : Addr) (ladder : Nat) (keepBest urgent : Bool) (s : State) : Option State :=
  let ns := [a.sector]
  match s.engine.place a.track with
  | .active j =>
      some (s.withEngine (fun e => { e.emptyJoined ns j.pending j.bank with active := some (s.mergeInto ns urgent j) })).poke
  | .parked j =>
      some (s.withEngine (fun e => { e.emptyJoined ns j.pending j.bank with parked := some (s.mergeInto ns urgent j) })).poke
  | .queued before j after =>
      let j1 := s.mergeInto ns urgent j
      if urgent && !j.urgent then
        some (s.withEngine (fun e => { e with queued := before ++ after }.enterUrgent j1)).poke
      else some (s.withEngine (fun e => { e with queued := before ++ j1 :: after })).poke
  | .absent =>
      if Config.recoveryJobs ≤ s.engine.length then none
      else
        let j := s.treatAll ns (newJob a.track ladder .automatic urgent keepBest s.pack.epoch)
        if j.pending.isEmpty then some (s.endJob .completed j)
        else
          some (s.withEngine (fun e =>
            if urgent then e.enterUrgent j else { e with queued := e.queued ++ [j] })).poke

/-- The batch window opened or restarted: its deadline is the present moment plus the Batch Window (R119). -/
def State.windowDeadline (s : State) : Nat := s.now + msTicks s.timing.batchWindow

/-- A job made by RECOVER TRACK placed by the run phase (R119). -/
def State.placeCommanded (j : Job) (s : State) : State :=
  match s.engine.runPhase with
  | .idle =>
      s.withEngine (fun e =>
        { e with queued := e.queued ++ [j]
                 window := if s.timing.batchWindow = 0 then none else some s.windowDeadline })
  | .collecting => s.withEngine (fun e => { e with queued := e.queued ++ [j], window := some s.windowDeadline })
  | .running => s.withEngine (fun e => { e with queued := e.queued ++ [j] })

/-- A merge by RECOVER TRACK restarts an open window (R119). -/
def State.restartWindow (s : State) : State :=
  s.withEngine (fun e => if e.window.isSome then { e with window := some s.windowDeadline } else e)

/-- A commanded recovery request taken (R118, R119), or none when the queue holds 16 jobs and none for the track (R117). -/
def State.commandedRequest (t : Track) (ns : List Nat) (ladder : Nat) (keepBest : Bool) (s : State) : Option State :=
  match s.engine.place t with
  | .active j =>
      some (s.withEngine (fun e =>
        { e.emptyJoined ns j.pending j.bank with active := some (s.mergeInto ns false j) })).restartWindow.poke
  | .parked j =>
      some (s.withEngine (fun e =>
        { e.emptyJoined ns j.pending j.bank with parked := some (s.mergeInto ns false j) })).restartWindow.poke
  | .queued before j after =>
      some (s.withEngine (fun e => { e with queued := before ++ s.mergeInto ns false j :: after })).restartWindow.poke
  | .absent =>
      if Config.recoveryJobs ≤ s.engine.length then none
      else
        let j := s.treatAll ns (newJob t ladder .commanded false keepBest s.pack.epoch)
        if j.pending.isEmpty then some (s.endJob .completed j) else some (s.placeCommanded j).poke

/-! ## The end of a pass (R109, R125 to R127) -/

/-- The steps of a job's ladder, as the table stands (R108). -/
def State.ladderOf (j : Job) (s : State) : List LadderStep := s.ladders.getD j.ladder []

/-- A count of 16 bits that saturates (R114). -/
def countUp (n : Nat) : Nat := min 65535 (n + 1)

/-- What the report of a RECOVERY grant charges to the job, read, failed or aborted: a settle revolution completed (R110, R125
step 1, R126, R127), and the offset clamp of the code computed at the grant (R85, R110; for a grant whose pass was not read
DEDUCED, log 39). -/
def Job.charge (g : Grant) (j : Job) : Job :=
  { j with settles := if g.settleSpent then countUp j.settles else j.settles
           clamped := j.clamped || g.clamped }

/-- The ACTIVE job changed. -/
def Engine.updateActive (f : Job → Job) (e : Engine) : Engine := { e with active := e.active.map f }

/-- A mis-seek (R126): counted, the next grant recalibrates first, and the third ends the job SEEK_FAILED. -/
def State.misSeek (passRead : Bool) (s : State) : State :=
  match s.engine.active with
  | none => s
  | some j =>
      let j1 := { j with passes := if passRead then countUp j.passes else j.passes
                         misSeeks := j.misSeeks + 1
                         recalFirst := true }
      if Config.misSeeks ≤ j1.misSeeks then s.endActive .seekFailed j1
      else (s.withEngine (fun e => { e with active := some j1 })).poke

/-- The step-completion test (R109): passes done counted, and the index increased when they reach the step's passes field as
it stands. -/
def State.countPass (j : Job) (s : State) : Job :=
  let done := j.passesDone + 1
  let field := match (s.ladderOf j)[j.step]? with
    | some t => t.passes
    | none => 0
  if field ≤ done then { j with step := j.step + 1, passesDone := 0 } else { j with passesDone := done }

/-- Steps 5 to 7 of R125, after the outcomes of the pass have been taken. -/
def State.passCounted (s : State) : State :=
  match s.engine.active with
  | none => s
  | some j =>
      let j1 := s.countPass j
      if j1.pending.isEmpty then s.endActive .completed j1
      else if j1.passesDone = 0 && (s.ladderOf j1).length ≤ j1.step then s.endActive .completed j1
      else (s.withEngine (fun e => { e with active := some j1 })).poke

/-- The report of a pass that was read, taken for the ACTIVE job (R125). The outcomes of the sectors that left the pending set
while the pass ran are passed over, though they may be pending again (R118, R124, R128, R149). -/
def State.takeReport (step : LadderStep) (firstPass : Bool) (g : Grant) (outcomes : List (Nat × PassOutcome)) (s : State) :
    State :=
  match s.engine.active with
  | none => s
  | some j =>
      let s1 := s.withEngine (Engine.updateActive (Job.charge g))
      if outcomes.any (fun p => p.2.otherCylinder j.track.cyl) then s1.misSeek true
      else
        let s2 := s1.withEngine (Engine.updateActive (fun j => { j with passes := countUp j.passes }))
        ((outcomes.filter (fun p => !g.passedOver.contains p.1)).foldl (State.examine step firstPass) s2).passCounted

/-- A RECOVERY grant reported as seek failed (R126): its settle and its offset clamp are charged (log 39), and it is a mis-seek
without a pass. -/
def State.takeSeekFailed (g : Grant) (s : State) : State :=
  (s.withEngine (Engine.updateActive (Job.charge g))).misSeek false

/-- A RECOVERY grant reported as aborted (R127): a completed settle and the offset clamp are charged (log 39), nothing else, and
the pass is requested again. -/
def State.takeAborted (g : Grant) (s : State) : State :=
  (s.withEngine (Engine.updateActive (Job.charge g))).poke

end Sys2Proof.Machine
end

