-- ==== Sys2Proof/Machine/Effects.lean ====
section
/-! DEFINITION. What a write or a FORMAT does to the collections (R45, R46, R47, R61), and what the pack's departure does to
them (R134, R157 to R160). -/

namespace Sys2Proof.Machine

/-- The effects of a PASS write on the map, the track buffers and the track jobs (R45). -/
def State.passEffects (a : Addr) (s : State) : State := ((s.removeEntry a).invalidateSector a).supersede a

/-- The post entry a PASS write makes (R61). -/
def State.newPost (a : Addr) (ws : List Word) (s : State) : PostEntry :=
  { addr := a, data := ws, firstArrival := s.now, failed := 0, inFlight := false, mergedInFlight := false }

/-- A PASS write's words in the entry it merges into (R61). -/
def PostEntry.merge (ws : List Word) (p : PostEntry) : PostEntry :=
  { p with data := ws, mergedInFlight := p.mergedInFlight || p.inFlight }

/-- A PASS write enters the Post Queue (R61): it merges into the entry of its address or is appended; its effects on the
other collections take place (R45). -/
def State.takePost (a : Addr) (ws : List Word) (s : State) : State :=
  (if (s.postAt a).isSome then s.withPosts (updatePost a (PostEntry.merge ws) s.posts.entries)
   else s.withPosts (s.posts.entries ++ [s.newPost a ws])).passEffects a

/-- A PASS write has a place: its address is queued, or the queue has room (R61). -/
def State.postHasRoom (a : Addr) (s : State) : Bool :=
  (s.postAt a).isSome || s.posts.entries.length < Config.postEntries

/-- A DIVERT write written into the map (R46): none when a new slot is needed and none is free. -/
def State.divert (a : Addr) (ws : List Word) (s : State) : Option State :=
  (s.storeSector a .diverted ws).map (fun s1 => (s1.dropPosts (fun b => b == a)).supersede a)

/-- The pending sectors of a track's job, none when it has no job. -/
def Engine.pendingOf (t : Track) (e : Engine) : List Nat :=
  match e.place t with
  | .active j | .parked j | .queued _ j _ => j.pending
  | .absent => []

/-- The effects of an accepted FORMAT on its track's collections (R47). -/
def State.formatEffects (t : Track) (s : State) : State :=
  let s1 := ((s.removeTrackEntries t).dropPosts (fun b => b.track == t)).emptyTrackBuffer t
  (s.engine.pendingOf t).foldl (fun s n => s.supersede (t.at n)) s1

/-! ## The pack leaves (R22, R36, R134) -/

/-- A held request is answered NOT_READY (R22). -/
def State.releaseHold (s : State) : State :=
  match s.port.hold with
  | some _ => s.finishRequest .notReady []
  | none => s

/-- What every departure from LOADED and UNLOAD_PENDING does first (R22, R36, R116): the held request is answered NOT_READY,
Format Enable is cleared, NO_PACK is placed, and the batch window closes (R134). -/
def State.beginDeparture (s : State) : State :=
  let s1 := s.releaseHold
  { s1 with port := { s1.port with formatEnable := false }
            engine := { s1.engine with noPack := true, window := none }
            drive := { s1.drive with recoveryRequest := false } }

/-- The ACTIVE job at a release that is not forced (R134): while its grant runs it is left ENDING, its sectors decided and a
held READ answered; else it ends at once. -/
def State.releaseActive (s : State) : State :=
  match s.engine.active with
  | none => s
  | some j =>
      if s.drive.recoveryRunning then
        let (s1, j1) := s.closeSectors j
        s1.withEngine (fun e => { e with active := none, ending := some j1 })
      else s.endActive .abandoned j

/-- Every job at a release that is not forced, in the order ACTIVE, PARKED, QUEUED (R134). -/
def State.releaseJobs (s : State) : State :=
  let s1 := s.releaseActive.endParked .abandoned
  s1.endQueued .abandoned s1.engine.queued.length

/-- The speed check at its values of power-on and of the pack's departure, hold reason SPEED removed (R96). -/
def State.clearSpeed (s : State) : State :=
  { s with timer := { s.timer with speedFault := false, outside := 0, inside := 0 }
           engine := { s.engine with speed := false } }

/-- The pack state becomes EMPTY and the collections for the pack are emptied (R159 steps 1 to 5, R160, R152). -/
def State.packGone (s : State) : State :=
  let s1 := (s.clearEntries.emptyBuffers).clearSpeed
  { s1 with pack := { s1.pack with state := .empty, spinUp := 0, firstRequest := none, permitGiven := false,
                                   unloadRelease := false } }

end Sys2Proof.Machine
end

