-- ==== Sys2Proof/Machine/Sequencer.lean ====
section
/-! DEFINITION. The Drive Sequencer and its Drive Arbiter (05_the_drive_sequencer.md): requests, grants and their phases,
positioning failures, and what each end of the work hands to its client (R10, R13, R66, R67, R172). -/

namespace Sys2Proof.Machine

/-! ## Requests (R80) -/

/-- The drive record changed. -/
def State.withDrive (f : Drive → Drive) (s : State) : State := { s with drive := f s.drive }

/-- The reply changed. -/
def State.withReply (r : Option Reply) (s : State) : State := { s with ci := { s.ci with reply := r } }

/-- The READ DRIVE SECTOR reply filled when its drive work ends, or when its request is handed back (R172). `granted` says
which of the two, so that the end of an earlier, discarded read fills nothing. -/
def State.fillDriveReply (granted : Bool) (a : Addr) (completion : Word) (header field : List Word) (s : State) : State :=
  match s.ci.reply with
  | some r =>
      if r.driveRead = some granted then
        s.withReply (some { r with ready := true, contents := driveSectorContents a completion header field, parts := 2,
                                   pointer := 0, driveRead := none })
      else s
  | none => s

/-- The reply of a READ DRIVE SECTOR whose read never reached the sector: header and data zero (R172). -/
def State.fillDriveReplyEmpty (granted : Bool) (a : Addr) (completion : Word) (s : State) : State :=
  s.fillDriveReply granted a completion [0, 0, 0] (fitWords (s.geom.words + 1) [])

/-- The requests of a client withdrawn (R80). -/
def State.withdraw (c : Client) (s : State) : State :=
  s.withDrive (fun d => { d with requests := d.requests.filter (fun r => r.client != c) })

/-- The stage of the outstanding request, none when nothing is outstanding. -/
def State.stage (s : State) : Option Stage := s.port.outstanding.map (·.stage)

/-- The stage of the outstanding request changed. -/
def State.setStage (g : Stage) (s : State) : State :=
  { s with port := { s.port with outstanding := s.port.outstanding.map (fun o => { o with stage := g }) } }

/-- The outstanding request answered when it stands at a stage; an answer for a request dropped meanwhile is discarded
(R2). -/
def State.answerAt (g : Stage) (st : Status) (data : List Word) (s : State) : State :=
  if s.stage = some g then s.finishRequest st data else s

/-- A standing CONTROLLER request handed back NOT_READY (R80). -/
def State.handBack (s : State) (r : ControllerRequest) : State :=
  match r.client with
  | .port => s.answerAt .standing .notReady []
  | .commandInterface =>
      match r.work with
      | .driveSector a => s.fillDriveReplyEmpty false a notReadyWord
      | .read _ _ | .capture _ _ _ _ | .seek _ | .recalibrate | .write _ _ | .format _ _ | .flush _ _ _
      | .recovery _ _ _ _ => s

/-- Every standing CONTROLLER request handed back (R80, R157). -/
def State.handBackAll (s : State) : State :=
  s.drive.requests.foldl State.handBack (s.withDrive (fun d => { d with requests := [] }))

/-- CONTROLLER requests are taken while the condition is READY (which it stays during CLEARING) and the pack is not
UNLOADING; else they are handed back at once (R80, R157). -/
def State.takesRequests (s : State) : Bool := s.drive.cond == .ready && s.pack.state != .unloading

/-- The Controller Port requests drive work for a request just taken, which is then outstanding (R80). -/
def State.requestPortWork (o : PortWork) (w : Work) (s : State) : State :=
  if s.takesRequests then
    { s with port := { s.port with outstanding := some { work := o, stage := .standing } }
             drive := { s.drive with requests := s.drive.requests ++ [{ client := .port, work := w }] } }
  else s.answer .notReady []

/-! ## Grants and their phases (R82) -/

/-- The cylinder a work is done at; a recalibrate has none. -/
def Work.cylinder : Work → Option Nat
  | .read a _ | .driveSector a | .write a _ | .flush a _ _ => some a.cyl
  | .capture t _ _ _ | .seek t | .format t _ | .recovery t _ _ _ => some t.cyl
  | .recalibrate => none

/-- The head a work is done at. A recalibrate selects none, so that the physical head stays as it was: R78 selects a head at the
start of each operation and R16 names none for it (DESIGN CHOICE, log 47). -/
def Work.head : Work → Option Nat
  | .read a _ | .driveSector a | .write a _ | .flush a _ _ => some a.head
  | .capture t _ _ _ | .seek t | .format t _ | .recovery t _ _ _ => some t.head
  | .recalibrate => none

/-- A grant at centre conditions (R85, R87). -/
def State.centreGrant (w : Work) (s : State) : Grant :=
  { work := w, allowanceUsed := false, code := centreCode s.drive.trim, strobe := 0, threshold := Config.centreThreshold,
    settleSpent := false, clamped := false, aborted := false, passedOver := [] }

/-- The activity changed. -/
def State.setActivity (a : Activity) (s : State) : State := s.withDrive (fun d => { d with activity := a })

/-- The running grant replaced. -/
def State.setGrant (g : Grant) (s : State) : State := s.withDrive (fun d => { d with grant := some g })

/-- The grant ends and the drive is free (R82). -/
def State.endGrant (s : State) : State := s.withDrive (fun d => { d with grant := none, activity := .idle })

/-- A seek commanded to the drive (R83). -/
def State.issueSeek (cyl : Nat) (s : State) : State :=
  (s.command (.seek cyl)).setActivity (.positioning false (s.now + Config.positioningTicks))

/-- A recalibrate commanded to the drive (R83). -/
def State.issueRecalibrate (s : State) : State :=
  (s.command .recalibrate).setActivity (.positioning true (s.now + Config.positioningTicks))

/-- A flush write begins (R66, R67): the entry is in flight and the write carries the data it has at that moment, or the data
it began with when a positioning failure makes it begin again. The write of an entry dropped after its write had begun goes on
(R68); an entry dropped before its write begins is not written, and the grant ends (log 13). -/
def State.beginFlushWrite (g : Grant) (a : Addr) (writing : Option (List Word)) (dropped : Bool) (s : State) : State :=
  if dropped then (if writing.isSome then s.setActivity .writing else s.endGrant)
  else
    match s.postAt a with
    | some p =>
        ((s.withPosts (updatePost a (fun p => { p with inFlight := true }) s.posts.entries)).setGrant
          { g with work := .flush a (some (writing.getD p.data)) false }).setActivity .writing
    | none => s.endGrant

/-- The work of a grant begins, positioned and settled (R82). -/
def State.beginWork (g : Grant) (s : State) : State :=
  match g.work with
  | .read _ _ | .capture _ _ _ _ | .driveSector _ | .recovery _ _ _ _ => s.setActivity .reading
  | .write _ _ | .format _ _ => s.setActivity .writing
  | .flush a writing dropped => s.beginFlushWrite g a writing dropped
  | .seek _ | .recalibrate => s

/-- The conditions phase (R85 to R87): strobe and threshold apply at once; a code other than the applied one, or a head not
settled, takes a settle revolution first. -/
def State.applyConditions (g : Grant) (s : State) : State :=
  let s1 := s.withDrive (fun d => { d with strobe := g.strobe, threshold := g.threshold })
  if s.drive.settled && s.drive.offsetCode == g.code then s1.beginWork g
  else s1.withDrive (fun d => { d with offsetCode := g.code, settled := false, activity := .settling })

/-- The heads are where the grant needs them: a SEEK or RECALIBRATE is answered DONE (R16); any other work goes on. -/
def State.positioned (g : Grant) (s : State) : State :=
  match g.work with
  | .seek _ | .recalibrate => s.endGrant.answerAt .working .done []
  | .read _ _ | .capture _ _ _ _ | .driveSector _ | .write _ _ | .format _ _ | .flush _ _ _ | .recovery _ _ _ _ =>
      s.applyConditions g

/-- The seek phase, passed over when the physical cylinder is known and equals the target (R82). -/
def State.seekPhase (g : Grant) (s : State) : State :=
  match g.work.cylinder with
  | none => s.positioned g
  | some c => if s.drive.physCyl = some c then s.positioned g else s.issueSeek c

/-- The positioning of a grant: a recalibrate when it is asked for, when it is the work, or when the physical cylinder is
unknown; then the seek (R82, R83). -/
def State.beginPositioning (recalFirst : Bool) (g : Grant) (s : State) : State :=
  if recalFirst || s.drive.physCyl.isNone || g.work == .recalibrate then s.issueRecalibrate else s.seekPhase g

/-- A grant is given: head select, but for a recalibrate (log 47), then positioning (R78, R82). -/
def State.startGrant (recalFirst : Bool) (g : Grant) (s : State) : State :=
  ((s.withDrive (fun d => { d with physHead := g.work.head.getD d.physHead })).setGrant g).beginPositioning recalFirst g

/-! ## The end of a READ's drive work (R10, R12, R13, R17) -/

/-- A hold begins (R17): the outstanding request is held to a deadline. -/
def State.beginHold (k : HoldKind) (a : Addr) (s : State) : State :=
  { s with port := { s.port with
      hold := some { kind := k, addr := a, deadline := s.now + msTicks s.timing.holdLimit }
      outstanding := s.port.outstanding.map (fun o => { o with stage := .held }) } }

/-- A failed READ in a RECOVER region goes to recovery (R13): held when the Hold Limit is above 0 and the engine takes the
request, else answered DATA_CHECK at once with the last read's data. -/
def State.sendToRecovery (a : Addr) (r : Region) (data : List Word) (s : State) : State :=
  match s.automaticRequest a r.ladder r.keepBest (0 < s.timing.holdLimit) with
  | none => s.finishRequest .dataCheck data
  | some s1 => if 0 < s.timing.holdLimit then s1.beginHold (.read data) a else s1.finishRequest .dataCheck data

/-- A READ passes to recovery in INTERPOSE mode, in a RECOVER region, outside a speed fault, while a pack is served (R12,
R16, R134; log 17). -/
def State.mayRecover (r : Region) (interpose : Bool) (s : State) : Bool :=
  interpose && r.read == .recover && !s.timer.speedFault && packServes s.pack.state

/-- The outstanding READ answered from its pass outcome, or given to recovery (R10, R12). A header of another cylinder is a
positioning failure and does not come here. -/
def State.finishRead (o : PassOutcome) (s : State) : State :=
  match s.port.outstanding with
  | none => s
  | some q =>
      match q.work with
      | .read a r interpose =>
          let data := o.answerData s.geom.words
          match o.kind with
          | .good => s.finishRequest .done data
          | .wrongAddress => s.finishRequest .headerCheck []
          | .dataCheck | .noData =>
              if s.mayRecover r interpose then s.sendToRecovery a r data else s.finishRequest .dataCheck data
          | .headerCheck =>
              if s.mayRecover r interpose then s.sendToRecovery a r data else s.finishRequest .headerCheck []
      | .write _ _ | .format _ | .seek | .recalibrate => s

/-! ## The end of a flush write (R66 to R68) -/

/-- A failed attempt of the entry of an address (R66): counted, or the entry discarded with POST_DISCARD on the third. -/
def State.countFlushFailure (a : Addr) (s : State) : State :=
  match s.postAt a with
  | none => s
  | some p =>
      if Config.flushFailures ≤ p.failed + 1 then
        (s.withPosts (s.posts.entries.filter (fun q => q.addr != a))).setEvent .postDiscard
      else s.withPosts (updatePost a (fun q => { q with failed := q.failed + 1, inFlight := false }) s.posts.entries)

/-- A flush attempt has failed with the drive at work (R66, R67): the retry begins within the grant unless the entry has left
the queue, Media Write Permit is deasserted (flushing is then held, R64) or a speed fault is in force (R65). -/
def State.flushFailed (g : Grant) (a : Addr) (dropped : Bool) (s : State) : State :=
  if dropped then s.endGrant
  else
    let s1 := s.countFlushFailure a
    match s1.postAt a with
    | none => s1.endGrant
    | some _ =>
        if !s1.lines.permit then
          { s1.endGrant with posts := { s1.endGrant.posts with heldForPermit := true } }
        else if s1.timer.speedFault then s1.endGrant
        else
          let g1 := { g with allowanceUsed := false, work := .flush a none false }
          (s1.setGrant g1).beginPositioning false g1

/-- A flush write ended written (R66): the entry leaves, or stays with its merged data. -/
def State.flushWritten (a : Addr) (s : State) : State :=
  match s.postAt a with
  | none => s
  | some p =>
      if p.mergedInFlight then
        s.withPosts (updatePost a (fun q => { q with failed := 0, inFlight := false, mergedInFlight := false })
          s.posts.entries)
      else s.withPosts (s.posts.entries.filter (fun q => q.addr != a))

/-- A flush write met the drive's write-protect line (R66): the entry is discarded at once. -/
def State.flushProtected (a : Addr) (s : State) : State :=
  if (s.postAt a).isSome then (s.withPosts (s.posts.entries.filter (fun q => q.addr != a))).setEvent .postDiscard else s

/-! ## Positioning failures (R83, R84) -/

/-- A RECOVERY grant has ended without its pass being read: a job left ENDING completes its ending, an aborted grant's job
is gone, else the report goes to the ACTIVE job (R100, R126, R127, R134). -/
def State.recoveryEnded (g : Grant) (report : State → State) (s : State) : State :=
  if g.aborted then s
  else if s.engine.ending.isSome then s.finishEnding
  else report s

/-- A FLUSH attempt that ends its grant fails (R66): the buffered sector is invalid, and the failure is counted unless the entry
was dropped (R68). -/
def State.flushLost (a : Addr) (dropped : Bool) (s : State) : State :=
  let s1 := s.endGrant.invalidateSector a
  if dropped then s1 else s1.countFlushFailure a

/-- The work of a grant ended by a second positioning failure (R84). A FLUSH attempt fails and its retry may begin in the same
grant (R67). For READ DRIVE SECTOR `header` and `field` are what the read that met a header of another cylinder decoded, or zeros
where a seek failed (log 41). -/
def State.positioningLost (g : Grant) (header field : List Word) (s : State) : State :=
  match g.work with
  | .read _ _ | .seek _ | .recalibrate => s.endGrant.answerAt .working .seekError []
  | .capture _ _ _ _ => s.endGrant.answerAt .capturing .seekError []
  | .driveSector a => s.endGrant.fillDriveReply true a seekErrorWord header field
  | .write _ _ => s.endGrant.answerAt .working .writeFault []
  | .format t _ => (s.endGrant.emptyTrackBuffer t).answerAt .working .writeFault []
  | .flush a _ dropped => (s.invalidateSector a).flushFailed g a dropped
  | .recovery _ _ _ _ => s.endGrant.recoveryEnded g (State.takeSeekFailed g)

/-- The work of a grant ended by a failed recalibrate (R83, R84): the grant ends, whatever it is, with the result of a second
positioning failure. For FLUSH that is a failed attempt whose retry waits for a later grant: R83 ends the grant where R67 would
retry in it (DESIGN CHOICE, log 37). -/
def State.recalibrateLost (g : Grant) (header field : List Word) (s : State) : State :=
  match g.work with
  | .flush a _ dropped => s.flushLost a dropped
  | .read _ _ | .capture _ _ _ _ | .driveSector _ | .seek _ | .recalibrate | .write _ _ | .format _ _ | .recovery _ _ _ _ =>
      s.positioningLost g header field

/-- A capture that is repeated decodes its sectors again (R72). -/
def Work.restart : Work → Work
  | .capture t want i _ => .capture t want i []
  | w => w

/-- A positioning failure of a CONTROLLER or FLUSH grant (R84): on the first, recalibrate, seek again and repeat; on the
second the work ends. -/
def State.positioningFailure (g : Grant) (header field : List Word) (s : State) : State :=
  if g.allowanceUsed then s.positioningLost g header field
  else (s.setGrant { g with allowanceUsed := true, work := g.work.restart }).issueRecalibrate

/-! ## Grants ended by a drive fault, a loss of ready or a forced unload (R98 to R100) -/

/-- Why a grant was ended. -/
inductive Loss where
  | fault
  | ready
  | forced
  deriving DecidableEq, Repr

/-- The running grant ended by a loss, its result handed to its client (R98, R99, R100); the activity is set by the rule
that ends it. A TRANSPARENT WRITE or FORMAT ended by a drive fault waits for the end of the fault clear. A READ DRIVE SECTOR ended so
is filled with zeros for the header and the field, also where its first try had decoded a header of another cylinder: R172 does not
say whose words are shown (DESIGN CHOICE, log 41). -/
def State.loseGrant (why : Loss) (s : State) : State :=
  match s.drive.grant with
  | none => s
  | some g =>
      let s1 := s.endGrant
      let writeLost : State → State := fun t =>
        if why = .fault then (if t.stage = some .working then t.setStage .clearing else t)
        else t.answerAt .working .notReady []
      match g.work with
      | .read _ _ | .seek _ | .recalibrate => s1.answerAt .working .notReady []
      | .capture _ _ _ _ => s1.answerAt .capturing .notReady []
      | .driveSector a => s1.fillDriveReplyEmpty true a notReadyWord
      | .write _ _ => writeLost s1
      | .format t _ => writeLost (s1.emptyTrackBuffer t)
      | .flush a _ dropped =>
          let s2 := s1.invalidateSector a
          if why = .fault then s.flushLost a dropped
          else s2.withPosts (updatePost a (fun p => { p with inFlight := false }) s2.posts.entries)
      | .recovery _ _ _ _ => s1.recoveryEnded g (State.takeAborted g)

/-- A drive fault is handled (R98 steps 1 to 4). -/
def State.beginFault (s : State) : State :=
  let s1 := (s.setEvent .driveFault).loseGrant .fault
  (s1.command .faultClear).withDrive (fun d =>
    { d with activity := .clearing (s1.now + nominalTicks s1.geom), physCyl := none })

/-- A RECOVERY grant aborted by RESET ENGINE or CANCEL TRACK (R100): a seek or recalibrate in progress is finished first, a
settle or a read stops at once. -/
def State.abortRecovery (s : State) : State :=
  match s.drive.grant with
  | none => s
  | some g =>
      if s.drive.recoveryRunning then
        match s.drive.activity with
        | .positioning _ _ => s.setGrant { g with aborted := true }
        | .idle | .settling | .reading | .writing | .verifying | .clearing _ => s.endGrant
      else s

/-- What the report of the running RECOVERY grant, about to be aborted, charges to its job (R127, log 39). -/
def State.chargeRunning (j : Job) (s : State) : Job :=
  if s.drive.recoveryRunning then (s.drive.grant.map (fun g => j.charge g)).getD j else j

/-! ## The speed check (R96) -/

/-- A speed fault begins: SPEED_FAULT is set, SPEED is placed, and a standing RECOVERY request is withdrawn (R96, R116). -/
def State.beginSpeedFault (s : State) : State :=
  ((({ s with timer := { s.timer with speedFault := true, inside := 0 } }).setEvent .speedFault).withEngine
    (fun e => { e with speed := true })).setRecoveryRequest false

/-- The speed fault clears: SPEED is removed and the engine makes its tests (R96, R116). -/
def State.endSpeedFault (s : State) : State :=
  (({ s with timer := { s.timer with speedFault := false, outside := 0 } }).withEngine
    (fun e => { e with speed := false })).poke

/-- A latched period in the speed check (R96). -/
def State.checkSpeed (period : Nat) (s : State) : State :=
  let good := inBand s.geom period
  if s.timer.speedFault then
    let n := if good then s.timer.inside + 1 else 0
    let s1 := { s with timer := { s.timer with inside := n } }
    if Config.speedClearPeriods ≤ n then s1.endSpeedFault else s1
  else
    let n := if good then 0 else s.timer.outside + 1
    let s1 := { s with timer := { s.timer with outside := n } }
    if Config.speedFaultPeriods ≤ n then s1.beginSpeedFault else s1

end Sys2Proof.Machine
end

