-- ==== Sys2Proof/Machine/PackOps.lean ====
section
/-! DEFINITION. The Pack Monitor's shared operations (09_pack_changes.md): the release test, Unload Release not forced and
forced, pack loss, spin-up. -/

namespace Sys2Proof.Machine

/-- The pack record changed. -/
def State.withPack (f : Pack → Pack) (s : State) : State := { s with pack := f s.pack }

/-- The release test (R155). -/
def State.releaseTest (s : State) : Bool :=
  s.posts.entries.isEmpty &&
    match s.pack.unloadGuard with
    | .auto => true
    | .waitEngine => s.engine.length == 0 || s.pack.permitGiven
    | .waitPermit => s.pack.permitGiven

/-- The pack becomes UNLOADING with Unload Release asserted (R157 steps 1 and 2). -/
def State.assertRelease (s : State) : State :=
  s.withPack (fun p => { p with state := .unloading, firstRequest := none, unloadRelease := true })

/-- An Unload Release that is not forced (R157): Format Enable, NO_PACK, the jobs, the held request, and the standing
CONTROLLER requests. -/
def State.giveRelease (s : State) : State := (s.beginDeparture.assertRelease.releaseJobs).handBackAll

/-- The running grant of any client aborted by a forced unload (R100). -/
def State.abortGrant (s : State) : State :=
  match s.drive.grant with
  | none => s
  | some _ => (s.loseGrant .forced).withDrive (fun d => { d with physCyl := none })

/-- A forced release in LOADED or UNLOAD_PENDING (R158). The Post Queue is discarded before the abandoned jobs offer their candidates:
R158 gives no order of the two, and an offer that a post entry would have turned away is kept (DESIGN CHOICE, log 45). -/
def State.forceRelease (s : State) : State :=
  ((s.abortGrant.discardPosts.beginDeparture.assertRelease).abandonJobs).handBackAll

/-- The pack loss of R160, after the sequencer has taken the fall of ready. The posts are discarded before the jobs end, in the order
of R160's list, which the rule does not call an order (DESIGN CHOICE, log 45). -/
def State.losePack (s : State) : State :=
  (((s.setEvent .packLost).discardPosts.beginDeparture).abandonJobs).packGone

/-- The pack becomes LOADED (R152): a new epoch, the request and the permission of the pack before gone, the speed check's
counts 0, NO_PACK removed, and the engine makes its tests. -/
def State.loadPack (s : State) : State :=
  let s1 := s.withPack (fun p =>
    { p with state := .loaded, spinUp := 0, epoch := p.epoch + 1, firstRequest := none, permitGiven := false })
  ({ s1 with timer := { s1.timer with outside := 0, inside := 0 }
             engine := { s1.engine with noPack := false } }).poke

/-- A latched period in the spin-up test (R152). -/
def State.checkSpinUp (period : Nat) (s : State) : State :=
  let n := if inBand s.geom period then s.pack.spinUp + 1 else 0
  if Config.spinUpPeriods ≤ n then s.loadPack else s.withPack (fun p => { p with spinUp := n })

/-- A latched period handed to the Pack Monitor and the speed check, by the pack state in which it is latched (R95, R96,
R152). -/
def State.takePeriod (period : Nat) (s : State) : State :=
  match s.pack.state with
  | .spinningUp => s.checkSpinUp period
  | .loaded | .unloadPending => s.checkSpeed period
  | .empty | .unloading => s

end Sys2Proof.Machine
end

