-- ==== Sys2Proof/Machine/DataRequests.lean ====
section
/-! DEFINITION. Data requests of the controller (R6, R11 to R16, R73) and what every new request does first (R2, R20,
R167). -/

namespace Sys2Proof.Machine

/-- The earlier outstanding or held request dropped unanswered (R2, R20): a standing request is withdrawn, granted work runs
on with its result discarded. -/
def State.dropRequest (s : State) : State :=
  let s1 := if s.stage = some .standing then s.withdraw .port else s
  { s1 with port := { s1.port with outstanding := none, hold := none } }

/-- A pending record abandoned (R167): the state becomes READY, SEQUENCE_LOST is set and becomes the last result. -/
def State.abandonSequence (s : State) : State :=
  if s.ci.sequence = .ready then s
  else
    { s with ci := { s.ci with sequence := .ready, lastResult := .sequenceLost }
             events := withEvent .sequenceLost s.events }

/-- The virtual head set by a request whose head is in range (R3). -/
def State.setVirtHead (head : Nat) (s : State) : State := { s with port := { s.port with virtHead := head } }

/-! ## READ (R11, R12, R16, R73) -/

/-- A capture of the track is running and has not yet decoded the sector (R73). -/
def Drive.capturePending (a : Addr) (d : Drive) : Bool :=
  match d.grant with
  | some g =>
      match g.work with
      | .capture t _ _ decoded => t == a.track && !decoded.contains a.sector
      | .read _ _ | .driveSector _ | .seek _ | .recalibrate | .write _ _ | .format _ _ | .flush _ _ _
      | .recovery _ _ _ _ => false
  | none => false

/-- A READ that reaches the drive in INTERPOSE mode (R11 step 4, R12, R73): it waits on a running capture that will decode
its sector, else requests drive work. During a speed fault too it waits on such a capture, where R12 has one centre read serve
every region (DESIGN CHOICE, log 46). -/
def State.driveRead (a : Addr) (s : State) : State :=
  let r := s.regionAt a.cyl
  if s.drive.capturePending a then
    { s with port := { s.port with outstanding := some { work := .read a r true, stage := .capturing } } }
  else s.requestPortWork (.read a r true) (.read a r.prefetch)

/-- A READ in INTERPOSE mode served by the first place that holds it (R11): Post Queue, map, track buffers, drive. -/
def State.lookupRead (a : Addr) (s : State) : State :=
  match s.postAt a with
  | some p => s.answer .done p.data
  | none =>
      match s.entryAt a with
      | some e => s.answer (if e.origin.serving then .done else .dataCheck) (s.slotWords e.slot)
      | none =>
          match s.bufferedSector a with
          | some (i, ws) => (s.useBuffer i).answer .done ws
          | none => s.driveRead a

/-- A READ data request (R6, R7): NOT_READY with no pack served; in TRANSPARENT mode one centre read (R16). -/
def State.dataRead (a : Addr) (s : State) : State :=
  if !packServes s.pack.state then s.answer .notReady []
  else
    match s.port.mode with
    | .interpose => s.lookupRead a
    | .transparent => s.requestPortWork (.read a (s.regionAt a.cyl) false) (.read a false)

/-! ## WRITE (R14, R16, R17) -/

/-- A PASS WRITE that finds the Post Queue full (R17, R61): held to its deadline, or WRITE_FAULT at once when the Hold Limit
is 0. -/
def State.waitForRoom (a : Addr) (ws : List Word) (s : State) : State :=
  if s.timing.holdLimit = 0 then s.answer .writeFault []
  else
    ({ s with port := { s.port with outstanding := some { work := .write a ws, stage := .held } } }).beginHold (.write ws) a

/-- A WRITE in INTERPOSE mode, by its region's write policy and Media Write Permit (R14). -/
def State.interposeWrite (a : Addr) (ws : List Word) (s : State) : State :=
  match (s.regionAt a.cyl).write with
  | .refuse => s.answer .writeProtected []
  | .divert =>
      match s.divert a ws with
      | some s1 => s1.answer .done []
      | none => (s.setEvent .storeFull).answer .writeFault []
  | .pass =>
      if !s.lines.permit then s.answer .writeProtected []
      else if s.postHasRoom a then (s.takePost a ws).answer .done []
      else s.waitForRoom a ws

/-- A WRITE in TRANSPARENT mode (R16): direct at centre under PASS with Media Write Permit, else WRITE_PROTECTED. -/
def State.transparentWrite (a : Addr) (ws : List Word) (s : State) : State :=
  if (s.regionAt a.cyl).write = .pass ∧ s.lines.permit then s.requestPortWork (.write a ws) (.write a ws)
  else s.answer .writeProtected []

/-- A WRITE data request (R6, R7). -/
def State.dataWrite (a : Addr) (ws : List Word) (s : State) : State :=
  if !packServes s.pack.state then s.answer .notReady []
  else
    match s.port.mode with
    | .interpose => s.interposeWrite a ws
    | .transparent => s.transparentWrite a ws

/-! ## FORMAT (R15, R37) -/

/-- FORMAT acceptance (R37). -/
def State.acceptsFormat (t : Track) (s : State) : Bool :=
  s.port.formatEnable && s.lines.permit && (s.regionAt t.cyl).write == .pass

/-- A FORMAT data request (R6, R15): its taking clears Format Enable; accepted, it empties the track's collections and
requests its drive work. -/
def State.dataFormat (t : Track) (s : State) : State :=
  if !packServes s.pack.state then s.answer .notReady []
  else
    let s1 := { s with port := { s.port with formatEnable := false } }
    if s.acceptsFormat t then (s1.formatEffects t).requestPortWork (.format t) (.format t .awaitIndex)
    else s1.answer .writeProtected []

/-! ## SENSE (R9) -/

/-- A WRITE at the virtual cylinder would now be answered WRITE_PROTECTED (R9). -/
def State.senseProtected (s : State) : Bool :=
  match (s.regionAt s.port.virtCyl).write with
  | .refuse => true
  | .pass => !s.lines.permit
  | .divert => s.port.mode == .transparent

/-- A TRANSPARENT SEEK or RECALIBRATE is outstanding (R9). -/
def State.positioningOutstanding (s : State) : Bool :=
  match s.port.outstanding with
  | some q => q.work == .seek || q.work == .recalibrate
  | none => false

/-- The four indications of SENSE (R9). -/
def State.senseAnswer (s : State) : Completion :=
  .sense true (!s.positioningOutstanding) s.senseProtected (s.drive.cond == .fault)

end Sys2Proof.Machine
end

