-- ==== Sys2Proof/Machine/Queries.lean ====
section
/-! DEFINITION. The query commands (R29, R56 to R58, R107, R168, R172, R175): each answers its result code and the state with
its reply formed. -/

namespace Sys2Proof.Machine

/-- A reply formed and selected, with its result (R168, R169). -/
def State.replyWith (kind : ReplyKind) (r : ResultCode) (contents : List Word) (s : State) : ResultCode × State :=
  (r, s.withReply (some (formReply kind r s.geom.words contents)))

/-- SHOW STATUS (R168): the selector is STATUS already, since every command write sets it. -/
def cmdShowStatus (_ps : List Word) (s : State) : ResultCode × State := (.ok, s)

/-- READ RESULT (R175): the oldest record removed and shown; the freed place may lift RESULTS_FULL (R116). -/
def cmdReadResult (_ps : List Word) (s : State) : ResultCode × State :=
  match s.results with
  | [] => s.replyWith .result .notFound []
  | r :: rest =>
      let (c, s1) := ({ s with results := rest }).replyWith .result .ok (r.contents rest.length)
      (c, s1.liftResultsFull.poke)

/-- READ MAP ENTRY (R56). -/
def cmdReadMapEntry (ps : List Word) (s : State) : ResultCode × State :=
  match addrOf s.geom ps with
  | none => (.badParameter, s)
  | some a =>
      let e := s.entryAt a
      s.replyWith .mapEntry (if e.isSome then .ok else .notFound) (mapEntryContents a e)

/-- READ STORE DATA (R57). -/
def cmdReadStoreData (ps : List Word) (s : State) : ResultCode × State :=
  match addrOf s.geom ps with
  | none => (.badParameter, s)
  | some a =>
      match s.entryAt a with
      | some e =>
          s.replyWith .storeData .ok
            ([word a.cyl, word a.head, word a.sector, Origin.toWord e.origin] ++ s.slotWords e.slot ++
              [(s.slotContents e.slot).check])
      | none => s.replyWith .storeData .notFound [word a.cyl, word a.head, word a.sector, 0]

/-- LIST MAP (R58): the entries at or after the address, as many as fit, with the more flag. -/
def cmdListMap (ps : List Word) (s : State) : ResultCode × State :=
  match addrOf s.geom ps with
  | none => (.badParameter, s)
  | some a =>
      let after := s.map.entries.filter (fun e => !e.addr.before a)
      let room := (s.geom.words - 7) / 3
      let listed := after.take room
      s.replyWith .mapList .ok
        ([word listed.length, flagWord (room < after.length)] ++ listed.flatMap mapListItem)

/-- READ REGION (R29). -/
def cmdReadRegion (ps : List Word) (s : State) : ResultCode × State :=
  match ps with
  | [] => (.badParameter, s)
  | slot :: _ =>
      if slot.toNat < Config.regionSlots then
        let r := s.regions.getD slot.toNat none
        s.replyWith .region (if r.isSome then .ok else .notFound) (regionContents slot.toNat r)
      else (.badParameter, s)

/-- The number of jobs of the Recovery Queue whose ladder id is this ladder (R107). A job left ENDING is in the queue (R113, R131,
R134) and is counted, though R106 does not let it hold the ladder in use (DEDUCED, log 38). -/
def State.ladderJobs (ladder : Nat) (s : State) : Nat := (s.engine.jobs.filter (fun j => j.ladder == ladder)).length

/-- READ LADDER (R107). -/
def cmdReadLadder (ps : List Word) (s : State) : ResultCode × State :=
  match ps with
  | [] => (.badParameter, s)
  | l :: _ =>
      if l.toNat < Config.ladders then
        let steps := s.ladders.getD l.toNat []
        s.replyWith .ladder .ok
          ([l, word steps.length, word (s.ladderJobs l.toNat)] ++ steps.flatMap stepWords)
      else (.badParameter, s)

/-- READ DRIVE SECTOR (R172): the reply is formed with ready flag 0, and the Command Interface makes its CONTROLLER
request, which is handed back at once when none can be taken (R80). BAD_PARAMETER is tested before NO_PACK: R172 gives the two
grounds no order (DESIGN CHOICE, log 48). -/
def cmdReadDriveSector (ps : List Word) (s : State) : ResultCode × State :=
  match addrOf s.geom ps with
  | none => (.badParameter, s)
  | some a =>
      if !packServes s.pack.state then (.noPack, s)
      else
        let s1 := s.withReply (some { kind := .driveSector, result := .ok, ready := false, contents := [], parts := 2,
                                      pointer := 0, driveRead := some false })
        (.ok,
          if s1.takesRequests then
            s1.withDrive (fun d => { d with requests := d.requests ++ [{ client := .commandInterface, work := .driveSector a }] })
          else s1.fillDriveReplyEmpty false a notReadyWord)

end Sys2Proof.Machine
end

