-- ==== Sys2Proof/Machine/Settings.lean ====
section
/-! DEFINITION. The commands that load tables and set values: the Region Table (R26 to R28), the Ladder Table (R104 to
R106), the mode, geometry, timing, trim, control address, events, guard (R8, R88, R155, R162, R173, R176, R178). -/

namespace Sys2Proof.Machine

/-! ## Regions -/

/-- Two ranges share a cylinder (R27). -/
def Region.overlaps (r t : Region) : Bool := r.low ≤ t.high && t.low ≤ r.high

/-- Some occupied slot other than the named one shares a cylinder with the range; the list begins at slot `i` (R27). -/
def overlapsOther (slot : Nat) (r : Region) : Nat → List (Option Region) → Bool
  | _, [] => false
  | i, none :: rest => overlapsOther slot r (i + 1) rest
  | i, some t :: rest => (i != slot && Region.overlaps r t) || overlapsOther slot r (i + 1) rest

/-- LOAD REGION (R26, R27). -/
def cmdLoadRegion (ps : List Word) (s : State) : ResultCode × State :=
  match regionOf s.geom ps with
  | none => (.badParameter, s)
  | some (slot, r) =>
      if overlapsOther slot r 0 s.regions then (.overlap, s)
      else (.ok, { s with regions := s.regions.set slot (some r) })

/-- DELETE REGION (R28). -/
def cmdDeleteRegion (ps : List Word) (s : State) : ResultCode × State :=
  match ps with
  | [] => (.badParameter, s)
  | slot :: _ =>
      if slot.toNat < Config.regionSlots then
        match s.regions.getD slot.toNat none with
        | none => (.notFound, s)
        | some _ => (.ok, { s with regions := s.regions.set slot.toNat none })
      else (.badParameter, s)

/-- A slot brought within a cylinder count (R30). -/
def clipRegion (cylinders : Nat) (slot : Option Region) : Option Region :=
  match slot with
  | none => none
  | some r =>
      if cylinders ≤ r.low then none
      else if cylinders ≤ r.high then some { r with high := cylinders - 1 }
      else some r

/-! ## Ladders -/

/-- LOAD LADDER STEP (R104, R105): a step index equal to the length appends, below it replaces. -/
def cmdLoadLadderStep (ps : List Word) (s : State) : ResultCode × State :=
  match ps with
  | ladder :: index :: fields =>
      match stepOf fields with
      | none => (.badParameter, s)
      | some (t, clamped) =>
          let steps := s.ladders.getD ladder.toNat []
          if Config.ladders ≤ ladder.toNat ∨ steps.length < index.toNat ∨ Config.ladderSteps ≤ index.toNat then
            (.badParameter, s)
          else
            let new := if index.toNat = steps.length then steps ++ [t] else steps.set index.toNat t
            (if clamped then .clamped else .ok, { s with ladders := s.ladders.set ladder.toNat new })
  | _ => (.badParameter, s)

/-- CLEAR LADDER (R106): refused while a job QUEUED, ACTIVE or PARKED uses the ladder; one left ENDING does not count, as the
rule lists the states (log 38). -/
def cmdClearLadder (ps : List Word) (s : State) : ResultCode × State :=
  match ps with
  | [] => (.badParameter, s)
  | l :: _ =>
      if Config.ladders ≤ l.toNat then (.badParameter, s)
      else if s.engine.liveJobs.any (fun j => j.ladder == l.toNat) then (.notIdle, s)
      else (.ok, { s with ladders := s.ladders.set l.toNat [] })

/-! ## Mode, geometry and the other values -/

/-- Drive work of the CONTROLLER client is waiting for a grant or running (R8). -/
def Drive.controllerBusy (d : Drive) : Bool :=
  !d.requests.isEmpty ||
    match d.grant with
    | none => false
    | some g =>
        match g.work with
        | .read _ _ | .capture _ _ _ _ | .driveSector _ | .seek _ | .recalibrate | .write _ _ | .format _ _ => true
        | .flush _ _ _ | .recovery _ _ _ _ => false

/-- SET MODE (R8). Where more than one of its results applies the rule gives no order (DESIGN CHOICE, log 16): a parameter that
names neither mode is BAD_PARAMETER before NOT_IDLE is tested, and NOT_IDLE is tested before the mode in force is compared. -/
def cmdSetMode (ps : List Word) (s : State) : ResultCode × State :=
  match ps.head?.bind modeOf with
  | none => (.badParameter, s)
  | some m =>
      if !s.posts.entries.isEmpty || s.port.hold.isSome || s.drive.controllerBusy then (.notIdle, s)
      else if m = s.port.mode then (.ok, s)
      else
        (.ok, ({ s with port := { s.port with mode := m }
                        engine := { s.engine with transparent := m == Mode.transparent } }).poke)

/-- SET GEOMETRY (R178) with what takes place at acceptance (R3, R30, R78, R152, R162). -/
def State.setGeometry (g : Geometry) (s : State) : State :=
  { s with
    geom := g
    regions := s.regions.map (clipRegion g.cylinders)
    ci := { s.ci with controlAddr := { cyl := g.cylinders - 1, head := g.heads - 1, sector := g.sectors - 1 } }
    drive := { s.drive with physCyl := none }
    port := { s.port with virtCyl := min s.port.virtCyl (g.cylinders - 1), virtHead := min s.port.virtHead (g.heads - 1) }
    pack := { s.pack with spinUp := 0 } }

/-- SET GEOMETRY (R178). Where both grounds of refusal apply the rule gives no order: BAD_PARAMETER is tested before the pack
state (DESIGN CHOICE, log 42). -/
def cmdSetGeometry (ps : List Word) (s : State) : ResultCode × State :=
  match geometryOf ps with
  | none => (.badParameter, s)
  | some g =>
      match s.pack.state with
      | .loaded | .unloadPending | .unloading => (.notIdle, s)
      | .empty | .spinningUp => (.ok, s.setGeometry g)

/-- SET TIMING (R173): each value clamped separately. -/
def cmdSetTiming (ps : List Word) (s : State) : ResultCode × State :=
  match ps with
  | hold :: window :: latency :: _ =>
      let t : Timing := { holdLimit := clampNat 0 2000 hold.toNat, batchWindow := clampNat 0 1000 window.toNat,
                          flushLatency := clampNat 10 2000 latency.toNat }
      (if t.holdLimit != hold.toNat || t.batchWindow != window.toNat || t.flushLatency != latency.toNat then .clamped
       else .ok, { s with timing := t })
  | _ => (.badParameter, s)

/-- SET TRIM (R88). -/
def cmdSetTrim (ps : List Word) (s : State) : ResultCode × State :=
  match ps with
  | [] => (.badParameter, s)
  | t :: _ =>
      let v := clampInt (-512) 511 t.toInt
      (if v != t.toInt then .clamped else .ok, s.withDrive (fun d => { d with trim := v }))

/-- SET CONTROL ADDRESS (R162). -/
def cmdSetControlAddress (ps : List Word) (s : State) : ResultCode × State :=
  match addrOf s.geom ps with
  | none => (.badParameter, s)
  | some a => (.ok, { s with ci := { s.ci with controlAddr := a } })

/-- CLEAR EVENTS (R176). -/
def cmdClearEvents (ps : List Word) (s : State) : ResultCode × State :=
  match ps with
  | [] => (.badParameter, s)
  | mask :: _ => (.ok, { s with events := clearEvents mask s.events })

/-- SET GUARD (R155); the release test it brings is the row UNLOAD_RELEASE (log 4). -/
def cmdSetGuard (ps : List Word) (s : State) : ResultCode × State :=
  match ps.head?.bind guardOf with
  | none => (.badParameter, s)
  | some g => (.ok, s.withPack (fun p => { p with unloadGuard := g }))

end Sys2Proof.Machine
end

