-- ==== Sys2Proof/Machine/WorkCommands.lean ====
section
/-! DEFINITION. The commands on the Recovery Engine (R117, R131 to R133), the map (R51 to R54), the pack (R156, R158) and
FORMAT (R35), and the data sector of LOAD SECTOR (R52). -/

namespace Sys2Proof.Machine

/-! ## The Recovery Engine -/

/-- RECOVER TRACK's parameters read (R117 test 1): track, sectors, ladder, keep-best, with the region default resolved by the
region of the cylinder; none where a value is refused. -/
def recoverParams (s : State) : List Word → Option (Track × List Nat × Nat × Bool)
  | c :: h :: lad :: set1 :: set2 :: kb :: _ =>
      let t : Track := { cyl := c.toNat, head := h.toNat }
      let r := s.regionAt t.cyl
      let ladder := if lad = Config.regionDefault then some r.ladder
        else if lad.toNat < Config.ladders then some lad.toNat else none
      let keep := if kb = Config.regionDefault then some r.keepBest else flagOf kb
      match ladder, keep, namedSectors s.geom set1 set2 with
      | some l, some k, some ns => if t.within s.geom then some (t, ns, l, k) else none
      | _, _, _ => none
  | _ => none

/-- RECOVER TRACK (R117). -/
def cmdRecoverTrack (ps : List Word) (s : State) : ResultCode × State :=
  match recoverParams s ps with
  | none => (.badParameter, s)
  | some (t, ns, ladder, keep) =>
      if !packServes s.pack.state then (.noPack, s)
      else
        match s.commandedRequest t ns ladder keep with
        | none => (.full, s)
        | some s1 => (.ok, s1)

/-- The ACTIVE job ended by a command or change that cuts its grant short (R100, R127, R131, R133). -/
def State.cutActive (ending : Ending) (j : Job) (s : State) : State :=
  s.abortRecovery.endActive ending (s.chargeRunning j)

/-- CANCEL TRACK (R131). -/
def cmdCancelTrack (ps : List Word) (s : State) : ResultCode × State :=
  match ps with
  | c :: h :: _ =>
      let t : Track := { cyl := c.toNat, head := h.toNat }
      if !t.within s.geom then (.badParameter, s)
      else
        match s.engine.place t with
        | .absent => (.notFound, s)
        | .active j => (.ok, s.cutActive .cancelled j)
        | .parked j => (.ok, (s.withEngine (fun e => { e with parked := none })).endJob .cancelled j)
        | .queued before j after =>
            (.ok, (s.withEngine (fun e => { e with queued := before ++ after })).endJob .cancelled j)
  | _ => (.badParameter, s)

/-- SUSPEND ENGINE (R132): the ACTIVE job's standing request is withdrawn. -/
def cmdSuspendEngine (_ps : List Word) (s : State) : ResultCode × State :=
  (.ok, (s.withEngine (fun e => { e with suspended := true })).setRecoveryRequest false)

/-- RESUME ENGINE (R132). -/
def cmdResumeEngine (_ps : List Word) (s : State) : ResultCode × State :=
  (.ok, (s.withEngine (fun e => { e with suspended := false })).poke)

/-- The engine at rest (R133 steps 3 to 6): window closed, suspend flag clear, banks free; RESULTS_FULL removed. -/
def State.engineAtRest (s : State) : State :=
  (s.withEngine (fun e => { e with window := none, suspended := false, resultsFull := false,
                                   banks := e.banks.map (fun _ => []) })).setRecoveryRequest false

/-- RESET ENGINE (R133). -/
def cmdResetEngine (_ps : List Word) (s : State) : ResultCode × State :=
  let s1 := match s.engine.active with
    | none => s.abortRecovery.finishEnding
    | some j => (s.cutActive .abandoned j).finishEnding
  (.ok, s1.abandonJobs.engineAtRest)

/-! ## The map -/

/-- LOAD SECTOR (R51), its four tests in order. -/
def cmdLoadSector (ps : List Word) (s : State) : ResultCode × State :=
  match addrOf s.geom ps with
  | none => (.badParameter, s)
  | some a =>
      if !packServes s.pack.state then (.noPack, s)
      else if (s.postAt a).isSome then (.notIdle, s)
      else if (s.entryAt a).isNone && s.freeSlot.isNone then (.full, s)
      else (.ok, { s with ci := { s.ci with sequence := .awaitData a } })

/-- The data sector of LOAD SECTOR placed in the map (R52). -/
def State.loadData (a : Addr) (ws : List Word) (s : State) : ResultCode × State :=
  if !packServes s.pack.state then (.noPack, s)
  else
    match s.storeSector a .loaded ws with
    | some s1 => (.ok, s1)
    | none => (.full, s)

/-- The data sector taken (R52): the state returns to READY, the WRITE is answered DONE in every case. -/
def State.takeDataSector (a : Addr) (ws : List Word) (s : State) : State :=
  let (r, s1) := s.loadData a ws
  ({ s1 with ci := { s1.ci with sequence := .ready, lastResult := r } }).answer .done []

/-- DROP SECTOR (R53). -/
def cmdDropSector (ps : List Word) (s : State) : ResultCode × State :=
  match addrOf s.geom ps with
  | none => (.badParameter, s)
  | some a => if (s.entryAt a).isSome then (.ok, s.removeEntry a) else (.notFound, s)

/-! ## Commands that wait for CONFIRM (R166) -/

/-- A command made to wait for CONFIRM (R166). -/
def State.awaitConfirm (code : Word) (s : State) : ResultCode × State :=
  (.confirmRequired, { s with ci := { s.ci with sequence := .awaitConfirm code } })

/-- CLEAR MAP taken (R54). -/
def cmdClearMap (_ps : List Word) (s : State) : ResultCode × State := s.awaitConfirm Code.clearMap

/-- FORCE UNLOAD taken (R158). -/
def cmdForceUnload (_ps : List Word) (s : State) : ResultCode × State := s.awaitConfirm Code.forceUnload

/-- ENABLE FORMAT taken (R35). -/
def cmdEnableFormat (_ps : List Word) (s : State) : ResultCode × State := s.awaitConfirm Code.enableFormat

/-- CLEAR MAP confirmed (R54). -/
def confirmedClearMap (s : State) : ResultCode × State := (.ok, s.clearEntries)

/-- FORCE UNLOAD confirmed (R158). -/
def confirmedForceUnload (s : State) : ResultCode × State :=
  match s.pack.state with
  | .empty => (.noPack, s)
  | .spinningUp => (.ok, s.giveRelease)
  | .loaded | .unloadPending => (.ok, s.forceRelease)
  | .unloading => (.ok, s)

/-- ENABLE FORMAT confirmed (R35). -/
def confirmedEnableFormat (s : State) : ResultCode × State :=
  if packServes s.pack.state then (.ok, { s with port := { s.port with formatEnable := true } }) else (.noPack, s)

/-- The pending command executed at its CONFIRM (R166). -/
def confirmed (code : Word) (s : State) : ResultCode × State :=
  if code = Code.clearMap then confirmedClearMap s
  else if code = Code.forceUnload then confirmedForceUnload s
  else confirmedEnableFormat s

/-- CONFIRM that finds nothing to confirm (R166). -/
def cmdConfirm (_ps : List Word) (s : State) : ResultCode × State := (.sequenceLost, s)

/-! ## The pack -/

/-- PERMIT UNLOAD (R156); the release test it brings is the row UNLOAD_RELEASE (log 4). -/
def cmdPermitUnload (_ps : List Word) (s : State) : ResultCode × State :=
  match s.pack.state with
  | .empty | .spinningUp => (.noPack, s)
  | .loaded => (.notFound, s)
  | .unloadPending => (.ok, s.withPack (fun p => { p with permitGiven := true }))
  | .unloading => (.ok, s)

end Sys2Proof.Machine
end

