-- ==== Sys2Proof/Machine/Commands.lean ====
section
/-! DEFINITION. The Command Interface (R163 to R169): command sectors recognised, taken and executed, control sector reads;
and the meaning of each command row of the table. -/

namespace Sys2Proof.Machine

/-! ## Taking a command write -/

/-- The response selector becomes STATUS: the reply is discarded, and a READ DRIVE SECTOR not yet granted is withdrawn (R168,
R172). -/
def State.selectStatus (s : State) : State :=
  let s1 := if s.ci.reply.any (fun r => r.driveRead == some false) then s.withdraw .commandInterface else s
  s1.withReply none

/-- What a command does by its code (R163, R179); a code that names no command is refused with BAD_COMMAND. -/
def commandBody (code : Word) (ps : List Word) (s : State) : ResultCode × State :=
  if code = Code.showStatus then cmdShowStatus ps s
  else if code = Code.readResult then cmdReadResult ps s
  else if code = Code.readMapEntry then cmdReadMapEntry ps s
  else if code = Code.readStoreData then cmdReadStoreData ps s
  else if code = Code.listMap then cmdListMap ps s
  else if code = Code.readRegion then cmdReadRegion ps s
  else if code = Code.readLadder then cmdReadLadder ps s
  else if code = Code.readDriveSector then cmdReadDriveSector ps s
  else if code = Code.loadRegion then cmdLoadRegion ps s
  else if code = Code.deleteRegion then cmdDeleteRegion ps s
  else if code = Code.loadLadderStep then cmdLoadLadderStep ps s
  else if code = Code.clearLadder then cmdClearLadder ps s
  else if code = Code.recoverTrack then cmdRecoverTrack ps s
  else if code = Code.cancelTrack then cmdCancelTrack ps s
  else if code = Code.suspendEngine then cmdSuspendEngine ps s
  else if code = Code.resumeEngine then cmdResumeEngine ps s
  else if code = Code.resetEngine then cmdResetEngine ps s
  else if code = Code.loadSector then cmdLoadSector ps s
  else if code = Code.dropSector then cmdDropSector ps s
  else if code = Code.clearMap then cmdClearMap ps s
  else if code = Code.permitUnload then cmdPermitUnload ps s
  else if code = Code.forceUnload then cmdForceUnload ps s
  else if code = Code.setGuard then cmdSetGuard ps s
  else if code = Code.setMode then cmdSetMode ps s
  else if code = Code.setGeometry then cmdSetGeometry ps s
  else if code = Code.setTiming then cmdSetTiming ps s
  else if code = Code.setTrim then cmdSetTrim ps s
  else if code = Code.setControlAddress then cmdSetControlAddress ps s
  else if code = Code.enableFormat then cmdEnableFormat ps s
  else if code = Code.clearEvents then cmdClearEvents ps s
  else if code = Code.confirm then cmdConfirm ps s
  else (.badCommand, s)

/-- A command executed: refused with BAD_PARAMETER before its code is examined when the count names words the sector does not
hold (R163). -/
def runBody (count : Nat) (body : State → ResultCode × State) (s : State) : ResultCode × State :=
  if s.geom.words - 4 < count then (.badParameter, s) else body s

/-- The outcome of a command recorded, and the WRITE that carried it answered DONE (R165). -/
def concludeCommand (p : ResultCode × State) : State :=
  ({ p.2 with ci := { p.2.ci with lastResult := p.1 } }).answer .done []

/-- Whether a command sector is the CONFIRM that matches the pending code (R166). -/
def matchingConfirm (w count : Nat) (code : Word) (ps : List Word) (pending : Word) : Bool :=
  code == Code.confirm && count ≤ w - 4 && ps.head? == some pending

/-- A command sector taken while the state is READY or AWAIT_CONFIRM (R163, R165, R166, R167): its code is recorded, the
selector becomes STATUS, a pending record is confirmed or abandoned, and the command is executed. -/
def State.takeCommand (code : Word) (count : Nat) (ps : List Word) (body : State → ResultCode × State) (s : State) :
    State :=
  let s1 := s.selectStatus
  let s2 := { s1 with ci := { s1.ci with lastCommand := code } }
  match s2.ci.sequence with
  | .awaitConfirm pending =>
      if matchingConfirm s2.geom.words count code ps pending then
        concludeCommand (confirmed pending { s2 with ci := { s2.ci with sequence := .ready } })
      else concludeCommand (runBody count body s2.abandonSequence)
  | .ready | .awaitData _ => concludeCommand (runBody count body s2)

/-- A WRITE to the control sector address (R163, R164), the earlier request already dropped: the data sector in AWAIT_DATA, a
command sector, or returned to the Controller Port as an ordinary WRITE. -/
def State.controlWrite (ws : List Word) (s : State) : State :=
  match s.ci.sequence with
  | .awaitData a => s.takeDataSector a ws
  | .ready | .awaitConfirm _ =>
      if ws.take 2 = Config.signature then
        let n := (ws.getD 3 0).toNat
        let ps := (ws.drop 4).take n
        s.takeCommand (ws.getD 2 0) n ps (commandBody (ws.getD 2 0) ps)
      else (s.selectStatus.abandonSequence).dataWrite s.ci.controlAddr ws

/-- A command row: the command sector with this code and these parameters is written to the control sector address (log 5).
It is a new request that drops the earlier one (R20), it sets the virtual head (R3), and in AWAIT_DATA it is data like any
other sector (R163). -/
def State.commandStep (code : Word) (ps : List Word) (body : State → ResultCode × State) (s : State) : State :=
  let s1 := (s.dropRequest).setVirtHead s.ci.controlAddr.head
  match s1.ci.sequence with
  | .awaitData a => s1.takeDataSector a (commandSector s1.geom.words code ps)
  | .ready | .awaitConfirm _ => s1.takeCommand code ps.length ps body

/-! ## Control sector READs (R168 to R171) -/

/-- The status record built, the activity toggle inverted first while the engine is at work (R170, R171). -/
def State.buildStatus (s : State) : List Word × State :=
  let s1 := if s.engine.atWork then { s with ci := { s.ci with toggle := !s.ci.toggle } } else s
  (s1.statusRecord, s1)

/-- What a READ of the control sector returns (R168, R169): the status record, the current part of the reply with the
pointer advanced, or the unready reply. -/
def State.controlData (s : State) : List Word × State :=
  match s.ci.reply with
  | none => s.buildStatus
  | some r =>
      if r.ready then
        (r.part s.geom.words r.pointer,
          s.withReply (some { r with pointer := if r.pointer + 1 < r.parts then r.pointer + 1 else 0 }))
      else (r.notReadyPart s.geom.words, s)

/-- A READ of the control sector answered DONE (R5). -/
def State.readControl (s : State) : State :=
  let (ws, s1) := s.controlData
  s1.answer .done ws

/-! ## The command rows -/

/-- SHOW_STATUS (R168). -/
def execShowStatus (ps : List Word) (s : State) : Host.Outcome State Fault Refusal :=
  .next (s.commandStep Code.showStatus ps (cmdShowStatus ps))

/-- READ_RESULT (R175). -/
def execReadResult (ps : List Word) (s : State) : Host.Outcome State Fault Refusal :=
  .next (s.commandStep Code.readResult ps (cmdReadResult ps))

/-- READ_MAP_ENTRY (R56). -/
def execReadMapEntry (ps : List Word) (s : State) : Host.Outcome State Fault Refusal :=
  .next (s.commandStep Code.readMapEntry ps (cmdReadMapEntry ps))

/-- READ_STORE_DATA (R57). -/
def execReadStoreData (ps : List Word) (s : State) : Host.Outcome State Fault Refusal :=
  .next (s.commandStep Code.readStoreData ps (cmdReadStoreData ps))

/-- LIST_MAP (R58). -/
def execListMap (ps : List Word) (s : State) : Host.Outcome State Fault Refusal :=
  .next (s.commandStep Code.listMap ps (cmdListMap ps))

/-- READ_REGION (R29). -/
def execReadRegion (ps : List Word) (s : State) : Host.Outcome State Fault Refusal :=
  .next (s.commandStep Code.readRegion ps (cmdReadRegion ps))

/-- READ_LADDER (R107). -/
def execReadLadder (ps : List Word) (s : State) : Host.Outcome State Fault Refusal :=
  .next (s.commandStep Code.readLadder ps (cmdReadLadder ps))

/-- READ_DRIVE_SECTOR (R172). -/
def execReadDriveSector (ps : List Word) (s : State) : Host.Outcome State Fault Refusal :=
  .next (s.commandStep Code.readDriveSector ps (cmdReadDriveSector ps))

/-- LOAD_REGION (R26, R27). -/
def execLoadRegion (ps : List Word) (s : State) : Host.Outcome State Fault Refusal :=
  .next (s.commandStep Code.loadRegion ps (cmdLoadRegion ps))

/-- DELETE_REGION (R28). -/
def execDeleteRegion (ps : List Word) (s : State) : Host.Outcome State Fault Refusal :=
  .next (s.commandStep Code.deleteRegion ps (cmdDeleteRegion ps))

/-- LOAD_LADDER_STEP (R104, R105). -/
def execLoadLadderStep (ps : List Word) (s : State) : Host.Outcome State Fault Refusal :=
  .next (s.commandStep Code.loadLadderStep ps (cmdLoadLadderStep ps))

/-- CLEAR_LADDER (R106). -/
def execClearLadder (ps : List Word) (s : State) : Host.Outcome State Fault Refusal :=
  .next (s.commandStep Code.clearLadder ps (cmdClearLadder ps))

/-- RECOVER_TRACK (R117). -/
def execRecoverTrack (ps : List Word) (s : State) : Host.Outcome State Fault Refusal :=
  .next (s.commandStep Code.recoverTrack ps (cmdRecoverTrack ps))

/-- CANCEL_TRACK (R131). -/
def execCancelTrack (ps : List Word) (s : State) : Host.Outcome State Fault Refusal :=
  .next (s.commandStep Code.cancelTrack ps (cmdCancelTrack ps))

/-- SUSPEND_ENGINE (R132). -/
def execSuspendEngine (ps : List Word) (s : State) : Host.Outcome State Fault Refusal :=
  .next (s.commandStep Code.suspendEngine ps (cmdSuspendEngine ps))

/-- RESUME_ENGINE (R132). -/
def execResumeEngine (ps : List Word) (s : State) : Host.Outcome State Fault Refusal :=
  .next (s.commandStep Code.resumeEngine ps (cmdResumeEngine ps))

/-- RESET_ENGINE (R133). -/
def execResetEngine (ps : List Word) (s : State) : Host.Outcome State Fault Refusal :=
  .next (s.commandStep Code.resetEngine ps (cmdResetEngine ps))

/-- LOAD_SECTOR (R51). -/
def execLoadSector (ps : List Word) (s : State) : Host.Outcome State Fault Refusal :=
  .next (s.commandStep Code.loadSector ps (cmdLoadSector ps))

/-- DROP_SECTOR (R53). -/
def execDropSector (ps : List Word) (s : State) : Host.Outcome State Fault Refusal :=
  .next (s.commandStep Code.dropSector ps (cmdDropSector ps))

/-- CLEAR_MAP (R54). -/
def execClearMap (ps : List Word) (s : State) : Host.Outcome State Fault Refusal :=
  .next (s.commandStep Code.clearMap ps (cmdClearMap ps))

/-- PERMIT_UNLOAD (R156). -/
def execPermitUnload (ps : List Word) (s : State) : Host.Outcome State Fault Refusal :=
  .next (s.commandStep Code.permitUnload ps (cmdPermitUnload ps))

/-- FORCE_UNLOAD (R158). -/
def execForceUnload (ps : List Word) (s : State) : Host.Outcome State Fault Refusal :=
  .next (s.commandStep Code.forceUnload ps (cmdForceUnload ps))

/-- SET_GUARD (R155). -/
def execSetGuard (ps : List Word) (s : State) : Host.Outcome State Fault Refusal :=
  .next (s.commandStep Code.setGuard ps (cmdSetGuard ps))

/-- SET_MODE (R8). -/
def execSetMode (ps : List Word) (s : State) : Host.Outcome State Fault Refusal :=
  .next (s.commandStep Code.setMode ps (cmdSetMode ps))

/-- SET_GEOMETRY (R178). -/
def execSetGeometry (ps : List Word) (s : State) : Host.Outcome State Fault Refusal :=
  .next (s.commandStep Code.setGeometry ps (cmdSetGeometry ps))

/-- SET_TIMING (R173). -/
def execSetTiming (ps : List Word) (s : State) : Host.Outcome State Fault Refusal :=
  .next (s.commandStep Code.setTiming ps (cmdSetTiming ps))

/-- SET_TRIM (R88). -/
def execSetTrim (ps : List Word) (s : State) : Host.Outcome State Fault Refusal :=
  .next (s.commandStep Code.setTrim ps (cmdSetTrim ps))

/-- SET_CONTROL_ADDRESS (R162). -/
def execSetControlAddress (ps : List Word) (s : State) : Host.Outcome State Fault Refusal :=
  .next (s.commandStep Code.setControlAddress ps (cmdSetControlAddress ps))

/-- ENABLE_FORMAT (R35). -/
def execEnableFormat (ps : List Word) (s : State) : Host.Outcome State Fault Refusal :=
  .next (s.commandStep Code.enableFormat ps (cmdEnableFormat ps))

/-- CLEAR_EVENTS (R176). -/
def execClearEvents (ps : List Word) (s : State) : Host.Outcome State Fault Refusal :=
  .next (s.commandStep Code.clearEvents ps (cmdClearEvents ps))

/-- CONFIRM (R166). -/
def execConfirm (ps : List Word) (s : State) : Host.Outcome State Fault Refusal :=
  .next (s.commandStep Code.confirm ps (cmdConfirm ps))

/-- BAD_COMMAND (R163): a code that names no command; a code that does name one is that command. -/
def execBadCommand (code : Word) (ps : List Word) (s : State) : Host.Outcome State Fault Refusal :=
  .next (s.commandStep code ps (commandBody code ps))

end Sys2Proof.Machine
end

