-- ==== Sys2Proof/Machine/Requests.lean ====
section
/-! DEFINITION. The rows the controller's cable brings: the seven request kinds, a request for another unit, the data sector of
LOAD SECTOR, Controller Clear (01_requests_from_the_controller.md); and power-on (R177). -/

namespace Sys2Proof.Machine

/-- A new request that is no READ or command WRITE of the control sector: the earlier request is dropped (R2, R20) and a
pending sequence abandoned (R167). -/
def State.newRequest (s : State) : State := s.dropRequest.abandonSequence

/-- A SELECT taken (R1). -/
def State.takeSelect (s : State) : State := s.newRequest.answer .done []

/-- A TRANSPARENT SEEK or RECALIBRATE needs the drive while a pack is served; else it is virtual only (R7, R16). -/
def State.positionsDrive (s : State) : Bool := s.port.mode == Mode.transparent && packServes s.pack.state

/-- A SEEK taken (R3, R16). -/
def State.takeSeek (c : Nat) (s : State) : State :=
  let s1 := s.newRequest
  if s1.geom.cylinders ≤ c then s1.answer .seekError []
  else
    let s2 := { s1 with port := { s1.port with virtCyl := c } }
    if s2.positionsDrive then s2.requestPortWork .seek (.seek { cyl := c, head := s2.port.virtHead })
    else s2.answer .done []

/-- A RECALIBRATE taken (R3, R16). -/
def State.takeRecalibrate (s : State) : State :=
  let s1 := s.newRequest
  let s2 := { s1 with port := { s1.port with virtCyl := 0 } }
  if s2.positionsDrive then s2.requestPortWork .recalibrate .recalibrate else s2.answer .done []

/-- A READ or WRITE whose head or sector is out of range (R4, R167). -/
def State.outOfRange (s : State) : State := s.abandonSequence.answer .headerCheck []

/-- The address of a READ or WRITE (R4). -/
def State.requestAddr (head sector : Nat) (s : State) : Addr :=
  { cyl := s.port.virtCyl, head := head, sector := sector }

/-- A READ taken: range check (R4), control sector (R5), data request (R6). -/
def State.takeRead (head sector : Nat) (s : State) : State :=
  let s1 := s.dropRequest
  if s1.geom.heads ≤ head then s1.outOfRange
  else
    let s2 := s1.setVirtHead head
    if s2.geom.sectors ≤ sector then s2.outOfRange
    else if s2.requestAddr head sector = s2.ci.controlAddr then s2.readControl
    else s2.abandonSequence.dataRead (s2.requestAddr head sector)

/-- A WRITE taken: range check (R4), control sector (R5, R163), data request (R6). Its words are the W words of the sector
(log 12). -/
def State.takeWrite (head sector : Nat) (words : List Word) (s : State) : State :=
  let s1 := s.dropRequest
  if s1.geom.heads ≤ head then s1.outOfRange
  else
    let s2 := s1.setVirtHead head
    let ws := fitWords s2.geom.words words
    if s2.geom.sectors ≤ sector then s2.outOfRange
    else if s2.requestAddr head sector = s2.ci.controlAddr then s2.controlWrite ws
    else s2.abandonSequence.dataWrite (s2.requestAddr head sector) ws

/-- A FORMAT taken (R4, R6, R15). -/
def State.takeFormat (head : Nat) (s : State) : State :=
  let s1 := s.newRequest
  if s1.geom.heads ≤ head then s1.answer .headerCheck []
  else (s1.setVirtHead head).dataFormat { cyl := s1.port.virtCyl, head := head }

/-- A SENSE taken (R9): the outstanding request stays as it was, a pending sequence is abandoned (R167). -/
def State.takeSense (s : State) : State :=
  let s1 := s.abandonSequence
  { s1 with completions := s1.completions ++ [s1.senseAnswer] }

/-- A request for this unit taken, Media Write Permit as it stands. -/
def State.takeRequest : Request → State → State
  | .select, s => s.takeSelect
  | .seek c, s => s.takeSeek c
  | .recalibrate, s => s.takeRecalibrate
  | .read head sector, s => s.takeRead head sector
  | .write head sector words, s => s.takeWrite head sector words
  | .format head, s => s.takeFormat head
  | .sense, s => s.takeSense

/-- A WRITE of the control sector at its address, the data sector of LOAD SECTOR when one is awaited (R52, R163). Taken with no
data awaited and without the signature it goes on as an ordinary WRITE (R163), judged with Media Write Permit as last sampled, since
the row carries no level (R31, R33; DESIGN CHOICE, log 43). -/
def State.takeControlWrite (words : List Word) (s : State) : State :=
  let s1 := (s.dropRequest).setVirtHead s.ci.controlAddr.head
  s1.controlWrite (fitWords s1.geom.words words)

/-- Controller Clear (R23). -/
def State.controllerClear (s : State) : State :=
  let s1 := (s.dropRequest.abandonSequence).selectStatus
  { s1 with port := { s1.port with virtCyl := 0, virtHead := 0, formatEnable := false } }

/-- The state of the blocks at power-on under straps, every input line of the drive deasserted (R177 and the power-on values
State.reset cites); the clock, the model's logs, the permit and protect pins and the queue of commands stay (log 25). -/
def State.poweredOn (straps : Straps) (s : State) : State :=
  let g := profileGeometry straps.profile
  { State.reset with
    now := s.now
    geom := g
    lines := { s.lines with ready := false, fault := false }
    port := { State.reset.port with unit := straps.unit, mode := straps.mode }
    engine := { State.reset.engine with transparent := straps.mode == Mode.transparent }
    ci := { State.reset.ci with
              controlAddr := { cyl := g.cylinders - 1, head := g.heads - 1, sector := g.sectors - 1 } }
    completions := s.completions
    driveLog := s.driveLog
    pending := s.pending }

/-- The ready line found asserted at power-on: a rise of ready taken at once by the Pack Monitor (R151) and by the drive
condition (R77); with the fault line asserted the fault handling begins (R98). -/
def State.powerOnReady (fault : Bool) (s : State) : State :=
  let s1 := { s with lines := { s.lines with ready := true, fault := fault }
                     drive := { s.drive with cond := .ready }
                     pack := { s.pack with state := .spinningUp } }
  if fault then s1.beginFault else s1

/-- POWER_ON (R177). -/
def execPowerOn (straps : Straps) (ready fault : Bool) (s : State) : Host.Outcome State Fault Refusal :=
  let s1 := s.poweredOn straps
  .next (if ready then s1.powerOnReady fault else { s1 with lines := { s1.lines with fault := fault } })

/-- CONTROLLER_CLEAR (R23). -/
def execControllerClear (s : State) : Host.Outcome State Fault Refusal := .next s.controllerClear

/-- OTHER_UNIT_REQUEST (R1): a request that names another unit has no effect; one that names the strapped unit is taken
(log 23). -/
def execOtherUnitRequest (unit : Fin 8) (r : Request) (s : State) : Host.Outcome State Fault Refusal :=
  .next (if unit = s.port.unit then s.takeRequest r else s)

/-- SELECT (R1). -/
def execSelect (s : State) : Host.Outcome State Fault Refusal := .next s.takeSelect

/-- SEEK (R3, R16). -/
def execSeek (c : Nat) (s : State) : Host.Outcome State Fault Refusal := .next (s.takeSeek c)

/-- RECALIBRATE (R3, R16). -/
def execRecalibrate (s : State) : Host.Outcome State Fault Refusal := .next s.takeRecalibrate

/-- READ (R4 to R7, R11, R12, R16). -/
def execRead (head sector : Nat) (s : State) : Host.Outcome State Fault Refusal := .next (s.takeRead head sector)

/-- WRITE (R4 to R7, R14, R16). -/
def execWrite (head sector : Nat) (words : List Word) (permit : Bool) (s : State) : Host.Outcome State Fault Refusal :=
  .next ((s.setPermit permit).takeWrite head sector words)

/-- FORMAT (R4, R6, R15). -/
def execFormat (head : Nat) (permit : Bool) (s : State) : Host.Outcome State Fault Refusal :=
  .next ((s.setPermit permit).takeFormat head)

/-- SENSE (R9). -/
def execSense (permit : Bool) (s : State) : Host.Outcome State Fault Refusal := .next (s.setPermit permit).takeSense

/-- LOAD_SECTOR_DATA (R52). -/
def execLoadSectorData (words : List Word) (s : State) : Host.Outcome State Fault Refusal :=
  .next (s.takeControlWrite words)

end Sys2Proof.Machine
end

