-- ==== Sys2Proof/Machine/Grants.lean ====
section
/-! DEFINITION. The Drive Arbiter's choice and the beginning of each client's grant (R64, R71, R81, R82, R109, R124). -/

namespace Sys2Proof.Machine

/-- The drive can be granted: the activity is IDLE, the condition READY (R79, R80) and the pack not UNLOADING (R157). -/
def State.grantsDrive (s : State) : Bool :=
  s.drive.activity == .idle && s.drive.cond == .ready && s.pack.state != .unloading

/-- The winner of a choice (R81). -/
inductive Winner where
  | flush
  | controller (r : ControllerRequest) (rest : List ControllerRequest)
  | recovery
  | nobody
  deriving DecidableEq, Repr

/-- The arbiter's choice (R81): an overdue FLUSH, the earlier made CONTROLLER request, FLUSH, RECOVERY. -/
def State.winner (s : State) : Winner :=
  if s.flushOverdue then .flush
  else
    match s.drive.requests with
    | r :: rest => .controller r rest
    | [] => if s.flushRequested then .flush else if s.drive.recoveryRequest then .recovery else .nobody

/-- A FLUSH grant (R64, R66, R82): with Media Write Permit deasserted it ends without drive work and flushing is held; else
the oldest entry is written. -/
def State.grantFlush (s : State) : State :=
  if s.lines.permit then
    match s.posts.entries with
    | [] => s
    | p :: _ => s.startGrant false (s.centreGrant (.flush p.addr none false))
  else { s with posts := { s.posts with heldForPermit := true } }

/-- The capture of a READ's track begins (R71): its buffer is chosen, given to the track and made the most recently used. -/
def State.grantCapture (a : Addr) (s : State) : State :=
  let i := s.chooseBuffer a.track
  let s1 := (s.giveBuffer i a.track).setStage .capturing
  s1.startGrant false (s1.centreGrant (.capture a.track a.sector (some i) []))

/-- The work of a Controller Port request granted (R82); a READ of a prefetch region is a capture unless a speed fault is in
force (R12, R71, log 15). -/
def State.grantPortWork (w : Work) (s : State) : State :=
  match w with
  | .read a prefetch =>
      if prefetch && !s.timer.speedFault then s.grantCapture a
      else
        let s1 := s.setStage .working
        s1.startGrant false (s1.centreGrant w)
  | .capture _ _ _ _ | .driveSector _ | .seek _ | .recalibrate | .write _ _ | .format _ _ | .flush _ _ _
  | .recovery _ _ _ _ =>
      let s1 := s.setStage .working
      s1.startGrant false (s1.centreGrant w)

/-- A READ DRIVE SECTOR's reply remembers that its request has been granted, so that it is no longer withdrawn (R172). -/
def State.markDriveReply (s : State) : State :=
  s.withReply (s.ci.reply.map (fun r => if r.driveRead.isSome then { r with driveRead := some true } else r))

/-- A CONTROLLER grant (R81, R82). -/
def State.grantController (r : ControllerRequest) (rest : List ControllerRequest) (s : State) : State :=
  let s1 := s.withDrive (fun d => { d with requests := rest })
  match r.client with
  | .port => s1.grantPortWork r.work
  | .commandInterface => s1.markDriveReply.startGrant false (s1.centreGrant r.work)

/-- The grant of a recovery pass under a step (R85, R87, R92, R109): the code with the trim in force, the step's strobe and
threshold, the pending set as it stands. -/
def State.recoveryGrant (j : Job) (t : LadderStep) (s : State) : Grant :=
  { work := .recovery j.track t (j.passesDone == 0) j.pending, allowanceUsed := false,
    code := offsetCode s.drive.trim t.headOffset, strobe := t.strobe, threshold := t.threshold, settleSpent := false,
    clamped := offsetClamped s.drive.trim t.headOffset, aborted := false, passedOver := [] }

/-- A RECOVERY grant (R109, R124): the step is read from the ladder as it stands; a recalibrate asked for is made, and the
flag is then no. A step missing from the ladder gives no grant (log 30). -/
def State.grantRecovery (s : State) : State :=
  match s.engine.active with
  | none => s
  | some j =>
      match (s.ladderOf j)[j.step]? with
      | none => s
      | some t =>
          let s1 := (s.setRecoveryRequest false).withEngine (Engine.updateActive (fun j => { j with recalFirst := false }))
          s1.startGrant j.recalFirst (s1.recoveryGrant j t)

/-- The winner granted its unit of work (R81). -/
def State.giveGrant (s : State) : State :=
  match s.winner with
  | .flush => s.grantFlush
  | .controller r rest => s.grantController r rest
  | .recovery => s.grantRecovery
  | .nobody => s

/-- DRIVE_GRANT (R81). -/
def execDriveGrant (permit : Bool) (s : State) : Host.Outcome State Fault Refusal :=
  let s1 := s.setPermit permit
  .next (if s1.grantsDrive then s1.giveGrant else s1)

end Sys2Proof.Machine
end

