-- ==== Sys2Proof/Machine/DriveEvents.lean ====
section
/-! DEFINITION. The rows of the drive's positioning, rotation and reading: the ends of seeks, settles, reads, captures, writes and
FORMAT's revolutions, the index pulse and its loss (05_the_drive_sequencer.md). -/

namespace Sys2Proof.Machine

/-- The grant running in an activity. -/
def State.grantIn (a : Activity) (s : State) : Option Grant := if s.drive.activity = a then s.drive.grant else none

/-! ## Positioning (R83, R84, R100) -/

/-- The physical cylinder set. -/
def State.setPhysCyl (c : Option Nat) (s : State) : State := s.withDrive (fun d => { d with physCyl := c })

/-- A seek or recalibrate completes for a grant (R83): an aborted grant ends (R100), a recalibrate is followed by the seek, a
seek by the rest of the work. -/
def State.positioningDone (recalibrating : Bool) (g : Grant) (s : State) : State :=
  if recalibrating then
    let s1 := s.setPhysCyl (some 0)
    if g.aborted then s1.endGrant else s1.seekPhase g
  else
    let s1 := s.setPhysCyl g.work.cylinder
    if g.aborted then s1.endGrant else s1.positioned g

/-- SEEK_COMPLETE (R83). -/
def execSeekComplete (s : State) : Host.Outcome State Fault Refusal :=
  .next (match s.drive.activity, s.drive.grant with
    | .positioning recalibrating _, some g => s.positioningDone recalibrating g
    | .positioning _ _, none | .idle, _ | .settling, _ | .reading, _ | .writing, _ | .verifying, _ | .clearing _, _ => s)

/-- A seek or recalibrate fails for a grant (R83, R84): a failed recalibrate ends the grant, and any failure of a RECOVERY grant
ends its work; a failed seek of another grant is a positioning failure. A READ DRIVE SECTOR that ends so gives zeros for the header
and the field, also where an earlier read of the grant met a header of another cylinder: R172 does not say which (DESIGN CHOICE,
log 41). -/
def State.positioningExpired (recalibrating : Bool) (g : Grant) (s : State) : State :=
  let s1 := s.setPhysCyl none
  let field := fitWords (s1.geom.words + 1) []
  if g.aborted then s1.endGrant
  else if recalibrating then s1.recalibrateLost g [0, 0, 0] field
  else
    match g.work with
    | .recovery _ _ _ _ => s1.positioningLost g [0, 0, 0] field
    | .read _ _ | .capture _ _ _ _ | .driveSector _ | .seek _ | .recalibrate | .write _ _ | .format _ _ | .flush _ _ _ =>
        s1.positioningFailure g [0, 0, 0] field

/-- POSITIONING_LIMIT_EXPIRY (R83): the positioning limit passes. -/
def execPositioningLimitExpiry (permit : Bool) (s : State) : Host.Outcome State Fault Refusal :=
  .next (match s.drive.activity, s.drive.grant with
    | .positioning recalibrating deadline, some g =>
        ((s.setPermit permit).advanceTo deadline).positioningExpired recalibrating g
    | .positioning _ _, none | .idle, _ | .settling, _ | .reading, _ | .writing, _ | .verifying, _ | .clearing _, _ => s)

/-! ## The settle revolution (R86) -/

/-- SETTLE_END (R86): the settled flag becomes yes, the settle is charged to the grant, and its work begins. -/
def execSettleEnd (s : State) : Host.Outcome State Fault Refusal :=
  .next (match s.grantIn .settling with
    | none => s
    | some g =>
        let g1 := { g with settleSpent := true }
        ((s.withDrive (fun d => { d with settled := true })).setGrant g1).beginWork g1)

/-! ## The index pulse (R64, R94 to R97) -/

/-- The Revolution Timer at an index pulse (R95): the count is latched as a period, unless this is the first pulse after
power-on or a rise of ready; it starts again from 0, and the watch for index loss is made (R97). -/
def State.latchPeriod (s : State) : State :=
  let period := s.timer.count
  let counted := s.timer.counting
  let s1 := { s with timer :=
    { s.timer with count := 0, counting := true, watching := true
                   lastPeriod := if counted then period else s.timer.lastPeriod } }
  if counted then s1.takePeriod period else s1

/-- At each index pulse while flushing is held for Media Write Permit, the hold ends and the request is made again (R64). -/
def State.renewFlush (s : State) : State := { s with posts := { s.posts with heldForPermit := false } }

/-- A FORMAT's drive work ends (R94): any buffer of its track is emptied (R76), and it is answered. -/
def State.formatEnds (t : Track) (st : Status) (s : State) : State :=
  (s.endGrant.emptyTrackBuffer t).answerAt .working st []

/-- What a FORMAT writes in the window of one sector (R89, R94): the header with its check word, W words of zero and their check
word. -/
def formattedSector (g : Geometry) (t : Track) (n : Nat) : FormattedSector :=
  let id := [word t.cyl, headSectorWord t.head n]
  let zeros := fitWords g.words []
  { header := id ++ [crc id], words := zeros, check := crc zeros }

/-- What the writing revolution of a FORMAT writes, in the order of the sector windows (R94). -/
def formattedTrack (g : Geometry) (t : Track) : List FormattedSector := (List.range g.sectors).map (formattedSector g t)

/-- A FORMAT at an index pulse (R94): the pulse that begins the writing revolution tests the write-protect line; the next one
begins the verifying revolution. -/
def State.formatIndex (g : Grant) (s : State) : State :=
  match g.work with
  | .format t .awaitIndex =>
      if s.lines.writeProtect then s.formatEnds t .writeFault
      else (s.command (.formatTrack t (formattedTrack s.geom t))).setGrant { g with work := .format t .writing }
  | .format t .writing => (s.setGrant { g with work := .format t .verifying }).setActivity .verifying
  | .format _ .verifying | .read _ _ | .capture _ _ _ _ | .driveSector _ | .seek _ | .recalibrate | .write _ _
  | .flush _ _ _ | .recovery _ _ _ _ => s

/-- The running FORMAT, if one writes, taken on by an index pulse. -/
def State.advanceFormat (s : State) : State :=
  match s.grantIn .writing with
  | none => s
  | some g => s.formatIndex g

/-- INDEX_PULSE (R95): `elapsed` ticks after the row before, the write-protect line as it stands. -/
def execIndexPulse (elapsed : Nat) (protect : Bool) (s : State) : Host.Outcome State Fault Refusal :=
  .next ((((s.advance elapsed).setProtect protect).latchPeriod.renewFlush).advanceFormat)

/-- A READ that waits on the rotation ends as NO_DATA at an index loss: DATA_CHECK with zero words, no recovery (R97). -/
def State.readLost (stage : Stage) (s : State) : State :=
  s.answerAt stage .dataCheck (fitWords s.geom.words [])

/-- A grant waiting on the rotation ended by index loss (R97). A write gate already raised completes its data field. A flush
attempt that ends so tests Media Write Permit for its retry at the level last sampled, since INDEX_LOSS carries none, and before the
speed fault; the speed fault withholds the retry in any case, so the level decides only whether flushing is held for the line until
the next index pulse (R64, R65, R67; DESIGN CHOICE, log 6). A READ DRIVE SECTOR ended so is NO_DATA with zeros, also where an earlier try
of its grant had decoded a header of another cylinder (R172; DESIGN CHOICE, log 41). -/
def State.rotationLost (gateRaised : Bool) (g : Grant) (s : State) : State :=
  match g.work with
  | .read _ _ => s.endGrant.readLost .working
  | .capture _ _ _ _ => s.endGrant.readLost .capturing
  | .driveSector a => s.endGrant.fillDriveReplyEmpty true a (OutcomeKind.toWord .noData)
  | .write _ _ => if gateRaised then s else s.endGrant.answerAt .working .writeFault []
  | .format t _ => s.formatEnds t .writeFault
  | .flush a _ dropped => if gateRaised then s else (s.invalidateSector a).flushFailed g a dropped
  | .recovery _ _ _ _ => s.endGrant.recoveryEnded g (State.takeAborted g)
  | .seek _ | .recalibrate => s

/-- The activities that wait on the rotation (R79, R97). -/
def Activity.rotating : Activity → Bool
  | .settling | .reading | .writing | .verifying => true
  | .idle | .positioning _ _ | .clearing _ => false

/-- The speed status at an index loss (R97): a fault begins, or goes on with its inside count 0. -/
def State.speedAtLoss (s : State) : State :=
  if s.timer.speedFault then { s with timer := { s.timer with inside := 0 } } else s.beginSpeedFault

/-- Index loss taken (R97). -/
def State.takeIndexLoss (gateRaised : Bool) (s : State) : State :=
  let s1 := (s.advance (2 * nominalTicks s.geom - s.timer.count)).setEvent .indexLost
  let s2 := ({ s1 with timer := { s1.timer with watching := false } }).speedAtLoss
  match s2.drive.grant with
  | some g => if s2.drive.activity.rotating then s2.rotationLost (gateRaised && s2.drive.activity == .writing) g else s2
  | none => s2

/-- INDEX_LOSS (R97): taken while a pack is served and the watch stands; `gateRaised` says whether a sector write's gate is
raised at that moment (log 14). -/
def execIndexLoss (gateRaised : Bool) (s : State) : Host.Outcome State Fault Refusal :=
  .next (if packServes s.pack.state && s.timer.watching then s.takeIndexLoss gateRaised else s)

/-! ## Reads (R10, R72, R73, R92, R172) -/

/-- The end of a single-sector read (R10, R84, R92, R172). -/
def State.sectorRead (g : Grant) (a : Addr) (o : PassOutcome) (s : State) : State :=
  if o.otherCylinder a.cyl then s.positioningFailure g o.header (o.field s.geom.words)
  else
    match g.work with
    | .driveSector _ =>
        s.endGrant.fillDriveReply true a (OutcomeKind.toWord o.kind) o.header (o.field s.geom.words)
    | .read _ _ | .capture _ _ _ _ | .seek _ | .recalibrate | .write _ _ | .format _ _ | .flush _ _ _
    | .recovery _ _ _ _ => if s.stage = some .working then s.endGrant.finishRead o else s.endGrant

/-- The address a single-sector read is made at. -/
def Work.readAddr : Work → Option Addr
  | .read a _ | .driveSector a => some a
  | .capture _ _ _ _ | .seek _ | .recalibrate | .write _ _ | .format _ _ | .flush _ _ _ | .recovery _ _ _ _ => none

/-- READ_SECTOR_END (R10). -/
def execReadSectorEnd (signal : SectorSignal) (s : State) : Host.Outcome State Fault Refusal :=
  .next (match s.grantIn .reading with
    | none => s
    | some g =>
        match g.work.readAddr with
        | none => s
        | some a => s.sectorRead g a (passOutcome g.threshold s.geom.words a signal))

/-- The outstanding READ waits on a sector of the running capture (R72, R73). -/
def State.awaitsCapture (a : Addr) (s : State) : Bool :=
  match s.port.outstanding with
  | some q =>
      q.stage == .capturing &&
        match q.work with
        | .read b _ _ => b == a
        | .write _ _ | .format _ | .seek | .recalibrate => false
  | none => false

/-- A GOOD sector stored in the buffer a capture fills (R72); one of any other kind leaves it as it was. -/
def State.storeCaptured (buffer : Option Nat) (n : Nat) (o : PassOutcome) (s : State) : State :=
  match buffer with
  | none => s
  | some i =>
      if o.kind = .good then
        let b := s.buffer i
        s.setBuffer i { b with good := tablePut n (o.answerData s.geom.words) b.good }
      else s

/-- A sector decoded in a capture (R72, R73, R84). -/
def State.captureDecoded (g : Grant) (t : Track) (want : Nat) (buffer : Option Nat) (decoded : List Nat) (n : Nat)
    (o : PassOutcome) (s : State) : State :=
  let awaited := s.awaitsCapture (t.at n)
  if (n = want || awaited) && o.otherCylinder t.cyl then s.positioningFailure g o.header (o.field s.geom.words)
  else
    let s1 := (s.storeCaptured buffer n o).setGrant { g with work := .capture t want buffer (insertSector n decoded) }
    if awaited then s1.finishRead o else s1

/-- CAPTURE_SECTOR_DECODED (R72): a sector of the track not yet decoded in this revolution. -/
def execCaptureSectorDecoded (n : Nat) (signal : SectorSignal) (s : State) : Host.Outcome State Fault Refusal :=
  .next (match s.grantIn .reading with
    | none => s
    | some g =>
        match g.work with
        | .capture t want buffer decoded =>
            if n < s.geom.sectors && !decoded.contains n then
              s.captureDecoded g t want buffer decoded n (passOutcome g.threshold s.geom.words (t.at n) signal)
            else s
        | .read _ _ | .driveSector _ | .seek _ | .recalibrate | .write _ _ | .format _ _ | .flush _ _ _
        | .recovery _ _ _ _ => s)

/-- CAPTURE_END (R72): the grant ends; a READ whose sector was never decoded meets NO_DATA (log 22). -/
def execCaptureEnd (s : State) : Host.Outcome State Fault Refusal :=
  .next (match s.grantIn .reading with
    | none => s
    | some g =>
        match g.work with
        | .capture _ _ _ _ =>
            if s.stage = some .capturing then s.endGrant.finishRead PassOutcome.nothing else s.endGrant
        | .read _ _ | .driveSector _ | .seek _ | .recalibrate | .write _ _ | .format _ _ | .flush _ _ _
        | .recovery _ _ _ _ => s)

/-! ## Writes (R66, R67, R93) -/

/-- How a sector write ended (R93). -/
inductive WriteEnd where
  | written
  | headerNotFound
  | writeProtected
  deriving DecidableEq, Repr

/-- The end of a sector write by its header and the write-protect line (R93). -/
def writeEnd (threshold : Nat) (a : Addr) (header : Option (List BitCell)) (protect : Bool) : WriteEnd :=
  if !headerMatching threshold a header then .headerNotFound
  else if protect then .writeProtected
  else .written

/-- A data field written with its check word (R93). -/
def State.writeSector (a : Addr) (ws : List Word) (s : State) : State := s.command (.writeSector a ws (crc ws))

/-- The end of a TRANSPARENT WRITE (R16, R39, R45, R93): written, its effects take place even when it was dropped. -/
def State.directWriteEnds (a : Addr) (ws : List Word) (e : WriteEnd) (s : State) : State :=
  match e with
  | .written => (((s.writeSector a ws).endGrant).passEffects a).answerAt .working .done []
  | .headerNotFound | .writeProtected => s.endGrant.answerAt .working .writeFault []

/-- The end of a flush write (R66 to R68, R75): the buffered sector is invalid in every case; a dropped entry's result is
discarded. -/
def State.flushWriteEnds (g : Grant) (a : Addr) (ws : List Word) (dropped : Bool) (e : WriteEnd) (s : State) : State :=
  match e with
  | .written =>
      let s1 := ((s.writeSector a ws).invalidateSector a).endGrant
      if dropped then s1 else s1.flushWritten a
  | .writeProtected =>
      let s1 := (s.invalidateSector a).endGrant
      if dropped then s1 else s1.flushProtected a
  | .headerNotFound => (s.invalidateSector a).flushFailed g a dropped

/-- SECTOR_WRITE_END (R93): the header found in the sector's window, the write-protect line and Media Write Permit as they
stand. -/
def execSectorWriteEnd (header : Option (List BitCell)) (protect permit : Bool) (s0 : State) :
    Host.Outcome State Fault Refusal :=
  let s := (s0.setProtect protect).setPermit permit
  .next (match s.grantIn .writing with
    | none => s
    | some g =>
        match g.work with
        | .write a ws =>
            if headerOfOtherCylinder g.threshold a.cyl header then s.positioningFailure g [] []
            else s.directWriteEnds a ws (writeEnd g.threshold a header protect)
        | .flush a (some ws) dropped =>
            if headerOfOtherCylinder g.threshold a.cyl header then s.positioningFailure g [] []
            else s.flushWriteEnds g a ws dropped (writeEnd g.threshold a header protect)
        | .flush _ none _ | .read _ _ | .capture _ _ _ _ | .driveSector _ | .seek _ | .recalibrate | .format _ _
        | .recovery _ _ _ _ => s)

/-- Every header of the verifying revolution is matching (R94). -/
def headersMatch (threshold sectors : Nat) (t : Track) (headers : List (Option (List BitCell))) : Bool :=
  (List.range sectors).all (fun n => headerMatching threshold (t.at n) (headers.getD n none))

/-- FORMAT_WORK_END (R94). -/
def execFormatWorkEnd (headers : List (Option (List BitCell))) (s : State) : Host.Outcome State Fault Refusal :=
  .next (match s.grantIn .verifying with
    | none => s
    | some g =>
        match g.work with
        | .format t _ =>
            s.formatEnds t (if headersMatch g.threshold s.geom.sectors t headers then .done else .writeFault)
        | .read _ _ | .capture _ _ _ _ | .driveSector _ | .seek _ | .recalibrate | .write _ _ | .flush _ _ _
        | .recovery _ _ _ _ => s)

/-! ## The end of a recovery pass (R125) -/

/-- The signals of the sectors read in a pass, by number; one not handed over is a window without syncs (log 22). -/
def passOutcomes (threshold w : Nat) (t : Track) (sectors : List Nat) (signals : List (Nat × SectorSignal)) :
    List (Nat × PassOutcome) :=
  sectors.map (fun n =>
    (n, match tableGet n signals with
      | some g => passOutcome threshold w (t.at n) g
      | none => PassOutcome.nothing))

/-- RECOVERY_PASS_END (R125, R126, R134): the report goes to the ACTIVE job; that of a job left ENDING is discarded. -/
def execRecoveryPassEnd (signals : List (Nat × SectorSignal)) (s : State) : Host.Outcome State Fault Refusal :=
  .next (match s.grantIn .reading with
    | none => s
    | some g =>
        match g.work with
        | .recovery t step firstPass sectors =>
            s.endGrant.recoveryEnded g
              (State.takeReport step firstPass g
                (passOutcomes g.threshold s.geom.words t sectors signals))
        | .read _ _ | .capture _ _ _ _ | .driveSector _ | .seek _ | .recalibrate | .write _ _ | .format _ _
        | .flush _ _ _ => s)

end Sys2Proof.Machine
end

