-- ==== Sys2Proof/Machine/LineEvents.lean ====
section
/-! DEFINITION. The rows of the drive's ready and fault lines (R77, R98, R99, R152, R159, R160) and of the panel's Unload
Request with the release it leads to (R154, R157, R158). -/

namespace Sys2Proof.Machine

/-- The level of the drive's ready line. -/
def State.setReady (level : Bool) (s : State) : State := { s with lines := { s.lines with ready := level } }

/-- The level of the drive's fault line. -/
def State.setFault (level : Bool) (s : State) : State := { s with lines := { s.lines with fault := level } }

/-- The drive condition. -/
def State.setCond (c : DriveCond) (s : State) : State := s.withDrive (fun d => { d with cond := c })

/-! ## Ready -/

/-- The Pack Monitor takes a rise of ready (R152). -/
def State.packRise (s : State) : State :=
  if s.pack.state = .empty then s.withPack (fun p => { p with state := .spinningUp, spinUp := 0 }) else s

/-- The ready line rises (R77, R95, R98, R152): the condition becomes READY, the next index pulse only starts the count, and a
fault line found asserted begins the fault handling. -/
def State.takeReadyRise (s : State) : State :=
  let s1 := ((s.setReady true).setCond .ready).packRise
  let s2 := { s1 with timer := { s1.timer with counting := false } }
  if s.lines.fault then s2.beginFault else s2

/-- DRIVE_READY_RISE (R77, R152); a line already asserted does not rise (log 3). -/
def execDriveReadyRise (s : State) : Host.Outcome State Fault Refusal :=
  .next (if s.lines.ready then s else s.takeReadyRise)

/-- The fall of ready taken by the sequencer (R99, R80): the running grant ends, the condition becomes NOT_READY cause OFF, the
physical cylinder unknown, the activity IDLE; a request that waited for the end of a fault clear and every standing CONTROLLER
request are answered NOT_READY. -/
def State.sequencerFall (s : State) : State :=
  let s1 := s.loseGrant .ready
  let s2 := s1.withDrive (fun d => { d with cond := .off, physCyl := none, activity := .idle })
  (s2.answerAt .clearing .notReady []).handBackAll

/-- The fall of ready taken by the Pack Monitor (R152, R159, R160). -/
def State.packFall (s : State) : State :=
  match s.pack.state with
  | .empty => s
  | .spinningUp => s.packGone
  | .loaded | .unloadPending => s.losePack
  | .unloading => s.finishEnding.packGone

/-- DRIVE_READY_FALL (R99, R159, R160); a line already deasserted does not fall (log 3). -/
def execDriveReadyFall (s : State) : Host.Outcome State Fault Refusal :=
  .next (if s.lines.ready then ((s.setReady false).sequencerFall).packFall else s)

/-! ## Fault -/

/-- The sequencer is clearing a fault (R98). -/
def Activity.isClearing : Activity → Bool
  | .clearing _ => true
  | .idle | .positioning _ _ | .settling | .reading | .writing | .verifying => false

/-- A rise of the fault line (R98): taken as a drive fault while ready is asserted, unless a fault is being cleared already. -/
def State.takeFaultRise (s : State) : State :=
  let s1 := s.setFault true
  if s.lines.ready && !s.drive.activity.isClearing then s1.beginFault else s1

/-- DRIVE_FAULT (R98); a line already asserted does not rise (log 3). -/
def execDriveFault (s : State) : Host.Outcome State Fault Refusal :=
  .next (if s.lines.fault then s else s.takeFaultRise)

/-- The fault clear found the fault removed (R98 step 5). -/
def State.faultRemoved (s : State) : State := (s.setActivity .idle).answerAt .clearing .writeFault []

/-- The fault clear found the fault persisting (R98 step 6). -/
def State.faultPersists (s : State) : State :=
  (((s.setActivity .idle).setCond .fault).answerAt .clearing .notReady []).handBackAll

/-- FAULT_CLEAR_END (R98): the N ticks have passed. -/
def execFaultClearEnd (s : State) : Host.Outcome State Fault Refusal :=
  .next (match s.drive.activity with
    | .clearing deadline =>
        let s1 := s.advanceTo deadline
        if s.lines.fault then s1.faultPersists else s1.faultRemoved
    | .idle | .positioning _ _ | .settling | .reading | .writing | .verifying => s)

/-- FAULT_LINE_FALL (R77): with ready asserted a condition of NOT_READY cause FAULT returns to READY. -/
def execFaultLineFall (s : State) : Host.Outcome State Fault Refusal :=
  let s1 := s.setFault false
  .next (if s.lines.ready && s.drive.cond == .fault then s1.setCond .ready else s1)

/-! ## Unload (R154, R155, R157, R158) -/

/-- An Unload Request taken in LOADED (R154); the release test it brings is the row UNLOAD_RELEASE (log 4). -/
def State.beginUnloadPending (s : State) : State :=
  (s.setEvent .unloadRequested).withPack (fun p => { p with state := .unloadPending, firstRequest := some s.now })

/-- An Unload Request taken in UNLOAD_PENDING: 10 s or more after the first it forces the release (R154, R158). -/
def State.secondRequest (s : State) : State :=
  match s.pack.firstRequest with
  | some t => if t + Config.secondUnloadTicks ≤ s.now then (s.setEvent .unloadRequested).forceRelease else s
  | none => s

/-- An Unload Request (R154). -/
def State.takeUnloadRequest (s : State) : State :=
  match s.pack.state with
  | .empty | .unloading => s
  | .spinningUp => (s.setEvent .unloadRequested).giveRelease
  | .loaded => s.beginUnloadPending
  | .unloadPending => s.secondRequest

/-- UNLOAD_REQUEST (R154): `elapsed` ticks after the row before. -/
def execUnloadRequest (elapsed : Nat) (s : State) : Host.Outcome State Fault Refusal :=
  .next (s.advance elapsed).takeUnloadRequest

/-- UNLOAD_RELEASE (R155, R157): given while UNLOAD_PENDING when the release test passes. -/
def execUnloadRelease (s : State) : Host.Outcome State Fault Refusal :=
  .next (if s.pack.state = .unloadPending ∧ s.releaseTest then s.giveRelease else s)

end Sys2Proof.Machine
end

