-- ==== Sys2Proof/Machine/EngineEvents.lean ====
section
/-! DEFINITION. The rows of the part's own moments: activation (R121, R122), the ends of the batch window (R119), of a hold (R19)
and of the Flush Latency (R62), and the entry of a waiting WRITE (R21). -/

namespace Sys2Proof.Machine

/-! ## Activation (R121, R122) -/

/-- An activation is due (R122); RESULTS_FULL does not count as stopping the engine for this test. -/
def State.activationDue (s : State) : Bool :=
  s.engine.active.isNone && !s.engine.stoppedForActivation && s.engine.runPhase == .running && s.engine.ending.isNone

/-- The PARKED job resumed (R121): it keeps its bank, reservation, accumulators, index and passes done. -/
def State.resumeParked (j : Job) (s : State) : State :=
  (s.withEngine (fun e => { e with active := some j, parked := none })).liftResultsFull.poke

/-- The bank not held by a PARKED job (R121); with no job PARKED both are free and the rule does not say which, and bank 0 is
taken (DESIGN CHOICE, log 40). -/
def Engine.otherBank (e : Engine) : Nat := if e.parked.bind (·.bank) = some 0 then 1 else 0

/-- The head activated (R121): a bank with empty accumulators, a reservation, step 0; an empty ladder ends it COMPLETED at
once. -/
def State.activateHead (j : Job) (rest : List Job) (s : State) : State :=
  let b := s.engine.otherBank
  let j1 := { j with bank := some b, reservation := true, step := 0, passesDone := 0 }
  let s1 := s.withEngine (fun e => { e.setBank b [] with active := some j1, queued := rest })
  if (s.ladderOf j).length = 0 then s1.endActive .completed j1 else s1.liftResultsFull.poke

/-- RESULTS_FULL placed and set: the head waits and no reservation can be made (R122). -/
def State.placeResultsFull (s : State) : State :=
  (s.setEvent .resultsFull).withEngine (fun e => { e with resultsFull := true })

/-- The head activated when a reservation can be made, else RESULTS_FULL (R122). -/
def State.activateOrHold (s : State) : State :=
  match s.engine.queued with
  | [] => s
  | j :: rest => if s.canReserve then s.activateHead j rest else s.placeResultsFull

/-- The choice of a due activation (R122): an urgent PARKED job, an urgent head, the PARKED job, the head. -/
def State.activate (s : State) : State :=
  match s.engine.parked with
  | none => s.activateOrHold
  | some p =>
      if p.urgent then s.resumeParked p
      else if s.engine.headUrgent && s.canReserve then s.activateOrHold
      else s.resumeParked p

/-- JOB_ACTIVATION (R122). -/
def execJobActivation (s : State) : Host.Outcome State Fault Refusal :=
  .next (if s.activationDue then s.activate else s)

/-! ## The batch window (R119) -/

/-- BATCH_WINDOW_EXPIRY (R119): the window closes and the batch is sorted; the activation it brings is the row JOB_ACTIVATION
(log 4). -/
def execBatchWindowExpiry (s : State) : Host.Outcome State Fault Refusal :=
  .next (match s.engine.window with
    | none => s
    | some t => (s.advanceTo t).withEngine Engine.closeWindow)

/-! ## Holds (R19, R21) -/

/-- The held request answered at its deadline (R19). -/
def State.expireHold (h : Hold) (s : State) : State :=
  match h.kind with
  | .read last => (s.setEvent .holdExpired).finishRequest .dataCheck last
  | .write _ => (s.setEvent .holdExpired).finishRequest .writeFault []

/-- HOLD_DEADLINE (R19). -/
def execHoldDeadline (s : State) : Host.Outcome State Fault Refusal :=
  .next (match s.port.hold with
    | none => s
    | some h => (s.advanceTo h.deadline).expireHold h)

/-- A waiting WRITE judged again when a place is free (R21, R31). -/
def State.enterWaiting (a : Addr) (ws : List Word) (s : State) : State :=
  if (s.regionAt a.cyl).write = .pass ∧ s.lines.permit then (s.takePost a ws).finishRequest .done []
  else s.finishRequest .writeProtected []

/-- WAITING_WRITE_ENTRY (R21): nothing while no place is free. -/
def execWaitingWriteEntry (permit : Bool) (s0 : State) : Host.Outcome State Fault Refusal :=
  let s := s0.setPermit permit
  .next (match s.port.hold with
    | none => s
    | some h =>
        match h.kind with
        | .read _ => s
        | .write ws => if s.postHasRoom h.addr then s.enterWaiting h.addr ws else s)

/-! ## The Flush Latency (R62) -/

/-- FLUSH_LATENCY_EXPIRY (R62): the oldest entry's age comes to exceed the Flush Latency; the request is overdue from then on
by the test of the arbiter's choice (log 9). -/
def execFlushLatencyExpiry (s : State) : Host.Outcome State Fault Refusal :=
  .next (match s.posts.entries with
    | [] => s
    | p :: _ => s.advanceTo (p.firstArrival + msTicks s.timing.flushLatency + 1))

end Sys2Proof.Machine
end

