-- ==== Sys2Proof/Machine/Dispatch.lean ====
section
/-! DEFINITION. The dispatch of a command to its meaning: one arm per row of spec/opcode_table.json. -/

namespace Sys2Proof.Machine

/-- The effect of a command on everything but the queue of waiting commands. -/
def exec (i : Instr) (s : State) : Host.Outcome State Fault Refusal :=
  match i with
  | .powerOn straps ready fault => Sys2Proof.Machine.execPowerOn straps ready fault s
  | .controllerClear => Sys2Proof.Machine.execControllerClear s
  | .otherUnitRequest unit request => Sys2Proof.Machine.execOtherUnitRequest unit request s
  | .select => Sys2Proof.Machine.execSelect s
  | .seek cylinder => Sys2Proof.Machine.execSeek cylinder s
  | .recalibrate => Sys2Proof.Machine.execRecalibrate s
  | .read head sector => Sys2Proof.Machine.execRead head sector s
  | .write head sector words permit => Sys2Proof.Machine.execWrite head sector words permit s
  | .format head permit => Sys2Proof.Machine.execFormat head permit s
  | .sense permit => Sys2Proof.Machine.execSense permit s
  | .loadSectorData words => Sys2Proof.Machine.execLoadSectorData words s
  | .driveGrant permit => Sys2Proof.Machine.execDriveGrant permit s
  | .seekComplete => Sys2Proof.Machine.execSeekComplete s
  | .positioningLimitExpiry permit => Sys2Proof.Machine.execPositioningLimitExpiry permit s
  | .settleEnd => Sys2Proof.Machine.execSettleEnd s
  | .indexPulse elapsed protect => Sys2Proof.Machine.execIndexPulse elapsed protect s
  | .indexLoss gateRaised => Sys2Proof.Machine.execIndexLoss gateRaised s
  | .readSectorEnd signal => Sys2Proof.Machine.execReadSectorEnd signal s
  | .captureSectorDecoded sector signal => Sys2Proof.Machine.execCaptureSectorDecoded sector signal s
  | .captureEnd => Sys2Proof.Machine.execCaptureEnd s
  | .sectorWriteEnd header protect permit => Sys2Proof.Machine.execSectorWriteEnd header protect permit s
  | .formatWorkEnd headers => Sys2Proof.Machine.execFormatWorkEnd headers s
  | .recoveryPassEnd signals => Sys2Proof.Machine.execRecoveryPassEnd signals s
  | .jobActivation => Sys2Proof.Machine.execJobActivation s
  | .batchWindowExpiry => Sys2Proof.Machine.execBatchWindowExpiry s
  | .holdDeadline => Sys2Proof.Machine.execHoldDeadline s
  | .waitingWriteEntry permit => Sys2Proof.Machine.execWaitingWriteEntry permit s
  | .flushLatencyExpiry => Sys2Proof.Machine.execFlushLatencyExpiry s
  | .driveReadyRise => Sys2Proof.Machine.execDriveReadyRise s
  | .driveReadyFall => Sys2Proof.Machine.execDriveReadyFall s
  | .driveFault => Sys2Proof.Machine.execDriveFault s
  | .faultClearEnd => Sys2Proof.Machine.execFaultClearEnd s
  | .faultLineFall => Sys2Proof.Machine.execFaultLineFall s
  | .unloadRequest elapsed => Sys2Proof.Machine.execUnloadRequest elapsed s
  | .unloadRelease => Sys2Proof.Machine.execUnloadRelease s
  | .showStatus params => Sys2Proof.Machine.execShowStatus params s
  | .readResult params => Sys2Proof.Machine.execReadResult params s
  | .readMapEntry params => Sys2Proof.Machine.execReadMapEntry params s
  | .readStoreData params => Sys2Proof.Machine.execReadStoreData params s
  | .listMap params => Sys2Proof.Machine.execListMap params s
  | .readRegion params => Sys2Proof.Machine.execReadRegion params s
  | .readLadder params => Sys2Proof.Machine.execReadLadder params s
  | .readDriveSector params => Sys2Proof.Machine.execReadDriveSector params s
  | .loadRegion params => Sys2Proof.Machine.execLoadRegion params s
  | .deleteRegion params => Sys2Proof.Machine.execDeleteRegion params s
  | .loadLadderStep params => Sys2Proof.Machine.execLoadLadderStep params s
  | .clearLadder params => Sys2Proof.Machine.execClearLadder params s
  | .recoverTrack params => Sys2Proof.Machine.execRecoverTrack params s
  | .cancelTrack params => Sys2Proof.Machine.execCancelTrack params s
  | .suspendEngine params => Sys2Proof.Machine.execSuspendEngine params s
  | .resumeEngine params => Sys2Proof.Machine.execResumeEngine params s
  | .resetEngine params => Sys2Proof.Machine.execResetEngine params s
  | .loadSector params => Sys2Proof.Machine.execLoadSector params s
  | .dropSector params => Sys2Proof.Machine.execDropSector params s
  | .clearMap params => Sys2Proof.Machine.execClearMap params s
  | .permitUnload params => Sys2Proof.Machine.execPermitUnload params s
  | .forceUnload params => Sys2Proof.Machine.execForceUnload params s
  | .setGuard params => Sys2Proof.Machine.execSetGuard params s
  | .setMode params => Sys2Proof.Machine.execSetMode params s
  | .setGeometry params => Sys2Proof.Machine.execSetGeometry params s
  | .setTiming params => Sys2Proof.Machine.execSetTiming params s
  | .setTrim params => Sys2Proof.Machine.execSetTrim params s
  | .setControlAddress params => Sys2Proof.Machine.execSetControlAddress params s
  | .enableFormat params => Sys2Proof.Machine.execEnableFormat params s
  | .clearEvents params => Sys2Proof.Machine.execClearEvents params s
  | .confirm params => Sys2Proof.Machine.execConfirm params s
  | .badCommand code params => Sys2Proof.Machine.execBadCommand code params s

end Sys2Proof.Machine
end

