-- ==== Sys2Proof/Safety.lean ====
section
/-! DEFINITION. What a sound state of the part is, in the terms the statements use: the ranges and shapes of its tables and
records, the laws its collections keep between them. Each is a Bool over plain data; the statements say that reset has it and
that every step keeps it. -/

namespace Sys2Proof.Machine

/-! ## Tables and values -/

/-- A geometry within the limits of R178. -/
def geometryWf (g : Geometry) : Bool :=
  1 ≤ g.cylinders && g.cylinders ≤ 1024 && 1 ≤ g.heads && g.heads ≤ 16 && 1 ≤ g.sectors && g.sectors ≤ 32 &&
    (g.words == 64 || g.words == 128 || g.words == 256) && 10 ≤ g.periodMs && g.periodMs ≤ 60

/-- A region entry's fields in their ranges (R24). -/
def regionWf (cylinders : Nat) (r : Region) : Bool := r.low ≤ r.high && r.high < cylinders && r.ladder < Config.ladders

/-- A region shares no cylinder with any occupied slot of a list (R24). -/
def apartFrom (r : Region) (l : List (Option Region)) : Bool :=
  l.all (fun o => match o with
    | some t => !Region.overlaps r t
    | none => true)

/-- No two occupied slots share a cylinder (R24). -/
def regionsApart : List (Option Region) → Bool
  | [] => true
  | none :: rest => regionsApart rest
  | some r :: rest => apartFrom r rest && regionsApart rest

/-- The Region Table as R24 keeps it: 16 slots, each occupied one in range, no two sharing a cylinder. -/
def regionsWf (cylinders : Nat) (l : List (Option Region)) : Bool :=
  l.length == Config.regionSlots && l.all (fun o => o.all (regionWf cylinders)) && regionsApart l

/-- A ladder step's fields in their ranges (R102). -/
def stepWf (t : LadderStep) : Bool :=
  -6 ≤ t.strobe && t.strobe ≤ 6 && -50 ≤ t.headOffset && t.headOffset ≤ 50 && t.threshold ≤ 15 && 1 ≤ t.passes &&
    t.passes ≤ 8 && t.flipLimit ≤ 4 && t.flipCeiling ≤ 127

/-- The Ladder Table as R101 keeps it: 8 ladders of at most 12 steps, every field in its range. -/
def laddersWf (l : List (List LadderStep)) : Bool :=
  l.length == Config.ladders && l.all (fun ts => ts.length ≤ Config.ladderSteps && ts.all stepWf)

/-- The timing values in their ranges (R173). -/
def timingWf (t : Timing) : Bool :=
  t.holdLimit ≤ 2000 && t.batchWindow ≤ 1000 && 10 ≤ t.flushLatency && t.flushLatency ≤ 2000

/-- The trim in its range (R78, R88). -/
def trimWf (t : Int) : Bool := -512 ≤ t && t ≤ 511

/-- Every table and setting of the part is in range: geometry, regions, ladders, timing values, trim, the virtual position and
the control sector address within the geometry. -/
def State.tablesWf (s : State) : Bool :=
  geometryWf s.geom && regionsWf s.geom.cylinders s.regions && laddersWf s.ladders && timingWf s.timing &&
    trimWf s.drive.trim && s.port.virtCyl < s.geom.cylinders && s.port.virtHead < s.geom.heads &&
    s.ci.controlAddr.within s.geom

/-! ## The Substitution Map -/

/-- No two numbers of a list are equal. -/
def numbersApart : List Nat → Bool
  | [] => true
  | n :: rest => !rest.contains n && numbersApart rest

/-- The map in its one form (R40, R42): entries in strictly rising address order, no two bound to one slot, every slot a slot of
the store; the store's slots listed once each in rising order. -/
def State.mapWf (s : State) : Bool :=
  entriesWf s.map.entries && numbersApart (s.map.entries.map (·.slot)) &&
    s.map.entries.all (fun e => e.slot < Config.storeSlots) && tableWf s.map.store

/-! ## The Post Queue -/

/-- No two addresses of a list are equal. -/
def addressesApart : List Addr → Bool
  | [] => true
  | a :: rest => !rest.contains a && addressesApart rest

/-- The Post Queue as R60 keeps it: at most 8 entries, no address twice, 0 to 2 failed attempts each. -/
def State.postsWf (s : State) : Bool :=
  s.posts.entries.length ≤ Config.postEntries && addressesApart (s.posts.entries.map (·.addr)) &&
    s.posts.entries.all (fun p => p.failed < Config.flushFailures)

/-- A waiting WRITE stands (R17). -/
def State.writeWaits (s : State) : Bool :=
  match s.port.hold with
  | some h =>
      match h.kind with
      | .write _ => true
      | .read _ => false
  | none => false

/-- The address that awaits LOAD SECTOR's data has no post entry, and no waiting WRITE can make one (R51, R52). -/
def State.loadClear (s : State) : Bool :=
  match s.ci.sequence with
  | .awaitData a => (s.postAt a).isNone && !s.writeWaits
  | .ready | .awaitConfirm _ => true

/-- No sector address has both a post entry and a map entry (R44). -/
def State.postsApartFromMap (s : State) : Bool :=
  s.posts.entries.all (fun p => (s.entryAt p.addr).isNone) && s.loadClear

/-! ## The Recovery Queue and the Result Queue -/

/-- No two tracks of a list are equal. -/
def tracksApart : List Track → Bool
  | [] => true
  | t :: rest => !rest.contains t && tracksApart rest

/-- A job that is ACTIVE, PARKED or ENDING holds a bank and a reservation (R114, R121). -/
def Job.placedWf (j : Job) : Bool := j.reservation && j.bank.any (fun b => b < 2)

/-- A QUEUED job holds neither (R114). -/
def Job.queuedWf (j : Job) : Bool := !j.reservation && j.bank.isNone

/-- The ACTIVE and the PARKED job hold different banks (R121). -/
def Engine.banksApart (e : Engine) : Bool :=
  match e.active, e.parked with
  | some j, some p => j.bank != p.bank
  | some _, none | none, _ => true

/-- Urgent jobs stand before all others (R120). -/
def urgentFirst : List Job → Bool
  | [] => true
  | j :: rest => (j.urgent || rest.all (fun k => !k.urgent)) && urgentFirst rest

/-- The queued portion as R119 and R120 keep it: urgent jobs at its front, and none while a batch window is open. -/
def Engine.orderWf (e : Engine) : Bool :=
  urgentFirst e.queued && (e.window.isNone || e.queued.all (fun j => !j.urgent))

/-- The queues as R113, R114, R120, R122 and R134 keep them: at most 16 jobs, no track twice, banks and reservations with the jobs
out of the queued portion alone and the two banks apart, urgent jobs first, records held plus reservations at most 64, a job ENDING
only while the pack is UNLOADING; and the two banks with one accumulator for each sector number (R136). -/
def State.queuesWf (s : State) : Bool :=
  s.engine.length ≤ Config.recoveryJobs && tracksApart (s.engine.jobs.map (·.track)) &&
    s.engine.placed.all Job.placedWf && s.engine.queued.all Job.queuedWf &&
    s.engine.banksApart && s.engine.orderWf && s.results.length + s.engine.reservations ≤ Config.resultPlaces &&
    (s.engine.ending.isNone || s.pack.state == .unloading) && s.engine.banks.length == 2 && s.engine.banks.all tableWf

/-! ## The pack and what follows it -/

/-- The hold reasons stand with their conditions (R116), Format Enable and the Pack Monitor's record with the pack state (R36,
R151). -/
def State.packWf (s : State) : Bool :=
  s.engine.noPack == !packServes s.pack.state && s.engine.transparent == (s.port.mode == Mode.transparent) &&
    s.engine.speed == s.timer.speedFault && (!s.port.formatEnable || packServes s.pack.state) &&
    s.pack.firstRequest.isSome == (s.pack.state == .unloadPending) &&
    s.pack.unloadRelease == (s.pack.state == .unloading) && s.pack.spinUp < Config.spinUpPeriods

/-- With no pack served nothing is posted, held or queued (R55, R69, R134, R22); with none in the drive the map is empty
too. -/
def State.emptyWithoutPack (s : State) : Bool :=
  (packServes s.pack.state ||
    (s.posts.entries.isEmpty && s.port.hold.isNone && s.engine.active.isNone && s.engine.parked.isNone &&
      s.engine.queued.isEmpty)) &&
    (packServes s.pack.state || s.pack.state == .unloading || (s.map.entries.isEmpty && s.engine.ending.isNone))

/-! ## The sequencer and the port -/

/-- An activity in which a grant runs (R79). -/
def Activity.working : Activity → Bool
  | .positioning _ _ | .settling | .reading | .writing | .verifying => true
  | .idle | .clearing _ => false

/-- A client has a request standing at the Drive Arbiter. -/
def State.requestsOf (c : Client) (s : State) : Nat := (s.drive.requests.filter (fun r => r.client == c)).length

/-- A standing CONTROLLER request is of a kind its client makes (R80): a READ DRIVE SECTOR is the Command Interface's, and its only
kind (R172); the Controller Port's is for a READ, SEEK, RECALIBRATE, WRITE or FORMAT whose work has not begun (R12, R15, R16). A
capture, a flush write and a recovery pass stand as no CONTROLLER request. -/
def ControllerRequest.wf (r : ControllerRequest) : Bool :=
  match r.client, r.work with
  | .commandInterface, .driveSector _ => true
  | .commandInterface, .read _ _ | .commandInterface, .capture _ _ _ _ | .commandInterface, .seek _
  | .commandInterface, .recalibrate | .commandInterface, .write _ _ | .commandInterface, .format _ _
  | .commandInterface, .flush _ _ _ | .commandInterface, .recovery _ _ _ _ => false
  | .port, .read _ _ | .port, .seek _ | .port, .recalibrate | .port, .write _ _ | .port, .format _ .awaitIndex => true
  | .port, .driveSector _ | .port, .capture _ _ _ _ | .port, .flush _ _ _ | .port, .recovery _ _ _ _
  | .port, .format _ .writing | .port, .format _ .verifying => false

/-- The sequencer and the port as R2, R17, R79, R80 and R172 keep them: a grant runs exactly in the activities of a grant; the
Controller Port has one request standing exactly when the outstanding request is ungranted, the Command Interface one exactly
when its READ DRIVE SECTOR is; a hold stands exactly when the outstanding request is held. -/
def State.driveWf (s : State) : Bool :=
  s.drive.grant.isSome == s.drive.activity.working && s.drive.requests.all ControllerRequest.wf &&
    s.requestsOf .port == (if s.stage = some .standing then 1 else 0) &&
    s.requestsOf .commandInterface ==
      (if s.ci.reply.any (fun r => r.driveRead == some false) then 1 else 0) &&
    s.port.hold.isSome == (s.stage == some .held)

/-! ## The Command Interface -/

/-- The pending record of a CONFIRM names one of the three commands that wait for one (R35, R54, R158, R166). -/
def State.sequenceWf (s : State) : Bool :=
  match s.ci.sequence with
  | .awaitConfirm code => code == Code.clearMap || code == Code.forceUnload || code == Code.enableFormat
  | .ready | .awaitData _ => true

/-- A state of the part with every law of this file. -/
def State.sound (s : State) : Bool :=
  s.tablesWf && s.mapWf && s.postsWf && s.postsApartFromMap && s.queuesWf && s.packWf && s.emptyWithoutPack && s.driveWf &&
    s.sequenceWf

/-! ## What taking a request or a command leaves -/

/-- The requests that still stand at the Drive Arbiter when a new request has withdrawn the Controller Port's (R2) and, for a
command write, the Command Interface's ungranted one (R172). -/
def State.requestsKept (commandWrite : Bool) (s : State) : List ControllerRequest :=
  s.drive.requests.filter (fun r =>
    !(r.client == .port && s.stage == some .standing) &&
      !(commandWrite && r.client == .commandInterface && s.ci.reply.any (fun q => q.driveRead == some false)))

/-- The state when a new request other than a READ or a command write of the control sector has been taken, before its own
effect: the earlier request is dropped (R2, R20) and a pending sequence is abandoned (R167). -/
def State.afterRequest (s : State) : State :=
  { s with
    port := { s.port with outstanding := none, hold := none }
    drive := { s.drive with requests := s.requestsKept false }
    ci := if s.ci.sequence = .ready then s.ci else { s.ci with sequence := .ready, lastResult := .sequenceLost }
    events := if s.ci.sequence = .ready then s.events else withEvent .sequenceLost s.events }

/-- The state when a data request with a head in range has been taken, before its own effect (R3). -/
def State.afterDataRequest (head : Nat) (s : State) : State := s.afterRequest.setVirtHead head

/-- The state when a command sector has been executed, but for the command's own effect: the earlier request is dropped (R2,
R20), the virtual head is the control sector's (R3), the selector is STATUS (R168), a pending confirmation is gone, abandoned
with SEQUENCE_LOST (R166, R167) unless `confirming`, the codes are recorded and the WRITE is answered DONE (R165). -/
def State.afterCommandWrite (confirming : Bool) (code : Word) (r : ResultCode) (s : State) : State :=
  { s with
    port := { s.port with outstanding := none, hold := none, virtHead := s.ci.controlAddr.head }
    drive := { s.drive with requests := s.requestsKept true }
    ci := { s.ci with sequence := .ready, reply := none, lastCommand := code, lastResult := r }
    events := if s.ci.sequence = .ready ∨ confirming then s.events else withEvent .sequenceLost s.events
    completions := s.completions ++ [.status .done []] }

/-- The state after a command sector whose own effect is nothing. -/
def State.afterCommand (code : Word) (r : ResultCode) (s : State) : State := s.afterCommandWrite false code r

/-- A READ or WRITE of this head and sector passes the range check and is no request of the control sector (R4, R5). -/
abbrev State.isDataRequest (head sector : Nat) (s : State) : Prop :=
  head < s.geom.heads ∧ sector < s.geom.sectors ∧ s.requestAddr head sector ≠ s.ci.controlAddr

/-- Three parameters that name an address within the geometry (R51, R53, R56, R57, R58, R162, R172); parameters beyond the third are
ignored. -/
abbrev namesAddr (g : Geometry) (ps : List Word) (a : Addr) : Prop :=
  3 ≤ ps.length ∧ a = ⟨(ps.getD 0 0).toNat, (ps.getD 1 0).toNat, (ps.getD 2 0).toNat⟩ ∧
    a.cyl < g.cylinders ∧ a.head < g.heads ∧ a.sector < g.sectors

/-- The state after a query whose reply is formed ready: the reply is selected, its part count by the contents (R168, R169). -/
def State.afterQuery (code : Word) (kind : ReplyKind) (r : ResultCode) (contents : List Word) (s : State) : State :=
  { s.afterCommand code r with
    ci := { (s.afterCommand code r).ci with
      reply := some { kind := kind, result := r, ready := true, contents := contents,
                      parts := if contents.length ≤ s.geom.words - 5 then 1 else 2, pointer := 0, driveRead := none } } }

/-- A command sector with these parameters is taken as a command (R163): no data sector is awaited, and the sector has room for
the parameters. -/
def State.takesCommand (ps : List Word) (s : State) : Prop :=
  (∀ a, s.ci.sequence ≠ .awaitData a) ∧ ps.length + 4 ≤ s.geom.words

end Sys2Proof.Machine
end

