-- ==== Sys2Proof/Certificates/Slice0/Obligations.lean ====
section
/-! DEFINITION. The statements for the provers: what each command and the part as a whole do, from the numbered rules of spec/.
Each `def Obligations.<Name> : Prop` is one statement; its docstring names the rules it formalises and, where a clause rests on
a choice of the model, the log entry. -/

open Sys2Proof Sys2Proof.Machine

/-! ## The step, reset and power-on -/

/-- A step takes the command at the front of the queue and executes it with the queue's rest. On an empty queue one tick of
10 µs passes (the model's choice, log 1). -/
def Obligations.StepRunsFrontCommand : Prop :=
  ∀ (s : State) (c : Instr) (rest : List Instr),
    (s.pending = c :: rest → step s = exec c { s with pending := rest }) ∧
      (s.pending = [] → step s = .next (s.advance 1))

/-- The state after reset: the power-on values of the blocks with the straps open and the drive's lines deasserted. Where the
spec gives no value the value is the model's (logs 1, 6, 8, 10, 11). -/
def Obligations.ResetHoldsPowerOnValues : Prop :=
  State.reset.geom = ⟨210, 2, 16, 256, 25⟩ ∧ State.reset.port.mode = .interpose ∧ State.reset.port.unit = 0 ∧
    State.reset.port.virtCyl = 0 ∧ State.reset.port.virtHead = 0 ∧ State.reset.port.outstanding = none ∧
    State.reset.port.hold = none ∧ State.reset.port.formatEnable = false ∧
    State.reset.timing = ⟨400, 100, 200⟩ ∧ State.reset.regions = List.replicate 16 none ∧
    State.reset.ladders = builtinLadder :: List.replicate 7 [] ∧ State.reset.map.entries = [] ∧
    State.reset.posts.entries = [] ∧ State.reset.buffers.order = [0, 1, 2, 3] ∧
    State.reset.buffers.slots = List.replicate 4 ⟨none, []⟩ ∧ State.reset.drive.cond = .off ∧
    State.reset.drive.physCyl = none ∧ State.reset.drive.physHead = 0 ∧ State.reset.drive.offsetCode = 8192 ∧
    State.reset.drive.settled = false ∧ State.reset.drive.strobe = 0 ∧ State.reset.drive.threshold = 8 ∧
    State.reset.drive.trim = 0 ∧ State.reset.drive.activity = .idle ∧ State.reset.timer.speedFault = false ∧
    State.reset.engine.jobs = [] ∧ State.reset.engine.runPhase = .idle ∧ State.reset.engine.suspended = false ∧
    State.reset.engine.noPack = true ∧ State.reset.results = [] ∧ State.reset.events = 0 ∧
    State.reset.pack = ⟨.empty, 0, 0, .waitPermit, none, false, false⟩ ∧ State.reset.ci.controlAddr = ⟨209, 1, 15⟩ ∧
    State.reset.ci.sequence = .ready ∧ State.reset.ci.reply = none ∧ State.reset.ci.toggle = false ∧
    State.reset.ci.lastCommand = 0 ∧ State.reset.ci.lastResult = .none ∧ State.reset.sound = true

/-- POWER_ON under any straps: every block at its power-on values with the strapped unit, profile and mode; a ready line found
asserted is a rise of ready (condition READY, pack SPINNING_UP), and a fault line found asserted beside it begins the fault
handling of R98. That the clock, the logs, the queue of commands and the levels of Media Write Permit and write-protect stay as they
were is the model's choice (log 25). -/
def Obligations.PowerOnReadsStraps : Prop :=
  ∀ (straps : Straps) (ready fault : Bool) (s : State), ∃ t, exec (.powerOn straps ready fault) s = .next t ∧
    t.geom = profileGeometry straps.profile ∧ t.port = { State.reset.port with unit := straps.unit, mode := straps.mode } ∧
    t.timing = State.reset.timing ∧ t.regions = State.reset.regions ∧ t.ladders = State.reset.ladders ∧
    t.map = State.reset.map ∧ t.posts = State.reset.posts ∧ t.buffers = State.reset.buffers ∧ t.results = [] ∧
    t.timer = State.reset.timer ∧
    t.engine = { State.reset.engine with transparent := straps.mode == Mode.transparent } ∧
    t.ci = { State.reset.ci with controlAddr :=
      ⟨(profileGeometry straps.profile).cylinders - 1, (profileGeometry straps.profile).heads - 1,
        (profileGeometry straps.profile).sectors - 1⟩ } ∧
    t.pack = { State.reset.pack with state := if ready then .spinningUp else .empty } ∧
    t.lines = { s.lines with ready := ready, fault := fault } ∧
    t.events = (if ready ∧ fault then withEvent .driveFault 0 else 0) ∧
    t.drive = { State.reset.drive with
      cond := if ready then .ready else .off
      activity := if ready ∧ fault then .clearing (s.now + nominalTicks (profileGeometry straps.profile)) else .idle } ∧
    t.driveLog = (if ready ∧ fault then s.driveLog ++ [.faultClear] else s.driveLog) ∧
    t.now = s.now ∧ t.completions = s.completions ∧ t.pending = s.pending

/-! ## Requests of the controller (01_requests_from_the_controller.md) -/

/-- SELECT, SEEK and RECALIBRATE where they give no work to the drive (R1, R3, R7): the earlier request is dropped, a pending
sequence abandoned, the virtual cylinder set, and nothing else changes but the answer.

SEEK and RECALIBRATE in TRANSPARENT mode with a pack served (R16): the virtual cylinder is set and drive work requested, the
request outstanding; with the condition NOT_READY the request is handed back and answered NOT_READY at once (R80). -/
def Obligations.PositioningRequestsOfTheCable : Prop :=
  (∀ (s : State) (c : Nat),
     exec .select s = .next (s.afterRequest.answer .done []) ∧
     (s.geom.cylinders ≤ c → exec (.seek c) s = .next (s.afterRequest.answer .seekError [])) ∧
     (s.port.mode = .interpose ∨ packServes s.pack.state = false →
       (c < s.geom.cylinders → exec (.seek c) s = .next
         { s.afterRequest with port := { s.afterRequest.port with virtCyl := c }
                               completions := s.completions ++ [.status .done []] }) ∧
       exec .recalibrate s = .next
         { s.afterRequest with port := { s.afterRequest.port with virtCyl := 0 }
                               completions := s.completions ++ [.status .done []] })) ∧
  (∀ (s : State) (c : Nat), s.port.mode = .transparent → packServes s.pack.state = true → c < s.geom.cylinders →
     (s.drive.cond = .ready →
       exec (.seek c) s = .next
         { s.afterRequest with
           port := { s.afterRequest.port with virtCyl := c, outstanding := some ⟨.seek, .standing⟩ }
           drive := { s.drive with requests := s.requestsKept false ++ [⟨.port, .seek ⟨c, s.port.virtHead⟩⟩] } } ∧
       exec .recalibrate s = .next
         { s.afterRequest with
           port := { s.afterRequest.port with virtCyl := 0, outstanding := some ⟨.recalibrate, .standing⟩ }
           drive := { s.drive with requests := s.requestsKept false ++ [⟨.port, .recalibrate⟩] } }) ∧
     (s.drive.cond ≠ .ready →
       exec (.seek c) s = .next
         { s.afterRequest with port := { s.afterRequest.port with virtCyl := c }
                               completions := s.completions ++ [.status .notReady []] } ∧
       exec .recalibrate s = .next
         { s.afterRequest with port := { s.afterRequest.port with virtCyl := 0 }
                               completions := s.completions ++ [.status .notReady []] }))

/-- A READ data request in INTERPOSE mode is served by the first place that holds its sector (R11): post entry, map entry, track
buffer (which becomes the most recently used); no other state changes but the answer.

A READ data request that no collection serves (R11 step 4, R12, R73), and every READ data request in TRANSPARENT mode (R16), goes to
the drive: it waits on a running capture that will decode its sector, else its drive work is requested, with the region looked up
now; with the condition NOT_READY it is answered NOT_READY at once (R80). That it waits on such a capture during a speed fault too,
where R12 has one centre read serve it, is the model's choice (log 46). -/
def Obligations.ReadRequestDisposition : Prop :=
  (∀ (s : State) (head sector : Nat), s.isDataRequest head sector → packServes s.pack.state = true →
     s.port.mode = .interpose →
     (∀ p, s.postAt (s.requestAddr head sector) = some p →
       exec (.read head sector) s = .next ((s.afterDataRequest head).answer .done p.data)) ∧
     (∀ e, s.postAt (s.requestAddr head sector) = none → s.entryAt (s.requestAddr head sector) = some e →
       exec (.read head sector) s = .next ((s.afterDataRequest head).answer
         (if e.origin = .bestEffort then .dataCheck else .done) (s.slotWords e.slot))) ∧
     (∀ i ws, s.postAt (s.requestAddr head sector) = none → s.entryAt (s.requestAddr head sector) = none →
       s.bufferedSector (s.requestAddr head sector) = some (i, ws) →
       exec (.read head sector) s = .next
         { s.afterDataRequest head with
           buffers := { s.buffers with order := i :: s.buffers.order.filter (fun j => j != i) }
           completions := s.completions ++ [.status .done ws] })) ∧
  (∀ (s : State) (head sector : Nat), s.isDataRequest head sector → packServes s.pack.state = true →
     let a := s.requestAddr head sector
     let u := s.afterDataRequest head
     let r := s.regionAt s.port.virtCyl
     (s.port.mode = .interpose → s.postAt a = none → s.entryAt a = none → s.bufferedSector a = none →
       (s.drive.capturePending a = true → exec (.read head sector) s = .next
         { u with port := { u.port with outstanding := some ⟨.read a r true, .capturing⟩ } }) ∧
       (s.drive.capturePending a = false → s.drive.cond = .ready → exec (.read head sector) s = .next
         { u with port := { u.port with outstanding := some ⟨.read a r true, .standing⟩ }
                  drive := { u.drive with requests := u.drive.requests ++ [⟨.port, .read a r.prefetch⟩] } }) ∧
       (s.drive.capturePending a = false → s.drive.cond ≠ .ready →
         exec (.read head sector) s = .next (u.answer .notReady []))) ∧
     (s.port.mode = .transparent →
       (s.drive.cond = .ready → exec (.read head sector) s = .next
         { u with port := { u.port with outstanding := some ⟨.read a r false, .standing⟩ }
                  drive := { u.drive with requests := u.drive.requests ++ [⟨.port, .read a false⟩] } }) ∧
       (s.drive.cond ≠ .ready → exec (.read head sector) s = .next (u.answer .notReady []))))

/-- Requests turned away: a request for another unit has no effect (R1); a head or sector out of range is answered HEADER_CHECK
(R4); a data request with no pack served is answered NOT_READY, Format Enable left as it was (R6). -/
def Obligations.RequestsTurnedAway : Prop :=
  ∀ (s : State) (unit : Fin 8) (r : Request) (head sector : Nat) (words : List Word) (permit : Bool),
    (unit ≠ s.port.unit → exec (.otherUnitRequest unit r) s = .next s) ∧
    (s.geom.heads ≤ head →
      exec (.read head sector) s = .next (s.afterRequest.answer .headerCheck []) ∧
      exec (.write head sector words permit) s =
        .next ((s.setPermit permit).afterRequest.answer .headerCheck []) ∧
      exec (.format head permit) s = .next ((s.setPermit permit).afterRequest.answer .headerCheck [])) ∧
    (head < s.geom.heads → s.geom.sectors ≤ sector →
      exec (.read head sector) s = .next ((s.afterDataRequest head).answer .headerCheck []) ∧
      exec (.write head sector words permit) s =
        .next (((s.setPermit permit).afterDataRequest head).answer .headerCheck [])) ∧
    (packServes s.pack.state = false →
      (s.isDataRequest head sector →
        exec (.read head sector) s = .next ((s.afterDataRequest head).answer .notReady []) ∧
        exec (.write head sector words permit) s =
          .next (((s.setPermit permit).afterDataRequest head).answer .notReady [])) ∧
      (head < s.geom.heads →
        exec (.format head permit) s = .next (((s.setPermit permit).afterDataRequest head).answer .notReady [])))

/-- A WRITE in INTERPOSE mode that is refused, or that finds the Post Queue full (R14, R17): WRITE_PROTECTED under REFUSE and under
PASS without Media Write Permit; held to its deadline when a new post entry is needed and the queue holds 8; WRITE_FAULT when the
Hold Limit is 0. No collection changes.

A WRITE of a DIVERT region in INTERPOSE mode (R14, R42, R46): its words go into the slot of the address's entry or the
lowest-numbered free slot, under an entry of origin DIVERTED with the current epoch; a post entry of the address is dropped and a
flush of it marked, and a pending sector is superseded; with no slot it is answered WRITE_FAULT with STORE_FULL.

A WRITE of a PASS region in INTERPOSE mode with Media Write Permit (R14, R45, R61, R75): it merges into the post entry of its
address or is appended as the newest with the present moment, the map entry is removed with its slot, the buffered sector becomes
invalid, a pending sector is superseded, and it is answered DONE. -/
def Obligations.InterposeWriteDisposition : Prop :=
  (∀ (s : State) (head sector : Nat) (words : List Word) (permit : Bool), s.isDataRequest head sector →
     packServes s.pack.state = true → s.port.mode = .interpose →
     let a := s.requestAddr head sector
     let u := (s.setPermit permit).afterDataRequest head
     let policy := (s.regionAt s.port.virtCyl).write
     let ws := fitWords s.geom.words words
     (policy = .refuse ∨ (policy = .pass ∧ permit = false) →
       exec (.write head sector words permit) s = .next (u.answer .writeProtected [])) ∧
     (policy = .pass → permit = true → s.postAt a = none → 8 ≤ s.posts.entries.length →
       (s.timing.holdLimit = 0 → exec (.write head sector words permit) s = .next (u.answer .writeFault [])) ∧
       (0 < s.timing.holdLimit → exec (.write head sector words permit) s = .next
         { u with port := { u.port with outstanding := some ⟨.write a ws, .held⟩
                                        hold := some ⟨.write ws, a, s.now + 100 * s.timing.holdLimit⟩ } }))) ∧
  (∀ (s : State) (head sector : Nat) (words : List Word) (permit : Bool), s.isDataRequest head sector →
     packServes s.pack.state = true → s.port.mode = .interpose → (s.regionAt s.port.virtCyl).write = .divert →
     let a := s.requestAddr head sector
     let u := (s.setPermit permit).afterDataRequest head
     let ws := fitWords s.geom.words words
     (∀ n, (∀ e, s.entryAt a = some e → n = e.slot) → (s.entryAt a = none → s.freeSlot = some n) →
       exec (.write head sector words permit) s = .next ((
         { u with
           map := { entries := insertEntry ⟨a, .diverted, s.pack.epoch, n⟩ s.map.entries
                    store := tablePut n ⟨ws, crc ws⟩ s.map.store }
           posts := { s.posts with entries := s.posts.entries.filter (fun p => !(p.addr == a)) }
           drive := u.drive.mapWork (Work.markDropped (fun b => b == a)) }).supersede a |>.answer .done [])) ∧
     (s.entryAt a = none → s.freeSlot = none →
       exec (.write head sector words permit) s = .next ((u.setEvent .storeFull).answer .writeFault []))) ∧
  (∀ (s : State) (head sector : Nat) (words : List Word), s.isDataRequest head sector →
     packServes s.pack.state = true → s.port.mode = .interpose → (s.regionAt s.port.virtCyl).write = .pass →
     let a := s.requestAddr head sector
     let u := (s.setPermit true).afterDataRequest head
     let ws := fitWords s.geom.words words
     let v (l : List PostEntry) : State :=
       { u with posts := { s.posts with entries := l }
                map := { s.map with entries := s.map.entries.filter (fun e => e.addr != a) }
                buffers := { s.buffers with slots := s.buffers.slots.map (TrackBuffer.invalidate a) } }
     (s.postAt a = none → s.posts.entries.length < 8 →
       exec (.write head sector words true) s = .next
         ((v (s.posts.entries ++ [⟨a, ws, s.now, 0, false, false⟩])).supersede a |>.answer .done [])) ∧
     (∀ p, s.postAt a = some p →
       exec (.write head sector words true) s = .next
         ((v (s.posts.entries.map (fun q => if q.addr = a then
             { q with data := ws, mergedInFlight := q.mergedInFlight || q.inFlight } else q))).supersede a
           |>.answer .done [])))

/-- A WRITE in TRANSPARENT mode (R16): a direct write requested at the drive under PASS with Media Write Permit, NOT_READY at once
with the condition NOT_READY (R80), and WRITE_PROTECTED otherwise. -/
def Obligations.TransparentWriteGoesToDrive : Prop :=
  ∀ (s : State) (head sector : Nat) (words : List Word) (permit : Bool), s.isDataRequest head sector →
    packServes s.pack.state = true → s.port.mode = .transparent →
    let a := s.requestAddr head sector
    let u := (s.setPermit permit).afterDataRequest head
    let ws := fitWords s.geom.words words
    ((s.regionAt s.port.virtCyl).write = .pass → permit = true →
      (s.drive.cond = .ready → exec (.write head sector words permit) s = .next
        { u with port := { u.port with outstanding := some ⟨.write a ws, .standing⟩ }
                 drive := { u.drive with requests := u.drive.requests ++ [⟨.port, .write a ws⟩] } }) ∧
      (s.drive.cond ≠ .ready → exec (.write head sector words permit) s = .next (u.answer .notReady []))) ∧
    ((s.regionAt s.port.virtCyl).write ≠ .pass ∨ permit = false →
      exec (.write head sector words permit) s = .next (u.answer .writeProtected []))

/-- A FORMAT data request (R15, R37, R47, R76): its taking clears Format Enable; unless Format Enable is set, Media Write Permit
asserted and the region PASS it is answered WRITE_PROTECTED; accepted, its track leaves the map, the Post Queue, the buffers and
the pending sets, and its drive work is requested (NOT_READY at once with the condition NOT_READY, R80). -/
def Obligations.FormatDataRequest : Prop :=
  ∀ (s : State) (head : Nat) (permit : Bool), s.sound = true → head < s.geom.heads → packServes s.pack.state = true →
    let track : Track := ⟨s.port.virtCyl, head⟩
    let u := (s.setPermit permit).afterDataRequest head
    let accepted := s.port.formatEnable = true ∧ permit = true ∧ (s.regionAt s.port.virtCyl).write = .pass
    (¬ accepted → exec (.format head permit) s = .next
      { u with port := { u.port with formatEnable := false }
               completions := s.completions ++ [.status .writeProtected []] }) ∧
    (accepted → ∃ t, exec (.format head permit) s = .next t ∧ t.port.formatEnable = false ∧
      t.map.entries = s.map.entries.filter (fun e => e.addr.track != track) ∧ t.map.store = s.map.store ∧
      t.posts.entries = s.posts.entries.filter (fun p => p.addr.track != track) ∧
      t.buffers.slots = s.buffers.slots.map (fun b => if b.track = some track then ⟨none, []⟩ else b) ∧
      t.buffers.order = s.buffers.order ∧
      (∀ j ∈ t.engine.jobs, j.track = track → j.pending = []) ∧
      (s.drive.cond = .ready → t.port.outstanding = some ⟨.format track, .standing⟩ ∧
        t.drive.requests = s.requestsKept false ++ [⟨.port, .format track .awaitIndex⟩] ∧
        t.completions = s.completions) ∧
      (s.drive.cond ≠ .ready → t.port.outstanding = none ∧ t.completions = s.completions ++ [.status .notReady []]) ∧
      t.regions = s.regions ∧ t.ladders = s.ladders ∧ t.pack = s.pack ∧ t.driveLog = s.driveLog)

/-- SENSE (R9, R2, R167): four indications of the virtual drive; no outstanding or held request is touched, a pending sequence is
abandoned. -/
def Obligations.SenseShowsVirtualDrive : Prop :=
  ∀ (s : State) (permit : Bool),
    let policy := (s.regionAt s.port.virtCyl).write
    exec (.sense permit) s = .next
      { (s.setPermit permit).abandonSequence with
        completions := s.completions ++
          [.sense true
            (match s.port.outstanding with
              | some ⟨.seek, _⟩ | some ⟨.recalibrate, _⟩ => false
              | some ⟨.read _ _ _, _⟩ | some ⟨.write _ _, _⟩ | some ⟨.format _, _⟩ | none => true)
            (policy == .refuse || (policy == .pass && !permit) || (policy == .divert && s.port.mode == Mode.transparent))
            (s.drive.cond == .fault)] }

/-- Controller Clear (R23): the virtual position goes to (0, 0), the outstanding request is dropped, Format Enable is cleared, a
pending sequence is abandoned with SEQUENCE_LOST and the response selector goes to STATUS; everything else is unchanged. -/
def Obligations.ControllerClearEffects : Prop :=
  ∀ s : State, exec .controllerClear s = .next
    { s with
      port := { s.port with virtCyl := 0, virtHead := 0, outstanding := none, hold := none, formatEnable := false }
      drive := { s.drive with requests := s.requestsKept true }
      ci := if s.ci.sequence = .ready then { s.ci with reply := none }
            else { s.ci with sequence := .ready, lastResult := .sequenceLost, reply := none }
      events := if s.ci.sequence = .ready then s.events else withEvent .sequenceLost s.events }

/-- The data sector of LOAD SECTOR (R52): in AWAIT_DATA a WRITE of the control sector places its words in the map under an entry of
origin LOADED, in the slot of the address's entry or the lowest free one; the state returns to READY and the WRITE is answered DONE
whatever the result: OK, FULL with no slot, NO_PACK with no pack served. -/
def Obligations.LoadSectorDataTaken : Prop :=
  ∀ (s : State) (words : List Word) (a : Addr), s.ci.sequence = .awaitData a →
    let ws := fitWords s.geom.words words
    let u (r : ResultCode) : State :=
      { s with port := { s.port with outstanding := none, hold := none, virtHead := s.ci.controlAddr.head }
               drive := { s.drive with requests := s.requestsKept false }
               ci := { s.ci with sequence := .ready, lastResult := r }
               completions := s.completions ++ [.status .done []] }
    (packServes s.pack.state = false → exec (.loadSectorData words) s = .next (u .noPack)) ∧
    (packServes s.pack.state = true →
      (s.entryAt a = none → s.freeSlot = none → exec (.loadSectorData words) s = .next (u .full)) ∧
      (∀ n, (∀ e, s.entryAt a = some e → n = e.slot) → (s.entryAt a = none → s.freeSlot = some n) →
        exec (.loadSectorData words) s = .next
          { u .ok with map := { entries := insertEntry ⟨a, .loaded, s.pack.epoch, n⟩ s.map.entries
                                store := tablePut n ⟨ws, crc ws⟩ s.map.store } }))

/-- The words of a WRITE answered DONE are what the next READ of its address returns (R11, R14, R44, R45, R46, R61): whichever of
the Post Queue and the map took them. A list of other than W words counts as cut at W or completed with zeros, the model's choice
(log 12). -/
def Obligations.WrittenWordsReadBack : Prop :=
  ∀ (s t : State) (head sector : Nat) (words : List Word) (permit : Bool), s.sound = true →
    s.isDataRequest head sector → packServes s.pack.state = true → s.port.mode = .interpose →
    exec (.write head sector words permit) s = .next t → t.completions = s.completions ++ [.status .done []] →
    ∃ v, exec (.read head sector) t = .next v ∧
      v.completions = t.completions ++ [.status .done (fitWords s.geom.words words)]

/-! ## The Drive Sequencer (05_the_drive_sequencer.md) -/

/-- The worked values of the chapter: the CRC-16 of one and of two zero words (R90), the header words of sector (57, 1, 9) (R89), the
Offset DAC codes of R85 with their clamp reports, and the speed bands of R95.

The CRC-16 (R90): all ones before the first word; each word in turn, most significant bit first, shifts the register left, and octal
010041 goes in by exclusive or when the bit shifted out differs from the incoming one.

The Offset DAC code (R85): within 0..16383 always; for a trim of -512..+511 the centre code is 8192 + T, lies in 7680..8703 and
is not changed by the clamp; and the clamp is reported exactly when it changes the sum. -/
def Obligations.OffsetCodeAndWorkedValues : Prop :=
  (crc [0] = 0o016417 ∧ crc [0, 0] = 0o102300 ∧ word 57 = 0o000071 ∧ headSectorWord 1 9 = 0o000411 ∧
     offsetCode 0 12 = 10158 ∧ offsetCode 0 (-7) = 7046 ∧ offsetCode (-40) 12 = 10118 ∧ offsetCode (-40) 0 = 8152 ∧
     offsetCode 300 50 = 16383 ∧ offsetClamped 300 50 = true ∧ offsetCode (-512) (-50) = 0 ∧
     offsetClamped (-512) (-50) = true ∧ offsetClamped 0 12 = false ∧
     (∀ p : Profile, ∀ n, inBand (profileGeometry p) n = true ↔
       (match p with
         | .a | .b => 2425 ≤ n ∧ n ≤ 2575
         | .c => 1940 ≤ n ∧ n ≤ 2060
         | .d => 1552 ≤ n ∧ n ≤ 1648))) ∧
  (crc [] = 0o177777 ∧ ∀ (ws : List Word) (w : Word), crc (ws ++ [w]) = (List.range 16).foldl (fun (reg : Word) k =>
     (reg <<< 1) ^^^ (if reg.getLsbD 15 = w.getLsbD (15 - k) then 0 else 0o010041)) (crc ws)) ∧
  (∀ trim p : Int,
     offsetCode trim p ≤ 16383 ∧
     (offsetClamped trim p = true ↔ (p * 8192).tdiv 50 + 8192 + trim < 0 ∨ 16383 < (p * 8192).tdiv 50 + 8192 + trim) ∧
     (offsetClamped trim p = false → (offsetCode trim p : Int) = (p * 8192).tdiv 50 + 8192 + trim) ∧
     (-512 ≤ trim → trim ≤ 511 →
       (centreCode trim : Int) = 8192 + trim ∧ 7680 ≤ centreCode trim ∧ centreCode trim ≤ 8703 ∧
         offsetClamped trim 0 = false))

/-- The pass outcome of a sector window (R89, R92): a header is valid when its sync is found and its check word equals the CRC-16 of
words 0 and 1, and matching when it also gives the cylinder, and the head and sector in the high and low byte, that the operation
expects; the kind follows from the header, the data sync and the data check, for every window, with the decoded header zero where
the header sync was not found.

The decoded words (R10, R89, R91, R137): every bit of the header, and of the data field with its check word, is the decoded value of
its cell, most significant bit of each word first; without a data sync the field is zeros. A cell the signal does not hold is read
out of lock (the model's choice, log 7).

The decoding of a bit cell by its amplitude and the threshold (R91). -/
def Obligations.PassOutcomeKinds : Prop :=
  (∀ (threshold w : Nat) (a : Addr) (g : SectorSignal),
     let o := passOutcome threshold w a g
     let h (k : Nat) : Word := o.header.getD k 0
     let valid := g.header ≠ none ∧ h 2 = crc [h 0, h 1]
     let matching := valid ∧ h 0 = word a.cyl ∧ h 1 = word (a.head * 256 + a.sector)
     (headerValid threshold g.header = true ↔ valid) ∧ (headerMatching threshold a g.header = true ↔ matching) ∧
     (∀ c, headerOfOtherCylinder threshold c g.header = true ↔ valid ∧ h 0 ≠ word c) ∧
     (matching → o.kind =
       (if ∃ b, o.bits = some b ∧ crc ((bitsWords (w + 1) b).take w) = (bitsWords (w + 1) b).getD w 0 then .good
        else .dataCheck)) ∧
     (valid → ¬ matching → o.kind = .wrongAddress) ∧
     (¬ valid → o.kind = if g.header = none ∧ g.data = none then .noData else .headerCheck) ∧
     (∀ c, o.otherCylinder c = true ↔ o.kind = .wrongAddress ∧ h 0 ≠ word c) ∧
     o.header.length = 3 ∧ (g.header = none → o.header = [0, 0, 0]) ∧
     (∀ l, g.header = some l → ∀ i < 3, ∀ k < 16,
       (h i).getLsbD (15 - k) = (decodeCell threshold (l.getD (16 * i + k) .outOfLock)).1) ∧
     (g.data = none → o.bits = none ∧ o.field w = List.replicate (w + 1) 0 ∧ o.answerData w = List.replicate w 0) ∧
     (∀ l, g.data = some l → ∃ b, o.bits = some b ∧ b.length = 16 * w + 16 ∧
       (∀ i < 16 * w + 16, b[i]? = some (decodeCell threshold (l.getD i .outOfLock))) ∧
       o.field w = bitsWords (w + 1) b ∧ o.answerData w = (bitsWords (w + 1) b).take w ∧
       (bitsWords (w + 1) b).length = w + 1 ∧
       ∀ i ≤ w, ∀ k < 16, ((bitsWords (w + 1) b).getD i 0).getLsbD (15 - k) =
         (decodeCell threshold (l.getD (16 * i + k) .outOfLock)).1)) ∧
  (∀ (n : Nat) (bits : List Bool), (bitsToWords n bits).length = n ∧
     ∀ i < n, ∀ k < 16, ((bitsToWords n bits).getD i 0).getLsbD (15 - k) = bits.getD (16 * i + k) false) ∧
  (∀ threshold : Nat, decodeCell threshold .outOfLock = (false, .erased) ∧
     ∀ x : Fin 16,
       (threshold + 2 ≤ x.val → decodeCell threshold (.amplitude x) = (true, .strong)) ∧
       (threshold ≤ x.val → x.val < threshold + 2 → decodeCell threshold (.amplitude x) = (true, .weak)) ∧
       (x.val < threshold → threshold < x.val + 2 → decodeCell threshold (.amplitude x) = (false, .weak)) ∧
       (x.val + 2 ≤ threshold → decodeCell threshold (.amplitude x) = (false, .strong)))

/-- The positioning of a grant (R82, R83): head select; a recalibrate when it is asked for, is the work, or the cylinder is unknown;
else a seek when the cylinder differs from the target; each awaited for at most 250 ms. A TRANSPARENT SEEK to the cylinder where the
heads are is answered DONE. That a TRANSPARENT RECALIBRATE selects no head is the model's choice (log 47).

The conditions phase and the beginning of the work (R85, R86, R87, R66, R68): strobe and threshold at once; a code other than the
applied one, or a head not settled, takes a settle revolution; else reading or writing begins. A flush write begins with the data its
entry has then, or began with, and the entry is in flight; that of an entry dropped since goes on when it had begun, else its grant
ends (log 13). -/
def Obligations.GrantPositionsThenWorks : Prop :=
  (∀ (s : State) (recalFirst : Bool) (g : Grant),
     let d : Drive := { s.drive with physHead := g.work.head.getD s.drive.physHead, grant := some g }
     (s.startGrant recalFirst g = ({ s with drive := d } : State).beginPositioning recalFirst g) ∧
     (recalFirst = true ∨ s.drive.physCyl = none ∨ g.work = .recalibrate →
       s.beginPositioning recalFirst g =
         { s with drive := { s.drive with activity := .positioning true (s.now + 25000) }
                  driveLog := s.driveLog ++ [.recalibrate] }) ∧
     (∀ c at', recalFirst = false → s.drive.physCyl = some at' → g.work.cylinder = some c → at' ≠ c →
       s.beginPositioning recalFirst g =
         { s with drive := { s.drive with activity := .positioning false (s.now + 25000) }
                  driveLog := s.driveLog ++ [.seek c] }) ∧
     (∀ c, recalFirst = false → s.drive.physCyl = some c → g.work.cylinder = some c → g.work ≠ .seek ⟨c, g.work.head.getD 0⟩ →
       s.beginPositioning recalFirst g = s.applyConditions g) ∧
     (∀ c head, recalFirst = false → s.drive.physCyl = some c → g.work = .seek ⟨c, head⟩ →
       s.beginPositioning recalFirst g = s.endGrant.answerAt .working .done [])) ∧
  (∀ (s : State) (g : Grant),
     let d : Drive := { s.drive with strobe := g.strobe, threshold := g.threshold }
     (s.drive.settled = false ∨ s.drive.offsetCode ≠ g.code →
       s.applyConditions g =
         { s with drive := { d with offsetCode := g.code, settled := false, activity := .settling } }) ∧
     (s.drive.settled = true → s.drive.offsetCode = g.code →
       s.applyConditions g = ({ s with drive := d } : State).beginWork g) ∧
     ((g.work.readAddr.isSome ∨ (∃ t w b l, g.work = .capture t w b l) ∨ (∃ t x f l, g.work = .recovery t x f l)) →
       s.beginWork g = { s with drive := { s.drive with activity := .reading } }) ∧
     ((∃ a ws, g.work = .write a ws) ∨ (∃ t p, g.work = .format t p) →
       s.beginWork g = { s with drive := { s.drive with activity := .writing } }) ∧
     (∀ a begun p, g.work = .flush a begun false → s.postAt a = some p →
       s.beginWork g =
         { s with
           posts := { s.posts with entries := s.posts.entries.map (fun q =>
             if q.addr = a then { q with inFlight := true } else q) }
           drive := { s.drive with grant := some { g with work := .flush a (some (begun.getD p.data)) false }
                                   activity := .writing } }) ∧
     (∀ a ws, g.work = .flush a (some ws) true →
       s.beginWork g = { s with drive := { s.drive with activity := .writing } }) ∧
     (∀ a, g.work = .flush a none true →
       s.beginWork g = { s with drive := { s.drive with grant := none, activity := .idle } }))

/-- The arbiter's choice (R64, R80, R81, R157): nothing while the drive is not free or the pack is UNLOADING; an overdue FLUSH, then
the earlier CONTROLLER request, then FLUSH, then RECOVERY. A FLUSH grant with Media Write Permit deasserted ends without drive work
and holds flushing. -/
def Obligations.ArbiterOrder : Prop :=
  ∀ (s : State) (permit : Bool),
    let u := s.setPermit permit
    let free := s.drive.activity = .idle ∧ s.drive.cond = .ready ∧ s.pack.state ≠ .unloading
    let flushes := s.flushOverdue = true ∨ (s.drive.requests = [] ∧ s.flushRequested = true)
    (¬ free → exec (.driveGrant permit) s = .next u) ∧
    (free → flushes → permit = false →
      exec (.driveGrant permit) s = .next { u with posts := { s.posts with heldForPermit := true } }) ∧
    (∀ p rest, free → flushes → permit = true → s.posts.entries = p :: rest →
      exec (.driveGrant permit) s = .next (u.startGrant false
        ⟨.flush p.addr none false, false, centreCode s.drive.trim, 0, 8, false, false, false, []⟩)) ∧
    (∀ r rest, free → s.flushOverdue = false → s.drive.requests = r :: rest →
      exec (.driveGrant permit) s = .next (u.grantController r rest)) ∧
    (∀ j step, free → s.flushRequested = false → s.drive.requests = [] → s.drive.recoveryRequest = true →
      s.engine.active = some j → (s.ladders.getD j.ladder [])[j.step]? = some step →
      exec (.driveGrant permit) s = .next
        (({ u with drive := { s.drive with recoveryRequest := false }
                   engine := { s.engine with active := some { j with recalFirst := false } } } : State).startGrant j.recalFirst
          ⟨.recovery j.track step (j.passesDone == 0) j.pending, false, offsetCode s.drive.trim step.headOffset, step.strobe,
            step.threshold, false, offsetClamped s.drive.trim step.headOffset, false, []⟩)) ∧
    (free → s.flushRequested = false → s.drive.requests = [] → s.drive.recoveryRequest = false →
      exec (.driveGrant permit) s = .next u)

/-- The CONTROLLER grants (R12, R71, R82, R85, R172): a request leaves the queue and its work starts at centre conditions; a READ of
a prefetch region becomes a capture outside a speed fault, into the buffer that holds its track, else the latest-used-last buffer
that holds none, else the least recently used, which becomes the most recently used. That the speed fault is looked at when the
request is granted, not when the READ was taken, is the model's inference (log 15). -/
def Obligations.ControllerGrantsStart : Prop :=
  ∀ (s : State) (r : ControllerRequest) (rest : List ControllerRequest),
    let u : State := { s with drive := { s.drive with requests := rest } }
    let working : State := { u with port := { s.port with
      outstanding := s.port.outstanding.map (fun o => { o with stage := .working }) } }
    let centre (w : Work) : Grant := ⟨w, false, centreCode s.drive.trim, 0, 8, false, false, false, []⟩
    (∀ a, r = ⟨.commandInterface, .driveSector a⟩ →
      s.grantController r rest = State.startGrant false (centre (.driveSector a))
        { u with ci := { s.ci with reply := s.ci.reply.map (fun q =>
          if q.driveRead.isSome then { q with driveRead := some true } else q) } }) ∧
    (∀ a prefetch, r = ⟨.port, .read a prefetch⟩ →
      (prefetch = false ∨ s.timer.speedFault = true →
        s.grantController r rest = State.startGrant false (centre (.read a prefetch)) working) ∧
      (prefetch = true → s.timer.speedFault = false →
        ∃ i, s.grantController r rest = State.startGrant false (centre (.capture a.track a.sector (some i) []))
            { u with
              port := { s.port with outstanding := s.port.outstanding.map (fun o => { o with stage := .capturing }) }
              buffers := { slots := if (s.buffer i).track = some a.track then s.buffers.slots
                                    else s.buffers.slots.set i ⟨some a.track, []⟩
                           order := i :: s.buffers.order.filter (fun j => j != i) } } ∧
          ((∃ b ∈ s.buffers.slots, b.track = some a.track) → (s.buffer i).track = some a.track) ∧
          ((∀ b ∈ s.buffers.slots, b.track ≠ some a.track) →
            ((∃ k ∈ s.buffers.order, (s.buffer k).track = none) → ∃ before after, s.buffers.order = before ++ i :: after ∧
              (s.buffer i).track = none ∧ ∀ k ∈ after, (s.buffer k).track ≠ none) ∧
            ((∀ k ∈ s.buffers.order, (s.buffer k).track ≠ none) → i = s.buffers.order.getLastD 0)))) ∧
    (∀ w, r = ⟨.port, w⟩ → (∀ a p, w ≠ .read a p) →
      s.grantController r rest = State.startGrant false (centre w) working)

/-- SEEK_COMPLETE (R16, R83, R100): the physical cylinder becomes the target, 0 for a recalibrate; a recalibrate is followed by the
seek unless it stands there, a TRANSPARENT SEEK or RECALIBRATE is answered DONE, an aborted grant ends, other work goes on to its
conditions. With no positioning awaited, the drive idle, settling, reading, writing, verifying or clearing, nothing changes (log 3).

SETTLE_END (R86): the settled flag becomes yes, the settle is charged to the grant, and its work begins as GrantPositionsThenWorks
says: reading or writing; a flush goes in flight with the data it has now, and a recovery pass begins with the settle in its report.
With no settle revolution in progress nothing changes (log 3). -/
def Obligations.SeekAndSettleAdvanceGrant : Prop :=
  (∀ (s : State),
     (∀ deadline g, s.drive.activity = .positioning true deadline → s.drive.grant = some g →
       let u : State := { s with drive := { s.drive with physCyl := some 0 } }
       (g.aborted = true → exec .seekComplete s = .next u.endGrant) ∧
       (g.aborted = false → g.work = .recalibrate →
         exec .seekComplete s = .next (u.endGrant.answerAt .working .done [])) ∧
       (∀ c, g.aborted = false → g.work.cylinder = some c → c ≠ 0 →
         exec .seekComplete s = .next
           { u with drive := { u.drive with activity := .positioning false (s.now + 25000) }
                    driveLog := s.driveLog ++ [.seek c] }) ∧
       (∀ head, g.aborted = false → g.work = .seek ⟨0, head⟩ →
         exec .seekComplete s = .next (u.endGrant.answerAt .working .done [])) ∧
       (g.aborted = false → g.work.cylinder = some 0 → (∀ head, g.work ≠ .seek ⟨0, head⟩) →
         exec .seekComplete s = .next (u.applyConditions g))) ∧
     (∀ deadline g c, s.drive.activity = .positioning false deadline → s.drive.grant = some g → g.work.cylinder = some c →
       let u : State := { s with drive := { s.drive with physCyl := some c } }
       (g.aborted = true → exec .seekComplete s = .next u.endGrant) ∧
       (∀ head, g.aborted = false → g.work = .seek ⟨c, head⟩ →
         exec .seekComplete s = .next (u.endGrant.answerAt .working .done [])) ∧
       (g.aborted = false → (∀ head, g.work ≠ .seek ⟨c, head⟩) →
         exec .seekComplete s = .next (u.applyConditions g))) ∧
     (s.drive.grant = none ∨ (∀ recal deadline, s.drive.activity ≠ .positioning recal deadline) →
       exec .seekComplete s = .next s) ∧
     (s.drive.grant = none ∨ s.drive.activity ≠ .settling → exec .settleEnd s = .next s)) ∧
  (∀ (s : State) (g : Grant), s.drive.activity = .settling → s.drive.grant = some g →
     let d : Drive := { s.drive with settled := true, grant := some { g with settleSpent := true } }
     exec .settleEnd s = .next (({ s with drive := d } : State).beginWork { g with settleSpent := true }) ∧
     ((g.work.readAddr.isSome ∨ (∃ t w b l, g.work = .capture t w b l) ∨ (∃ t x f l, g.work = .recovery t x f l)) →
       exec .settleEnd s = .next { s with drive := { d with activity := .reading } }) ∧
     ((∃ a ws, g.work = .write a ws) ∨ (∃ t p, g.work = .format t p) →
       exec .settleEnd s = .next { s with drive := { d with activity := .writing } }) ∧
     (∀ a p, g.work = .flush a none false → s.postAt a = some p →
       exec .settleEnd s = .next
         { s with
           posts := { s.posts with entries := s.posts.entries.map (fun q =>
             if q.addr = a then { q with inFlight := true } else q) }
           drive := { d with grant := some { g with settleSpent := true, work := .flush a (some p.data) false }
                             activity := .writing } }))

/-- POSITIONING_LIMIT_EXPIRY (R83, R84, R126): the physical cylinder becomes unknown. The first failed seek of a CONTROLLER or FLUSH
grant is followed by a recalibrate; a second, or a failed recalibrate, ends the work with the result of R84's table; a RECOVERY
grant is reported seek failed. An aborted grant ends. The clock stands at the limit (log 2). The model's choices: a failed
recalibrate ends a FLUSH grant with its failed attempt, where a second failed seek goes on to the retry in the grant (R83 before
R67, log 37); a READ DRIVE SECTOR that ends so has zeros for header and field (log 41); a report of seek failed carries the offset
clamp (log 39). What the engine's tests (`poke`) then do is stated in RecoveryPassTaken.

A flush attempt that has failed with the drive at work (R64 to R68): of an entry dropped or gone the grant ends; else the failure is
counted, the third discarding the entry with POST_DISCARD and ending the grant; the retry begins in the same grant, positioning anew
with its allowance renewed, unless Media Write Permit is deasserted (flushing is then held) or a speed fault is in force. -/
def Obligations.PositioningLimitFails : Prop :=
  (∀ (s : State) (permit recal : Bool) (deadline : Nat) (g : Grant),
     s.drive.activity = .positioning recal deadline → s.drive.grant = some g →
     let u : State := ((s.setPermit permit).advanceTo deadline).setPhysCyl none
     let ended := recal = true ∨ g.allowanceUsed = true
     (g.aborted = true → exec (.positioningLimitExpiry permit) s = .next u.endGrant) ∧
     (g.aborted = false →
       (recal = false → g.allowanceUsed = false → (∀ t x f l, g.work ≠ .recovery t x f l) →
         exec (.positioningLimitExpiry permit) s = .next
           { u with
             drive := { u.drive with
               grant := some { g with allowanceUsed := true, work := g.work.restart }
               activity := .positioning true (u.now + 25000) }
             driveLog := s.driveLog ++ [.recalibrate] }) ∧
       (ended → ((∃ a p, g.work = .read a p) ∨ (∃ t, g.work = .seek t) ∨ g.work = .recalibrate) →
         exec (.positioningLimitExpiry permit) s = .next (u.endGrant.answerAt .working .seekError [])) ∧
       (∀ t w b l, ended → g.work = .capture t w b l →
         exec (.positioningLimitExpiry permit) s = .next (u.endGrant.answerAt .capturing .seekError [])) ∧
       (∀ a ws, ended → g.work = .write a ws →
         exec (.positioningLimitExpiry permit) s = .next (u.endGrant.answerAt .working .writeFault [])) ∧
       (∀ t p, ended → g.work = .format t p →
         exec (.positioningLimitExpiry permit) s =
           .next ((u.endGrant.emptyTrackBuffer t).answerAt .working .writeFault [])) ∧
       (∀ a, ended → g.work = .driveSector a →
         exec (.positioningLimitExpiry permit) s = .next (u.endGrant.fillDriveReply true a seekErrorWord [0, 0, 0]
           (List.replicate (s.geom.words + 1) 0))) ∧
       (∀ a w dropped, recal = false → g.allowanceUsed = true → g.work = .flush a w dropped →
         exec (.positioningLimitExpiry permit) s = .next ((u.invalidateSector a).flushFailed g a dropped)) ∧
       (∀ a w dropped, recal = true → g.work = .flush a w dropped →
         let v : State := { u.endGrant with
           buffers := { s.buffers with slots := s.buffers.slots.map (TrackBuffer.invalidate a) } }
         (dropped = true ∨ s.postAt a = none → exec (.positioningLimitExpiry permit) s = .next v) ∧
         (∀ p, dropped = false → s.postAt a = some p →
           (2 ≤ p.failed → exec (.positioningLimitExpiry permit) s = .next
             { v with posts := { s.posts with entries := s.posts.entries.filter (fun q => q.addr != a) }
                      events := withEvent .postDiscard s.events }) ∧
           (p.failed < 2 → exec (.positioningLimitExpiry permit) s = .next
             { v with posts := { s.posts with entries := s.posts.entries.map (fun q =>
               if q.addr = a then { q with failed := q.failed + 1, inFlight := false } else q) } }))) ∧
       (∀ t x f l, g.work = .recovery t x f l →
         (∀ j, s.engine.ending = none → s.engine.active = some j →
           let charged : Job := { j with
             settles := if g.settleSpent then min 65535 (j.settles + 1) else j.settles
             clamped := j.clamped || g.clamped }
           let missed : Job := { charged with misSeeks := j.misSeeks + 1, recalFirst := true }
           let v (k : Job) : State := { u.endGrant with engine := { s.engine with active := some k } }
           (j.misSeeks < 2 → exec (.positioningLimitExpiry permit) s = .next (v missed).poke) ∧
           (2 ≤ j.misSeeks →
             exec (.positioningLimitExpiry permit) s = .next ((v charged).endActive .seekFailed missed))) ∧
         (s.engine.ending ≠ none → exec (.positioningLimitExpiry permit) s = .next u.endGrant.finishEnding)))) ∧
  (∀ (s : State) (g : Grant) (a : Addr) (dropped : Bool),
     let ended : State := { s with drive := { s.drive with grant := none, activity := .idle } }
     (dropped = true ∨ s.postAt a = none → s.flushFailed g a dropped = ended) ∧
     (∀ p, dropped = false → s.postAt a = some p →
       let counted : List PostEntry := s.posts.entries.map (fun q =>
         if q.addr = a then { q with failed := q.failed + 1, inFlight := false } else q)
       (2 ≤ p.failed → s.flushFailed g a dropped =
         { ended with posts := { s.posts with entries := s.posts.entries.filter (fun q => q.addr != a) }
                      events := withEvent .postDiscard s.events }) ∧
       (p.failed < 2 → s.lines.permit = false → s.flushFailed g a dropped =
         { ended with posts := { entries := counted, heldForPermit := true } }) ∧
       (p.failed < 2 → s.lines.permit = true → s.timer.speedFault = true → s.flushFailed g a dropped =
         { ended with posts := { s.posts with entries := counted } }) ∧
       (p.failed < 2 → s.lines.permit = true → s.timer.speedFault = false →
         let retry : Grant := { g with allowanceUsed := false, work := .flush a none false }
         s.flushFailed g a dropped =
           ({ s with posts := { s.posts with entries := counted }
                     drive := { s.drive with grant := some retry } } : State).beginPositioning false retry)))

/-- INDEX_PULSE (R64, R95, R96): the count saturates at 65535 and is latched unless this is the first pulse after power-on or a rise
of ready; it starts again from 0 and the watch is made; a hold of flushing ends. The speed check counts periods in LOADED and
UNLOAD_PENDING: the second outside begins a speed fault, the eighth inside clears it.

INDEX_PULSE in SPINNING_UP (R152, R153): consecutive periods in the band are counted, one outside sets the count to 0, and the
eighth loads the pack: the epoch rises by one, NO_PACK goes, the speed check's counts and the spin-up count are 0. In EMPTY and
UNLOADING a pulse leaves the pack as it is. -/
def Obligations.IndexPulseMeasuresPeriods : Prop :=
  (∀ (s : State) (elapsed : Nat) (protect : Bool), ∃ t, exec (.indexPulse elapsed protect) s = .next t ∧
     t.now = s.now + elapsed ∧ t.lines = { s.lines with writeProtect := protect } ∧ t.posts.heldForPermit = false ∧
     t.posts.entries = s.posts.entries ∧ t.timer.count = 0 ∧ t.timer.counting = true ∧ t.timer.watching = true ∧
     (s.timer.counting = false → t.timer.lastPeriod = s.timer.lastPeriod ∧ t.timer.speedFault = s.timer.speedFault ∧
       t.timer.outside = s.timer.outside ∧ t.timer.inside = s.timer.inside ∧ t.pack = s.pack ∧ t.engine = s.engine ∧
       t.events = s.events) ∧
     (s.timer.counting = true →
       let period := min 65535 (s.timer.count + elapsed)
       let good := inBand s.geom period
       t.timer.lastPeriod = period ∧
       (packServes s.pack.state = true → t.pack = s.pack ∧
         (s.timer.speedFault = false → good = true →
           t.timer.speedFault = false ∧ t.timer.outside = 0 ∧ t.timer.inside = s.timer.inside ∧ t.events = s.events) ∧
         (s.timer.speedFault = false → good = false → s.timer.outside = 0 →
           t.timer.speedFault = false ∧ t.timer.outside = 1 ∧ t.timer.inside = s.timer.inside ∧ t.events = s.events) ∧
         (s.timer.speedFault = false → good = false → 1 ≤ s.timer.outside →
           t.timer.speedFault = true ∧ t.timer.inside = 0 ∧ t.engine.speed = true ∧ t.drive.recoveryRequest = false ∧
             t.events = withEvent .speedFault s.events) ∧
         (s.timer.speedFault = true → good = false →
           t.timer.speedFault = true ∧ t.timer.inside = 0 ∧ t.events = s.events) ∧
         (s.timer.speedFault = true → good = true → s.timer.inside < 7 →
           t.timer.speedFault = true ∧ t.timer.inside = s.timer.inside + 1 ∧ t.events = s.events) ∧
         (s.timer.speedFault = true → good = true → 7 ≤ s.timer.inside →
           t.timer.speedFault = false ∧ t.timer.outside = 0 ∧ t.engine.speed = false ∧ t.events = s.events)) ∧
       (packServes s.pack.state = false → t.timer.speedFault = s.timer.speedFault ∧ t.events = s.events))) ∧
  (∀ (s : State) (elapsed : Nat) (protect : Bool), s.timer.counting = true → ∃ t,
     exec (.indexPulse elapsed protect) s = .next t ∧
     (let good := inBand s.geom (min 65535 (s.timer.count + elapsed))
      (s.pack.state = .spinningUp → good = false → t.pack = { s.pack with spinUp := 0 } ∧ t.engine = s.engine) ∧
      (s.pack.state = .spinningUp → good = true → s.pack.spinUp < 7 →
        t.pack = { s.pack with spinUp := s.pack.spinUp + 1 } ∧ t.engine = s.engine) ∧
      (s.pack.state = .spinningUp → good = true → 7 ≤ s.pack.spinUp →
        t.pack = { s.pack with state := .loaded, spinUp := 0, epoch := s.pack.epoch + 1, firstRequest := none,
                               permitGiven := false } ∧
        t.engine.noPack = false ∧ t.timer.outside = 0 ∧ t.timer.inside = 0) ∧
      (s.pack.state = .empty ∨ s.pack.state = .unloading → t.pack = s.pack ∧ t.engine = s.engine)))

/-- INDEX_PULSE while a FORMAT's drive work writes (R94): the pulse that begins the writing revolution finds the write-protect line
asserted and ends the work WRITE_FAULT with nothing written, or begins the revolution; the next pulse begins the verifying one.

The writing revolution puts into each sector window the header of (cylinder, head, n) with its check word and W words of zero with
theirs (R89, R94).

FORMAT_WORK_END (R94, R76): DONE when every header of the verifying revolution is matching, else WRITE_FAULT; the grant ends and
any buffer of the track is emptied; a dropped FORMAT is not answered. That a header of another cylinder counts there as one not
matching, without a repeat of the positioning (log 27), and that a header not handed over is not matching (log 22), are the model's
inference and choice. -/
def Obligations.FormatWrittenAndVerified : Prop :=
  (∀ (s : State) (elapsed : Nat) (protect : Bool) (g : Grant) (t : Track) (phase : FormatPhase),
     s.drive.activity = .writing → s.drive.grant = some g → g.work = .format t phase →
     ∃ v, exec (.indexPulse elapsed protect) s = .next v ∧
       (phase = .awaitIndex → protect = true → v.drive.grant = none ∧ v.drive.activity = .idle ∧ v.driveLog = s.driveLog ∧
         v.buffers.slots = s.buffers.slots.map (fun b => if b.track = some t then ⟨none, []⟩ else b) ∧
         (s.stage = some .working → v.completions = s.completions ++ [.status .writeFault []] ∧
           v.port.outstanding = none)) ∧
       (phase = .awaitIndex → protect = false → v.drive.grant = some { g with work := .format t .writing } ∧
         v.drive.activity = .writing ∧ v.completions = s.completions ∧
         ∃ l, v.driveLog = s.driveLog ++ [.formatTrack t l] ∧ l.length = s.geom.sectors ∧
           ∀ n < s.geom.sectors, l[n]? = some
             ⟨[word t.cyl, word (t.head * 256 + n), crc [word t.cyl, word (t.head * 256 + n)]],
               List.replicate s.geom.words 0, crc (List.replicate s.geom.words 0)⟩) ∧
       (phase = .writing → v.drive.grant = some { g with work := .format t .verifying } ∧
         v.drive.activity = .verifying ∧ v.driveLog = s.driveLog ∧ v.completions = s.completions)) ∧
  (∀ (s : State) (headers : List (Option (List BitCell))) (g : Grant) (t : Track) (phase : FormatPhase),
     s.drive.activity = .verifying → s.drive.grant = some g → g.work = .format t phase →
     let u : State :=
       { s with drive := { s.drive with grant := none, activity := .idle }
                buffers := { s.buffers with
                  slots := s.buffers.slots.map (fun b => if b.track = some t then ⟨none, []⟩ else b) } }
     let good := ∀ n < s.geom.sectors, headerMatching g.threshold (t.at n) (headers.getD n none) = true
     (s.stage ≠ some .working → exec (.formatWorkEnd headers) s = .next u) ∧
     (s.stage = some .working → good → exec (.formatWorkEnd headers) s = .next (u.finishRequest .done [])) ∧
     (s.stage = some .working → ¬ good → exec (.formatWorkEnd headers) s = .next (u.finishRequest .writeFault [])))

/-- INDEX_LOSS (R97): with no pack served or no watch made it does nothing; else INDEX_LOST is set, a speed fault begins or goes on
with its inside count 0, the watch ends, and the clock stands 2N ticks after the last pulse. A grant that waits on the rotation
ends: a READ is DATA_CHECK with zero words, a write not begun WRITE_FAULT, a FORMAT WRITE_FAULT, a flush a failed attempt; a write
whose gate is raised goes on (log 14). The level of Media Write Permit that a failed flush attempt finds is the one last sampled
(log 6), the aborted pass's report carries the offset clamp (log 39), and a READ DRIVE SECTOR has zeros also after an earlier try
that met a header of another cylinder (log 41): all three are the model's. What the engine's tests (`poke`) then do is stated in
RecoveryPassTaken. -/
def Obligations.IndexLossTaken : Prop :=
  ∀ (s : State) (gateRaised : Bool),
    (packServes s.pack.state = false ∨ s.timer.watching = false → exec (.indexLoss gateRaised) s = .next s) ∧
    (packServes s.pack.state = true → s.timer.watching = true →
      let moment := s.advance (2 * nominalTicks s.geom - s.timer.count)
      let u : State :=
        { moment with
          events := if s.timer.speedFault then withEvent .indexLost s.events
                    else withEvent .speedFault (withEvent .indexLost s.events)
          timer := { moment.timer with watching := false, speedFault := true, inside := 0 }
          engine := if s.timer.speedFault then s.engine else { s.engine with speed := true }
          drive := if s.timer.speedFault then s.drive else { s.drive with recoveryRequest := false } }
      (s.drive.grant = none ∨ s.drive.activity.rotating = false → exec (.indexLoss gateRaised) s = .next u) ∧
      (∀ g, s.drive.grant = some g → s.drive.activity.rotating = true →
        (∀ a p, g.work = .read a p →
          exec (.indexLoss gateRaised) s =
            .next (u.endGrant.answerAt .working .dataCheck (List.replicate s.geom.words 0))) ∧
        (∀ t w b l, g.work = .capture t w b l →
          exec (.indexLoss gateRaised) s =
            .next (u.endGrant.answerAt .capturing .dataCheck (List.replicate s.geom.words 0))) ∧
        (∀ a ws, g.work = .write a ws →
          exec (.indexLoss gateRaised) s =
            .next (if gateRaised = true ∧ s.drive.activity = .writing then u
                   else u.endGrant.answerAt .working .writeFault [])) ∧
        (∀ t p, g.work = .format t p →
          exec (.indexLoss gateRaised) s =
            .next ((u.endGrant.emptyTrackBuffer t).answerAt .working .writeFault [])) ∧
        (∀ a w dropped, g.work = .flush a w dropped →
          exec (.indexLoss gateRaised) s =
            .next (if gateRaised = true ∧ s.drive.activity = .writing then u
                   else (u.invalidateSector a).flushFailed g a dropped)) ∧
        (∀ a, g.work = .driveSector a →
          exec (.indexLoss gateRaised) s =
            .next (u.endGrant.fillDriveReply true a 5 [0, 0, 0] (List.replicate (s.geom.words + 1) 0))) ∧
        (∀ t x f l, g.work = .recovery t x f l → g.aborted = false →
          (s.engine.ending = none →
            exec (.indexLoss gateRaised) s = .next
              ({ u.endGrant with engine := { u.engine with active := s.engine.active.map (fun j => { j with
                settles := if g.settleSpent then min 65535 (j.settles + 1) else j.settles
                clamped := j.clamped || g.clamped }) } } : State).poke) ∧
          (s.engine.ending ≠ none → exec (.indexLoss gateRaised) s = .next u.endGrant.finishEnding))))

/-- READ_SECTOR_END for a controller READ that no recovery follows (R10, R12, R16): GOOD is DONE with the decoded data, DATA_CHECK and
NO_DATA are DATA_CHECK with the answer data, HEADER_CHECK and a wrong head or sector are HEADER_CHECK; a result whose request was
dropped is discarded (R2). The grant ends. That a READ which fails while no pack is served (its grant running on into UNLOADING) is
answered so and makes no job is the model's inference from R134 and R157 (log 17).

READ_SECTOR_END that reads a header of another cylinder (R10, R84): the first positioning failure of the grant is followed by a
recalibrate and a repeat; the second ends a READ with SEEK_ERROR. -/
def Obligations.ReadAnsweredFromOutcome : Prop :=
  (∀ (s : State) (signal : SectorSignal) (g : Grant) (a : Addr) (prefetch : Bool),
     s.drive.activity = .reading → s.drive.grant = some g → g.work = .read a prefetch →
     let o := passOutcome g.threshold s.geom.words a signal
     let answer (st : Status) (data : List Word) : State :=
       { s with drive := { s.drive with grant := none, activity := .idle }
                port := { s.port with outstanding := none, hold := none }
                completions := s.completions ++ [.status st data] }
     o.otherCylinder a.cyl = false →
     (s.stage ≠ some .working →
       exec (.readSectorEnd signal) s = .next { s with drive := { s.drive with grant := none, activity := .idle } }) ∧
     (∀ r interpose, s.port.outstanding = some ⟨.read a r interpose, .working⟩ →
       (o.kind = .good → exec (.readSectorEnd signal) s = .next (answer .done (o.answerData s.geom.words))) ∧
       (o.kind = .wrongAddress → exec (.readSectorEnd signal) s = .next (answer .headerCheck [])) ∧
       (interpose = false ∨ r.read = .pass ∨ s.timer.speedFault = true ∨ packServes s.pack.state = false →
         (o.kind = .dataCheck ∨ o.kind = .noData →
           exec (.readSectorEnd signal) s = .next (answer .dataCheck (o.answerData s.geom.words))) ∧
         (o.kind = .headerCheck → exec (.readSectorEnd signal) s = .next (answer .headerCheck []))))) ∧
  (∀ (s : State) (signal : SectorSignal) (g : Grant) (a : Addr) (prefetch : Bool),
     s.drive.activity = .reading → s.drive.grant = some g → g.work = .read a prefetch →
     (passOutcome g.threshold s.geom.words a signal).otherCylinder a.cyl = true →
     (g.allowanceUsed = false → exec (.readSectorEnd signal) s = .next
       { s with drive := { s.drive with grant := some { g with allowanceUsed := true }
                                        activity := .positioning true (s.now + 25000) }
                driveLog := s.driveLog ++ [.recalibrate] }) ∧
     (g.allowanceUsed = true → exec (.readSectorEnd signal) s = .next
       (({ s with drive := { s.drive with grant := none, activity := .idle } } : State).answerAt .working .seekError [])))

/-- READ_SECTOR_END for a READ that fails in a RECOVER region in INTERPOSE mode, outside a speed fault, with a pack served: the
grant ends and the READ goes to recovery with its last read's data (R12, R13).

What going to recovery does (R13, R17, R118, R120). The request is urgent when the Hold Limit is above 0. Taken, it leaves the READ
held to the present moment plus the Hold Limit, or answered DATA_CHECK at once with the Hold Limit 0; not taken, which is with 16
jobs queued and none of them for the track, it leaves it answered DATA_CHECK at once and nothing else changed.

With no job of the track a new one has the region's ladder and keep-best and the sector pending: an urgent one stands behind the
urgent QUEUED jobs and before all others, closing an open batch window whose batch is sorted behind it; one that is not urgent is
appended, an open window left as it is. A job of the track takes the sector by the table of R118, with an empty accumulator where it
joins (R118, R149), and is urgent from then on if the request is: ACTIVE, PARKED, QUEUED and already urgent, or with a request that
is not urgent it stays where it stands; QUEUED and not yet urgent it moves to the place of a new urgent job. The engine then makes
its tests (`poke`, stated in RecoveryPassTaken).

That a sector which has come to have a serving entry since its READ was taken is treated by R118's table too, not made pending, is
the model's inference (log 36): decided in the job of its track, or a new job ended COMPLETED at once with the sector ALREADY_HELD.
-/
def Obligations.FailedReadHeldForRecovery : Prop :=
  (∀ (s : State) (signal : SectorSignal) (g : Grant) (a : Addr) (prefetch : Bool) (r : Region),
     s.drive.activity = .reading → s.drive.grant = some g → g.work = .read a prefetch →
     s.port.outstanding = some ⟨.read a r true, .working⟩ → r.read = .recover → s.timer.speedFault = false →
     packServes s.pack.state = true →
     let o := passOutcome g.threshold s.geom.words a signal
     o.kind = .dataCheck ∨ o.kind = .noData ∨ o.kind = .headerCheck →
     exec (.readSectorEnd signal) s = .next
       (({ s with drive := { s.drive with grant := none, activity := .idle } } : State).sendToRecovery a r
         (o.answerData s.geom.words))) ∧
  (∀ (s : State) (a : Addr) (r : Region) (data : List Word) (stage : Stage),
     s.port.outstanding = some ⟨.read a r true, stage⟩ →
     let urgent := decide (0 < s.timing.holdLimit)
     let answered (v : State) : State :=
       { v with port := { v.port with outstanding := none, hold := none }
                completions := v.completions ++ [.status .dataCheck data] }
     let taken (v : State) : State :=
       if 0 < s.timing.holdLimit then
         { v with port := { v.port with outstanding := some ⟨.read a r true, .held⟩
                                        hold := some ⟨.read data, a, s.now + 100 * s.timing.holdLimit⟩ } }
       else answered v
     let tested (e : Engine) : State := taken ({ s with engine := e } : State).poke
     let new : Job := ⟨a.track, r.ladder, .automatic, urgent, r.keepBest, s.pack.epoch, [a.sector], [], 0, 0, 0, 0, 0, false,
       false, none, false⟩
     let merged (j : Job) : Job :=
       { j with
         urgent := j.urgent || urgent
         pending := if a.sector ∈ j.pending ∨ s.servingAt a = true then j.pending else insertSector a.sector j.pending
         outcomes :=
           if a.sector ∈ j.pending ∨ (s.servingAt a = true ∧ ∃ x ∈ j.outcomes, x.sector = a.sector) then j.outcomes
           else if s.servingAt a = true then insertOutcome ⟨a.sector, .alreadyHeld, j.step⟩ j.outcomes
           else j.outcomes.filter (fun x => x.sector != a.sector) }
     let emptied (j : Job) (banks : List (List (Nat × Accumulator))) : Prop :=
       (a.sector ∈ j.pending → banks = s.engine.banks) ∧
       (∀ b m, b ≠ j.bank ∨ m ≠ a.sector →
         ({ s.engine with banks := banks } : Engine).accumulator b m = s.engine.accumulator b m) ∧
       (a.sector ∉ j.pending → (∀ l ∈ s.engine.banks, tableWf l = true) →
         ({ s.engine with banks := banks } : Engine).accumulator j.bank a.sector = Accumulator.empty)
     let entered (k : Job) (others queue : List Job) : Prop :=
       ∃ front back, queue = front ++ k :: back ∧ (∀ x ∈ front, x.urgent = true) ∧
         (∀ x, back.head? = some x → x.urgent = false) ∧ (s.engine.orderWf = true → ∀ x ∈ back, x.urgent = false) ∧
         (s.engine.window = none → front ++ back = others) ∧
         (s.engine.window ≠ none → (front ++ back).Perm others ∧ (front ++ back).Pairwise (fun x y =>
           x.track.cyl < y.track.cyl ∨ (x.track.cyl = y.track.cyl ∧ x.track.head ≤ y.track.head)))
     let t := s.sendToRecovery a r data
     ((∀ x ∈ s.engine.active.toList ++ s.engine.parked.toList ++ s.engine.queued, x.track ≠ a.track) →
       (16 ≤ s.engine.length → t = answered s) ∧
       (s.engine.length < 16 → s.servingAt a = false → 0 < s.timing.holdLimit → ∃ queue, entered new s.engine.queued queue ∧
         t = tested { s.engine with window := none, queued := queue }) ∧
       (s.engine.length < 16 → s.servingAt a = false → s.timing.holdLimit = 0 →
         t = tested { s.engine with queued := s.engine.queued ++ [new] }) ∧
       (s.engine.length < 16 → s.servingAt a = true → ∃ v, t = taken v ∧ v.port = s.port ∧ v.completions = s.completions ∧
         v.map = s.map ∧ v.engine.queued = s.engine.queued ∧ v.engine.jobs.Perm s.engine.jobs ∧
         (s.canReserve = true → v.results = s.results ++
           [⟨s.pack.epoch, a.track, .automatic, .completed, 0, 0, 0, false, [⟨a.sector, .alreadyHeld, 0⟩]⟩]) ∧
         (s.canReserve = false → v.results = s.results ∧ hasEvent .resultsFull v.events = true))) ∧
     (∀ j, s.engine.active = some j → j.track = a.track → ∃ banks, emptied j banks ∧
       t = tested { s.engine with active := some (merged j), banks := banks }) ∧
     (∀ j, (∀ x ∈ s.engine.active, x.track ≠ a.track) → s.engine.parked = some j → j.track = a.track →
       ∃ banks, emptied j banks ∧ t = tested { s.engine with parked := some (merged j), banks := banks }) ∧
     (∀ before j after, (∀ x ∈ s.engine.active.toList ++ s.engine.parked.toList ++ before, x.track ≠ a.track) →
       s.engine.queued = before ++ j :: after → j.track = a.track →
       (0 < s.timing.holdLimit → j.urgent = false → ∃ queue, entered (merged j) (before ++ after) queue ∧
         t = tested { s.engine with window := none, queued := queue }) ∧
       (s.timing.holdLimit = 0 ∨ j.urgent = true →
         t = tested { s.engine with queued := before ++ merged j :: after })))

/-- CAPTURE_SECTOR_DECODED and CAPTURE_END (R72, R73, R76): a GOOD sector is stored in the capture's buffer, another leaves it as it
was; a READ that waits on the sector is answered by R10, or given to recovery by R13, and the capture goes on; a sector decoded
already is not decoded again. A header of another cylinder at the sector the capture was made for, or at one a READ awaits, is the
grant's positioning failure (R84): the first repeats the capture from its beginning, the second ends it and the READ that waits is
SEEK_ERROR; at any other sector the capture goes on (log 32, the model's inference). At the end of the revolution the grant ends and
a READ still waiting meets NO_DATA (log 22). That a READ which fails while no pack is served makes no job is log 17. What a READ
given to recovery does, whatever job its track has, is stated in FailedReadHeldForRecovery (`sendToRecovery`). -/
def Obligations.CaptureFillsBuffer : Prop :=
  ∀ (s : State) (n : Nat) (signal : SectorSignal) (g : Grant) (t : Track) (want : Nat) (buffer : Option Nat)
      (decoded : List Nat),
    s.drive.activity = .reading → s.drive.grant = some g → g.work = .capture t want buffer decoded →
    let o := passOutcome g.threshold s.geom.words (t.at n) signal
    let stored (i : Nat) : List TrackBuffer := s.buffers.slots.set i
      { s.buffer i with good := tablePut n (o.answerData s.geom.words) (s.buffer i).good }
    let u : State :=
      { s with
        drive := { s.drive with grant := some { g with work := .capture t want buffer (insertSector n decoded) } }
        buffers := { s.buffers with slots :=
          match buffer with
          | some i => if o.kind = .good then stored i else s.buffers.slots
          | none => s.buffers.slots } }
    (n ∈ decoded ∨ s.geom.sectors ≤ n → exec (.captureSectorDecoded n signal) s = .next s) ∧
    (n ∉ decoded → n < s.geom.sectors → o.kind = .good →
      (s.awaitsCapture (t.at n) = true → exec (.captureSectorDecoded n signal) s = .next
        (u.finishRequest .done (o.answerData s.geom.words))) ∧
      (s.awaitsCapture (t.at n) = false → exec (.captureSectorDecoded n signal) s = .next u)) ∧
    (n ∉ decoded → n < s.geom.sectors → n ≠ want ∨ o.otherCylinder t.cyl = false → s.awaitsCapture (t.at n) = false →
      exec (.captureSectorDecoded n signal) s = .next u) ∧
    (n ∉ decoded → n < s.geom.sectors → o.otherCylinder t.cyl = true → n = want ∨ s.awaitsCapture (t.at n) = true →
      (g.allowanceUsed = false → exec (.captureSectorDecoded n signal) s = .next
        { s with drive := { s.drive with
                   grant := some { g with allowanceUsed := true, work := .capture t want buffer [] }
                   activity := .positioning true (s.now + 25000) }
                 driveLog := s.driveLog ++ [.recalibrate] }) ∧
      (g.allowanceUsed = true → exec (.captureSectorDecoded n signal) s = .next
        (({ s with drive := { s.drive with grant := none, activity := .idle } } : State).answerAt .capturing .seekError []))) ∧
    (∀ r interpose, n ∉ decoded → n < s.geom.sectors → o.otherCylinder t.cyl = false →
      s.port.outstanding = some ⟨.read (t.at n) r interpose, .capturing⟩ →
      let data := o.answerData s.geom.words
      (o.kind = .wrongAddress →
        exec (.captureSectorDecoded n signal) s = .next (u.finishRequest .headerCheck [])) ∧
      (interpose = false ∨ r.read = .pass ∨ s.timer.speedFault = true ∨ packServes s.pack.state = false →
        (o.kind = .dataCheck ∨ o.kind = .noData →
          exec (.captureSectorDecoded n signal) s = .next (u.finishRequest .dataCheck data)) ∧
        (o.kind = .headerCheck →
          exec (.captureSectorDecoded n signal) s = .next (u.finishRequest .headerCheck []))) ∧
      (interpose = true → r.read = .recover → s.timer.speedFault = false → packServes s.pack.state = true →
        o.kind = .dataCheck ∨ o.kind = .noData ∨ o.kind = .headerCheck →
        exec (.captureSectorDecoded n signal) s = .next (u.sendToRecovery (t.at n) r data) ∧
        ((∀ j ∈ s.engine.jobs, j.track ≠ t) → 16 ≤ s.engine.length →
          exec (.captureSectorDecoded n signal) s = .next (u.finishRequest .dataCheck data)) ∧
        ((∀ j ∈ s.engine.jobs, j.track ≠ t) → s.engine.length < 16 → s.servingAt (t.at n) = false → ∃ v,
          exec (.captureSectorDecoded n signal) s = .next v ∧ v.drive.grant = u.drive.grant ∧ v.drive.activity = .reading ∧ v.buffers = s.buffers ∧ v.map = s.map ∧
          (∃ j ∈ v.engine.jobs, j.track = t ∧ j.pending = [n] ∧ j.origin = .automatic ∧ j.ladder = r.ladder ∧
            j.keepBest = r.keepBest ∧ j.urgent = decide (0 < s.timing.holdLimit)) ∧
          (0 < s.timing.holdLimit → v.completions = s.completions ∧
            v.port.outstanding = some ⟨.read (t.at n) r true, .held⟩ ∧
            v.port.hold = some ⟨.read data, t.at n, s.now + 100 * s.timing.holdLimit⟩) ∧
          (s.timing.holdLimit = 0 → v.completions = s.completions ++ [.status .dataCheck data] ∧
            v.port.outstanding = none ∧ v.port.hold = none)))) ∧
    (s.stage ≠ some .capturing →
      exec .captureEnd s = .next { s with drive := { s.drive with grant := none, activity := .idle } }) ∧
    (∀ a r interpose, s.port.outstanding = some ⟨.read a r interpose, .capturing⟩ →
      interpose = false ∨ r.read = .pass ∨ s.timer.speedFault = true ∨ packServes s.pack.state = false →
      exec .captureEnd s = .next (State.finishRequest .dataCheck (List.replicate s.geom.words 0)
        { s with drive := { s.drive with grant := none, activity := .idle } })) ∧
    (∀ a r, s.port.outstanding = some ⟨.read a r true, .capturing⟩ → r.read = .recover → s.timer.speedFault = false →
      packServes s.pack.state = true →
      exec .captureEnd s = .next
        (({ s with drive := { s.drive with grant := none, activity := .idle } } : State).sendToRecovery a r
          (List.replicate s.geom.words 0)))

/-- SECTOR_WRITE_END for a TRANSPARENT WRITE (R16, R39, R45, R93): with the header matching and the write-protect line deasserted
the words and their check word go to the drive, the map entry of the address is removed, its buffered sector is invalid and a
pending sector superseded, answered or not; else nothing is written and the answer is WRITE_FAULT. A header of another cylinder is a
positioning failure of either write (R84): the first of the grant is followed by a recalibrate and a repeat, the second ends a
TRANSPARENT WRITE with WRITE_FAULT and is a failed attempt of a flush write.

SECTOR_WRITE_END for a flush write (R64 to R68, R75): written, the entry leaves, or stays with its merged data; the write-protect
line discards it with POST_DISCARD; a header not found is a failed attempt, the third of which discards the entry, and the retry
begins in the same grant unless Media Write Permit is deasserted (flushing is then held) or a speed fault is in force. The result of
a dropped entry is discarded. The buffered sector is invalid in every case. That a failed attempt leaves the merged in flight flag
as it was is the model's inference (log 21). That the write of an entry dropped since it began is repeated too, after the first
header of another cylinder, with the data it began with, where R68 makes no retry of a dropped entry, is the model's choice (log
13). -/
def Obligations.SectorWriteEnds : Prop :=
  (∀ (s : State) (header : Option (List BitCell)) (protect permit : Bool) (g : Grant) (a : Addr) (ws : List Word),
     s.drive.activity = .writing → s.drive.grant = some g → g.work = .write a ws →
     let other := headerOfOtherCylinder g.threshold a.cyl header
     let u : State :=
       { s with lines := { s.lines with writeProtect := protect, permit := permit }
                drive := { s.drive with grant := none, activity := .idle } }
     (headerMatching g.threshold a header = true → protect = false →
       exec (.sectorWriteEnd header protect permit) s = .next
         ((({ u with driveLog := s.driveLog ++ [.writeSector a ws (crc ws)]
                     map := { s.map with entries := s.map.entries.filter (fun e => e.addr != a) }
                     buffers := { s.buffers with slots := s.buffers.slots.map (TrackBuffer.invalidate a) } } : State).supersede
           a).answerAt .working .done [])) ∧
     (headerMatching g.threshold a header = true → protect = true →
       exec (.sectorWriteEnd header protect permit) s = .next (u.answerAt .working .writeFault [])) ∧
     (headerMatching g.threshold a header = false → other = false ∨ g.allowanceUsed = true →
       exec (.sectorWriteEnd header protect permit) s = .next (u.answerAt .working .writeFault [])) ∧
     (other = true → g.allowanceUsed = false →
       exec (.sectorWriteEnd header protect permit) s = .next
         { u with drive := { s.drive with grant := some { g with allowanceUsed := true }
                                          activity := .positioning true (s.now + 25000) }
                  driveLog := s.driveLog ++ [.recalibrate] })) ∧
  (∀ (s : State) (header : Option (List BitCell)) (protect permit : Bool) (g : Grant) (a : Addr) (ws : List Word)
       (dropped : Bool) (p : PostEntry),
     s.drive.activity = .writing → s.drive.grant = some g → g.work = .flush a (some ws) dropped →
     let other := headerOfOtherCylinder g.threshold a.cyl header
     (dropped = false → s.postAt a = some p) →
     let matching := headerMatching g.threshold a header
     let without := s.posts.entries.filter (fun q => q.addr != a)
     let u : State :=
       { s with lines := { s.lines with writeProtect := protect, permit := permit }
                buffers := { s.buffers with slots := s.buffers.slots.map (TrackBuffer.invalidate a) }
                drive := { s.drive with grant := none, activity := .idle } }
     let failedOnce : List PostEntry := s.posts.entries.map (fun q =>
       if q.addr = a then { q with failed := q.failed + 1, inFlight := false } else q)
     (matching = true → protect = false →
       (dropped = true → exec (.sectorWriteEnd header protect permit) s = .next
         { u with driveLog := s.driveLog ++ [.writeSector a ws (crc ws)] }) ∧
       (dropped = false → exec (.sectorWriteEnd header protect permit) s = .next
         { u with driveLog := s.driveLog ++ [.writeSector a ws (crc ws)]
                  posts := { s.posts with entries :=
                    if p.mergedInFlight then s.posts.entries.map (fun q =>
                      if q.addr = a then { q with failed := 0, inFlight := false, mergedInFlight := false } else q)
                    else without } })) ∧
     (matching = true → protect = true →
       exec (.sectorWriteEnd header protect permit) s = .next
         (if dropped then u
          else { u with posts := { s.posts with entries := without }, events := withEvent .postDiscard s.events })) ∧
     (other = true → g.allowanceUsed = false →
       exec (.sectorWriteEnd header protect permit) s = .next
         { s with lines := u.lines
                  drive := { s.drive with grant := some { g with allowanceUsed := true }
                                          activity := .positioning true (s.now + 25000) }
                  driveLog := s.driveLog ++ [.recalibrate] }) ∧
     (matching = false → other = false ∨ g.allowanceUsed = true →
       (dropped = true → exec (.sectorWriteEnd header protect permit) s = .next u) ∧
       (dropped = false → 2 ≤ p.failed → exec (.sectorWriteEnd header protect permit) s = .next
         { u with posts := { s.posts with entries := without }, events := withEvent .postDiscard s.events }) ∧
       (dropped = false → p.failed < 2 →
         (permit = false → exec (.sectorWriteEnd header protect permit) s = .next
           { u with posts := { entries := failedOnce, heldForPermit := true } }) ∧
         (permit = true → s.timer.speedFault = true → exec (.sectorWriteEnd header protect permit) s = .next
           { u with posts := { s.posts with entries := failedOnce } }) ∧
         (permit = true → s.timer.speedFault = false →
           let g' : Grant := { g with allowanceUsed := false, work := .flush a none false }
           exec (.sectorWriteEnd header protect permit) s = .next
             (({ u with posts := { s.posts with entries := failedOnce }
                        drive := { s.drive with grant := some g' } } : State).beginPositioning false g')))))

/-- DRIVE_FAULT, FAULT_CLEAR_END and FAULT_LINE_FALL (R77, R98): a rise of the line with ready asserted sets DRIVE_FAULT, ends the
grant, issues one fault clear and waits N ticks with the cylinder unknown; at the end the fault is removed (IDLE, condition READY)
or persists (NOT_READY, cause FAULT, standing requests handed back); a fall of the line with ready asserted makes a condition of
cause FAULT READY. A level already there changes nothing (log 3).

DRIVE_READY_RISE (R77, R95, R98, R152): the condition becomes READY, an EMPTY pack SPINNING_UP with count 0, the next pulse only
starts the count; a fault line found asserted begins the fault handling. DRIVE_READY_FALL (R99, R80): the grant ends, the condition
is NOT_READY cause OFF, the cylinder unknown, the activity IDLE, the standing requests handed back; and the pack: SPINNING_UP and
UNLOADING become EMPTY, LOADED and UNLOAD_PENDING are lost with PACK_LOST (R152, R159, R160): posts discarded with POST_DISCARD when
there was one, the map, buffers, jobs, Format Enable and speed status emptied. -/
def Obligations.DriveLinesTaken : Prop :=
  (∀ s : State,
     (s.lines.fault = true → exec .driveFault s = .next s) ∧
     (s.lines.fault = false → (s.lines.ready = false ∨ (∃ d, s.drive.activity = .clearing d)) →
       exec .driveFault s = .next { s with lines := { s.lines with fault := true } }) ∧
     (s.lines.fault = false → s.lines.ready = true → s.drive.grant = none → (∀ d, s.drive.activity ≠ .clearing d) →
       exec .driveFault s = .next
         { s with lines := { s.lines with fault := true }
                  events := withEvent .driveFault s.events
                  driveLog := s.driveLog ++ [.faultClear]
                  drive := { s.drive with physCyl := none, activity := .clearing (s.now + nominalTicks s.geom) } }) ∧
     (s.lines.fault = false → s.lines.ready = true → (∀ d, s.drive.activity ≠ .clearing d) →
       ∃ t, exec .driveFault s = .next t ∧ t.drive.grant = none ∧ t.drive.physCyl = none ∧
         hasEvent .driveFault t.events = true ∧ t.drive.activity = .clearing (s.now + nominalTicks s.geom) ∧
         t.driveLog = s.driveLog ++ [.faultClear] ∧
         (∀ g a p r i, s.drive.grant = some g → g.work = .read a p → s.port.outstanding = some ⟨.read a r i, .working⟩ →
           t.completions = s.completions ++ [.status .notReady []] ∧ t.port.outstanding = none) ∧
         (∀ g a ws, s.drive.grant = some g → g.work = .write a ws → s.port.outstanding = some ⟨.write a ws, .working⟩ →
           t.completions = s.completions ∧ t.port.outstanding = some ⟨.write a ws, .clearing⟩)) ∧
     (∀ d, s.drive.activity = .clearing d →
       (s.lines.fault = false → ∃ t, exec .faultClearEnd s = .next t ∧ t.drive = { s.drive with activity := .idle } ∧
         (s.stage = some .clearing → t.completions = s.completions ++ [.status .writeFault []] ∧
           t.port.outstanding = none) ∧
         (s.stage ≠ some .clearing → t.completions = s.completions ∧ t.port = s.port)) ∧
       (s.lines.fault = true → ∃ t, exec .faultClearEnd s = .next t ∧ t.drive.cond = .fault ∧ t.drive.activity = .idle ∧
         t.drive.requests = [] ∧
         (s.stage = some .clearing → s.drive.requests = [] →
           t.completions = s.completions ++ [.status .notReady []] ∧ t.port.outstanding = none))) ∧
     (exec .faultLineFall s = .next
       { s with lines := { s.lines with fault := false }
                drive := { s.drive with
                  cond := if s.lines.ready = true ∧ s.drive.cond = .fault then .ready else s.drive.cond } })) ∧
  (∀ s : State,
     (s.lines.ready = true → exec .driveReadyRise s = .next s) ∧
     (s.lines.ready = false → s.lines.fault = false → exec .driveReadyRise s = .next
       { s with lines := { s.lines with ready := true }
                drive := { s.drive with cond := .ready }
                timer := { s.timer with counting := false }
                pack := if s.pack.state = .empty then { s.pack with state := .spinningUp, spinUp := 0 } else s.pack }) ∧
     (s.lines.ready = false → s.lines.fault = true → ∃ t, exec .driveReadyRise s = .next t ∧ t.drive.cond = .ready ∧
       hasEvent .driveFault t.events = true ∧ t.drive.activity = .clearing (s.now + nominalTicks s.geom)) ∧
     (s.lines.ready = false → exec .driveReadyFall s = .next s) ∧
     (s.lines.ready = true → ∃ t, exec .driveReadyFall s = .next t ∧ t.lines = { s.lines with ready := false } ∧
       t.drive.cond = .off ∧ t.drive.grant = none ∧ t.drive.physCyl = none ∧ t.drive.activity = .idle ∧
       t.drive.requests = [] ∧ t.drive.trim = s.drive.trim ∧ t.drive.offsetCode = s.drive.offsetCode ∧
       t.pack.state = .empty ∧ t.pack.epoch = s.pack.epoch ∧ t.pack.unloadGuard = s.pack.unloadGuard ∧
       t.regions = s.regions ∧ t.ladders = s.ladders ∧ t.timing = s.timing ∧
       (s.pack.state ≠ .empty →
         t.map.entries = [] ∧ t.buffers.slots = s.buffers.slots.map (fun _ => ⟨none, []⟩) ∧
         t.buffers.order = s.buffers.order ∧ t.timer.speedFault = false ∧ t.engine.speed = false ∧
         t.pack.spinUp = 0 ∧ t.pack.firstRequest = none ∧ t.pack.permitGiven = false ∧ t.pack.unloadRelease = false) ∧
       (packServes s.pack.state = true →
         hasEvent .packLost t.events = true ∧ t.posts.entries = [] ∧
         (s.posts.entries ≠ [] → hasEvent .postDiscard t.events = true) ∧ t.port.hold = none ∧
         t.port.formatEnable = false ∧ t.engine.noPack = true ∧ t.engine.window = none ∧
         t.engine.active = none ∧ t.engine.parked = none ∧ t.engine.queued = [])))

/-! ## The Recovery Engine (07_the_recovery_engine.md, 08_voting_and_candidate_search.md) -/

/-- Decided words offered to the map (R48, R49): discarded when the address has a post entry or a DIVERTED or LOADED entry; else stored
in the entry's slot or the lowest-numbered free slot with the current epoch and a check word of the part's own; with no slot
STORE_FULL is set and nothing is stored. That an offer which meets a DIRECT, VOTE or FLIP entry replaces it in its slot is the
model's inference, since the rule's table has no such row and no run meets one (log 19).

A pending sector of the ACTIVE job resolved (R18, R48, R125, R147): it leaves the pending set with its outcome at the current step,
the map's answer turning it to NOT_STORED or SUPERSEDED; its accumulator is discarded, empty from then on where the banks have their
form (R136, R149), and no other accumulator changes; a held READ of it is answered DONE with the words unless the offer was
discarded. -/
def Obligations.ResolutionOffersToMap : Prop :=
  (∀ (s : State) (a : Addr) (o : Origin) (ws : List Word),
     (s.postAt a ≠ none → s.offer a o ws = (.superseded, s)) ∧
     (∀ e, s.postAt a = none → s.entryAt a = some e →
       (e.origin = .diverted ∨ e.origin = .loaded → s.offer a o ws = (.superseded, s)) ∧
       (e.origin ≠ .diverted → e.origin ≠ .loaded → s.offer a o ws = (.stored,
         { s with map := { entries := insertEntry ⟨a, o, s.pack.epoch, e.slot⟩ s.map.entries
                           store := tablePut e.slot ⟨ws, crc ws⟩ s.map.store } }))) ∧
     (s.postAt a = none → s.entryAt a = none →
       (∀ n, s.freeSlot = some n → s.offer a o ws = (.stored,
         { s with map := { entries := insertEntry ⟨a, o, s.pack.epoch, n⟩ s.map.entries
                           store := tablePut n ⟨ws, crc ws⟩ s.map.store } }) ∧
         n < 1024 ∧ (∀ e ∈ s.map.entries, e.slot ≠ n) ∧ (∀ m < n, ∃ e ∈ s.map.entries, e.slot = m)) ∧
       (s.freeSlot = none → s.offer a o ws = (.full, { s with events := withEvent .storeFull s.events }) ∧
         ∀ m < 1024, ∃ e ∈ s.map.entries, e.slot = m))) ∧
  (∀ (s : State) (j : Job) (n : Nat) (r : Resolution) (ws : List Word), s.engine.active = some j →
     let a := j.track.at n
     let p := s.offer a r.mapOrigin ws
     let outcome : SectorOutcome :=
       match p.1 with
       | .stored => r.outcome
       | .full => .notStored
       | .superseded => .superseded
     let t := s.resolveSector n r ws
     t.map = p.2.map ∧ t.events = p.2.events ∧ t.posts = s.posts ∧ t.results = s.results ∧
       t.engine.active = some { j with
         pending := j.pending.filter (fun m => m != n)
         outcomes := insertOutcome ⟨n, outcome, j.step⟩ j.outcomes } ∧
       t.engine.parked = s.engine.parked ∧ t.engine.queued = s.engine.queued ∧
       ((∀ b ∈ s.engine.banks, tableWf b = true) → t.engine.accumulator j.bank n = Accumulator.empty) ∧
       (∀ b m, b ≠ j.bank ∨ m ≠ n → t.engine.accumulator b m = s.engine.accumulator b m) ∧
       (∀ h last, s.port.hold = some h → h.kind = .read last → h.addr = a → p.1 ≠ .superseded →
         t.completions = s.completions ++ [.status .done ws] ∧ t.port.outstanding = none ∧ t.port.hold = none) ∧
       ((∀ h, s.port.hold = some h → h.addr ≠ a) ∨ p.1 = .superseded → t.completions = s.completions ∧ t.port = s.port))

/-- A contributing read (R138, R139, R140, R141, R144): on the first pass of a RESET step the sector's accumulator is made empty first;
DATA_CHECK with data contributes, HEADER_CHECK with data where the step allows header inference, marking it inferred; the read is
folded and the sector evaluated under the step's flip limit and ceiling. GOOD resolves as DIRECT; a sector no longer pending is
passed over; any other outcome contributes nothing. -/
def Obligations.OutcomeExamined : Prop :=
  ∀ (s : State) (step : LadderStep) (first : Bool) (j : Job) (n : Nat) (o : PassOutcome), s.engine.active = some j →
    let u := if first = true ∧ step.voteMode = .reset then s.withEngine (Engine.dropAccumulator j.bank n) else s
    (n ∉ j.pending → s.examine step first (n, o) = s) ∧
    (n ∈ j.pending →
      (o.kind = .good → s.examine step first (n, o) = u.resolveSector n .direct (o.answerData s.geom.words)) ∧
      (∀ bits, o.bits = some bits → (o.kind = .dataCheck ∨ (o.kind = .headerCheck ∧ step.inference = true)) →
        let acc := (u.engine.accumulator j.bank n).fold bits (o.kind == .headerCheck)
        let v := u.withEngine (Engine.putAccumulator j.bank n acc)
        (evaluate s.geom.words step.flipLimit step.flipCeiling acc = none → s.examine step first (n, o) = v) ∧
        (∀ r ws, evaluate s.geom.words step.flipLimit step.flipCeiling acc = some (r, ws) →
          s.examine step first (n, o) = v.resolveSector n r ws)) ∧
      (o.kind = .wrongAddress ∨ o.kind = .noData ∨ (o.kind = .headerCheck ∧ step.inference = false) ∨
          (o.bits = none ∧ o.kind ≠ .good) →
        s.examine step first (n, o) = u))

/-- The fold of a read into an accumulator (R136, R140): at every position of the read the score moves by 3 for STRONG, 1 for WEAK
and 0 for ERASED, up for a 1 and down for a 0, held within -127..127; the last value is the decoded bit unless it is ERASED; the
count rises by one to at most 255.

What the evaluation of a sector answers (R142 to R147): nothing before two contributing reads; a VOTE is the candidate, which passes
the check; a FLIP comes only after a candidate that fails, with 1 flip up to the flip limit, at positions whose confidence is at
most the ceiling, and the words handed on are the corrected candidate's, which passes.

The candidate (R142, R143): at each position 1 for a score above 0, 0 for one below, at 0 the last value, and 0 where there is none;
it passes when the CRC-16 of its W data words equals its check word; a correction inverts the named positions and no other (R146).

When the evaluation must answer (R144 to R147): from two contributing reads on, a candidate that passes is a VOTE. With a candidate
that fails and the positions taken as R145 orders them (eligible, by ascending confidence and then ascending position, no more than
the flip limit, and no eligible position left out that stands before one taken or while there is room), a FLIP exactly when one
non-empty subset of them passes, with that subset's flips and words; nothing when no subset passes or more than one does. -/
def Obligations.FoldThenEvaluation : Prop :=
  (∀ (acc : Accumulator) (bits : List (Bool × Quality)) (inferred : Bool) (i : Nat) (b : Bool) (q : Quality),
     bits[i]? = some (b, q) → acc.votes.length ≤ bits.length →
     let before := acc.votes.getD i ⟨0, none⟩
     let t := acc.fold bits inferred
     let moved : Int := before.score + (if b then 1 else -1) * (match q with
       | .strong => 3
       | .weak => 1
       | .erased => 0)
     t.votes[i]? = some ⟨max (-127) (min 127 moved), if q = .erased then before.last else some b⟩ ∧
       t.count = min 255 (acc.count + 1) ∧ t.inferred = (acc.inferred || inferred) ∧ t.votes.length = bits.length) ∧
  (∀ (acc : Accumulator) (w : Nat) (bits : List Bool) (ps : List Nat) (i : Nat),
     acc.candidateBits = acc.votes.map (fun v =>
       if 0 < v.score then true else if v.score < 0 then false else v.last.getD false) ∧
       acc.candidateWords w = bitsToWords w acc.candidateBits ∧
       (bitsPass w bits = true ↔ crc ((bitsToWords (w + 1) bits).take w) = (bitsToWords (w + 1) bits).getD w 0) ∧
       (invertAt ps 0 bits)[i]? = bits[i]?.map (fun b => if i ∈ ps then !b else b)) ∧
  (∀ (w limit ceiling : Nat) (acc : Accumulator) (r : Resolution) (ws : List Word),
     evaluate w limit ceiling acc = some (r, ws) →
     2 ≤ acc.count ∧
     (r ≠ .direct) ∧
     (∀ h, r = .vote h → h = acc.inferred ∧ ws = bitsToWords w acc.candidateBits ∧ bitsPass w acc.candidateBits = true) ∧
     (∀ k h, r = .flip k h → h = acc.inferred ∧ 1 ≤ k ∧ k ≤ limit ∧ bitsPass w acc.candidateBits = false ∧
       ∃ ps : List Nat, ps.length = k ∧ ps.Nodup ∧
         (∀ i ∈ ps, ∃ v, acc.votes[i]? = some v ∧ v.confidence ≤ ceiling) ∧
         bitsPass w (invertAt ps 0 acc.candidateBits) = true ∧ ws = bitsToWords w (invertAt ps 0 acc.candidateBits))) ∧
  (∀ (w limit ceiling : Nat) (acc : Accumulator) (taken : List Nat),
     let confidence (i : Nat) : Nat := (acc.votes.getD i ⟨0, none⟩).score.natAbs
     let eligible (i : Nat) : Prop := i < acc.votes.length ∧ confidence i ≤ ceiling
     let before (i k : Nat) : Prop := confidence i < confidence k ∨ (confidence i = confidence k ∧ i < k)
     let passing (ps : List Nat) : Prop :=
       ps.Sublist taken ∧ ps ≠ [] ∧ bitsPass w (invertAt ps 0 acc.candidateBits) = true
     (acc.count < 2 → evaluate w limit ceiling acc = none) ∧
     (2 ≤ acc.count → bitsPass w acc.candidateBits = true →
       evaluate w limit ceiling acc = some (.vote acc.inferred, bitsToWords w acc.candidateBits)) ∧
     (2 ≤ acc.count → bitsPass w acc.candidateBits = false → taken.length ≤ limit → taken.Pairwise before →
       (∀ i ∈ taken, eligible i) →
       (∀ k, eligible k → k ∉ taken → taken.length = limit ∧ ∀ i ∈ taken, before i k) →
       (∀ ps, passing ps → (∀ qs, passing qs → qs = ps) → evaluate w limit ceiling acc =
         some (.flip ps.length acc.inferred, bitsToWords w (invertAt ps 0 acc.candidateBits))) ∧
       ((∀ ps, ¬ passing ps) ∨ (∃ ps qs, passing ps ∧ passing qs ∧ ps ≠ qs) → evaluate w limit ceiling acc = none)))

/-- RECOVERY_PASS_END of the ACTIVE job (R92, R125, R126): the grant ends and the settle and clamp are charged; a header of another
cylinder makes the pass a mis-seek, counted, with nothing folded, the third ending the job SEEK_FAILED; else the pass is counted,
its outcomes are examined in ascending sector order, but for the sectors that left the pending set while the pass ran (R118, R124,
R128), and the step is counted.

The end of a pass that was read (R109, R125): the passes done in the step are counted, the step advances when they reach its passes
field; the job ends COMPLETED when its pending set is empty or its ladder exhausted, else it goes on to the next pass.

The tests the engine makes whenever one of their conditions may have come to hold (R116, R123, R124), which every statement that
ends in `poke` takes from here: a non-urgent ACTIVE job is parked, its standing request withdrawn, when no job is PARKED, the head
is urgent, the engine is not stopped, a reservation can be made and no grant of it runs; else an ACTIVE job has its RECOVERY request
standing exactly while the engine is not stopped and no grant of it runs; with no job ACTIVE none stands. Nothing else changes.

The model's choices: a pending sector whose signal is not handed over is NO_DATA (log 22), and the pass is asked for again after a
mis-seek also for a job whose pending set has been emptied (log 33). That the tests are made anew at each such moment and not
remembered is its inference (log 20). -/
def Obligations.RecoveryPassTaken : Prop :=
  (∀ (s : State) (signals : List (Nat × SectorSignal)) (g : Grant) (t : Track) (step : LadderStep) (first : Bool)
       (sectors : List Nat) (j : Job),
     s.drive.activity = .reading → s.drive.grant = some g → g.work = .recovery t step first sectors → g.aborted = false →
     s.engine.ending = none → s.engine.active = some j →
     let outcomes := sectors.map (fun n => (n,
       match tableGet n signals with
       | some x => passOutcome g.threshold s.geom.words (t.at n) x
       | none => PassOutcome.nothing))
     let charged : Job := { j with
       settles := if g.settleSpent then min 65535 (j.settles + 1) else j.settles
       clamped := j.clamped || g.clamped }
     let counted : Job := { charged with passes := min 65535 (j.passes + 1) }
     let u (k : Job) : State := { s with drive := { s.drive with grant := none, activity := .idle }
                                         engine := { s.engine with active := some k } }
     let misSeek := ∃ p ∈ outcomes, p.2.otherCylinder j.track.cyl = true
     let missed : Job := { counted with misSeeks := j.misSeeks + 1, recalFirst := true }
     (¬ misSeek → exec (.recoveryPassEnd signals) s =
       .next ((outcomes.filter (fun p => p.1 ∉ g.passedOver)).foldl (State.examine step first) (u counted)).passCounted) ∧
     (misSeek → 2 ≤ j.misSeeks → exec (.recoveryPassEnd signals) s = .next ((u charged).endActive .seekFailed missed)) ∧
     (misSeek → j.misSeeks < 2 → exec (.recoveryPassEnd signals) s = .next (u missed).poke)) ∧
  (∀ (s : State) (j : Job) (step : LadderStep), s.engine.active = some j →
     (s.ladders.getD j.ladder [])[j.step]? = some step →
     let last := step.passes ≤ j.passesDone + 1
     let next : Job := if last then { j with step := j.step + 1, passesDone := 0 } else { j with passesDone := j.passesDone + 1 }
     let exhausted := last ∧ (s.ladders.getD j.ladder []).length ≤ j.step + 1
     (j.pending = [] ∨ exhausted → s.passCounted = s.endActive .completed next) ∧
     (j.pending ≠ [] → ¬ exhausted →
       s.passCounted = ({ s with engine := { s.engine with active := some next } } : State).poke)) ∧
  (∀ s : State,
     let running := ∃ g, s.drive.grant = some g ∧ g.aborted = false ∧ ∃ t x f l, g.work = .recovery t x f l
     let stopped := s.engine.noPack = true ∨ s.engine.speed = true ∨ s.engine.transparent = true ∨
       s.engine.resultsFull = true ∨ s.engine.suspended = true
     let places := s.results.length +
       ((s.engine.active.toList ++ s.engine.parked.toList ++ s.engine.ending.toList).filter (·.reservation)).length
     let parks := s.engine.parked = none ∧ (∃ k rest, s.engine.queued = k :: rest ∧ k.urgent = true) ∧ ¬ stopped ∧ places < 64 ∧
       ¬ running
     (s.engine.active = none → s.poke = { s with drive := { s.drive with recoveryRequest := false } }) ∧
     (∀ j, s.engine.active = some j →
       (j.urgent = false → parks → s.poke =
         { s with engine := { s.engine with active := none, parked := some j }
                  drive := { s.drive with recoveryRequest := false } }) ∧
       (j.urgent = true ∨ ¬ parks →
         (¬ stopped → ¬ running → s.poke = { s with drive := { s.drive with recoveryRequest := true } }) ∧
         (stopped ∨ running → s.poke = { s with drive := { s.drive with recoveryRequest := false } }))))

/-- The ending of a job taken from its place (R129, R130, R148): every sector still pending gets an entry at the current step. It is
UNRESOLVED with keep-best no or no contributing read; else the candidate's words are offered as BEST_EFFORT (R49), and it is KEPT
where the map takes them, with their entry of the current epoch in the map and the words in its slot, UNRESOLVED where no slot is
free, SUPERSEDED where the offer is discarded. The order of the offers, ascending by sector, is the model's choice (log 44). No
other entry of the map changes.

A held READ of a sector still pending is answered DATA_CHECK, with the candidate when a contributing read was folded, else with the
last read's data (R18, R129); no other request is answered. The record, with the job's counts and its full outcome list, takes the
reserved or a free place, or is dropped with RESULTS_FULL; the job's bank is emptied and no other; an emptied queue closes the
window (R119). Nothing else changes but what the engine's tests then do (`poke`, stated in RecoveryPassTaken).

An ACTIVE job that ends has left its place and its standing request is withdrawn (R124). A job left ENDING by a release completes its
ending ABANDONED with the outcomes it has, its record taking its reservation and its bank emptied (R134). -/
def Obligations.EndedJobLeavesRecord : Prop :=
  (∀ (s : State) (ending : Ending) (j : Job),
     let t := s.endJob ending j
     let acc (n : Nat) : Accumulator := s.engine.accumulator j.bank n
     let candidate (n : Nat) : Option (List Word) :=
       if j.keepBest = true ∧ 1 ≤ (acc n).count then some ((acc n).candidateWords s.geom.words) else none
     let offered (v : State) (n : Nat) : State :=
       match candidate n with
       | some ws => (v.offer (j.track.at n) .bestEffort ws).2
       | none => v
     (t.map = (j.pending.foldl offered s).map) ∧
     (j.reservation = true ∨ s.canReserve = true → ∃ rec, t.results = s.results ++ [rec] ∧ rec.ending = ending ∧
       rec.track = j.track ∧ rec.origin = j.origin ∧ rec.epoch = j.epoch ∧ rec.passes = j.passes ∧
       rec.settles = j.settles ∧ rec.misSeeks = j.misSeeks ∧ rec.clamped = j.clamped ∧
       (∀ before n after, j.pending = before ++ n :: after → n ∉ after → ∃ e ∈ rec.outcomes, e.sector = n ∧ e.step = j.step ∧
         (candidate n = none → e.outcome = .unresolved) ∧
         (∀ ws, candidate n = some ws → e.outcome =
           (match ((before.foldl offered s).offer (j.track.at n) .bestEffort ws).1 with
             | .stored => .kept
             | .full => .unresolved
             | .superseded => .superseded))) ∧
       (∀ e ∈ j.outcomes, e.sector ∉ j.pending → e ∈ rec.outcomes)) ∧
     (j.reservation = false → s.canReserve = false → t.results = s.results ∧ hasEvent .resultsFull t.events = true) ∧
     (∀ before n after ws, j.pending = before ++ n :: after → n ∉ after → s.mapWf = true → candidate n = some ws →
       ((before.foldl offered s).offer (j.track.at n) .bestEffort ws).1 = .stored →
       ∃ e ∈ t.map.entries, e.addr = j.track.at n ∧ e.origin = .bestEffort ∧ e.epoch = s.pack.epoch ∧
         t.slotContents e.slot = ⟨ws, crc ws⟩) ∧
     (∀ e ∈ t.map.entries, e ∈ s.map.entries ∨
       (e.origin = .bestEffort ∧ e.addr.track = j.track ∧ e.addr.sector ∈ j.pending ∧ e.epoch = s.pack.epoch)) ∧
     (∀ h last, s.port.hold = some h → h.kind = .read last → h.addr.track = j.track → h.addr.sector ∈ j.pending →
       t.completions = s.completions ++ [.status .dataCheck
         (if 1 ≤ (acc h.addr.sector).count then (acc h.addr.sector).candidateWords s.geom.words else last)] ∧
         t.port = { s.port with outstanding := none, hold := none }) ∧
     ((∀ h last, s.port.hold = some h → h.kind = .read last → h.addr.track = j.track → h.addr.sector ∉ j.pending) →
       t.completions = s.completions ∧ t.port = s.port) ∧
     (∀ i, j.bank = some i → i < s.engine.banks.length → t.engine.banks[i]? = some []) ∧
     (∀ i, j.bank ≠ some i → t.engine.banks[i]? = s.engine.banks[i]?) ∧
     t.engine = { s.engine with
       active := t.engine.active
       parked := t.engine.parked
       window := if s.engine.jobs = [] then none else s.engine.window
       resultsFull := t.engine.resultsFull
       banks := t.engine.banks } ∧
     t = { s with
       map := t.map
       events := t.events
       port := t.port
       completions := t.completions
       engine := t.engine
       results := t.results
       drive := { s.drive with recoveryRequest := t.drive.recoveryRequest } } ∧
     (j.keepBest = false ∨ j.bank = none → t.map = s.map)) ∧
  (∀ (s : State) (ending : Ending) (j : Job), s.endActive ending j =
     ({ s with engine := { s.engine with active := none }
               drive := { s.drive with recoveryRequest := false } } : State).endJob ending j) ∧
  (∀ s : State,
     let t := s.finishEnding
     (s.engine.ending = none → t = s) ∧
     (∀ j, s.engine.ending = some j → j.reservation = true →
       t.results = s.results ++
         [⟨j.epoch, j.track, j.origin, .abandoned, j.passes, j.settles, j.misSeeks, j.clamped, j.outcomes⟩] ∧
       t.engine.ending = none ∧ t.engine.queued = s.engine.queued ∧
       (∀ i, j.bank = some i → i < s.engine.banks.length → t.engine.banks[i]? = some []) ∧
       (∀ i, j.bank ≠ some i → t.engine.banks[i]? = s.engine.banks[i]?) ∧
       t = { s with engine := t.engine
                    results := t.results
                    drive := { s.drive with recoveryRequest := t.drive.recoveryRequest } }))

/-- A write's supersession (R128): in every job state the pending sector of its address leaves its job with outcome SUPERSEDED; where no
job has it pending nothing changes; the map, the posts and the other jobs are not touched. A job emptied by it ends COMPLETED at once
with its record and leaves the queue, unless its grant is running: then it stays ACTIVE. That an emptied ACTIVE job with neither a
grant running nor a request standing ends at once too is the model's inference (log 18). A pass that runs has the sector passed over
from then on, though a request makes it pending again (R118, R124). -/
def Obligations.SupersededSectorLeavesJob : Prop :=
  ∀ (s : State) (a : Addr), s.queuesWf = true →
    let t := s.supersede a
    t.map = s.map ∧ t.posts = s.posts ∧ t.completions = s.completions ∧ t.driveLog = s.driveLog ∧
    (∀ k ∈ t.engine.active.toList ++ t.engine.parked.toList ++ t.engine.queued, k.track = a.track →
      a.sector ∉ k.pending) ∧
    ((∀ k ∈ s.engine.active.toList ++ s.engine.parked.toList ++ s.engine.queued, k.track = a.track →
      a.sector ∉ k.pending) → t = s) ∧
    (∀ k ∈ s.engine.active.toList ++ s.engine.parked.toList ++ s.engine.queued, k.track ≠ a.track →
      k ∈ t.engine.active.toList ++ t.engine.parked.toList ++ t.engine.queued) ∧
    (∀ k ∈ s.engine.active.toList ++ s.engine.parked.toList ++ s.engine.queued, k.track = a.track → a.sector ∈ k.pending →
      (∃ m ∈ k.pending, m ≠ a.sector) →
      { k with pending := k.pending.filter (fun m => m != a.sector)
               outcomes := insertOutcome ⟨a.sector, .superseded, k.step⟩ k.outcomes } ∈
        t.engine.active.toList ++ t.engine.parked.toList ++ t.engine.queued) ∧
    (∀ k ∈ s.engine.active.toList ++ s.engine.parked.toList ++ s.engine.queued, k.track = a.track → k.pending = [a.sector] →
      (s.engine.active = some k → s.drive.recoveryRunning = true → t.results = s.results ∧ t.engine.active =
        some { k with pending := [], outcomes := insertOutcome ⟨a.sector, .superseded, k.step⟩ k.outcomes }) ∧
      (s.engine.active ≠ some k ∨ s.drive.recoveryRunning = false →
        (∀ i ∈ t.engine.active.toList ++ t.engine.parked.toList ++ t.engine.queued, i.track ≠ a.track) ∧
        (k.reservation = true ∨ s.canReserve = true → ∃ rec, t.results = s.results ++ [rec] ∧ rec.track = k.track ∧
          rec.ending = .completed ∧ rec.passes = k.passes ∧
          rec.outcomes = insertOutcome ⟨a.sector, .superseded, k.step⟩ k.outcomes) ∧
        (k.reservation = false → s.canReserve = false → t.results = s.results ∧ hasEvent .resultsFull t.events = true))) ∧
    (∀ k g, s.engine.active = some k → s.drive.recoveryRunning = true → s.drive.grant = some g → k.track = a.track →
      a.sector ∈ k.pending → t.drive.grant = some { g with passedOver := insertSector a.sector g.passedOver })

/-- JOB_ACTIVATION (R121, R122): nothing unless an activation is due; an urgent PARKED job resumes, else an urgent head with a place to
reserve is activated, else the PARKED job resumes, else the head is activated when a place can be reserved, with the bank the PARKED
job does not hold, empty, and a reservation; else RESULTS_FULL is placed and set. A job with an empty ladder ends COMPLETED. -/
def Obligations.JobActivationChoice : Prop :=
  ∀ s : State, s.queuesWf = true →
    let due := s.engine.active = none ∧ s.engine.noPack = false ∧ s.engine.speed = false ∧ s.engine.transparent = false ∧
      s.engine.suspended = false ∧ s.engine.window = none ∧ s.engine.jobs ≠ [] ∧ s.engine.ending = none
    let headFirst := s.engine.headUrgent = true ∧ s.canReserve = true
    (¬ due → exec .jobActivation s = .next s) ∧
    (∀ p, due → s.engine.parked = some p → (p.urgent = true ∨ ¬ headFirst) →
      ∃ t, exec .jobActivation s = .next t ∧ t.engine.active = some p ∧ t.engine.parked = none ∧
        t.engine.queued = s.engine.queued ∧ t.engine.banks = s.engine.banks ∧ t.results = s.results ∧ t.map = s.map ∧
        t.events = s.events) ∧
    (∀ j rest, due → (s.engine.parked = none ∨ (∃ p, s.engine.parked = some p ∧ p.urgent = false ∧ headFirst)) →
      s.engine.queued = j :: rest →
      (s.canReserve = true → s.ladders.getD j.ladder [] ≠ [] →
        ∃ t b, exec .jobActivation s = .next t ∧ b < 2 ∧ (∀ p, s.engine.parked = some p → p.bank ≠ some b) ∧
          t.engine.active = some { j with bank := some b, reservation := true, step := 0, passesDone := 0 } ∧
          t.engine.parked = s.engine.parked ∧ t.engine.queued = rest ∧ t.engine.banks = s.engine.banks.set b [] ∧
          t.results = s.results ∧ t.map = s.map ∧ t.events = s.events) ∧
      (s.canReserve = true → s.ladders.getD j.ladder [] = [] →
        ∃ t rec, exec .jobActivation s = .next t ∧ t.engine.active = none ∧ t.engine.parked = s.engine.parked ∧
          t.engine.queued = rest ∧ t.map = s.map ∧ t.results = s.results ++ [rec] ∧ rec.track = j.track ∧
          rec.ending = .completed ∧ rec.passes = j.passes) ∧
      (s.canReserve = false → exec .jobActivation s = .next
        { s with engine := { s.engine with resultsFull := true }, events := withEvent .resultsFull s.events }))

/-- BATCH_WINDOW_EXPIRY, HOLD_DEADLINE and FLUSH_LATENCY_EXPIRY (R19, R62, R119): the window closes with the batch sorted by track;
a held READ is answered DATA_CHECK with its last read's data and a waiting WRITE WRITE_FAULT, with HOLD_EXPIRED; a FLUSH request
that stands is overdue from then on. The clock runs on to the moment (log 2); with nothing to expire nothing changes (log 3).

WAITING_WRITE_ENTRY (R21, R31, R33): a waiting WRITE for which a place is free is judged again by its region and Media Write Permit:
it is posted with the effects of a PASS write and answered DONE, or answered WRITE_PROTECTED and written nowhere; with no place
free, or no WRITE waiting, only the line's level is noted (log 3). -/
def Obligations.HoldsAndDeadlines : Prop :=
  (∀ s : State,
     (s.engine.window = none → exec .batchWindowExpiry s = .next s) ∧
     (∀ d, s.engine.window = some d → exec .batchWindowExpiry s = .next
       { s.advanceTo d with engine := { s.engine with window := none, queued := sortBatch s.engine.queued } }) ∧
     (sortBatch s.engine.queued).Perm s.engine.queued ∧
     (sortBatch s.engine.queued).Pairwise (fun j k => j.track.cyl < k.track.cyl ∨
       (j.track.cyl = k.track.cyl ∧ j.track.head ≤ k.track.head)) ∧
     (s.port.hold = none → exec .holdDeadline s = .next s) ∧
     (∀ a d last, s.port.hold = some ⟨.read last, a, d⟩ → exec .holdDeadline s = .next
       { s.advanceTo d with events := withEvent .holdExpired s.events
                            port := { s.port with outstanding := none, hold := none }
                            completions := s.completions ++ [.status .dataCheck last] }) ∧
     (∀ a d ws, s.port.hold = some ⟨.write ws, a, d⟩ → exec .holdDeadline s = .next
       { s.advanceTo d with events := withEvent .holdExpired s.events
                            port := { s.port with outstanding := none, hold := none }
                            completions := s.completions ++ [.status .writeFault []] }) ∧
     (s.posts.entries = [] → exec .flushLatencyExpiry s = .next s) ∧
     (∀ p rest, s.posts.entries = p :: rest → ∃ t, exec .flushLatencyExpiry s = .next t ∧
       t = s.advance ((p.firstArrival + 100 * s.timing.flushLatency + 1) - s.now) ∧
       (s.flushRequested = true → t.flushOverdue = true))) ∧
  (∀ (s : State) (permit : Bool),
     let u := s.setPermit permit
     ((∀ ws a d, s.port.hold ≠ some ⟨.write ws, a, d⟩) → exec (.waitingWriteEntry permit) s = .next u) ∧
     (∀ ws a d, s.port.hold = some ⟨.write ws, a, d⟩ →
       (s.postAt a = none → 8 ≤ s.posts.entries.length → exec (.waitingWriteEntry permit) s = .next u) ∧
       (s.postAt a = none → s.posts.entries.length < 8 →
         ((s.regionAt a.cyl).write = .pass → permit = true → exec (.waitingWriteEntry permit) s = .next
           ((({ u with
                 posts := { s.posts with entries := s.posts.entries ++ [⟨a, ws, s.now, 0, false, false⟩] }
                 map := { s.map with entries := s.map.entries.filter (fun e => e.addr != a) }
                 buffers := { s.buffers with slots := s.buffers.slots.map (TrackBuffer.invalidate a) } } : State).supersede
             a).finishRequest .done [])) ∧
         ((s.regionAt a.cyl).write ≠ .pass ∨ permit = false →
           exec (.waitingWriteEntry permit) s = .next (u.finishRequest .writeProtected [])))))

/-! ## The command sector (10_the_command_sector.md) and the commands -/

/-- A WRITE of a command sector at the control sector address is the row of its code, and a command row in AWAIT_DATA is the data of
LOAD SECTOR (R5, R52, R163, R165): for every command row with its code and parameters. A row whose parameters do not fit its sector is
refused with BAD_PARAMETER before its code is examined, and a code of no command with BAD_COMMAND; a sequence pending is abandoned. -/
def Obligations.ControlSectorWrites : Prop :=
  ∀ (s : State) (i : Instr) (code : Word) (permit : Bool), geometryWf s.geom = true → i.code? = some code →
    i.wellFormed = true →
    (s.port.virtCyl = s.ci.controlAddr.cyl → s.ci.controlAddr.within s.geom = true →
      exec (.write s.ci.controlAddr.head s.ci.controlAddr.sector (commandSector s.geom.words code i.params) permit) s =
        exec i (s.setPermit permit)) ∧
    (∀ a, s.ci.sequence = .awaitData a →
      exec i s = exec (.loadSectorData (commandSector s.geom.words code i.params)) s) ∧
    ((∀ a, s.ci.sequence ≠ .awaitData a) → s.geom.words < i.params.length + 4 →
      exec i s = .next (s.afterCommand code .badParameter)) ∧
    (∀ c ps, i = .badCommand c ps → s.takesCommand ps → exec i s = .next (s.afterCommand c .badCommand))

/-- A READ of the control sector (R5, R168, R169, R170, R171): answered DONE in every pack state with the status record, the
activity toggle inverted first while the engine shown is COLLECTING, or RUNNING with a job ACTIVE or PARKED; or with the current
part of the reply, the pointer moving on; or with the unready reply. A pending sequence stands.

The status record (R170, R179): its 23 words as the layout gives them, the rest zeros, each item with the value it holds; the words
of the result codes, the reply kinds and the events. -/
def Obligations.ControlSectorRead : Prop :=
  (∀ (s : State), s.ci.controlAddr.within s.geom = true → s.port.virtCyl = s.ci.controlAddr.cyl →
    let a := s.ci.controlAddr
    let u : State :=
      { s with port := { s.port with outstanding := none, hold := none, virtHead := a.head }
               drive := { s.drive with requests := s.requestsKept false } }
    (s.ci.reply = none →
      let working := s.engine.shown = .collecting ∨
        (s.engine.shown = .running ∧ (s.engine.active.isSome ∨ s.engine.parked.isSome))
      let v : State := { u with ci := { s.ci with toggle := if working then !s.ci.toggle else s.ci.toggle } }
      exec (.read a.head a.sector) s = .next { v with completions := s.completions ++ [.status .done v.statusRecord] }) ∧
    (∀ r, s.ci.reply = some r → r.ready = true →
      exec (.read a.head a.sector) s = .next
        { u with ci := { s.ci with reply := some { r with pointer := if r.pointer + 1 < r.parts then r.pointer + 1 else 0 } }
                 completions := s.completions ++ [.status .done
                   ([ReplyKind.toWord r.kind, ResultCode.toWord r.result, 1, word r.pointer, word r.parts] ++
                     fitWords (s.geom.words - 5) (r.contents.drop (r.pointer * (s.geom.words - 5))))] }) ∧
    (∀ r, s.ci.reply = some r → r.ready = false →
      exec (.read a.head a.sector) s = .next
        { u with completions := s.completions ++ [.status .done
                   ([ReplyKind.toWord r.kind, 0o1, 0, 0, word r.parts] ++ List.replicate (s.geom.words - 5) 0)] })) ∧
  (∀ s : State, 23 ≤ s.geom.words →
     let e := s.engine
     s.statusRecord =
       [ 1,
         (match s.port.mode with
           | .interpose => 0
           | .transparent => 1),
         (match s.pack.state with
           | .empty => 0
           | .spinningUp => 1
           | .loaded => 2
           | .unloadPending => 3
           | .unloading => 4),
         s.pack.epoch.extractLsb' 16 16,
         s.pack.epoch.extractLsb' 0 16,
         (if e.noPack || e.speed || e.transparent || e.resultsFull then 4 else if e.suspended then 3
          else if e.window.isSome then 1 else if e.jobs = [] then 0 else 2),
         word (e.noPack.toNat + 2 * e.speed.toNat + 4 * e.transparent.toNat + 8 * e.resultsFull.toNat),
         word (e.suspended.toNat + 2 * e.window.isSome.toNat + 4 * s.ci.toggle.toNat),
         word e.jobs.length,
         word s.results.length,
         word ((e.active.toList ++ e.parked.toList ++ e.ending.toList).filter (·.reservation)).length,
         word s.posts.entries.length,
         word s.map.entries.length,
         word (1024 - s.map.entries.length),
         s.events.setWidth 16,
         s.ci.lastCommand,
         ResultCode.toWord s.ci.lastResult,
         (match s.ci.sequence with
           | .ready => 0
           | .awaitConfirm _ => 1
           | .awaitData _ => 2),
         (match s.ci.sequence with
           | .ready => 0
           | .awaitConfirm code => code
           | .awaitData _ => 0o060),
         (match s.drive.cond with
           | .ready => 0
           | .off => 1
           | .fault => 2),
         (if s.timer.speedFault then 1 else 0),
         word s.timer.lastPeriod,
         BitVec.ofInt 16 s.drive.trim ] ++ List.replicate (s.geom.words - 23) 0) ∧
  (∀ (events : BitVec 10) (e : Event), (events.setWidth 16 : Word).getLsbD
     (match e with
       | .postDiscard => 0
       | .storeFull => 1
       | .resultsFull => 2
       | .speedFault => 3
       | .indexLost => 4
       | .packLost => 5
       | .driveFault => 6
       | .unloadRequested => 7
       | .sequenceLost => 8
       | .holdExpired => 9) = hasEvent e events) ∧
  ([ResultCode.none, .ok, .clamped, .confirmRequired, .sequenceLost, .badCommand, .badParameter, .overlap, .notIdle, .full,
     .notFound, .noPack].map ResultCode.toWord = [0o0, 0o1, 0o2, 0o3, 0o4, 0o5, 0o6, 0o7, 0o10, 0o11, 0o12, 0o13]) ∧
  ([ReplyKind.result, .mapEntry, .storeData, .mapList, .region, .ladder, .driveSector].map ReplyKind.toWord =
     [0o2, 0o3, 0o4, 0o5, 0o6, 0o7, 0o10])

/-- What a command row leaves alone (R163, R165, R168): for every command row, no data sector awaited. It is answered DONE once, and
neither the clock, the lines, the rotation's record, the drive's condition and read conditions nor the drive itself is touched; the
posts and buffers only by a CONFIRM, the map, the results, the pack record, the running grant, the engine and the events only by the
commands whose rules name them. -/
def Obligations.CommandRowsFrame : Prop :=
  ∀ (s t : State) (i : Instr) (code : Word), i.code? = some code → (∀ a, s.ci.sequence ≠ .awaitData a) →
    exec i s = .next t →
    t.completions = s.completions ++ [.status .done []] ∧ t.ci.lastCommand = code ∧ t.port.outstanding = none ∧
    t.port.hold = none ∧ t.now = s.now ∧ t.lines = s.lines ∧ t.timer = s.timer ∧ t.driveLog = s.driveLog ∧
    t.pending = s.pending ∧ t.drive.cond = s.drive.cond ∧ t.drive.physHead = s.drive.physHead ∧
    t.drive.offsetCode = s.drive.offsetCode ∧ t.drive.settled = s.drive.settled ∧ t.drive.strobe = s.drive.strobe ∧
    t.drive.threshold = s.drive.threshold ∧ t.ci.toggle = s.ci.toggle ∧
    (code ≠ 0o141 → t.posts = s.posts ∧ t.buffers = s.buffers ∧ t.port.formatEnable = s.port.formatEnable) ∧
    (code ∉ [0o041, 0o044, 0o061, 0o141] → t.map = s.map) ∧
    (code ∉ [0o002, 0o040, 0o041, 0o044, 0o141] → t.results = s.results) ∧
    (code ∉ [0o100, 0o102, 0o121, 0o141] → t.pack = s.pack) ∧
    (code ∉ [0o041, 0o044, 0o141] → t.drive.grant = s.drive.grant ∧ t.drive.activity = s.drive.activity) ∧
    (code ∉ [0o121, 0o141] → t.drive.physCyl = s.drive.physCyl ∧ t.port.virtCyl = s.port.virtCyl) ∧
    (code ∉ [0o002, 0o040, 0o041, 0o042, 0o043, 0o044, 0o120, 0o141] → t.engine = s.engine) ∧
    (s.ci.sequence = .ready → code ∉ [0o040, 0o041, 0o044, 0o140, 0o141] → t.events = s.events)

/-- SHOW_STATUS, READ_MAP_ENTRY, READ_STORE_DATA, LIST_MAP, READ_REGION and READ_LADDER (R29, R56, R57, R58, R107, R168, R179): their
result and the contents of the reply they form; a parameter missing or out of range is refused with BAD_PARAMETER and no reply. That
READ_LADDER counts a job left ENDING among the jobs of the queue is the model's inference (log 38).

READ_RESULT (R116, R174, R175): the oldest record leaves the queue and is shown, after the number still held; RESULTS_FULL goes when a
place is free; an empty queue gives NOT_FOUND and a reply of zeros. -/
def Obligations.QueriesFormReplies : Prop :=
  (∀ (s : State) (ps : List Word), s.takesCommand ps →
     exec (.showStatus ps) s = .next (s.afterCommand 0o001 .ok) ∧
     ((∀ a, ¬ namesAddr s.geom ps a) →
       exec (.readMapEntry ps) s = .next (s.afterCommand 0o003 .badParameter) ∧
       exec (.readStoreData ps) s = .next (s.afterCommand 0o004 .badParameter) ∧
       exec (.listMap ps) s = .next (s.afterCommand 0o005 .badParameter)) ∧
     (∀ a, namesAddr s.geom ps a →
       (s.entryAt a = none →
         exec (.readMapEntry ps) s = .next (s.afterQuery 0o003 .mapEntry .notFound
           [word a.cyl, word a.head, word a.sector, 0, 0, 0, 0, 0, 0, 0]) ∧
         exec (.readStoreData ps) s = .next (s.afterQuery 0o004 .storeData .notFound
           [word a.cyl, word a.head, word a.sector, 0])) ∧
       (∀ e, s.entryAt a = some e →
         exec (.readMapEntry ps) s = .next (s.afterQuery 0o003 .mapEntry .ok
           [word a.cyl, word a.head, word a.sector, 1, Origin.toWord e.origin, word e.origin.flips,
             flagWord e.origin.inferred, e.epoch.extractLsb' 16 16, e.epoch.extractLsb' 0 16, word e.slot]) ∧
         exec (.readStoreData ps) s = .next (s.afterQuery 0o004 .storeData .ok
           ([word a.cyl, word a.head, word a.sector, Origin.toWord e.origin] ++ s.slotWords e.slot ++
             [(s.slotContents e.slot).check]))) ∧
       (let after := s.map.entries.filter (fun e => !e.addr.before a)
        let room := (s.geom.words - 7) / 3
        exec (.listMap ps) s = .next (s.afterQuery 0o005 .mapList .ok
          ([word (min room after.length), flagWord (room < after.length)] ++
            (after.take room).flatMap (fun e =>
              [word e.addr.cyl, word (e.addr.head * 256 + e.addr.sector), Origin.toWord e.origin]))))) ∧
     (ps = [] → exec (.readRegion ps) s = .next (s.afterCommand 0o006 .badParameter) ∧
       exec (.readLadder ps) s = .next (s.afterCommand 0o007 .badParameter)) ∧
     (∀ w rest, ps = w :: rest →
       (16 ≤ w.toNat → exec (.readRegion ps) s = .next (s.afterCommand 0o006 .badParameter)) ∧
       (w.toNat < 16 →
         (∀ r, s.regions.getD w.toNat none = some r → exec (.readRegion ps) s = .next (s.afterQuery 0o006 .region .ok
           [w, 1, word r.low, word r.high, WritePolicy.toWord r.write, ReadPolicy.toWord r.read, flagWord r.prefetch,
             word r.ladder, flagWord r.keepBest])) ∧
         (s.regions.getD w.toNat none = none → exec (.readRegion ps) s = .next (s.afterQuery 0o006 .region .notFound
           [w, 0, 0, 0, 1, 1, 0, 0, 1]))) ∧
       (8 ≤ w.toNat → exec (.readLadder ps) s = .next (s.afterCommand 0o007 .badParameter)) ∧
       (w.toNat < 8 → exec (.readLadder ps) s = .next (s.afterQuery 0o007 .ladder .ok
         ([w, word (s.ladders.getD w.toNat []).length,
             word (s.engine.jobs.filter (fun j => j.ladder == w.toNat)).length] ++
           (s.ladders.getD w.toNat []).flatMap (fun t =>
             [signedWord t.strobe, signedWord t.headOffset, word t.threshold, word t.passes, VoteMode.toWord t.voteMode,
               word t.flipLimit, word t.flipCeiling, flagWord t.inference])))))) ∧
  (∀ (s : State) (ps : List Word), s.takesCommand ps →
     (s.results = [] → exec (.readResult ps) s = .next (s.afterQuery 0o002 .result .notFound [])) ∧
     (∀ r rest, s.results = r :: rest → ∃ t, exec (.readResult ps) s = .next t ∧ t.results = rest ∧
       t.ci = (s.afterQuery 0o002 .result .ok
         ([word rest.length] ++ epochWords r.epoch ++
           [word r.track.cyl, word r.track.head, JobOrigin.toWord r.origin, Ending.toWord r.ending, word r.passes,
             word r.settles, word r.misSeeks, flagWord r.clamped, word r.outcomes.length] ++
           r.outcomes.flatMap OutcomeEntry.toWords)).ci ∧
       t.completions = s.completions ++ [.status .done []] ∧
       (rest.length + s.engine.reservations < 64 → t.engine.resultsFull = false) ∧
       t.map = s.map ∧ t.posts = s.posts ∧ t.pack = s.pack ∧ t.port = (s.afterCommand 0o002 .ok).port))

/-- READ_DRIVE_SECTOR (R80, R172): BAD_PARAMETER for an address outside the geometry, NO_PACK with no pack served; else a reply of kind
DRIVE_SECTOR not ready is selected and its request stands, or with the condition NOT_READY it is filled NOT_READY at once. When the
read ends the reply becomes ready with the completion, the decoded header and the decoded field. That BAD_PARAMETER is tested before
NO_PACK is the model's choice (log 48). -/
def Obligations.ReadDriveSectorReply : Prop :=
  ∀ (s : State),
    (∀ ps, s.takesCommand ps →
      ((∀ a, ¬ namesAddr s.geom ps a) → exec (.readDriveSector ps) s = .next (s.afterCommand 0o010 .badParameter)) ∧
      (∀ a, namesAddr s.geom ps a →
        (packServes s.pack.state = false → exec (.readDriveSector ps) s = .next (s.afterCommand 0o010 .noPack)) ∧
        (packServes s.pack.state = true → s.drive.cond = .ready →
          let u := s.afterCommand 0o010 .ok
          exec (.readDriveSector ps) s = .next
            { u with ci := { u.ci with reply := some ⟨.driveSector, .ok, false, [], 2, 0, some false⟩ }
                     drive := { u.drive with requests := u.drive.requests ++ [⟨.commandInterface, .driveSector a⟩] } }) ∧
        (packServes s.pack.state = true → s.drive.cond ≠ .ready →
          let u := s.afterCommand 0o010 .ok
          exec (.readDriveSector ps) s = .next
            { u with ci := { u.ci with reply := some ⟨.driveSector, .ok, true,
                [word a.cyl, word a.head, word a.sector, 7, 0, 0, 0] ++ List.replicate (s.geom.words + 1) 0, 2, 0, none⟩ } }))) ∧
    (∀ signal g a r, s.drive.activity = .reading → s.drive.grant = some g → g.work = .driveSector a →
      let o := passOutcome g.threshold s.geom.words a signal
      o.otherCylinder a.cyl = false →
      s.ci.reply = some r → r.driveRead = some true →
      exec (.readSectorEnd signal) s = .next
        { s with drive := { s.drive with grant := none, activity := .idle }
                 ci := { s.ci with reply := some { r with
                   ready := true, parts := 2, pointer := 0, driveRead := none
                   contents := [word a.cyl, word a.head, word a.sector, OutcomeKind.toWord o.kind] ++ o.header ++
                     o.field s.geom.words } } })

/-- LOAD_REGION and DELETE_REGION (R26, R27, R28): every ground of refusal with its code, the table unchanged; else the slot holds
the new entry whole, or is emptied, no other slot changed, and the cylinders it covered have the default region. -/
def Obligations.RegionCommands : Prop :=
  ∀ (s : State) (ps : List Word), s.takesCommand ps →
    (ps.length < 8 → exec (.loadRegion ps) s = .next (s.afterCommand 0o020 .badParameter)) ∧
    (∀ slot low high wp rp pf lad kb rest, ps = slot :: low :: high :: wp :: rp :: pf :: lad :: kb :: rest →
      let bad := 15 < slot.toNat ∨ high.toNat < low.toNat ∨ s.geom.cylinders ≤ high.toNat ∨ 2 < wp.toNat ∨
        1 < rp.toNat ∨ 1 < pf.toNat ∨ 1 < kb.toNat ∨ 7 < lad.toNat
      let overlap := ∃ k t, k ≠ slot.toNat ∧ s.regions[k]? = some (some t) ∧ low.toNat ≤ t.high ∧ t.low ≤ high.toNat
      (bad → exec (.loadRegion ps) s = .next (s.afterCommand 0o020 .badParameter)) ∧
      (¬ bad → overlap → exec (.loadRegion ps) s = .next (s.afterCommand 0o020 .overlap)) ∧
      (¬ bad → ¬ overlap → ∃ r : Region, r.low = low.toNat ∧ r.high = high.toNat ∧ WritePolicy.toWord r.write = wp ∧
        ReadPolicy.toWord r.read = rp ∧ flagWord r.prefetch = pf ∧ r.ladder = lad.toNat ∧ flagWord r.keepBest = kb ∧
        exec (.loadRegion ps) s = .next
          { s.afterCommand 0o020 .ok with regions := s.regions.set slot.toNat (some r) })) ∧
    (ps = [] → exec (.deleteRegion ps) s = .next (s.afterCommand 0o021 .badParameter)) ∧
    (∀ slot rest, ps = slot :: rest →
      (15 < slot.toNat → exec (.deleteRegion ps) s = .next (s.afterCommand 0o021 .badParameter)) ∧
      (slot.toNat ≤ 15 → s.regions.getD slot.toNat none = none →
        exec (.deleteRegion ps) s = .next (s.afterCommand 0o021 .notFound)) ∧
      (∀ r, slot.toNat ≤ 15 → s.regions.getD slot.toNat none = some r →
        let v : State := { s.afterCommand 0o021 .ok with regions := s.regions.set slot.toNat none }
        exec (.deleteRegion ps) s = .next v ∧
          (regionsWf s.geom.cylinders s.regions = true → ∀ c, r.low ≤ c → c ≤ r.high → v.regionAt c = defaultRegion)))

/-- LOAD_LADDER_STEP and CLEAR_LADDER (R104, R105, R106): every ground of refusal, the table unchanged; a step is appended at the length
and replaced below it, each numeric field brought within its range with CLAMPED; a ladder that no job QUEUED, ACTIVE or PARKED uses is
emptied. -/
def Obligations.LadderCommands : Prop :=
  ∀ (s : State) (ps : List Word), s.takesCommand ps →
    (ps.length < 10 → exec (.loadLadderStep ps) s = .next (s.afterCommand 0o022 .badParameter)) ∧
    (∀ l i strobe off thr passes vm fl fc inf rest,
      ps = l :: i :: strobe :: off :: thr :: passes :: vm :: fl :: fc :: inf :: rest →
      let steps := s.ladders.getD l.toNat []
      let bad := 7 < l.toNat ∨ steps.length < i.toNat ∨ 11 < i.toNat ∨ 1 < vm.toNat ∨ 1 < inf.toNat
      (bad → exec (.loadLadderStep ps) s = .next (s.afterCommand 0o022 .badParameter)) ∧
      (¬ bad → ∃ t : LadderStep,
        t.strobe = max (-6) (min 6 strobe.toInt) ∧ t.headOffset = max (-50) (min 50 off.toInt) ∧
        t.threshold = min 15 thr.toNat ∧ t.passes = max 1 (min 8 passes.toNat) ∧ VoteMode.toWord t.voteMode = vm ∧
        t.flipLimit = min 4 fl.toNat ∧ t.flipCeiling = min 127 fc.toNat ∧ flagWord t.inference = inf ∧
        exec (.loadLadderStep ps) s = .next
          { s.afterCommand 0o022 (if strobe.toInt < -6 ∨ 6 < strobe.toInt ∨ off.toInt < -50 ∨ 50 < off.toInt ∨
                15 < thr.toNat ∨ passes.toNat < 1 ∨ 8 < passes.toNat ∨ 4 < fl.toNat ∨ 127 < fc.toNat then .clamped else .ok) with
            ladders := s.ladders.set l.toNat
              (if i.toNat = steps.length then steps ++ [t] else steps.set i.toNat t) })) ∧
    (ps = [] → exec (.clearLadder ps) s = .next (s.afterCommand 0o023 .badParameter)) ∧
    (∀ l rest, ps = l :: rest →
      (7 < l.toNat → exec (.clearLadder ps) s = .next (s.afterCommand 0o023 .badParameter)) ∧
      (l.toNat ≤ 7 → (∃ j ∈ s.engine.active.toList ++ s.engine.parked.toList ++ s.engine.queued, j.ladder = l.toNat) →
        exec (.clearLadder ps) s = .next (s.afterCommand 0o023 .notIdle)) ∧
      (l.toNat ≤ 7 → (∀ j ∈ s.engine.active.toList ++ s.engine.parked.toList ++ s.engine.queued, j.ladder ≠ l.toNat) →
        exec (.clearLadder ps) s = .next
          { s.afterCommand 0o023 .ok with ladders := s.ladders.set l.toNat [] }))

/-- RECOVER_TRACK and CANCEL_TRACK (R117, R118, R119, R131): the grounds of refusal in their order; a track with no job gets a
COMMANDED job at the end of the queued portion with the named sectors that have no serving entry pending, the window opened while
the engine is IDLE, restarted while COLLECTING, not touched while RUNNING; a new job with nothing pending ends COMPLETED at once and
leaves a record of its ALREADY_HELD sectors; a job of the track, QUEUED, ACTIVE or PARKED, takes the new sectors where it stands, a
sector that joins an ACTIVE or PARKED job with an empty accumulator, one already pending with its own (R149); a cancelled job leaves
the queue with a record CANCELLED. The running grant of a cancelled ACTIVE job is aborted and its request withdrawn (R100, R127,
R131): a seek or recalibrate in progress is finished first, a read or a settle stops at once with the settled flag as it was, and
its settle is charged to the record; any other grant runs on. That the record carries the grant's offset clamp too is the model's
inference (log 39). -/
def Obligations.TrackCommands : Prop :=
  ∀ (s : State) (ps : List Word), s.takesCommand ps →
    (ps.length < 6 → exec (.recoverTrack ps) s = .next (s.afterCommand 0o040 .badParameter)) ∧
    (∀ c h lad set1 set2 kb rest, ps = c :: h :: lad :: set1 :: set2 :: kb :: rest →
      let t : Track := ⟨c.toNat, h.toNat⟩
      let r := s.regionAt t.cyl
      let named (n : Nat) : Prop := n < s.geom.sectors ∧
        ((set1 = 0 ∧ set2 = 0) ∨ (n < 16 ∧ set1.getLsbD n = true) ∨ (16 ≤ n ∧ n < 32 ∧ set2.getLsbD (n - 16) = true))
      let bad := s.geom.cylinders ≤ c.toNat ∨ s.geom.heads ≤ h.toNat ∨ (7 < lad.toNat ∧ lad ≠ 0o177777) ∨
        (1 < kb.toNat ∧ kb ≠ 0o177777) ∨
        (∃ n, n < 32 ∧ s.geom.sectors ≤ n ∧ ((n < 16 ∧ set1.getLsbD n = true) ∨ (16 ≤ n ∧ set2.getLsbD (n - 16) = true)))
      (bad → exec (.recoverTrack ps) s = .next (s.afterCommand 0o040 .badParameter)) ∧
      (¬ bad → packServes s.pack.state = false → exec (.recoverTrack ps) s = .next (s.afterCommand 0o040 .noPack)) ∧
      (¬ bad → packServes s.pack.state = true → (∀ j ∈ s.engine.jobs, j.track ≠ t) → 16 ≤ s.engine.length →
        exec (.recoverTrack ps) s = .next (s.afterCommand 0o040 .full)) ∧
      (¬ bad → packServes s.pack.state = true → (∀ j ∈ s.engine.jobs, j.track ≠ t) → s.engine.length < 16 →
        (∃ n, named n ∧ s.servingAt (t.at n) = false) →
        ∃ v j, exec (.recoverTrack ps) s = .next v ∧ v.engine.queued = s.engine.queued ++ [j] ∧ v.engine.jobs.Perm (j :: s.engine.jobs) ∧
          j.track = t ∧ j.origin = .commanded ∧
          j.urgent = false ∧ j.epoch = s.pack.epoch ∧
          j.ladder = (if lad = 0o177777 then r.ladder else lad.toNat) ∧
          j.keepBest = (if kb = 0o177777 then r.keepBest else decide (kb = 1)) ∧
          (∀ n, n ∈ j.pending ↔ named n ∧ s.servingAt (t.at n) = false) ∧
          (∀ e, e ∈ j.outcomes ↔ e.outcome = .alreadyHeld ∧ e.step = 0 ∧ named e.sector ∧ s.servingAt (t.at e.sector) = true) ∧
          v.engine.window = (if s.engine.window.isSome ∨ (s.engine.jobs = [] ∧ 0 < s.timing.batchWindow)
            then some (s.now + 100 * s.timing.batchWindow) else none) ∧
          v.ci = (s.afterCommand 0o040 .ok).ci ∧ v.results = s.results ∧ v.map = s.map) ∧
      (¬ bad → packServes s.pack.state = true → (∀ j ∈ s.engine.jobs, j.track ≠ t) → s.engine.length < 16 →
        (∀ n, named n → s.servingAt (t.at n) = true) →
        ∃ v, exec (.recoverTrack ps) s = .next v ∧ v.engine.jobs.Perm s.engine.jobs ∧ v.engine.queued = s.engine.queued ∧
          v.engine.window = (if s.engine.jobs = [] then none else s.engine.window) ∧ v.map = s.map ∧
          v.ci = (s.afterCommand 0o040 .ok).ci ∧
          (s.canReserve = true → ∃ rec, v.results = s.results ++ [rec] ∧ rec.track = t ∧ rec.origin = .commanded ∧
            rec.ending = .completed ∧ rec.epoch = s.pack.epoch ∧ rec.passes = 0 ∧ rec.settles = 0 ∧ rec.misSeeks = 0 ∧
            rec.clamped = false ∧ (∀ e, e ∈ rec.outcomes ↔ e.outcome = .alreadyHeld ∧ e.step = 0 ∧ named e.sector)) ∧
          (s.canReserve = false → v.results = s.results ∧ hasEvent .resultsFull v.events = true)) ∧
      (∀ j, ¬ bad → packServes s.pack.state = true → s.queuesWf = true →
        j ∈ s.engine.active.toList ++ s.engine.parked.toList → j.track = t →
        ∃ v j', exec (.recoverTrack ps) s = .next v ∧ j' ∈ v.engine.active.toList ++ v.engine.parked.toList ∧
          j' = { j with pending := j'.pending, outcomes := j'.outcomes } ∧
          (∀ n, n ∈ j'.pending ↔ n ∈ j.pending ∨ (named n ∧ s.servingAt (t.at n) = false)) ∧
          (∀ n, n ∈ j.pending → v.engine.accumulator j.bank n = s.engine.accumulator j.bank n) ∧
          (∀ n, n ∈ j'.pending → n ∉ j.pending → v.engine.accumulator j.bank n = Accumulator.empty) ∧
          v.engine.queued = s.engine.queued ∧ (s.drive.recoveryRunning = true → v.drive.grant = s.drive.grant) ∧
          v.engine.window = (if s.engine.window.isSome then some (s.now + 100 * s.timing.batchWindow) else none) ∧
          v.ci = (s.afterCommand 0o040 .ok).ci ∧ v.results = s.results ∧ v.map = s.map) ∧
      (∀ before j after, ¬ bad → packServes s.pack.state = true →
        (∀ k ∈ s.engine.active.toList ++ s.engine.parked.toList, k.track ≠ t) →
        s.engine.queued = before ++ j :: after → j.track = t → (∀ k ∈ before, k.track ≠ t) →
        ∃ v j', exec (.recoverTrack ps) s = .next v ∧ v.engine.queued = before ++ j' :: after ∧ j'.track = t ∧
          j'.ladder = j.ladder ∧ j'.keepBest = j.keepBest ∧ j'.origin = j.origin ∧ j'.urgent = j.urgent ∧
          (∀ n, n ∈ j'.pending ↔ n ∈ j.pending ∨ (named n ∧ s.servingAt (t.at n) = false)) ∧
          v.engine.window = (if s.engine.window.isSome then some (s.now + 100 * s.timing.batchWindow) else none) ∧
          v.ci = (s.afterCommand 0o040 .ok).ci ∧ v.results = s.results ∧ v.map = s.map)) ∧
    (ps.length < 2 → exec (.cancelTrack ps) s = .next (s.afterCommand 0o041 .badParameter)) ∧
    (∀ c h rest, ps = c :: h :: rest →
      let t : Track := ⟨c.toNat, h.toNat⟩
      (s.geom.cylinders ≤ c.toNat ∨ s.geom.heads ≤ h.toNat →
        exec (.cancelTrack ps) s = .next (s.afterCommand 0o041 .badParameter)) ∧
      (c.toNat < s.geom.cylinders → h.toNat < s.geom.heads →
        (∀ j ∈ s.engine.active.toList ++ s.engine.parked.toList ++ s.engine.queued, j.track ≠ t) →
        exec (.cancelTrack ps) s = .next (s.afterCommand 0o041 .notFound)) ∧
      (∀ j ∈ s.engine.active.toList ++ s.engine.parked.toList ++ s.engine.queued, s.queuesWf = true →
        c.toNat < s.geom.cylinders → h.toNat < s.geom.heads → j.track = t →
        ∃ v, exec (.cancelTrack ps) s = .next v ∧
          (∀ k ∈ v.engine.active.toList ++ v.engine.parked.toList ++ v.engine.queued, k.track ≠ t) ∧
          (∀ k ∈ s.engine.active.toList ++ s.engine.parked.toList ++ s.engine.queued, k.track ≠ t →
            k ∈ v.engine.active.toList ++ v.engine.parked.toList ++ v.engine.queued) ∧
          v.ci = (s.afterCommand 0o041 .ok).ci ∧
          (let aborts (g : Grant) : Prop := s.engine.active = some j ∧ s.drive.grant = some g ∧ g.aborted = false ∧
             ∃ u x f l, g.work = .recovery u x f l
           (∀ g, aborts g →
             (∀ r d, s.drive.activity = .positioning r d →
               v.drive.grant = some { g with aborted := true } ∧ v.drive.activity = .positioning r d) ∧
             ((∀ r d, s.drive.activity ≠ .positioning r d) → v.drive.grant = none ∧ v.drive.activity = .idle)) ∧
           ((∀ g, ¬ aborts g) → v.drive.grant = s.drive.grant ∧ v.drive.activity = s.drive.activity) ∧
           v.drive = { s.drive with
             requests := s.requestsKept true
             grant := v.drive.grant
             activity := v.drive.activity
             recoveryRequest := v.drive.recoveryRequest } ∧
           (s.engine.active = some j → v.drive.recoveryRequest = false ∧ v.drive.recoveryRunning = false) ∧
           (j.reservation = true ∨ s.canReserve = true → ∃ rec, v.results = s.results ++ [rec] ∧ rec.track = t ∧
             rec.ending = .cancelled ∧ rec.passes = j.passes ∧
             (∀ g, aborts g → rec.settles = (if g.settleSpent then min 65535 (j.settles + 1) else j.settles) ∧
               rec.clamped = (j.clamped || g.clamped)) ∧
             ((∀ g, ¬ aborts g) → rec.settles = j.settles ∧ rec.clamped = j.clamped)))))

/-- SUSPEND_ENGINE, RESUME_ENGINE and RESET_ENGINE (R132, R133): the suspend flag set with the standing request withdrawn, or
cleared with a stopped engine's request made again; a reset ends every job, closes the window, clears the suspend flag and
RESULTS_FULL, empties the banks, and leaves the tables, the posts and the records held.

A running RECOVERY grant is aborted (R100, R133): a seek or recalibrate in progress is finished first, a read or a settle stops at
once with the settled flag as it was, its settle charged to the ACTIVE job's record; any other grant runs on. The jobs end
ABANDONED, the ACTIVE job first, then the PARKED job, then the QUEUED jobs in their order, and their records enter the Result Queue
in that order; those of QUEUED jobs for which no place is free are dropped with RESULTS_FULL. The model's own: the record of a job
left ENDING comes after that of an ACTIVE job, beside which no run leaves it, and the record carries the grant's offset clamp too
(log 39). -/
def Obligations.EngineCommands : Prop :=
  ∀ (s : State) (ps : List Word), s.takesCommand ps →
    (let u := s.afterCommand 0o042 .ok
     exec (.suspendEngine ps) s = .next
       { u with engine := { s.engine with suspended := true }
                drive := { u.drive with recoveryRequest := false } }) ∧
    (∃ t, exec (.resumeEngine ps) s = .next t ∧ t.engine.suspended = false ∧ t.engine.queued = s.engine.queued ∧
      t.engine.jobs.Perm s.engine.jobs ∧ t.ci = (s.afterCommand 0o043 .ok).ci ∧ t.results = s.results ∧ t.map = s.map ∧
      (∀ j, t.engine.active = some j → t.engine.held = false → s.drive.recoveryRunning = false →
        t.drive.recoveryRequest = true)) ∧
    (∃ t, exec (.resetEngine ps) s = .next t ∧ t.engine.jobs = [] ∧ t.engine.window = none ∧
      t.engine.suspended = false ∧ t.engine.resultsFull = false ∧ (∀ b ∈ t.engine.banks, b = []) ∧
      t.drive.recoveryRequest = false ∧ t.drive.recoveryRunning = false ∧ t.engine.noPack = s.engine.noPack ∧
      t.engine.speed = s.engine.speed ∧ t.engine.transparent = s.engine.transparent ∧
      (∃ records, t.results = s.results ++ records ∧
        (∀ rec ∈ records, rec.ending = .abandoned ∧ ∃ j ∈ s.engine.jobs, j.track = rec.track) ∧
        (s.queuesWf = true →
          let room := 64 - (s.results.length + s.engine.reservations)
          records.map (fun x => (x.track, x.origin, x.epoch, x.passes, x.misSeeks)) =
            (s.engine.active.toList ++ s.engine.ending.toList ++ s.engine.parked.toList ++ s.engine.queued.take room).map
              (fun j => (j.track, j.origin, j.epoch, j.passes, j.misSeeks)) ∧
          (room < s.engine.queued.length → hasEvent .resultsFull t.events = true) ∧
          (∀ j g, s.engine.active = some j → s.drive.grant = some g → s.drive.recoveryRunning = true → ∃ rec ∈ records,
            rec.track = j.track ∧ rec.settles = (if g.settleSpent then min 65535 (j.settles + 1) else j.settles) ∧
            rec.clamped = (j.clamped || g.clamped)))) ∧
      (let aborts (g : Grant) : Prop := s.drive.grant = some g ∧ g.aborted = false ∧ ∃ u x f l, g.work = .recovery u x f l
       (∀ g, aborts g →
         (∀ r d, s.drive.activity = .positioning r d →
           t.drive.grant = some { g with aborted := true } ∧ t.drive.activity = .positioning r d) ∧
         ((∀ r d, s.drive.activity ≠ .positioning r d) → t.drive.grant = none ∧ t.drive.activity = .idle)) ∧
       ((∀ g, ¬ aborts g) → t.drive.grant = s.drive.grant ∧ t.drive.activity = s.drive.activity) ∧
       t.drive = { s.drive with
         requests := s.requestsKept true
         grant := t.drive.grant
         activity := t.drive.activity
         recoveryRequest := false }) ∧
      t.ci = (s.afterCommand 0o044 .ok).ci ∧ t.regions = s.regions ∧ t.ladders = s.ladders ∧ t.posts = s.posts ∧
      t.buffers = s.buffers ∧ t.timing = s.timing)

/-- LOAD_SECTOR (R51): its four tests in their order, and AWAIT_DATA with the address when all pass; nothing else changes. -/
def Obligations.LoadSectorAwaitsData : Prop :=
  ∀ (s : State) (ps : List Word), s.takesCommand ps →
    ((∀ a, ¬ namesAddr s.geom ps a) →
      exec (.loadSector ps) s = .next (s.afterCommand 0o060 .badParameter)) ∧
    (∀ a, namesAddr s.geom ps a →
      (packServes s.pack.state = false → exec (.loadSector ps) s = .next (s.afterCommand 0o060 .noPack)) ∧
      (packServes s.pack.state = true → s.postAt a ≠ none →
        exec (.loadSector ps) s = .next (s.afterCommand 0o060 .notIdle)) ∧
      (packServes s.pack.state = true → s.postAt a = none → s.entryAt a = none → s.freeSlot = none →
        exec (.loadSector ps) s = .next (s.afterCommand 0o060 .full)) ∧
      (packServes s.pack.state = true → s.postAt a = none → (s.entryAt a ≠ none ∨ s.freeSlot ≠ none) →
        exec (.loadSector ps) s = .next
          { s.afterCommand 0o060 .ok with ci := { (s.afterCommand 0o060 .ok).ci with sequence := .awaitData a } }))

/-- DROP_SECTOR (R53), in every pack state and mode: fewer than three parameters or an address outside the geometry is BAD_PARAMETER,
an address with no entry NOT_FOUND; else the entry is removed whatever its origin, its slot free again, the result OK. No post
entry, no buffer and no job changes. -/
def Obligations.DropSectorRemovesEntry : Prop :=
  ∀ (s : State) (ps : List Word), s.takesCommand ps →
    ((∀ a, ¬ namesAddr s.geom ps a) → exec (.dropSector ps) s = .next (s.afterCommand 0o061 .badParameter)) ∧
    (∀ a, namesAddr s.geom ps a →
      (s.entryAt a = none → exec (.dropSector ps) s = .next (s.afterCommand 0o061 .notFound)) ∧
      (s.entryAt a ≠ none → exec (.dropSector ps) s = .next
        { s.afterCommand 0o061 .ok with
          map := { s.map with entries := s.map.entries.filter (fun e => e.addr != a) } }))

/-- CLEAR_MAP, FORCE_UNLOAD, ENABLE_FORMAT and CONFIRM (R35, R54, R158, R166, R167): the three wait with CONFIRM_REQUIRED; the matching
CONFIRM executes the pending one; any other CONFIRM finds nothing, the pending record abandoned with SEQUENCE_LOST. -/
def Obligations.ConfirmedCommands : Prop :=
  ∀ (s : State) (ps : List Word), s.takesCommand ps →
    (let waiting (code : Word) : State :=
       { s.afterCommand code .confirmRequired with
         ci := { (s.afterCommand code .confirmRequired).ci with sequence := .awaitConfirm code } }
     exec (.clearMap ps) s = .next (waiting 0o062) ∧ exec (.forceUnload ps) s = .next (waiting 0o101) ∧
       exec (.enableFormat ps) s = .next (waiting 0o125)) ∧
    ((∀ code, s.ci.sequence = .awaitConfirm code → ps.head? ≠ some code) →
      exec (.confirm ps) s = .next (s.afterCommand 0o141 .sequenceLost)) ∧
    (∀ code rest, s.ci.sequence = .awaitConfirm code → ps = code :: rest →
      let u (r : ResultCode) := s.afterCommandWrite true 0o141 r
      (code = 0o062 → exec (.confirm ps) s = .next { u .ok with map := { s.map with entries := [] } }) ∧
      (code = 0o125 → packServes s.pack.state = true → exec (.confirm ps) s = .next
        { u .ok with port := { (u .ok).port with formatEnable := true } }) ∧
      (code = 0o125 → packServes s.pack.state = false → exec (.confirm ps) s = .next (u .noPack)) ∧
      (code = 0o101 → s.pack.state = .empty → exec (.confirm ps) s = .next (u .noPack)) ∧
      (code = 0o101 → s.pack.state = .unloading → exec (.confirm ps) s = .next (u .ok)) ∧
      (code = 0o101 → s.pack.state = .spinningUp ∨ packServes s.pack.state = true → s.sound = true →
        ∃ t, exec (.confirm ps) s = .next t ∧ t.pack.state = .unloading ∧ t.pack.unloadRelease = true ∧
          t.pack.firstRequest = none ∧ t.port.formatEnable = false ∧ t.engine.noPack = true ∧ t.engine.window = none ∧
          t.engine.jobs = [] ∧ t.drive.requests = [] ∧ t.posts.entries = [] ∧ t.ci = (u .ok).ci ∧
          (packServes s.pack.state = true → t.drive.grant = none) ∧
          (s.posts.entries ≠ [] → hasEvent .postDiscard t.events = true) ∧
          (hasEvent .unloadRequested t.events = hasEvent .unloadRequested s.events)))

/-- SET_MODE, SET_GEOMETRY, SET_GUARD, SET_TIMING, SET_TRIM, SET_CONTROL_ADDRESS and CLEAR_EVENTS (R3, R8, R30, R78, R88, R152,
R155, R162, R173, R176, R178): every ground of refusal, the clamps with CLAMPED, and the value set, nothing else changed but what
the rule names. The model's choices: SET_MODE tests its parameter before NOT_IDLE and NOT_IDLE before the mode in force (log 16);
SET_GEOMETRY tests its parameters before the pack state (log 42) and leaves the physical head and what else R178 does not name as
they were (log 24). -/
def Obligations.SettingCommands : Prop :=
  ∀ (s : State) (ps : List Word), s.takesCommand ps →
    (∀ m : Mode, ps.head? = some (Mode.toWord m) →
      let busy := s.posts.entries ≠ [] ∨ s.requestsKept true ≠ [] ∨
        (∃ g, s.drive.grant = some g ∧ (∀ a w d, g.work ≠ .flush a w d) ∧ (∀ t x f l, g.work ≠ .recovery t x f l))
      (busy → exec (.setMode ps) s = .next (s.afterCommand 0o120 .notIdle)) ∧
      (¬ busy → m = s.port.mode → exec (.setMode ps) s = .next (s.afterCommand 0o120 .ok)) ∧
      (¬ busy → m ≠ s.port.mode → ∃ t, exec (.setMode ps) s = .next t ∧ t.port = { (s.afterCommand 0o120 .ok).port with mode := m } ∧
        t.engine.transparent = (m == Mode.transparent) ∧ t.ci = (s.afterCommand 0o120 .ok).ci ∧ t.map = s.map ∧
        t.buffers = s.buffers ∧ t.results = s.results ∧ t.engine.jobs.Perm s.engine.jobs)) ∧
    ((∀ m : Mode, ps.head? ≠ some (Mode.toWord m)) → exec (.setMode ps) s = .next (s.afterCommand 0o120 .badParameter)) ∧
    (ps.length < 5 → exec (.setGeometry ps) s = .next (s.afterCommand 0o121 .badParameter)) ∧
    (∀ c h n w p rest, ps = c :: h :: n :: w :: p :: rest →
      let g : Geometry := ⟨c.toNat, h.toNat, n.toNat, w.toNat, p.toNat⟩
      (geometryWf g = false → exec (.setGeometry ps) s = .next (s.afterCommand 0o121 .badParameter)) ∧
      (geometryWf g = true → packServes s.pack.state = true ∨ s.pack.state = .unloading →
        exec (.setGeometry ps) s = .next (s.afterCommand 0o121 .notIdle)) ∧
      (geometryWf g = true → packServes s.pack.state = false → s.pack.state ≠ .unloading →
        let u := s.afterCommand 0o121 .ok
        exec (.setGeometry ps) s = .next
          { u with
            geom := g
            regions := s.regions.map (fun slot => slot.bind (fun r =>
              if g.cylinders ≤ r.low then none else some { r with high := min r.high (g.cylinders - 1) }))
            ci := { u.ci with controlAddr := ⟨g.cylinders - 1, g.heads - 1, g.sectors - 1⟩ }
            drive := { u.drive with physCyl := none }
            port := { u.port with virtCyl := min s.port.virtCyl (g.cylinders - 1)
                                  virtHead := min s.ci.controlAddr.head (g.heads - 1) }
            pack := { s.pack with spinUp := 0 } })) ∧
    ((∀ k : Nat, k < 3 → ps.head? ≠ some (word k)) → exec (.setGuard ps) s = .next (s.afterCommand 0o102 .badParameter)) ∧
    (∀ k : Nat, k < 3 → ps.head? = some (word k) → exec (.setGuard ps) s = .next
      { s.afterCommand 0o102 .ok with
        pack := { s.pack with unloadGuard := if k = 0 then .auto else if k = 1 then .waitEngine else .waitPermit } }) ∧
    (ps.length < 3 → exec (.setTiming ps) s = .next (s.afterCommand 0o122 .badParameter)) ∧
    (∀ hold window latency rest, ps = hold :: window :: latency :: rest →
      exec (.setTiming ps) s = .next
        { s.afterCommand 0o122 (if 2000 < hold.toNat ∨ 1000 < window.toNat ∨ latency.toNat < 10 ∨ 2000 < latency.toNat
            then .clamped else .ok) with
          timing := ⟨min 2000 hold.toNat, min 1000 window.toNat, max 10 (min 2000 latency.toNat)⟩ }) ∧
    (ps = [] → exec (.setTrim ps) s = .next (s.afterCommand 0o123 .badParameter) ∧
      exec (.clearEvents ps) s = .next (s.afterCommand 0o140 .badParameter)) ∧
    (∀ w rest, ps = w :: rest →
      (let r : ResultCode := if w.toInt < -512 ∨ 511 < w.toInt then .clamped else .ok
       exec (.setTrim ps) s = .next
         { s.afterCommand 0o123 r with
           drive := { (s.afterCommand 0o123 r).drive with trim := max (-512) (min 511 w.toInt) } }) ∧
      (∃ t, exec (.clearEvents ps) s = .next t ∧ t = { s.afterCommand 0o140 .ok with events := t.events } ∧
        ∀ e : Event, hasEvent e t.events = (hasEvent e (s.afterCommand 0o140 .ok).events && !w.getLsbD e.bit))) ∧
    ((∀ a, ¬ namesAddr s.geom ps a) → exec (.setControlAddress ps) s = .next (s.afterCommand 0o124 .badParameter)) ∧
    (∀ a, namesAddr s.geom ps a → exec (.setControlAddress ps) s = .next
      { s.afterCommand 0o124 .ok with ci := { (s.afterCommand 0o124 .ok).ci with controlAddr := a } })

/-! ## Pack changes (09_pack_changes.md) -/

/-- UNLOAD_REQUEST, PERMIT_UNLOAD and UNLOAD_RELEASE (R154, R155, R156, R157, R158): by the pack state; a request in SPINNING_UP
releases the pack at once; a second request 10 s or more after the first forces the release; the release test passes by the guard
with the Post Queue empty; a release that is not forced makes the pack UNLOADING with every job abandoned, an ACTIVE job whose grant
runs left ENDING, and the grant running on. -/
def Obligations.UnloadSequence : Prop :=
  ∀ (s : State) (elapsed : Nat) (ps : List Word), s.sound = true →
    let u := s.advance elapsed
    (s.pack.state = .empty ∨ s.pack.state = .unloading → exec (.unloadRequest elapsed) s = .next u) ∧
    (s.pack.state = .spinningUp → ∃ t, exec (.unloadRequest elapsed) s = .next t ∧
      hasEvent .unloadRequested t.events = true ∧ t.now = s.now + elapsed ∧ t.pack.state = .unloading ∧
      t.pack.unloadRelease = true ∧ t.pack.firstRequest = none ∧ t.port.formatEnable = false ∧ t.engine.noPack = true ∧
      t.engine.window = none ∧ t.engine.jobs = [] ∧ t.drive.requests = [] ∧ t.drive.grant = s.drive.grant ∧
      t.results = s.results ∧ t.map = s.map ∧ t.posts = s.posts) ∧
    (s.pack.state = .loaded → exec (.unloadRequest elapsed) s = .next
      { u with events := withEvent .unloadRequested s.events
               pack := { s.pack with state := .unloadPending, firstRequest := some (s.now + elapsed) } }) ∧
    (∀ first, s.pack.state = .unloadPending → s.pack.firstRequest = some first →
      (s.now + elapsed < first + 1000000 → exec (.unloadRequest elapsed) s = .next u) ∧
      (first + 1000000 ≤ s.now + elapsed → ∃ t, exec (.unloadRequest elapsed) s = .next t ∧
        hasEvent .unloadRequested t.events = true ∧ t.pack.state = .unloading ∧ t.pack.unloadRelease = true ∧
        t.drive.grant = none ∧ t.posts.entries = [] ∧ t.engine.jobs = [] ∧ t.port.hold = none)) ∧
    (s.takesCommand ps →
      (s.pack.state = .empty ∨ s.pack.state = .spinningUp →
        exec (.permitUnload ps) s = .next (s.afterCommand 0o100 .noPack)) ∧
      (s.pack.state = .loaded → exec (.permitUnload ps) s = .next (s.afterCommand 0o100 .notFound)) ∧
      (s.pack.state = .unloadPending → exec (.permitUnload ps) s = .next
        { s.afterCommand 0o100 .ok with pack := { s.pack with permitGiven := true } }) ∧
      (s.pack.state = .unloading → exec (.permitUnload ps) s = .next (s.afterCommand 0o100 .ok))) ∧
    (let passes := s.posts.entries = [] ∧ (s.pack.permitGiven = true ∨ s.pack.unloadGuard = .auto ∨
        (s.pack.unloadGuard = .waitEngine ∧ s.engine.jobs = []))
     (¬ (s.pack.state = .unloadPending ∧ passes) → exec .unloadRelease s = .next s) ∧
     (s.pack.state = .unloadPending → passes → ∃ t, exec .unloadRelease s = .next t ∧ t.pack.state = .unloading ∧
       t.pack.unloadRelease = true ∧ t.pack.firstRequest = none ∧ t.port.formatEnable = false ∧ t.engine.noPack = true ∧
       t.engine.active = none ∧ t.engine.parked = none ∧ t.engine.queued = [] ∧ t.engine.window = none ∧
       t.drive.grant = s.drive.grant ∧ t.drive.requests = [] ∧ t.port.hold = none ∧
       (∀ j, s.engine.active = some j → s.drive.recoveryRunning = true →
         ∃ k, t.engine.ending = some k ∧ k.track = j.track ∧ k.pending = []) ∧
       (s.drive.recoveryRunning = false → t.engine.ending = none) ∧
       (s.port.hold ≠ none → t.completions = s.completions ++ [.status .notReady []])))

/-! ## Laws that every step keeps

Each holds from every state with the law, reached or not. A law that needs another beside it takes it as a premise, and that one is
stated here too. -/

/-- The tables keep their form (R3, R24, R78, R101, R102, R162, R173, R178): geometry, regions in range and apart, ladders, timing
values and trim in range, the virtual position and the control sector address within the geometry. -/
def Obligations.EveryStepKeepsTables : Prop :=
  ∀ s t : State, s.tablesWf = true → step s = .next t → t.tablesWf = true

/-- The Substitution Map keeps its one form (R40, R42): entries in address order, no address twice, each bound to its own slot of the
store. -/
def Obligations.EveryStepKeepsMap : Prop :=
  ∀ s t : State, s.mapWf = true → step s = .next t → t.mapWf = true

/-- The Post Queue keeps its form (R60, R66), and no address has both a post entry and a map entry (R44). -/
def Obligations.EveryStepKeepsPosts : Prop :=
  ∀ s t : State, s.postsWf = true → s.postsApartFromMap = true → step s = .next t →
    t.postsWf = true ∧ t.postsApartFromMap = true

/-- The Recovery Queue and the Result Queue keep their form (R113, R114, R119, R120, R121, R122, R130, R134). -/
def Obligations.EveryStepKeepsQueues : Prop :=
  ∀ s t : State, s.queuesWf = true → step s = .next t → t.queuesWf = true

/-- The hold reasons, Format Enable and the pack record stand with their conditions (R36, R96, R116, R151, R152, R157), and the
pending record of the Command Interface names one of the three commands that wait for CONFIRM (R35, R54, R158, R166): each law is
inductive by itself. -/
def Obligations.EveryStepKeepsPackRecord : Prop :=
  ∀ s t : State, step s = .next t →
    (s.packWf = true → t.packWf = true) ∧ (s.sequenceWf = true → t.sequenceWf = true)

/-- With no pack served nothing is posted, held, or at work in the Recovery Queue, and with none in the drive the map is empty (R22,
R55, R69, R117, R134, R157 to R160): kept from every state whose Recovery Queue has its form (a job left ENDING only while the pack is
UNLOADING), which EveryStepKeepsQueues says every step keeps. -/
def Obligations.EveryStepEmptiesWithoutPack : Prop :=
  ∀ s t : State, s.queuesWf = true → s.emptyWithoutPack = true → step s = .next t → t.emptyWithoutPack = true

/-- A grant runs exactly in the activities of a grant; each client's request stands exactly with the request it serves, and is of a
kind that client makes; a hold with its held request (R2, R17, R79, R80, R82, R172). -/
def Obligations.EveryStepKeepsDrive : Prop :=
  ∀ s t : State, s.driveWf = true → step s = .next t → t.driveWf = true

/-- The law of media writes (R33, R34, R37, R93, R94), for every command in every state whose standing requests are of the kinds
their clients make (EveryStepKeepsDrive): words enter the Post Queue, and a WRITE or
FORMAT is requested of the drive, only with Media Write Permit asserted and under a PASS policy, a FORMAT only with Format Enable set;
a flush write begins only with the line asserted, with the words of a post entry; a grant's data reaches the drive only as it was
requested; and the drive is commanded to write only by the end of the window of the granted sector, with the words granted and their
check word, or by the index pulse a FORMAT awaits, the write-protect line deasserted. -/
def Obligations.MediaWriteLaw : Prop :=
  ∀ (s t : State) (i : Instr), s.driveWf = true → exec i s = .next t →
    let allowed (cyl : Nat) : Prop := t.lines.permit = true ∧ (t.regionAt cyl).write = .pass
    (∀ p ∈ t.posts.entries, (∃ q ∈ s.posts.entries, q.addr = p.addr ∧ q.data = p.data) ∨ allowed p.addr.cyl) ∧
    (∀ r ∈ t.drive.requests, r ∈ s.drive.requests ∨
      ((∀ a ws, r.work = .write a ws → allowed a.cyl) ∧
        (∀ k phase, r.work = .format k phase → allowed k.cyl ∧ s.port.formatEnable = true))) ∧
    (∀ g, t.drive.grant = some g →
      (∀ a ws, g.work = .write a ws →
        (∃ h, s.drive.grant = some h ∧ h.work = .write a ws) ∨ (∃ r ∈ s.drive.requests, r.work = .write a ws)) ∧
      (∀ k phase, g.work = .format k phase →
        (∃ h u, s.drive.grant = some h ∧ h.work = .format k u) ∨ (∃ r ∈ s.drive.requests, ∃ u, r.work = .format k u)) ∧
      (∀ a d, g.work = .flush a none d →
        (∃ h u, s.drive.grant = some h ∧ h.work = .flush a none u) ∨ t.lines.permit = true) ∧
      (∀ a ws d, g.work = .flush a (some ws) d →
        (∃ h u, s.drive.grant = some h ∧ h.work = .flush a (some ws) u) ∨
          (((∃ h u, s.drive.grant = some h ∧ h.work = .flush a none u) ∨ t.lines.permit = true) ∧
            ∃ p ∈ s.posts.entries, p.addr = a ∧ p.data = ws))) ∧
    (∃ new, t.driveLog = s.driveLog ++ new ∧
      (∀ a ws c, DriveAction.writeSector a ws c ∈ new →
        c = crc ws ∧ ∃ header permit g, i = .sectorWriteEnd header false permit ∧ s.drive.activity = .writing ∧
          s.drive.grant = some g ∧ headerMatching g.threshold a header = true ∧
          (g.work = .write a ws ∨ ∃ d, g.work = .flush a (some ws) d)) ∧
      (∀ k l, DriveAction.formatTrack k l ∈ new →
        (∀ x ∈ l, ∀ w ∈ x.words, w = 0) ∧ ∃ elapsed g, i = .indexPulse elapsed false ∧ s.drive.activity = .writing ∧ s.drive.grant = some g ∧
          g.work = .format k .awaitIndex))

/-- The settings and the tables change only by their own commands taken and not refused, and at power-on (R8, R26, R28, R30, R88, R101,
R105, R106, R155, R162, R173, R178); the unit number only at power-on (R1, R177). -/
def Obligations.SettingsChangeOnlyByCommand : Prop :=
  ∀ (s t : State) (i : Instr), exec i s = .next t → (∀ straps ready fault, i ≠ .powerOn straps ready fault) →
    let taken (code : Word) : Prop :=
      (i.code? = some code ∨ (∃ head sector words permit, i = .write head sector words permit) ∨
        (∃ unit r, i = .otherUnitRequest unit r) ∨ (∃ words, i = .loadSectorData words)) ∧
      t.ci.lastCommand = code ∧ (t.ci.lastResult = .ok ∨ t.ci.lastResult = .clamped)
    (t.geom = s.geom ∨ taken 0o121) ∧
    (t.regions = s.regions ∨ taken 0o020 ∨ taken 0o021 ∨ taken 0o121) ∧
    (t.ladders = s.ladders ∨ taken 0o022 ∨ taken 0o023) ∧
    (t.pack.unloadGuard = s.pack.unloadGuard ∨ taken 0o102) ∧
    (t.port.mode = s.port.mode ∨ taken 0o120) ∧
    (t.timing = s.timing ∨ taken 0o122) ∧
    (t.drive.trim = s.drive.trim ∨ taken 0o123) ∧
    (t.ci.controlAddr = s.ci.controlAddr ∨ taken 0o124 ∨ taken 0o121) ∧
    t.port.unit = s.port.unit

/-- The latches and the pack state move only as their rules say (R35, R36, R151, R152, R176): an event stays set until CLEAR EVENTS; the
load epoch counts the entries to LOADED; Format Enable is set by the confirmed ENABLE FORMAT alone and lost by FORMAT, Controller
Clear and the pack's departure alone; and the pack state follows the edges of its diagram. From every state whose pending record names
a command that waits for CONFIRM (EveryStepKeepsPackRecord). -/
def Obligations.LatchesMoveOnlyAsRuled : Prop :=
  ∀ (s t : State) (i : Instr), s.sequenceWf = true → exec i s = .next t → (∀ straps ready fault, i ≠ .powerOn straps ready fault) →
    (∀ e : Event, hasEvent e s.events = true → hasEvent e t.events = true ∨
      ((i.code? = some 0o140 ∨ (∃ head sector words permit, i = .write head sector words permit) ∨
        (∃ unit r, i = .otherUnitRequest unit r) ∨ (∃ words, i = .loadSectorData words)) ∧
        t.ci.lastCommand = 0o140 ∧ t.ci.lastResult = .ok)) ∧
    (t.pack.epoch = s.pack.epoch ∨
      (t.pack.epoch = s.pack.epoch + 1 ∧ s.pack.state = .spinningUp ∧ t.pack.state = .loaded ∧
        ∃ elapsed protect, i = .indexPulse elapsed protect)) ∧
    (s.port.formatEnable = false → t.port.formatEnable = true →
      s.ci.sequence = .awaitConfirm 0o125 ∧ t.ci.lastCommand = 0o141 ∧ t.ci.lastResult = .ok ∧ packServes t.pack.state = true) ∧
    (s.port.formatEnable = true → t.port.formatEnable = false →
      (∃ head permit, i = .format head permit) ∨ i = .controllerClear ∨ (∃ unit r, i = .otherUnitRequest unit r) ∨
        packServes t.pack.state = false) ∧
    (t.pack.state ≠ s.pack.state →
      (s.pack.state = .empty ∧ t.pack.state = .spinningUp ∧ i = .driveReadyRise) ∨
      (s.pack.state = .spinningUp ∧ t.pack.state = .loaded ∧ ∃ elapsed protect, i = .indexPulse elapsed protect) ∨
      (s.pack.state = .loaded ∧ t.pack.state = .unloadPending ∧ ∃ elapsed, i = .unloadRequest elapsed) ∨
      (s.pack.state ≠ .empty ∧ t.pack.state = .unloading) ∨
      (s.pack.state ≠ .empty ∧ t.pack.state = .empty ∧ i = .driveReadyFall))
end

