-- ==== Sys2Proof/Laws/State.lean ====
section
/-! SUPPORT. What each update of the state leaves in each field of it: one lemma per field per update, true by `rfl`, so that no
later proof unfolds a record update. -/

namespace Sys2Proof.Machine

/-! ## advance -/

@[simp] theorem State.advance_now (k : Nat) (s : State) : (s.advance k).now = s.now + k := rfl
@[simp] theorem State.advance_geom (k : Nat) (s : State) : (s.advance k).geom = s.geom := rfl
@[simp] theorem State.advance_lines (k : Nat) (s : State) : (s.advance k).lines = s.lines := rfl
@[simp] theorem State.advance_port (k : Nat) (s : State) : (s.advance k).port = s.port := rfl
@[simp] theorem State.advance_timing (k : Nat) (s : State) : (s.advance k).timing = s.timing := rfl
@[simp] theorem State.advance_regions (k : Nat) (s : State) : (s.advance k).regions = s.regions := rfl
@[simp] theorem State.advance_ladders (k : Nat) (s : State) : (s.advance k).ladders = s.ladders := rfl
@[simp] theorem State.advance_map (k : Nat) (s : State) : (s.advance k).map = s.map := rfl
@[simp] theorem State.advance_posts (k : Nat) (s : State) : (s.advance k).posts = s.posts := rfl
@[simp] theorem State.advance_buffers (k : Nat) (s : State) : (s.advance k).buffers = s.buffers := rfl
@[simp] theorem State.advance_drive (k : Nat) (s : State) : (s.advance k).drive = s.drive := rfl
@[simp] theorem State.advance_timer (k : Nat) (s : State) :
    (s.advance k).timer = { s.timer with count := min Config.tickCeiling (s.timer.count + k) } := rfl
@[simp] theorem State.advance_engine (k : Nat) (s : State) : (s.advance k).engine = s.engine := rfl
@[simp] theorem State.advance_results (k : Nat) (s : State) : (s.advance k).results = s.results := rfl
@[simp] theorem State.advance_events (k : Nat) (s : State) : (s.advance k).events = s.events := rfl
@[simp] theorem State.advance_pack (k : Nat) (s : State) : (s.advance k).pack = s.pack := rfl
@[simp] theorem State.advance_ci (k : Nat) (s : State) : (s.advance k).ci = s.ci := rfl
@[simp] theorem State.advance_completions (k : Nat) (s : State) : (s.advance k).completions = s.completions := rfl
@[simp] theorem State.advance_driveLog (k : Nat) (s : State) : (s.advance k).driveLog = s.driveLog := rfl
@[simp] theorem State.advance_pending (k : Nat) (s : State) : (s.advance k).pending = s.pending := rfl

/-! ## answer -/

@[simp] theorem State.answer_now (st : Status) (data : List Word) (s : State) : (s.answer st data).now = s.now := rfl
@[simp] theorem State.answer_geom (st : Status) (data : List Word) (s : State) : (s.answer st data).geom = s.geom := rfl
@[simp] theorem State.answer_lines (st : Status) (data : List Word) (s : State) :
    (s.answer st data).lines = s.lines := rfl
@[simp] theorem State.answer_port (st : Status) (data : List Word) (s : State) : (s.answer st data).port = s.port := rfl
@[simp] theorem State.answer_timing (st : Status) (data : List Word) (s : State) :
    (s.answer st data).timing = s.timing := rfl
@[simp] theorem State.answer_regions (st : Status) (data : List Word) (s : State) :
    (s.answer st data).regions = s.regions := rfl
@[simp] theorem State.answer_ladders (st : Status) (data : List Word) (s : State) :
    (s.answer st data).ladders = s.ladders := rfl
@[simp] theorem State.answer_map (st : Status) (data : List Word) (s : State) : (s.answer st data).map = s.map := rfl
@[simp] theorem State.answer_posts (st : Status) (data : List Word) (s : State) :
    (s.answer st data).posts = s.posts := rfl
@[simp] theorem State.answer_buffers (st : Status) (data : List Word) (s : State) :
    (s.answer st data).buffers = s.buffers := rfl
@[simp] theorem State.answer_drive (st : Status) (data : List Word) (s : State) :
    (s.answer st data).drive = s.drive := rfl
@[simp] theorem State.answer_timer (st : Status) (data : List Word) (s : State) :
    (s.answer st data).timer = s.timer := rfl
@[simp] theorem State.answer_engine (st : Status) (data : List Word) (s : State) :
    (s.answer st data).engine = s.engine := rfl
@[simp] theorem State.answer_results (st : Status) (data : List Word) (s : State) :
    (s.answer st data).results = s.results := rfl
@[simp] theorem State.answer_events (st : Status) (data : List Word) (s : State) :
    (s.answer st data).events = s.events := rfl
@[simp] theorem State.answer_pack (st : Status) (data : List Word) (s : State) : (s.answer st data).pack = s.pack := rfl
@[simp] theorem State.answer_ci (st : Status) (data : List Word) (s : State) : (s.answer st data).ci = s.ci := rfl
@[simp] theorem State.answer_completions (st : Status) (data : List Word) (s : State) :
    (s.answer st data).completions = s.completions ++ [.status st data] := rfl
@[simp] theorem State.answer_driveLog (st : Status) (data : List Word) (s : State) :
    (s.answer st data).driveLog = s.driveLog := rfl
@[simp] theorem State.answer_pending (st : Status) (data : List Word) (s : State) :
    (s.answer st data).pending = s.pending := rfl

/-! ## finishRequest -/

@[simp] theorem State.finishRequest_now (st : Status) (data : List Word) (s : State) :
    (s.finishRequest st data).now = s.now := rfl
@[simp] theorem State.finishRequest_geom (st : Status) (data : List Word) (s : State) :
    (s.finishRequest st data).geom = s.geom := rfl
@[simp] theorem State.finishRequest_lines (st : Status) (data : List Word) (s : State) :
    (s.finishRequest st data).lines = s.lines := rfl
@[simp] theorem State.finishRequest_port (st : Status) (data : List Word) (s : State) :
    (s.finishRequest st data).port = { s.port with outstanding := none, hold := none } := rfl
@[simp] theorem State.finishRequest_timing (st : Status) (data : List Word) (s : State) :
    (s.finishRequest st data).timing = s.timing := rfl
@[simp] theorem State.finishRequest_regions (st : Status) (data : List Word) (s : State) :
    (s.finishRequest st data).regions = s.regions := rfl
@[simp] theorem State.finishRequest_ladders (st : Status) (data : List Word) (s : State) :
    (s.finishRequest st data).ladders = s.ladders := rfl
@[simp] theorem State.finishRequest_map (st : Status) (data : List Word) (s : State) :
    (s.finishRequest st data).map = s.map := rfl
@[simp] theorem State.finishRequest_posts (st : Status) (data : List Word) (s : State) :
    (s.finishRequest st data).posts = s.posts := rfl
@[simp] theorem State.finishRequest_buffers (st : Status) (data : List Word) (s : State) :
    (s.finishRequest st data).buffers = s.buffers := rfl
@[simp] theorem State.finishRequest_drive (st : Status) (data : List Word) (s : State) :
    (s.finishRequest st data).drive = s.drive := rfl
@[simp] theorem State.finishRequest_timer (st : Status) (data : List Word) (s : State) :
    (s.finishRequest st data).timer = s.timer := rfl
@[simp] theorem State.finishRequest_engine (st : Status) (data : List Word) (s : State) :
    (s.finishRequest st data).engine = s.engine := rfl
@[simp] theorem State.finishRequest_results (st : Status) (data : List Word) (s : State) :
    (s.finishRequest st data).results = s.results := rfl
@[simp] theorem State.finishRequest_events (st : Status) (data : List Word) (s : State) :
    (s.finishRequest st data).events = s.events := rfl
@[simp] theorem State.finishRequest_pack (st : Status) (data : List Word) (s : State) :
    (s.finishRequest st data).pack = s.pack := rfl
@[simp] theorem State.finishRequest_ci (st : Status) (data : List Word) (s : State) :
    (s.finishRequest st data).ci = s.ci := rfl
@[simp] theorem State.finishRequest_completions (st : Status) (data : List Word) (s : State) :
    (s.finishRequest st data).completions = s.completions ++ [.status st data] := rfl
@[simp] theorem State.finishRequest_driveLog (st : Status) (data : List Word) (s : State) :
    (s.finishRequest st data).driveLog = s.driveLog := rfl
@[simp] theorem State.finishRequest_pending (st : Status) (data : List Word) (s : State) :
    (s.finishRequest st data).pending = s.pending := rfl

/-! ## command -/

@[simp] theorem State.command_now (a : DriveAction) (s : State) : (s.command a).now = s.now := rfl
@[simp] theorem State.command_geom (a : DriveAction) (s : State) : (s.command a).geom = s.geom := rfl
@[simp] theorem State.command_lines (a : DriveAction) (s : State) : (s.command a).lines = s.lines := rfl
@[simp] theorem State.command_port (a : DriveAction) (s : State) : (s.command a).port = s.port := rfl
@[simp] theorem State.command_timing (a : DriveAction) (s : State) : (s.command a).timing = s.timing := rfl
@[simp] theorem State.command_regions (a : DriveAction) (s : State) : (s.command a).regions = s.regions := rfl
@[simp] theorem State.command_ladders (a : DriveAction) (s : State) : (s.command a).ladders = s.ladders := rfl
@[simp] theorem State.command_map (a : DriveAction) (s : State) : (s.command a).map = s.map := rfl
@[simp] theorem State.command_posts (a : DriveAction) (s : State) : (s.command a).posts = s.posts := rfl
@[simp] theorem State.command_buffers (a : DriveAction) (s : State) : (s.command a).buffers = s.buffers := rfl
@[simp] theorem State.command_drive (a : DriveAction) (s : State) : (s.command a).drive = s.drive := rfl
@[simp] theorem State.command_timer (a : DriveAction) (s : State) : (s.command a).timer = s.timer := rfl
@[simp] theorem State.command_engine (a : DriveAction) (s : State) : (s.command a).engine = s.engine := rfl
@[simp] theorem State.command_results (a : DriveAction) (s : State) : (s.command a).results = s.results := rfl
@[simp] theorem State.command_events (a : DriveAction) (s : State) : (s.command a).events = s.events := rfl
@[simp] theorem State.command_pack (a : DriveAction) (s : State) : (s.command a).pack = s.pack := rfl
@[simp] theorem State.command_ci (a : DriveAction) (s : State) : (s.command a).ci = s.ci := rfl
@[simp] theorem State.command_completions (a : DriveAction) (s : State) :
    (s.command a).completions = s.completions := rfl
@[simp] theorem State.command_driveLog (a : DriveAction) (s : State) : (s.command a).driveLog = s.driveLog ++ [a] := rfl
@[simp] theorem State.command_pending (a : DriveAction) (s : State) : (s.command a).pending = s.pending := rfl

/-! ## setPermit -/

@[simp] theorem State.setPermit_now (level : Bool) (s : State) : (s.setPermit level).now = s.now := rfl
@[simp] theorem State.setPermit_geom (level : Bool) (s : State) : (s.setPermit level).geom = s.geom := rfl
@[simp] theorem State.setPermit_lines (level : Bool) (s : State) :
    (s.setPermit level).lines = { s.lines with permit := level } := rfl
@[simp] theorem State.setPermit_port (level : Bool) (s : State) : (s.setPermit level).port = s.port := rfl
@[simp] theorem State.setPermit_timing (level : Bool) (s : State) : (s.setPermit level).timing = s.timing := rfl
@[simp] theorem State.setPermit_regions (level : Bool) (s : State) : (s.setPermit level).regions = s.regions := rfl
@[simp] theorem State.setPermit_ladders (level : Bool) (s : State) : (s.setPermit level).ladders = s.ladders := rfl
@[simp] theorem State.setPermit_map (level : Bool) (s : State) : (s.setPermit level).map = s.map := rfl
@[simp] theorem State.setPermit_posts (level : Bool) (s : State) : (s.setPermit level).posts = s.posts := rfl
@[simp] theorem State.setPermit_buffers (level : Bool) (s : State) : (s.setPermit level).buffers = s.buffers := rfl
@[simp] theorem State.setPermit_drive (level : Bool) (s : State) : (s.setPermit level).drive = s.drive := rfl
@[simp] theorem State.setPermit_timer (level : Bool) (s : State) : (s.setPermit level).timer = s.timer := rfl
@[simp] theorem State.setPermit_engine (level : Bool) (s : State) : (s.setPermit level).engine = s.engine := rfl
@[simp] theorem State.setPermit_results (level : Bool) (s : State) : (s.setPermit level).results = s.results := rfl
@[simp] theorem State.setPermit_events (level : Bool) (s : State) : (s.setPermit level).events = s.events := rfl
@[simp] theorem State.setPermit_pack (level : Bool) (s : State) : (s.setPermit level).pack = s.pack := rfl
@[simp] theorem State.setPermit_ci (level : Bool) (s : State) : (s.setPermit level).ci = s.ci := rfl
@[simp] theorem State.setPermit_completions (level : Bool) (s : State) :
    (s.setPermit level).completions = s.completions := rfl
@[simp] theorem State.setPermit_driveLog (level : Bool) (s : State) : (s.setPermit level).driveLog = s.driveLog := rfl
@[simp] theorem State.setPermit_pending (level : Bool) (s : State) : (s.setPermit level).pending = s.pending := rfl

/-! ## setProtect -/

@[simp] theorem State.setProtect_now (level : Bool) (s : State) : (s.setProtect level).now = s.now := rfl
@[simp] theorem State.setProtect_geom (level : Bool) (s : State) : (s.setProtect level).geom = s.geom := rfl
@[simp] theorem State.setProtect_lines (level : Bool) (s : State) :
    (s.setProtect level).lines = { s.lines with writeProtect := level } := rfl
@[simp] theorem State.setProtect_port (level : Bool) (s : State) : (s.setProtect level).port = s.port := rfl
@[simp] theorem State.setProtect_timing (level : Bool) (s : State) : (s.setProtect level).timing = s.timing := rfl
@[simp] theorem State.setProtect_regions (level : Bool) (s : State) : (s.setProtect level).regions = s.regions := rfl
@[simp] theorem State.setProtect_ladders (level : Bool) (s : State) : (s.setProtect level).ladders = s.ladders := rfl
@[simp] theorem State.setProtect_map (level : Bool) (s : State) : (s.setProtect level).map = s.map := rfl
@[simp] theorem State.setProtect_posts (level : Bool) (s : State) : (s.setProtect level).posts = s.posts := rfl
@[simp] theorem State.setProtect_buffers (level : Bool) (s : State) : (s.setProtect level).buffers = s.buffers := rfl
@[simp] theorem State.setProtect_drive (level : Bool) (s : State) : (s.setProtect level).drive = s.drive := rfl
@[simp] theorem State.setProtect_timer (level : Bool) (s : State) : (s.setProtect level).timer = s.timer := rfl
@[simp] theorem State.setProtect_engine (level : Bool) (s : State) : (s.setProtect level).engine = s.engine := rfl
@[simp] theorem State.setProtect_results (level : Bool) (s : State) : (s.setProtect level).results = s.results := rfl
@[simp] theorem State.setProtect_events (level : Bool) (s : State) : (s.setProtect level).events = s.events := rfl
@[simp] theorem State.setProtect_pack (level : Bool) (s : State) : (s.setProtect level).pack = s.pack := rfl
@[simp] theorem State.setProtect_ci (level : Bool) (s : State) : (s.setProtect level).ci = s.ci := rfl
@[simp] theorem State.setProtect_completions (level : Bool) (s : State) :
    (s.setProtect level).completions = s.completions := rfl
@[simp] theorem State.setProtect_driveLog (level : Bool) (s : State) : (s.setProtect level).driveLog = s.driveLog := rfl
@[simp] theorem State.setProtect_pending (level : Bool) (s : State) : (s.setProtect level).pending = s.pending := rfl

/-! ## setReady -/

@[simp] theorem State.setReady_now (level : Bool) (s : State) : (s.setReady level).now = s.now := rfl
@[simp] theorem State.setReady_geom (level : Bool) (s : State) : (s.setReady level).geom = s.geom := rfl
@[simp] theorem State.setReady_lines (level : Bool) (s : State) :
    (s.setReady level).lines = { s.lines with ready := level } := rfl
@[simp] theorem State.setReady_port (level : Bool) (s : State) : (s.setReady level).port = s.port := rfl
@[simp] theorem State.setReady_timing (level : Bool) (s : State) : (s.setReady level).timing = s.timing := rfl
@[simp] theorem State.setReady_regions (level : Bool) (s : State) : (s.setReady level).regions = s.regions := rfl
@[simp] theorem State.setReady_ladders (level : Bool) (s : State) : (s.setReady level).ladders = s.ladders := rfl
@[simp] theorem State.setReady_map (level : Bool) (s : State) : (s.setReady level).map = s.map := rfl
@[simp] theorem State.setReady_posts (level : Bool) (s : State) : (s.setReady level).posts = s.posts := rfl
@[simp] theorem State.setReady_buffers (level : Bool) (s : State) : (s.setReady level).buffers = s.buffers := rfl
@[simp] theorem State.setReady_drive (level : Bool) (s : State) : (s.setReady level).drive = s.drive := rfl
@[simp] theorem State.setReady_timer (level : Bool) (s : State) : (s.setReady level).timer = s.timer := rfl
@[simp] theorem State.setReady_engine (level : Bool) (s : State) : (s.setReady level).engine = s.engine := rfl
@[simp] theorem State.setReady_results (level : Bool) (s : State) : (s.setReady level).results = s.results := rfl
@[simp] theorem State.setReady_events (level : Bool) (s : State) : (s.setReady level).events = s.events := rfl
@[simp] theorem State.setReady_pack (level : Bool) (s : State) : (s.setReady level).pack = s.pack := rfl
@[simp] theorem State.setReady_ci (level : Bool) (s : State) : (s.setReady level).ci = s.ci := rfl
@[simp] theorem State.setReady_completions (level : Bool) (s : State) :
    (s.setReady level).completions = s.completions := rfl
@[simp] theorem State.setReady_driveLog (level : Bool) (s : State) : (s.setReady level).driveLog = s.driveLog := rfl
@[simp] theorem State.setReady_pending (level : Bool) (s : State) : (s.setReady level).pending = s.pending := rfl

/-! ## setFault -/

@[simp] theorem State.setFault_now (level : Bool) (s : State) : (s.setFault level).now = s.now := rfl
@[simp] theorem State.setFault_geom (level : Bool) (s : State) : (s.setFault level).geom = s.geom := rfl
@[simp] theorem State.setFault_lines (level : Bool) (s : State) :
    (s.setFault level).lines = { s.lines with fault := level } := rfl
@[simp] theorem State.setFault_port (level : Bool) (s : State) : (s.setFault level).port = s.port := rfl
@[simp] theorem State.setFault_timing (level : Bool) (s : State) : (s.setFault level).timing = s.timing := rfl
@[simp] theorem State.setFault_regions (level : Bool) (s : State) : (s.setFault level).regions = s.regions := rfl
@[simp] theorem State.setFault_ladders (level : Bool) (s : State) : (s.setFault level).ladders = s.ladders := rfl
@[simp] theorem State.setFault_map (level : Bool) (s : State) : (s.setFault level).map = s.map := rfl
@[simp] theorem State.setFault_posts (level : Bool) (s : State) : (s.setFault level).posts = s.posts := rfl
@[simp] theorem State.setFault_buffers (level : Bool) (s : State) : (s.setFault level).buffers = s.buffers := rfl
@[simp] theorem State.setFault_drive (level : Bool) (s : State) : (s.setFault level).drive = s.drive := rfl
@[simp] theorem State.setFault_timer (level : Bool) (s : State) : (s.setFault level).timer = s.timer := rfl
@[simp] theorem State.setFault_engine (level : Bool) (s : State) : (s.setFault level).engine = s.engine := rfl
@[simp] theorem State.setFault_results (level : Bool) (s : State) : (s.setFault level).results = s.results := rfl
@[simp] theorem State.setFault_events (level : Bool) (s : State) : (s.setFault level).events = s.events := rfl
@[simp] theorem State.setFault_pack (level : Bool) (s : State) : (s.setFault level).pack = s.pack := rfl
@[simp] theorem State.setFault_ci (level : Bool) (s : State) : (s.setFault level).ci = s.ci := rfl
@[simp] theorem State.setFault_completions (level : Bool) (s : State) :
    (s.setFault level).completions = s.completions := rfl
@[simp] theorem State.setFault_driveLog (level : Bool) (s : State) : (s.setFault level).driveLog = s.driveLog := rfl
@[simp] theorem State.setFault_pending (level : Bool) (s : State) : (s.setFault level).pending = s.pending := rfl

/-! ## setEvent -/

@[simp] theorem State.setEvent_now (e : Event) (s : State) : (s.setEvent e).now = s.now := rfl
@[simp] theorem State.setEvent_geom (e : Event) (s : State) : (s.setEvent e).geom = s.geom := rfl
@[simp] theorem State.setEvent_lines (e : Event) (s : State) : (s.setEvent e).lines = s.lines := rfl
@[simp] theorem State.setEvent_port (e : Event) (s : State) : (s.setEvent e).port = s.port := rfl
@[simp] theorem State.setEvent_timing (e : Event) (s : State) : (s.setEvent e).timing = s.timing := rfl
@[simp] theorem State.setEvent_regions (e : Event) (s : State) : (s.setEvent e).regions = s.regions := rfl
@[simp] theorem State.setEvent_ladders (e : Event) (s : State) : (s.setEvent e).ladders = s.ladders := rfl
@[simp] theorem State.setEvent_map (e : Event) (s : State) : (s.setEvent e).map = s.map := rfl
@[simp] theorem State.setEvent_posts (e : Event) (s : State) : (s.setEvent e).posts = s.posts := rfl
@[simp] theorem State.setEvent_buffers (e : Event) (s : State) : (s.setEvent e).buffers = s.buffers := rfl
@[simp] theorem State.setEvent_drive (e : Event) (s : State) : (s.setEvent e).drive = s.drive := rfl
@[simp] theorem State.setEvent_timer (e : Event) (s : State) : (s.setEvent e).timer = s.timer := rfl
@[simp] theorem State.setEvent_engine (e : Event) (s : State) : (s.setEvent e).engine = s.engine := rfl
@[simp] theorem State.setEvent_results (e : Event) (s : State) : (s.setEvent e).results = s.results := rfl
@[simp] theorem State.setEvent_events (e : Event) (s : State) : (s.setEvent e).events = withEvent e s.events := rfl
@[simp] theorem State.setEvent_pack (e : Event) (s : State) : (s.setEvent e).pack = s.pack := rfl
@[simp] theorem State.setEvent_ci (e : Event) (s : State) : (s.setEvent e).ci = s.ci := rfl
@[simp] theorem State.setEvent_completions (e : Event) (s : State) : (s.setEvent e).completions = s.completions := rfl
@[simp] theorem State.setEvent_driveLog (e : Event) (s : State) : (s.setEvent e).driveLog = s.driveLog := rfl
@[simp] theorem State.setEvent_pending (e : Event) (s : State) : (s.setEvent e).pending = s.pending := rfl

/-! ## removeEntry -/

@[simp] theorem State.removeEntry_now (a : Addr) (s : State) : (s.removeEntry a).now = s.now := rfl
@[simp] theorem State.removeEntry_geom (a : Addr) (s : State) : (s.removeEntry a).geom = s.geom := rfl
@[simp] theorem State.removeEntry_lines (a : Addr) (s : State) : (s.removeEntry a).lines = s.lines := rfl
@[simp] theorem State.removeEntry_port (a : Addr) (s : State) : (s.removeEntry a).port = s.port := rfl
@[simp] theorem State.removeEntry_timing (a : Addr) (s : State) : (s.removeEntry a).timing = s.timing := rfl
@[simp] theorem State.removeEntry_regions (a : Addr) (s : State) : (s.removeEntry a).regions = s.regions := rfl
@[simp] theorem State.removeEntry_ladders (a : Addr) (s : State) : (s.removeEntry a).ladders = s.ladders := rfl
@[simp] theorem State.removeEntry_map (a : Addr) (s : State) :
    (s.removeEntry a).map = { s.map with entries := s.map.entries.filter (fun e => e.addr != a) } := rfl
@[simp] theorem State.removeEntry_posts (a : Addr) (s : State) : (s.removeEntry a).posts = s.posts := rfl
@[simp] theorem State.removeEntry_buffers (a : Addr) (s : State) : (s.removeEntry a).buffers = s.buffers := rfl
@[simp] theorem State.removeEntry_drive (a : Addr) (s : State) : (s.removeEntry a).drive = s.drive := rfl
@[simp] theorem State.removeEntry_timer (a : Addr) (s : State) : (s.removeEntry a).timer = s.timer := rfl
@[simp] theorem State.removeEntry_engine (a : Addr) (s : State) : (s.removeEntry a).engine = s.engine := rfl
@[simp] theorem State.removeEntry_results (a : Addr) (s : State) : (s.removeEntry a).results = s.results := rfl
@[simp] theorem State.removeEntry_events (a : Addr) (s : State) : (s.removeEntry a).events = s.events := rfl
@[simp] theorem State.removeEntry_pack (a : Addr) (s : State) : (s.removeEntry a).pack = s.pack := rfl
@[simp] theorem State.removeEntry_ci (a : Addr) (s : State) : (s.removeEntry a).ci = s.ci := rfl
@[simp] theorem State.removeEntry_completions (a : Addr) (s : State) :
    (s.removeEntry a).completions = s.completions := rfl
@[simp] theorem State.removeEntry_driveLog (a : Addr) (s : State) : (s.removeEntry a).driveLog = s.driveLog := rfl
@[simp] theorem State.removeEntry_pending (a : Addr) (s : State) : (s.removeEntry a).pending = s.pending := rfl

/-! ## removeTrackEntries -/

@[simp] theorem State.removeTrackEntries_now (t : Track) (s : State) : (s.removeTrackEntries t).now = s.now := rfl
@[simp] theorem State.removeTrackEntries_geom (t : Track) (s : State) : (s.removeTrackEntries t).geom = s.geom := rfl
@[simp] theorem State.removeTrackEntries_lines (t : Track) (s : State) : (s.removeTrackEntries t).lines = s.lines := rfl
@[simp] theorem State.removeTrackEntries_port (t : Track) (s : State) : (s.removeTrackEntries t).port = s.port := rfl
@[simp] theorem State.removeTrackEntries_timing (t : Track) (s : State) :
    (s.removeTrackEntries t).timing = s.timing := rfl
@[simp] theorem State.removeTrackEntries_regions (t : Track) (s : State) :
    (s.removeTrackEntries t).regions = s.regions := rfl
@[simp] theorem State.removeTrackEntries_ladders (t : Track) (s : State) :
    (s.removeTrackEntries t).ladders = s.ladders := rfl
@[simp] theorem State.removeTrackEntries_map (t : Track) (s : State) :
    (s.removeTrackEntries t).map = { s.map with entries := s.map.entries.filter (fun e => e.addr.track != t) } := rfl
@[simp] theorem State.removeTrackEntries_posts (t : Track) (s : State) : (s.removeTrackEntries t).posts = s.posts := rfl
@[simp] theorem State.removeTrackEntries_buffers (t : Track) (s : State) :
    (s.removeTrackEntries t).buffers = s.buffers := rfl
@[simp] theorem State.removeTrackEntries_drive (t : Track) (s : State) : (s.removeTrackEntries t).drive = s.drive := rfl
@[simp] theorem State.removeTrackEntries_timer (t : Track) (s : State) : (s.removeTrackEntries t).timer = s.timer := rfl
@[simp] theorem State.removeTrackEntries_engine (t : Track) (s : State) :
    (s.removeTrackEntries t).engine = s.engine := rfl
@[simp] theorem State.removeTrackEntries_results (t : Track) (s : State) :
    (s.removeTrackEntries t).results = s.results := rfl
@[simp] theorem State.removeTrackEntries_events (t : Track) (s : State) :
    (s.removeTrackEntries t).events = s.events := rfl
@[simp] theorem State.removeTrackEntries_pack (t : Track) (s : State) : (s.removeTrackEntries t).pack = s.pack := rfl
@[simp] theorem State.removeTrackEntries_ci (t : Track) (s : State) : (s.removeTrackEntries t).ci = s.ci := rfl
@[simp] theorem State.removeTrackEntries_completions (t : Track) (s : State) :
    (s.removeTrackEntries t).completions = s.completions := rfl
@[simp] theorem State.removeTrackEntries_driveLog (t : Track) (s : State) :
    (s.removeTrackEntries t).driveLog = s.driveLog := rfl
@[simp] theorem State.removeTrackEntries_pending (t : Track) (s : State) :
    (s.removeTrackEntries t).pending = s.pending := rfl

/-! ## clearEntries -/

@[simp] theorem State.clearEntries_now (s : State) : s.clearEntries.now = s.now := rfl
@[simp] theorem State.clearEntries_geom (s : State) : s.clearEntries.geom = s.geom := rfl
@[simp] theorem State.clearEntries_lines (s : State) : s.clearEntries.lines = s.lines := rfl
@[simp] theorem State.clearEntries_port (s : State) : s.clearEntries.port = s.port := rfl
@[simp] theorem State.clearEntries_timing (s : State) : s.clearEntries.timing = s.timing := rfl
@[simp] theorem State.clearEntries_regions (s : State) : s.clearEntries.regions = s.regions := rfl
@[simp] theorem State.clearEntries_ladders (s : State) : s.clearEntries.ladders = s.ladders := rfl
@[simp] theorem State.clearEntries_map (s : State) : s.clearEntries.map = { s.map with entries := [] } := rfl
@[simp] theorem State.clearEntries_posts (s : State) : s.clearEntries.posts = s.posts := rfl
@[simp] theorem State.clearEntries_buffers (s : State) : s.clearEntries.buffers = s.buffers := rfl
@[simp] theorem State.clearEntries_drive (s : State) : s.clearEntries.drive = s.drive := rfl
@[simp] theorem State.clearEntries_timer (s : State) : s.clearEntries.timer = s.timer := rfl
@[simp] theorem State.clearEntries_engine (s : State) : s.clearEntries.engine = s.engine := rfl
@[simp] theorem State.clearEntries_results (s : State) : s.clearEntries.results = s.results := rfl
@[simp] theorem State.clearEntries_events (s : State) : s.clearEntries.events = s.events := rfl
@[simp] theorem State.clearEntries_pack (s : State) : s.clearEntries.pack = s.pack := rfl
@[simp] theorem State.clearEntries_ci (s : State) : s.clearEntries.ci = s.ci := rfl
@[simp] theorem State.clearEntries_completions (s : State) : s.clearEntries.completions = s.completions := rfl
@[simp] theorem State.clearEntries_driveLog (s : State) : s.clearEntries.driveLog = s.driveLog := rfl
@[simp] theorem State.clearEntries_pending (s : State) : s.clearEntries.pending = s.pending := rfl

/-! ## putEntry -/

@[simp] theorem State.putEntry_now (a : Addr) (o : Origin) (ws : List Word) (slot : Nat) (s : State) :
    (s.putEntry a o ws slot).now = s.now := rfl
@[simp] theorem State.putEntry_geom (a : Addr) (o : Origin) (ws : List Word) (slot : Nat) (s : State) :
    (s.putEntry a o ws slot).geom = s.geom := rfl
@[simp] theorem State.putEntry_lines (a : Addr) (o : Origin) (ws : List Word) (slot : Nat) (s : State) :
    (s.putEntry a o ws slot).lines = s.lines := rfl
@[simp] theorem State.putEntry_port (a : Addr) (o : Origin) (ws : List Word) (slot : Nat) (s : State) :
    (s.putEntry a o ws slot).port = s.port := rfl
@[simp] theorem State.putEntry_timing (a : Addr) (o : Origin) (ws : List Word) (slot : Nat) (s : State) :
    (s.putEntry a o ws slot).timing = s.timing := rfl
@[simp] theorem State.putEntry_regions (a : Addr) (o : Origin) (ws : List Word) (slot : Nat) (s : State) :
    (s.putEntry a o ws slot).regions = s.regions := rfl
@[simp] theorem State.putEntry_ladders (a : Addr) (o : Origin) (ws : List Word) (slot : Nat) (s : State) :
    (s.putEntry a o ws slot).ladders = s.ladders := rfl
@[simp] theorem State.putEntry_map (a : Addr) (o : Origin) (ws : List Word) (slot : Nat) (s : State) :
    (s.putEntry a o ws slot).map = { entries := insertEntry { addr := a, origin := o, epoch := s.pack.epoch, slot := slot } s.map.entries, store := tablePut slot { words := ws, check := crc ws } s.map.store } := rfl
@[simp] theorem State.putEntry_posts (a : Addr) (o : Origin) (ws : List Word) (slot : Nat) (s : State) :
    (s.putEntry a o ws slot).posts = s.posts := rfl
@[simp] theorem State.putEntry_buffers (a : Addr) (o : Origin) (ws : List Word) (slot : Nat) (s : State) :
    (s.putEntry a o ws slot).buffers = s.buffers := rfl
@[simp] theorem State.putEntry_drive (a : Addr) (o : Origin) (ws : List Word) (slot : Nat) (s : State) :
    (s.putEntry a o ws slot).drive = s.drive := rfl
@[simp] theorem State.putEntry_timer (a : Addr) (o : Origin) (ws : List Word) (slot : Nat) (s : State) :
    (s.putEntry a o ws slot).timer = s.timer := rfl
@[simp] theorem State.putEntry_engine (a : Addr) (o : Origin) (ws : List Word) (slot : Nat) (s : State) :
    (s.putEntry a o ws slot).engine = s.engine := rfl
@[simp] theorem State.putEntry_results (a : Addr) (o : Origin) (ws : List Word) (slot : Nat) (s : State) :
    (s.putEntry a o ws slot).results = s.results := rfl
@[simp] theorem State.putEntry_events (a : Addr) (o : Origin) (ws : List Word) (slot : Nat) (s : State) :
    (s.putEntry a o ws slot).events = s.events := rfl
@[simp] theorem State.putEntry_pack (a : Addr) (o : Origin) (ws : List Word) (slot : Nat) (s : State) :
    (s.putEntry a o ws slot).pack = s.pack := rfl
@[simp] theorem State.putEntry_ci (a : Addr) (o : Origin) (ws : List Word) (slot : Nat) (s : State) :
    (s.putEntry a o ws slot).ci = s.ci := rfl
@[simp] theorem State.putEntry_completions (a : Addr) (o : Origin) (ws : List Word) (slot : Nat) (s : State) :
    (s.putEntry a o ws slot).completions = s.completions := rfl
@[simp] theorem State.putEntry_driveLog (a : Addr) (o : Origin) (ws : List Word) (slot : Nat) (s : State) :
    (s.putEntry a o ws slot).driveLog = s.driveLog := rfl
@[simp] theorem State.putEntry_pending (a : Addr) (o : Origin) (ws : List Word) (slot : Nat) (s : State) :
    (s.putEntry a o ws slot).pending = s.pending := rfl

/-! ## withPosts -/

@[simp] theorem State.withPosts_now (l : List PostEntry) (s : State) : (s.withPosts l).now = s.now := rfl
@[simp] theorem State.withPosts_geom (l : List PostEntry) (s : State) : (s.withPosts l).geom = s.geom := rfl
@[simp] theorem State.withPosts_lines (l : List PostEntry) (s : State) : (s.withPosts l).lines = s.lines := rfl
@[simp] theorem State.withPosts_port (l : List PostEntry) (s : State) : (s.withPosts l).port = s.port := rfl
@[simp] theorem State.withPosts_timing (l : List PostEntry) (s : State) : (s.withPosts l).timing = s.timing := rfl
@[simp] theorem State.withPosts_regions (l : List PostEntry) (s : State) : (s.withPosts l).regions = s.regions := rfl
@[simp] theorem State.withPosts_ladders (l : List PostEntry) (s : State) : (s.withPosts l).ladders = s.ladders := rfl
@[simp] theorem State.withPosts_map (l : List PostEntry) (s : State) : (s.withPosts l).map = s.map := rfl
@[simp] theorem State.withPosts_posts (l : List PostEntry) (s : State) :
    (s.withPosts l).posts = { s.posts with entries := l } := rfl
@[simp] theorem State.withPosts_buffers (l : List PostEntry) (s : State) : (s.withPosts l).buffers = s.buffers := rfl
@[simp] theorem State.withPosts_drive (l : List PostEntry) (s : State) : (s.withPosts l).drive = s.drive := rfl
@[simp] theorem State.withPosts_timer (l : List PostEntry) (s : State) : (s.withPosts l).timer = s.timer := rfl
@[simp] theorem State.withPosts_engine (l : List PostEntry) (s : State) : (s.withPosts l).engine = s.engine := rfl
@[simp] theorem State.withPosts_results (l : List PostEntry) (s : State) : (s.withPosts l).results = s.results := rfl
@[simp] theorem State.withPosts_events (l : List PostEntry) (s : State) : (s.withPosts l).events = s.events := rfl
@[simp] theorem State.withPosts_pack (l : List PostEntry) (s : State) : (s.withPosts l).pack = s.pack := rfl
@[simp] theorem State.withPosts_ci (l : List PostEntry) (s : State) : (s.withPosts l).ci = s.ci := rfl
@[simp] theorem State.withPosts_completions (l : List PostEntry) (s : State) :
    (s.withPosts l).completions = s.completions := rfl
@[simp] theorem State.withPosts_driveLog (l : List PostEntry) (s : State) : (s.withPosts l).driveLog = s.driveLog := rfl
@[simp] theorem State.withPosts_pending (l : List PostEntry) (s : State) : (s.withPosts l).pending = s.pending := rfl

/-! ## renewFlush -/

@[simp] theorem State.renewFlush_now (s : State) : s.renewFlush.now = s.now := rfl
@[simp] theorem State.renewFlush_geom (s : State) : s.renewFlush.geom = s.geom := rfl
@[simp] theorem State.renewFlush_lines (s : State) : s.renewFlush.lines = s.lines := rfl
@[simp] theorem State.renewFlush_port (s : State) : s.renewFlush.port = s.port := rfl
@[simp] theorem State.renewFlush_timing (s : State) : s.renewFlush.timing = s.timing := rfl
@[simp] theorem State.renewFlush_regions (s : State) : s.renewFlush.regions = s.regions := rfl
@[simp] theorem State.renewFlush_ladders (s : State) : s.renewFlush.ladders = s.ladders := rfl
@[simp] theorem State.renewFlush_map (s : State) : s.renewFlush.map = s.map := rfl
@[simp] theorem State.renewFlush_posts (s : State) : s.renewFlush.posts = { s.posts with heldForPermit := false } := rfl
@[simp] theorem State.renewFlush_buffers (s : State) : s.renewFlush.buffers = s.buffers := rfl
@[simp] theorem State.renewFlush_drive (s : State) : s.renewFlush.drive = s.drive := rfl
@[simp] theorem State.renewFlush_timer (s : State) : s.renewFlush.timer = s.timer := rfl
@[simp] theorem State.renewFlush_engine (s : State) : s.renewFlush.engine = s.engine := rfl
@[simp] theorem State.renewFlush_results (s : State) : s.renewFlush.results = s.results := rfl
@[simp] theorem State.renewFlush_events (s : State) : s.renewFlush.events = s.events := rfl
@[simp] theorem State.renewFlush_pack (s : State) : s.renewFlush.pack = s.pack := rfl
@[simp] theorem State.renewFlush_ci (s : State) : s.renewFlush.ci = s.ci := rfl
@[simp] theorem State.renewFlush_completions (s : State) : s.renewFlush.completions = s.completions := rfl
@[simp] theorem State.renewFlush_driveLog (s : State) : s.renewFlush.driveLog = s.driveLog := rfl
@[simp] theorem State.renewFlush_pending (s : State) : s.renewFlush.pending = s.pending := rfl

/-! ## useBuffer -/

@[simp] theorem State.useBuffer_now (i : Nat) (s : State) : (s.useBuffer i).now = s.now := rfl
@[simp] theorem State.useBuffer_geom (i : Nat) (s : State) : (s.useBuffer i).geom = s.geom := rfl
@[simp] theorem State.useBuffer_lines (i : Nat) (s : State) : (s.useBuffer i).lines = s.lines := rfl
@[simp] theorem State.useBuffer_port (i : Nat) (s : State) : (s.useBuffer i).port = s.port := rfl
@[simp] theorem State.useBuffer_timing (i : Nat) (s : State) : (s.useBuffer i).timing = s.timing := rfl
@[simp] theorem State.useBuffer_regions (i : Nat) (s : State) : (s.useBuffer i).regions = s.regions := rfl
@[simp] theorem State.useBuffer_ladders (i : Nat) (s : State) : (s.useBuffer i).ladders = s.ladders := rfl
@[simp] theorem State.useBuffer_map (i : Nat) (s : State) : (s.useBuffer i).map = s.map := rfl
@[simp] theorem State.useBuffer_posts (i : Nat) (s : State) : (s.useBuffer i).posts = s.posts := rfl
@[simp] theorem State.useBuffer_buffers (i : Nat) (s : State) :
    (s.useBuffer i).buffers = { s.buffers with order := i :: s.buffers.order.filter (fun j => j != i) } := rfl
@[simp] theorem State.useBuffer_drive (i : Nat) (s : State) : (s.useBuffer i).drive = s.drive := rfl
@[simp] theorem State.useBuffer_timer (i : Nat) (s : State) : (s.useBuffer i).timer = s.timer := rfl
@[simp] theorem State.useBuffer_engine (i : Nat) (s : State) : (s.useBuffer i).engine = s.engine := rfl
@[simp] theorem State.useBuffer_results (i : Nat) (s : State) : (s.useBuffer i).results = s.results := rfl
@[simp] theorem State.useBuffer_events (i : Nat) (s : State) : (s.useBuffer i).events = s.events := rfl
@[simp] theorem State.useBuffer_pack (i : Nat) (s : State) : (s.useBuffer i).pack = s.pack := rfl
@[simp] theorem State.useBuffer_ci (i : Nat) (s : State) : (s.useBuffer i).ci = s.ci := rfl
@[simp] theorem State.useBuffer_completions (i : Nat) (s : State) : (s.useBuffer i).completions = s.completions := rfl
@[simp] theorem State.useBuffer_driveLog (i : Nat) (s : State) : (s.useBuffer i).driveLog = s.driveLog := rfl
@[simp] theorem State.useBuffer_pending (i : Nat) (s : State) : (s.useBuffer i).pending = s.pending := rfl

/-! ## setBuffer -/

@[simp] theorem State.setBuffer_now (i : Nat) (b : TrackBuffer) (s : State) : (s.setBuffer i b).now = s.now := rfl
@[simp] theorem State.setBuffer_geom (i : Nat) (b : TrackBuffer) (s : State) : (s.setBuffer i b).geom = s.geom := rfl
@[simp] theorem State.setBuffer_lines (i : Nat) (b : TrackBuffer) (s : State) : (s.setBuffer i b).lines = s.lines := rfl
@[simp] theorem State.setBuffer_port (i : Nat) (b : TrackBuffer) (s : State) : (s.setBuffer i b).port = s.port := rfl
@[simp] theorem State.setBuffer_timing (i : Nat) (b : TrackBuffer) (s : State) :
    (s.setBuffer i b).timing = s.timing := rfl
@[simp] theorem State.setBuffer_regions (i : Nat) (b : TrackBuffer) (s : State) :
    (s.setBuffer i b).regions = s.regions := rfl
@[simp] theorem State.setBuffer_ladders (i : Nat) (b : TrackBuffer) (s : State) :
    (s.setBuffer i b).ladders = s.ladders := rfl
@[simp] theorem State.setBuffer_map (i : Nat) (b : TrackBuffer) (s : State) : (s.setBuffer i b).map = s.map := rfl
@[simp] theorem State.setBuffer_posts (i : Nat) (b : TrackBuffer) (s : State) : (s.setBuffer i b).posts = s.posts := rfl
@[simp] theorem State.setBuffer_buffers (i : Nat) (b : TrackBuffer) (s : State) :
    (s.setBuffer i b).buffers = { s.buffers with slots := s.buffers.slots.set i b } := rfl
@[simp] theorem State.setBuffer_drive (i : Nat) (b : TrackBuffer) (s : State) : (s.setBuffer i b).drive = s.drive := rfl
@[simp] theorem State.setBuffer_timer (i : Nat) (b : TrackBuffer) (s : State) : (s.setBuffer i b).timer = s.timer := rfl
@[simp] theorem State.setBuffer_engine (i : Nat) (b : TrackBuffer) (s : State) :
    (s.setBuffer i b).engine = s.engine := rfl
@[simp] theorem State.setBuffer_results (i : Nat) (b : TrackBuffer) (s : State) :
    (s.setBuffer i b).results = s.results := rfl
@[simp] theorem State.setBuffer_events (i : Nat) (b : TrackBuffer) (s : State) :
    (s.setBuffer i b).events = s.events := rfl
@[simp] theorem State.setBuffer_pack (i : Nat) (b : TrackBuffer) (s : State) : (s.setBuffer i b).pack = s.pack := rfl
@[simp] theorem State.setBuffer_ci (i : Nat) (b : TrackBuffer) (s : State) : (s.setBuffer i b).ci = s.ci := rfl
@[simp] theorem State.setBuffer_completions (i : Nat) (b : TrackBuffer) (s : State) :
    (s.setBuffer i b).completions = s.completions := rfl
@[simp] theorem State.setBuffer_driveLog (i : Nat) (b : TrackBuffer) (s : State) :
    (s.setBuffer i b).driveLog = s.driveLog := rfl
@[simp] theorem State.setBuffer_pending (i : Nat) (b : TrackBuffer) (s : State) :
    (s.setBuffer i b).pending = s.pending := rfl

/-! ## invalidateSector -/

@[simp] theorem State.invalidateSector_now (a : Addr) (s : State) : (s.invalidateSector a).now = s.now := rfl
@[simp] theorem State.invalidateSector_geom (a : Addr) (s : State) : (s.invalidateSector a).geom = s.geom := rfl
@[simp] theorem State.invalidateSector_lines (a : Addr) (s : State) : (s.invalidateSector a).lines = s.lines := rfl
@[simp] theorem State.invalidateSector_port (a : Addr) (s : State) : (s.invalidateSector a).port = s.port := rfl
@[simp] theorem State.invalidateSector_timing (a : Addr) (s : State) : (s.invalidateSector a).timing = s.timing := rfl
@[simp] theorem State.invalidateSector_regions (a : Addr) (s : State) :
    (s.invalidateSector a).regions = s.regions := rfl
@[simp] theorem State.invalidateSector_ladders (a : Addr) (s : State) :
    (s.invalidateSector a).ladders = s.ladders := rfl
@[simp] theorem State.invalidateSector_map (a : Addr) (s : State) : (s.invalidateSector a).map = s.map := rfl
@[simp] theorem State.invalidateSector_posts (a : Addr) (s : State) : (s.invalidateSector a).posts = s.posts := rfl
@[simp] theorem State.invalidateSector_buffers (a : Addr) (s : State) :
    (s.invalidateSector a).buffers = { s.buffers with slots := s.buffers.slots.map (TrackBuffer.invalidate a) } := rfl
@[simp] theorem State.invalidateSector_drive (a : Addr) (s : State) : (s.invalidateSector a).drive = s.drive := rfl
@[simp] theorem State.invalidateSector_timer (a : Addr) (s : State) : (s.invalidateSector a).timer = s.timer := rfl
@[simp] theorem State.invalidateSector_engine (a : Addr) (s : State) : (s.invalidateSector a).engine = s.engine := rfl
@[simp] theorem State.invalidateSector_results (a : Addr) (s : State) :
    (s.invalidateSector a).results = s.results := rfl
@[simp] theorem State.invalidateSector_events (a : Addr) (s : State) : (s.invalidateSector a).events = s.events := rfl
@[simp] theorem State.invalidateSector_pack (a : Addr) (s : State) : (s.invalidateSector a).pack = s.pack := rfl
@[simp] theorem State.invalidateSector_ci (a : Addr) (s : State) : (s.invalidateSector a).ci = s.ci := rfl
@[simp] theorem State.invalidateSector_completions (a : Addr) (s : State) :
    (s.invalidateSector a).completions = s.completions := rfl
@[simp] theorem State.invalidateSector_driveLog (a : Addr) (s : State) :
    (s.invalidateSector a).driveLog = s.driveLog := rfl
@[simp] theorem State.invalidateSector_pending (a : Addr) (s : State) :
    (s.invalidateSector a).pending = s.pending := rfl

/-! ## emptyBuffers -/

@[simp] theorem State.emptyBuffers_now (s : State) : s.emptyBuffers.now = s.now := rfl
@[simp] theorem State.emptyBuffers_geom (s : State) : s.emptyBuffers.geom = s.geom := rfl
@[simp] theorem State.emptyBuffers_lines (s : State) : s.emptyBuffers.lines = s.lines := rfl
@[simp] theorem State.emptyBuffers_port (s : State) : s.emptyBuffers.port = s.port := rfl
@[simp] theorem State.emptyBuffers_timing (s : State) : s.emptyBuffers.timing = s.timing := rfl
@[simp] theorem State.emptyBuffers_regions (s : State) : s.emptyBuffers.regions = s.regions := rfl
@[simp] theorem State.emptyBuffers_ladders (s : State) : s.emptyBuffers.ladders = s.ladders := rfl
@[simp] theorem State.emptyBuffers_map (s : State) : s.emptyBuffers.map = s.map := rfl
@[simp] theorem State.emptyBuffers_posts (s : State) : s.emptyBuffers.posts = s.posts := rfl
@[simp] theorem State.emptyBuffers_buffers (s : State) :
    s.emptyBuffers.buffers = { s.buffers with slots := s.buffers.slots.map (fun _ => { track := none, good := [] }) } := rfl
@[simp] theorem State.emptyBuffers_drive (s : State) : s.emptyBuffers.drive = s.drive := rfl
@[simp] theorem State.emptyBuffers_timer (s : State) : s.emptyBuffers.timer = s.timer := rfl
@[simp] theorem State.emptyBuffers_engine (s : State) : s.emptyBuffers.engine = s.engine := rfl
@[simp] theorem State.emptyBuffers_results (s : State) : s.emptyBuffers.results = s.results := rfl
@[simp] theorem State.emptyBuffers_events (s : State) : s.emptyBuffers.events = s.events := rfl
@[simp] theorem State.emptyBuffers_pack (s : State) : s.emptyBuffers.pack = s.pack := rfl
@[simp] theorem State.emptyBuffers_ci (s : State) : s.emptyBuffers.ci = s.ci := rfl
@[simp] theorem State.emptyBuffers_completions (s : State) : s.emptyBuffers.completions = s.completions := rfl
@[simp] theorem State.emptyBuffers_driveLog (s : State) : s.emptyBuffers.driveLog = s.driveLog := rfl
@[simp] theorem State.emptyBuffers_pending (s : State) : s.emptyBuffers.pending = s.pending := rfl

/-! ## withEngine -/

@[simp] theorem State.withEngine_now (f : Engine → Engine) (s : State) : (s.withEngine f).now = s.now := rfl
@[simp] theorem State.withEngine_geom (f : Engine → Engine) (s : State) : (s.withEngine f).geom = s.geom := rfl
@[simp] theorem State.withEngine_lines (f : Engine → Engine) (s : State) : (s.withEngine f).lines = s.lines := rfl
@[simp] theorem State.withEngine_port (f : Engine → Engine) (s : State) : (s.withEngine f).port = s.port := rfl
@[simp] theorem State.withEngine_timing (f : Engine → Engine) (s : State) : (s.withEngine f).timing = s.timing := rfl
@[simp] theorem State.withEngine_regions (f : Engine → Engine) (s : State) : (s.withEngine f).regions = s.regions := rfl
@[simp] theorem State.withEngine_ladders (f : Engine → Engine) (s : State) : (s.withEngine f).ladders = s.ladders := rfl
@[simp] theorem State.withEngine_map (f : Engine → Engine) (s : State) : (s.withEngine f).map = s.map := rfl
@[simp] theorem State.withEngine_posts (f : Engine → Engine) (s : State) : (s.withEngine f).posts = s.posts := rfl
@[simp] theorem State.withEngine_buffers (f : Engine → Engine) (s : State) : (s.withEngine f).buffers = s.buffers := rfl
@[simp] theorem State.withEngine_drive (f : Engine → Engine) (s : State) : (s.withEngine f).drive = s.drive := rfl
@[simp] theorem State.withEngine_timer (f : Engine → Engine) (s : State) : (s.withEngine f).timer = s.timer := rfl
@[simp] theorem State.withEngine_engine (f : Engine → Engine) (s : State) : (s.withEngine f).engine = f s.engine := rfl
@[simp] theorem State.withEngine_results (f : Engine → Engine) (s : State) : (s.withEngine f).results = s.results := rfl
@[simp] theorem State.withEngine_events (f : Engine → Engine) (s : State) : (s.withEngine f).events = s.events := rfl
@[simp] theorem State.withEngine_pack (f : Engine → Engine) (s : State) : (s.withEngine f).pack = s.pack := rfl
@[simp] theorem State.withEngine_ci (f : Engine → Engine) (s : State) : (s.withEngine f).ci = s.ci := rfl
@[simp] theorem State.withEngine_completions (f : Engine → Engine) (s : State) :
    (s.withEngine f).completions = s.completions := rfl
@[simp] theorem State.withEngine_driveLog (f : Engine → Engine) (s : State) :
    (s.withEngine f).driveLog = s.driveLog := rfl
@[simp] theorem State.withEngine_pending (f : Engine → Engine) (s : State) : (s.withEngine f).pending = s.pending := rfl

/-! ## setRecoveryRequest -/

@[simp] theorem State.setRecoveryRequest_now (b : Bool) (s : State) : (s.setRecoveryRequest b).now = s.now := rfl
@[simp] theorem State.setRecoveryRequest_geom (b : Bool) (s : State) : (s.setRecoveryRequest b).geom = s.geom := rfl
@[simp] theorem State.setRecoveryRequest_lines (b : Bool) (s : State) : (s.setRecoveryRequest b).lines = s.lines := rfl
@[simp] theorem State.setRecoveryRequest_port (b : Bool) (s : State) : (s.setRecoveryRequest b).port = s.port := rfl
@[simp] theorem State.setRecoveryRequest_timing (b : Bool) (s : State) :
    (s.setRecoveryRequest b).timing = s.timing := rfl
@[simp] theorem State.setRecoveryRequest_regions (b : Bool) (s : State) :
    (s.setRecoveryRequest b).regions = s.regions := rfl
@[simp] theorem State.setRecoveryRequest_ladders (b : Bool) (s : State) :
    (s.setRecoveryRequest b).ladders = s.ladders := rfl
@[simp] theorem State.setRecoveryRequest_map (b : Bool) (s : State) : (s.setRecoveryRequest b).map = s.map := rfl
@[simp] theorem State.setRecoveryRequest_posts (b : Bool) (s : State) : (s.setRecoveryRequest b).posts = s.posts := rfl
@[simp] theorem State.setRecoveryRequest_buffers (b : Bool) (s : State) :
    (s.setRecoveryRequest b).buffers = s.buffers := rfl
@[simp] theorem State.setRecoveryRequest_drive (b : Bool) (s : State) :
    (s.setRecoveryRequest b).drive = { s.drive with recoveryRequest := b } := rfl
@[simp] theorem State.setRecoveryRequest_timer (b : Bool) (s : State) : (s.setRecoveryRequest b).timer = s.timer := rfl
@[simp] theorem State.setRecoveryRequest_engine (b : Bool) (s : State) :
    (s.setRecoveryRequest b).engine = s.engine := rfl
@[simp] theorem State.setRecoveryRequest_results (b : Bool) (s : State) :
    (s.setRecoveryRequest b).results = s.results := rfl
@[simp] theorem State.setRecoveryRequest_events (b : Bool) (s : State) :
    (s.setRecoveryRequest b).events = s.events := rfl
@[simp] theorem State.setRecoveryRequest_pack (b : Bool) (s : State) : (s.setRecoveryRequest b).pack = s.pack := rfl
@[simp] theorem State.setRecoveryRequest_ci (b : Bool) (s : State) : (s.setRecoveryRequest b).ci = s.ci := rfl
@[simp] theorem State.setRecoveryRequest_completions (b : Bool) (s : State) :
    (s.setRecoveryRequest b).completions = s.completions := rfl
@[simp] theorem State.setRecoveryRequest_driveLog (b : Bool) (s : State) :
    (s.setRecoveryRequest b).driveLog = s.driveLog := rfl
@[simp] theorem State.setRecoveryRequest_pending (b : Bool) (s : State) :
    (s.setRecoveryRequest b).pending = s.pending := rfl

/-! ## withPack -/

@[simp] theorem State.withPack_now (f : Pack → Pack) (s : State) : (s.withPack f).now = s.now := rfl
@[simp] theorem State.withPack_geom (f : Pack → Pack) (s : State) : (s.withPack f).geom = s.geom := rfl
@[simp] theorem State.withPack_lines (f : Pack → Pack) (s : State) : (s.withPack f).lines = s.lines := rfl
@[simp] theorem State.withPack_port (f : Pack → Pack) (s : State) : (s.withPack f).port = s.port := rfl
@[simp] theorem State.withPack_timing (f : Pack → Pack) (s : State) : (s.withPack f).timing = s.timing := rfl
@[simp] theorem State.withPack_regions (f : Pack → Pack) (s : State) : (s.withPack f).regions = s.regions := rfl
@[simp] theorem State.withPack_ladders (f : Pack → Pack) (s : State) : (s.withPack f).ladders = s.ladders := rfl
@[simp] theorem State.withPack_map (f : Pack → Pack) (s : State) : (s.withPack f).map = s.map := rfl
@[simp] theorem State.withPack_posts (f : Pack → Pack) (s : State) : (s.withPack f).posts = s.posts := rfl
@[simp] theorem State.withPack_buffers (f : Pack → Pack) (s : State) : (s.withPack f).buffers = s.buffers := rfl
@[simp] theorem State.withPack_drive (f : Pack → Pack) (s : State) : (s.withPack f).drive = s.drive := rfl
@[simp] theorem State.withPack_timer (f : Pack → Pack) (s : State) : (s.withPack f).timer = s.timer := rfl
@[simp] theorem State.withPack_engine (f : Pack → Pack) (s : State) : (s.withPack f).engine = s.engine := rfl
@[simp] theorem State.withPack_results (f : Pack → Pack) (s : State) : (s.withPack f).results = s.results := rfl
@[simp] theorem State.withPack_events (f : Pack → Pack) (s : State) : (s.withPack f).events = s.events := rfl
@[simp] theorem State.withPack_pack (f : Pack → Pack) (s : State) : (s.withPack f).pack = f s.pack := rfl
@[simp] theorem State.withPack_ci (f : Pack → Pack) (s : State) : (s.withPack f).ci = s.ci := rfl
@[simp] theorem State.withPack_completions (f : Pack → Pack) (s : State) :
    (s.withPack f).completions = s.completions := rfl
@[simp] theorem State.withPack_driveLog (f : Pack → Pack) (s : State) : (s.withPack f).driveLog = s.driveLog := rfl
@[simp] theorem State.withPack_pending (f : Pack → Pack) (s : State) : (s.withPack f).pending = s.pending := rfl

/-! ## withDrive -/

@[simp] theorem State.withDrive_now (f : Drive → Drive) (s : State) : (s.withDrive f).now = s.now := rfl
@[simp] theorem State.withDrive_geom (f : Drive → Drive) (s : State) : (s.withDrive f).geom = s.geom := rfl
@[simp] theorem State.withDrive_lines (f : Drive → Drive) (s : State) : (s.withDrive f).lines = s.lines := rfl
@[simp] theorem State.withDrive_port (f : Drive → Drive) (s : State) : (s.withDrive f).port = s.port := rfl
@[simp] theorem State.withDrive_timing (f : Drive → Drive) (s : State) : (s.withDrive f).timing = s.timing := rfl
@[simp] theorem State.withDrive_regions (f : Drive → Drive) (s : State) : (s.withDrive f).regions = s.regions := rfl
@[simp] theorem State.withDrive_ladders (f : Drive → Drive) (s : State) : (s.withDrive f).ladders = s.ladders := rfl
@[simp] theorem State.withDrive_map (f : Drive → Drive) (s : State) : (s.withDrive f).map = s.map := rfl
@[simp] theorem State.withDrive_posts (f : Drive → Drive) (s : State) : (s.withDrive f).posts = s.posts := rfl
@[simp] theorem State.withDrive_buffers (f : Drive → Drive) (s : State) : (s.withDrive f).buffers = s.buffers := rfl
@[simp] theorem State.withDrive_drive (f : Drive → Drive) (s : State) : (s.withDrive f).drive = f s.drive := rfl
@[simp] theorem State.withDrive_timer (f : Drive → Drive) (s : State) : (s.withDrive f).timer = s.timer := rfl
@[simp] theorem State.withDrive_engine (f : Drive → Drive) (s : State) : (s.withDrive f).engine = s.engine := rfl
@[simp] theorem State.withDrive_results (f : Drive → Drive) (s : State) : (s.withDrive f).results = s.results := rfl
@[simp] theorem State.withDrive_events (f : Drive → Drive) (s : State) : (s.withDrive f).events = s.events := rfl
@[simp] theorem State.withDrive_pack (f : Drive → Drive) (s : State) : (s.withDrive f).pack = s.pack := rfl
@[simp] theorem State.withDrive_ci (f : Drive → Drive) (s : State) : (s.withDrive f).ci = s.ci := rfl
@[simp] theorem State.withDrive_completions (f : Drive → Drive) (s : State) :
    (s.withDrive f).completions = s.completions := rfl
@[simp] theorem State.withDrive_driveLog (f : Drive → Drive) (s : State) : (s.withDrive f).driveLog = s.driveLog := rfl
@[simp] theorem State.withDrive_pending (f : Drive → Drive) (s : State) : (s.withDrive f).pending = s.pending := rfl

/-! ## withReply -/

@[simp] theorem State.withReply_now (r : Option Reply) (s : State) : (s.withReply r).now = s.now := rfl
@[simp] theorem State.withReply_geom (r : Option Reply) (s : State) : (s.withReply r).geom = s.geom := rfl
@[simp] theorem State.withReply_lines (r : Option Reply) (s : State) : (s.withReply r).lines = s.lines := rfl
@[simp] theorem State.withReply_port (r : Option Reply) (s : State) : (s.withReply r).port = s.port := rfl
@[simp] theorem State.withReply_timing (r : Option Reply) (s : State) : (s.withReply r).timing = s.timing := rfl
@[simp] theorem State.withReply_regions (r : Option Reply) (s : State) : (s.withReply r).regions = s.regions := rfl
@[simp] theorem State.withReply_ladders (r : Option Reply) (s : State) : (s.withReply r).ladders = s.ladders := rfl
@[simp] theorem State.withReply_map (r : Option Reply) (s : State) : (s.withReply r).map = s.map := rfl
@[simp] theorem State.withReply_posts (r : Option Reply) (s : State) : (s.withReply r).posts = s.posts := rfl
@[simp] theorem State.withReply_buffers (r : Option Reply) (s : State) : (s.withReply r).buffers = s.buffers := rfl
@[simp] theorem State.withReply_drive (r : Option Reply) (s : State) : (s.withReply r).drive = s.drive := rfl
@[simp] theorem State.withReply_timer (r : Option Reply) (s : State) : (s.withReply r).timer = s.timer := rfl
@[simp] theorem State.withReply_engine (r : Option Reply) (s : State) : (s.withReply r).engine = s.engine := rfl
@[simp] theorem State.withReply_results (r : Option Reply) (s : State) : (s.withReply r).results = s.results := rfl
@[simp] theorem State.withReply_events (r : Option Reply) (s : State) : (s.withReply r).events = s.events := rfl
@[simp] theorem State.withReply_pack (r : Option Reply) (s : State) : (s.withReply r).pack = s.pack := rfl
@[simp] theorem State.withReply_ci (r : Option Reply) (s : State) : (s.withReply r).ci = { s.ci with reply := r } := rfl
@[simp] theorem State.withReply_completions (r : Option Reply) (s : State) :
    (s.withReply r).completions = s.completions := rfl
@[simp] theorem State.withReply_driveLog (r : Option Reply) (s : State) : (s.withReply r).driveLog = s.driveLog := rfl
@[simp] theorem State.withReply_pending (r : Option Reply) (s : State) : (s.withReply r).pending = s.pending := rfl

/-! ## withdraw -/

@[simp] theorem State.withdraw_now (c : Client) (s : State) : (s.withdraw c).now = s.now := rfl
@[simp] theorem State.withdraw_geom (c : Client) (s : State) : (s.withdraw c).geom = s.geom := rfl
@[simp] theorem State.withdraw_lines (c : Client) (s : State) : (s.withdraw c).lines = s.lines := rfl
@[simp] theorem State.withdraw_port (c : Client) (s : State) : (s.withdraw c).port = s.port := rfl
@[simp] theorem State.withdraw_timing (c : Client) (s : State) : (s.withdraw c).timing = s.timing := rfl
@[simp] theorem State.withdraw_regions (c : Client) (s : State) : (s.withdraw c).regions = s.regions := rfl
@[simp] theorem State.withdraw_ladders (c : Client) (s : State) : (s.withdraw c).ladders = s.ladders := rfl
@[simp] theorem State.withdraw_map (c : Client) (s : State) : (s.withdraw c).map = s.map := rfl
@[simp] theorem State.withdraw_posts (c : Client) (s : State) : (s.withdraw c).posts = s.posts := rfl
@[simp] theorem State.withdraw_buffers (c : Client) (s : State) : (s.withdraw c).buffers = s.buffers := rfl
@[simp] theorem State.withdraw_drive (c : Client) (s : State) :
    (s.withdraw c).drive = { s.drive with requests := s.drive.requests.filter (fun r => r.client != c) } := rfl
@[simp] theorem State.withdraw_timer (c : Client) (s : State) : (s.withdraw c).timer = s.timer := rfl
@[simp] theorem State.withdraw_engine (c : Client) (s : State) : (s.withdraw c).engine = s.engine := rfl
@[simp] theorem State.withdraw_results (c : Client) (s : State) : (s.withdraw c).results = s.results := rfl
@[simp] theorem State.withdraw_events (c : Client) (s : State) : (s.withdraw c).events = s.events := rfl
@[simp] theorem State.withdraw_pack (c : Client) (s : State) : (s.withdraw c).pack = s.pack := rfl
@[simp] theorem State.withdraw_ci (c : Client) (s : State) : (s.withdraw c).ci = s.ci := rfl
@[simp] theorem State.withdraw_completions (c : Client) (s : State) : (s.withdraw c).completions = s.completions := rfl
@[simp] theorem State.withdraw_driveLog (c : Client) (s : State) : (s.withdraw c).driveLog = s.driveLog := rfl
@[simp] theorem State.withdraw_pending (c : Client) (s : State) : (s.withdraw c).pending = s.pending := rfl

/-! ## setStage -/

@[simp] theorem State.setStage_now (g : Stage) (s : State) : (s.setStage g).now = s.now := rfl
@[simp] theorem State.setStage_geom (g : Stage) (s : State) : (s.setStage g).geom = s.geom := rfl
@[simp] theorem State.setStage_lines (g : Stage) (s : State) : (s.setStage g).lines = s.lines := rfl
@[simp] theorem State.setStage_port (g : Stage) (s : State) :
    (s.setStage g).port = { s.port with outstanding := s.port.outstanding.map (fun o => { o with stage := g }) } := rfl
@[simp] theorem State.setStage_timing (g : Stage) (s : State) : (s.setStage g).timing = s.timing := rfl
@[simp] theorem State.setStage_regions (g : Stage) (s : State) : (s.setStage g).regions = s.regions := rfl
@[simp] theorem State.setStage_ladders (g : Stage) (s : State) : (s.setStage g).ladders = s.ladders := rfl
@[simp] theorem State.setStage_map (g : Stage) (s : State) : (s.setStage g).map = s.map := rfl
@[simp] theorem State.setStage_posts (g : Stage) (s : State) : (s.setStage g).posts = s.posts := rfl
@[simp] theorem State.setStage_buffers (g : Stage) (s : State) : (s.setStage g).buffers = s.buffers := rfl
@[simp] theorem State.setStage_drive (g : Stage) (s : State) : (s.setStage g).drive = s.drive := rfl
@[simp] theorem State.setStage_timer (g : Stage) (s : State) : (s.setStage g).timer = s.timer := rfl
@[simp] theorem State.setStage_engine (g : Stage) (s : State) : (s.setStage g).engine = s.engine := rfl
@[simp] theorem State.setStage_results (g : Stage) (s : State) : (s.setStage g).results = s.results := rfl
@[simp] theorem State.setStage_events (g : Stage) (s : State) : (s.setStage g).events = s.events := rfl
@[simp] theorem State.setStage_pack (g : Stage) (s : State) : (s.setStage g).pack = s.pack := rfl
@[simp] theorem State.setStage_ci (g : Stage) (s : State) : (s.setStage g).ci = s.ci := rfl
@[simp] theorem State.setStage_completions (g : Stage) (s : State) : (s.setStage g).completions = s.completions := rfl
@[simp] theorem State.setStage_driveLog (g : Stage) (s : State) : (s.setStage g).driveLog = s.driveLog := rfl
@[simp] theorem State.setStage_pending (g : Stage) (s : State) : (s.setStage g).pending = s.pending := rfl

/-! ## setActivity -/

@[simp] theorem State.setActivity_now (a : Activity) (s : State) : (s.setActivity a).now = s.now := rfl
@[simp] theorem State.setActivity_geom (a : Activity) (s : State) : (s.setActivity a).geom = s.geom := rfl
@[simp] theorem State.setActivity_lines (a : Activity) (s : State) : (s.setActivity a).lines = s.lines := rfl
@[simp] theorem State.setActivity_port (a : Activity) (s : State) : (s.setActivity a).port = s.port := rfl
@[simp] theorem State.setActivity_timing (a : Activity) (s : State) : (s.setActivity a).timing = s.timing := rfl
@[simp] theorem State.setActivity_regions (a : Activity) (s : State) : (s.setActivity a).regions = s.regions := rfl
@[simp] theorem State.setActivity_ladders (a : Activity) (s : State) : (s.setActivity a).ladders = s.ladders := rfl
@[simp] theorem State.setActivity_map (a : Activity) (s : State) : (s.setActivity a).map = s.map := rfl
@[simp] theorem State.setActivity_posts (a : Activity) (s : State) : (s.setActivity a).posts = s.posts := rfl
@[simp] theorem State.setActivity_buffers (a : Activity) (s : State) : (s.setActivity a).buffers = s.buffers := rfl
@[simp] theorem State.setActivity_drive (a : Activity) (s : State) :
    (s.setActivity a).drive = { s.drive with activity := a } := rfl
@[simp] theorem State.setActivity_timer (a : Activity) (s : State) : (s.setActivity a).timer = s.timer := rfl
@[simp] theorem State.setActivity_engine (a : Activity) (s : State) : (s.setActivity a).engine = s.engine := rfl
@[simp] theorem State.setActivity_results (a : Activity) (s : State) : (s.setActivity a).results = s.results := rfl
@[simp] theorem State.setActivity_events (a : Activity) (s : State) : (s.setActivity a).events = s.events := rfl
@[simp] theorem State.setActivity_pack (a : Activity) (s : State) : (s.setActivity a).pack = s.pack := rfl
@[simp] theorem State.setActivity_ci (a : Activity) (s : State) : (s.setActivity a).ci = s.ci := rfl
@[simp] theorem State.setActivity_completions (a : Activity) (s : State) :
    (s.setActivity a).completions = s.completions := rfl
@[simp] theorem State.setActivity_driveLog (a : Activity) (s : State) : (s.setActivity a).driveLog = s.driveLog := rfl
@[simp] theorem State.setActivity_pending (a : Activity) (s : State) : (s.setActivity a).pending = s.pending := rfl

/-! ## setGrant -/

@[simp] theorem State.setGrant_now (g : Grant) (s : State) : (s.setGrant g).now = s.now := rfl
@[simp] theorem State.setGrant_geom (g : Grant) (s : State) : (s.setGrant g).geom = s.geom := rfl
@[simp] theorem State.setGrant_lines (g : Grant) (s : State) : (s.setGrant g).lines = s.lines := rfl
@[simp] theorem State.setGrant_port (g : Grant) (s : State) : (s.setGrant g).port = s.port := rfl
@[simp] theorem State.setGrant_timing (g : Grant) (s : State) : (s.setGrant g).timing = s.timing := rfl
@[simp] theorem State.setGrant_regions (g : Grant) (s : State) : (s.setGrant g).regions = s.regions := rfl
@[simp] theorem State.setGrant_ladders (g : Grant) (s : State) : (s.setGrant g).ladders = s.ladders := rfl
@[simp] theorem State.setGrant_map (g : Grant) (s : State) : (s.setGrant g).map = s.map := rfl
@[simp] theorem State.setGrant_posts (g : Grant) (s : State) : (s.setGrant g).posts = s.posts := rfl
@[simp] theorem State.setGrant_buffers (g : Grant) (s : State) : (s.setGrant g).buffers = s.buffers := rfl
@[simp] theorem State.setGrant_drive (g : Grant) (s : State) :
    (s.setGrant g).drive = { s.drive with grant := some g } := rfl
@[simp] theorem State.setGrant_timer (g : Grant) (s : State) : (s.setGrant g).timer = s.timer := rfl
@[simp] theorem State.setGrant_engine (g : Grant) (s : State) : (s.setGrant g).engine = s.engine := rfl
@[simp] theorem State.setGrant_results (g : Grant) (s : State) : (s.setGrant g).results = s.results := rfl
@[simp] theorem State.setGrant_events (g : Grant) (s : State) : (s.setGrant g).events = s.events := rfl
@[simp] theorem State.setGrant_pack (g : Grant) (s : State) : (s.setGrant g).pack = s.pack := rfl
@[simp] theorem State.setGrant_ci (g : Grant) (s : State) : (s.setGrant g).ci = s.ci := rfl
@[simp] theorem State.setGrant_completions (g : Grant) (s : State) : (s.setGrant g).completions = s.completions := rfl
@[simp] theorem State.setGrant_driveLog (g : Grant) (s : State) : (s.setGrant g).driveLog = s.driveLog := rfl
@[simp] theorem State.setGrant_pending (g : Grant) (s : State) : (s.setGrant g).pending = s.pending := rfl

/-! ## endGrant -/

@[simp] theorem State.endGrant_now (s : State) : s.endGrant.now = s.now := rfl
@[simp] theorem State.endGrant_geom (s : State) : s.endGrant.geom = s.geom := rfl
@[simp] theorem State.endGrant_lines (s : State) : s.endGrant.lines = s.lines := rfl
@[simp] theorem State.endGrant_port (s : State) : s.endGrant.port = s.port := rfl
@[simp] theorem State.endGrant_timing (s : State) : s.endGrant.timing = s.timing := rfl
@[simp] theorem State.endGrant_regions (s : State) : s.endGrant.regions = s.regions := rfl
@[simp] theorem State.endGrant_ladders (s : State) : s.endGrant.ladders = s.ladders := rfl
@[simp] theorem State.endGrant_map (s : State) : s.endGrant.map = s.map := rfl
@[simp] theorem State.endGrant_posts (s : State) : s.endGrant.posts = s.posts := rfl
@[simp] theorem State.endGrant_buffers (s : State) : s.endGrant.buffers = s.buffers := rfl
@[simp] theorem State.endGrant_drive (s : State) :
    s.endGrant.drive = { s.drive with grant := none, activity := .idle } := rfl
@[simp] theorem State.endGrant_timer (s : State) : s.endGrant.timer = s.timer := rfl
@[simp] theorem State.endGrant_engine (s : State) : s.endGrant.engine = s.engine := rfl
@[simp] theorem State.endGrant_results (s : State) : s.endGrant.results = s.results := rfl
@[simp] theorem State.endGrant_events (s : State) : s.endGrant.events = s.events := rfl
@[simp] theorem State.endGrant_pack (s : State) : s.endGrant.pack = s.pack := rfl
@[simp] theorem State.endGrant_ci (s : State) : s.endGrant.ci = s.ci := rfl
@[simp] theorem State.endGrant_completions (s : State) : s.endGrant.completions = s.completions := rfl
@[simp] theorem State.endGrant_driveLog (s : State) : s.endGrant.driveLog = s.driveLog := rfl
@[simp] theorem State.endGrant_pending (s : State) : s.endGrant.pending = s.pending := rfl

/-! ## setPhysCyl -/

@[simp] theorem State.setPhysCyl_now (c : Option Nat) (s : State) : (s.setPhysCyl c).now = s.now := rfl
@[simp] theorem State.setPhysCyl_geom (c : Option Nat) (s : State) : (s.setPhysCyl c).geom = s.geom := rfl
@[simp] theorem State.setPhysCyl_lines (c : Option Nat) (s : State) : (s.setPhysCyl c).lines = s.lines := rfl
@[simp] theorem State.setPhysCyl_port (c : Option Nat) (s : State) : (s.setPhysCyl c).port = s.port := rfl
@[simp] theorem State.setPhysCyl_timing (c : Option Nat) (s : State) : (s.setPhysCyl c).timing = s.timing := rfl
@[simp] theorem State.setPhysCyl_regions (c : Option Nat) (s : State) : (s.setPhysCyl c).regions = s.regions := rfl
@[simp] theorem State.setPhysCyl_ladders (c : Option Nat) (s : State) : (s.setPhysCyl c).ladders = s.ladders := rfl
@[simp] theorem State.setPhysCyl_map (c : Option Nat) (s : State) : (s.setPhysCyl c).map = s.map := rfl
@[simp] theorem State.setPhysCyl_posts (c : Option Nat) (s : State) : (s.setPhysCyl c).posts = s.posts := rfl
@[simp] theorem State.setPhysCyl_buffers (c : Option Nat) (s : State) : (s.setPhysCyl c).buffers = s.buffers := rfl
@[simp] theorem State.setPhysCyl_drive (c : Option Nat) (s : State) :
    (s.setPhysCyl c).drive = { s.drive with physCyl := c } := rfl
@[simp] theorem State.setPhysCyl_timer (c : Option Nat) (s : State) : (s.setPhysCyl c).timer = s.timer := rfl
@[simp] theorem State.setPhysCyl_engine (c : Option Nat) (s : State) : (s.setPhysCyl c).engine = s.engine := rfl
@[simp] theorem State.setPhysCyl_results (c : Option Nat) (s : State) : (s.setPhysCyl c).results = s.results := rfl
@[simp] theorem State.setPhysCyl_events (c : Option Nat) (s : State) : (s.setPhysCyl c).events = s.events := rfl
@[simp] theorem State.setPhysCyl_pack (c : Option Nat) (s : State) : (s.setPhysCyl c).pack = s.pack := rfl
@[simp] theorem State.setPhysCyl_ci (c : Option Nat) (s : State) : (s.setPhysCyl c).ci = s.ci := rfl
@[simp] theorem State.setPhysCyl_completions (c : Option Nat) (s : State) :
    (s.setPhysCyl c).completions = s.completions := rfl
@[simp] theorem State.setPhysCyl_driveLog (c : Option Nat) (s : State) : (s.setPhysCyl c).driveLog = s.driveLog := rfl
@[simp] theorem State.setPhysCyl_pending (c : Option Nat) (s : State) : (s.setPhysCyl c).pending = s.pending := rfl

/-! ## setCond -/

@[simp] theorem State.setCond_now (c : DriveCond) (s : State) : (s.setCond c).now = s.now := rfl
@[simp] theorem State.setCond_geom (c : DriveCond) (s : State) : (s.setCond c).geom = s.geom := rfl
@[simp] theorem State.setCond_lines (c : DriveCond) (s : State) : (s.setCond c).lines = s.lines := rfl
@[simp] theorem State.setCond_port (c : DriveCond) (s : State) : (s.setCond c).port = s.port := rfl
@[simp] theorem State.setCond_timing (c : DriveCond) (s : State) : (s.setCond c).timing = s.timing := rfl
@[simp] theorem State.setCond_regions (c : DriveCond) (s : State) : (s.setCond c).regions = s.regions := rfl
@[simp] theorem State.setCond_ladders (c : DriveCond) (s : State) : (s.setCond c).ladders = s.ladders := rfl
@[simp] theorem State.setCond_map (c : DriveCond) (s : State) : (s.setCond c).map = s.map := rfl
@[simp] theorem State.setCond_posts (c : DriveCond) (s : State) : (s.setCond c).posts = s.posts := rfl
@[simp] theorem State.setCond_buffers (c : DriveCond) (s : State) : (s.setCond c).buffers = s.buffers := rfl
@[simp] theorem State.setCond_drive (c : DriveCond) (s : State) :
    (s.setCond c).drive = { s.drive with cond := c } := rfl
@[simp] theorem State.setCond_timer (c : DriveCond) (s : State) : (s.setCond c).timer = s.timer := rfl
@[simp] theorem State.setCond_engine (c : DriveCond) (s : State) : (s.setCond c).engine = s.engine := rfl
@[simp] theorem State.setCond_results (c : DriveCond) (s : State) : (s.setCond c).results = s.results := rfl
@[simp] theorem State.setCond_events (c : DriveCond) (s : State) : (s.setCond c).events = s.events := rfl
@[simp] theorem State.setCond_pack (c : DriveCond) (s : State) : (s.setCond c).pack = s.pack := rfl
@[simp] theorem State.setCond_ci (c : DriveCond) (s : State) : (s.setCond c).ci = s.ci := rfl
@[simp] theorem State.setCond_completions (c : DriveCond) (s : State) : (s.setCond c).completions = s.completions := rfl
@[simp] theorem State.setCond_driveLog (c : DriveCond) (s : State) : (s.setCond c).driveLog = s.driveLog := rfl
@[simp] theorem State.setCond_pending (c : DriveCond) (s : State) : (s.setCond c).pending = s.pending := rfl

/-! ## issueSeek -/

@[simp] theorem State.issueSeek_now (c : Nat) (s : State) : (s.issueSeek c).now = s.now := rfl
@[simp] theorem State.issueSeek_geom (c : Nat) (s : State) : (s.issueSeek c).geom = s.geom := rfl
@[simp] theorem State.issueSeek_lines (c : Nat) (s : State) : (s.issueSeek c).lines = s.lines := rfl
@[simp] theorem State.issueSeek_port (c : Nat) (s : State) : (s.issueSeek c).port = s.port := rfl
@[simp] theorem State.issueSeek_timing (c : Nat) (s : State) : (s.issueSeek c).timing = s.timing := rfl
@[simp] theorem State.issueSeek_regions (c : Nat) (s : State) : (s.issueSeek c).regions = s.regions := rfl
@[simp] theorem State.issueSeek_ladders (c : Nat) (s : State) : (s.issueSeek c).ladders = s.ladders := rfl
@[simp] theorem State.issueSeek_map (c : Nat) (s : State) : (s.issueSeek c).map = s.map := rfl
@[simp] theorem State.issueSeek_posts (c : Nat) (s : State) : (s.issueSeek c).posts = s.posts := rfl
@[simp] theorem State.issueSeek_buffers (c : Nat) (s : State) : (s.issueSeek c).buffers = s.buffers := rfl
@[simp] theorem State.issueSeek_drive (c : Nat) (s : State) :
    (s.issueSeek c).drive = { s.drive with activity := .positioning false (s.now + Config.positioningTicks) } := rfl
@[simp] theorem State.issueSeek_timer (c : Nat) (s : State) : (s.issueSeek c).timer = s.timer := rfl
@[simp] theorem State.issueSeek_engine (c : Nat) (s : State) : (s.issueSeek c).engine = s.engine := rfl
@[simp] theorem State.issueSeek_results (c : Nat) (s : State) : (s.issueSeek c).results = s.results := rfl
@[simp] theorem State.issueSeek_events (c : Nat) (s : State) : (s.issueSeek c).events = s.events := rfl
@[simp] theorem State.issueSeek_pack (c : Nat) (s : State) : (s.issueSeek c).pack = s.pack := rfl
@[simp] theorem State.issueSeek_ci (c : Nat) (s : State) : (s.issueSeek c).ci = s.ci := rfl
@[simp] theorem State.issueSeek_completions (c : Nat) (s : State) : (s.issueSeek c).completions = s.completions := rfl
@[simp] theorem State.issueSeek_driveLog (c : Nat) (s : State) :
    (s.issueSeek c).driveLog = s.driveLog ++ [.seek c] := rfl
@[simp] theorem State.issueSeek_pending (c : Nat) (s : State) : (s.issueSeek c).pending = s.pending := rfl

/-! ## issueRecalibrate -/

@[simp] theorem State.issueRecalibrate_now (s : State) : s.issueRecalibrate.now = s.now := rfl
@[simp] theorem State.issueRecalibrate_geom (s : State) : s.issueRecalibrate.geom = s.geom := rfl
@[simp] theorem State.issueRecalibrate_lines (s : State) : s.issueRecalibrate.lines = s.lines := rfl
@[simp] theorem State.issueRecalibrate_port (s : State) : s.issueRecalibrate.port = s.port := rfl
@[simp] theorem State.issueRecalibrate_timing (s : State) : s.issueRecalibrate.timing = s.timing := rfl
@[simp] theorem State.issueRecalibrate_regions (s : State) : s.issueRecalibrate.regions = s.regions := rfl
@[simp] theorem State.issueRecalibrate_ladders (s : State) : s.issueRecalibrate.ladders = s.ladders := rfl
@[simp] theorem State.issueRecalibrate_map (s : State) : s.issueRecalibrate.map = s.map := rfl
@[simp] theorem State.issueRecalibrate_posts (s : State) : s.issueRecalibrate.posts = s.posts := rfl
@[simp] theorem State.issueRecalibrate_buffers (s : State) : s.issueRecalibrate.buffers = s.buffers := rfl
@[simp] theorem State.issueRecalibrate_drive (s : State) :
    s.issueRecalibrate.drive = { s.drive with activity := .positioning true (s.now + Config.positioningTicks) } := rfl
@[simp] theorem State.issueRecalibrate_timer (s : State) : s.issueRecalibrate.timer = s.timer := rfl
@[simp] theorem State.issueRecalibrate_engine (s : State) : s.issueRecalibrate.engine = s.engine := rfl
@[simp] theorem State.issueRecalibrate_results (s : State) : s.issueRecalibrate.results = s.results := rfl
@[simp] theorem State.issueRecalibrate_events (s : State) : s.issueRecalibrate.events = s.events := rfl
@[simp] theorem State.issueRecalibrate_pack (s : State) : s.issueRecalibrate.pack = s.pack := rfl
@[simp] theorem State.issueRecalibrate_ci (s : State) : s.issueRecalibrate.ci = s.ci := rfl
@[simp] theorem State.issueRecalibrate_completions (s : State) : s.issueRecalibrate.completions = s.completions := rfl
@[simp] theorem State.issueRecalibrate_driveLog (s : State) :
    s.issueRecalibrate.driveLog = s.driveLog ++ [.recalibrate] := rfl
@[simp] theorem State.issueRecalibrate_pending (s : State) : s.issueRecalibrate.pending = s.pending := rfl

/-! ## setVirtHead -/

@[simp] theorem State.setVirtHead_now (h : Nat) (s : State) : (s.setVirtHead h).now = s.now := rfl
@[simp] theorem State.setVirtHead_geom (h : Nat) (s : State) : (s.setVirtHead h).geom = s.geom := rfl
@[simp] theorem State.setVirtHead_lines (h : Nat) (s : State) : (s.setVirtHead h).lines = s.lines := rfl
@[simp] theorem State.setVirtHead_port (h : Nat) (s : State) :
    (s.setVirtHead h).port = { s.port with virtHead := h } := rfl
@[simp] theorem State.setVirtHead_timing (h : Nat) (s : State) : (s.setVirtHead h).timing = s.timing := rfl
@[simp] theorem State.setVirtHead_regions (h : Nat) (s : State) : (s.setVirtHead h).regions = s.regions := rfl
@[simp] theorem State.setVirtHead_ladders (h : Nat) (s : State) : (s.setVirtHead h).ladders = s.ladders := rfl
@[simp] theorem State.setVirtHead_map (h : Nat) (s : State) : (s.setVirtHead h).map = s.map := rfl
@[simp] theorem State.setVirtHead_posts (h : Nat) (s : State) : (s.setVirtHead h).posts = s.posts := rfl
@[simp] theorem State.setVirtHead_buffers (h : Nat) (s : State) : (s.setVirtHead h).buffers = s.buffers := rfl
@[simp] theorem State.setVirtHead_drive (h : Nat) (s : State) : (s.setVirtHead h).drive = s.drive := rfl
@[simp] theorem State.setVirtHead_timer (h : Nat) (s : State) : (s.setVirtHead h).timer = s.timer := rfl
@[simp] theorem State.setVirtHead_engine (h : Nat) (s : State) : (s.setVirtHead h).engine = s.engine := rfl
@[simp] theorem State.setVirtHead_results (h : Nat) (s : State) : (s.setVirtHead h).results = s.results := rfl
@[simp] theorem State.setVirtHead_events (h : Nat) (s : State) : (s.setVirtHead h).events = s.events := rfl
@[simp] theorem State.setVirtHead_pack (h : Nat) (s : State) : (s.setVirtHead h).pack = s.pack := rfl
@[simp] theorem State.setVirtHead_ci (h : Nat) (s : State) : (s.setVirtHead h).ci = s.ci := rfl
@[simp] theorem State.setVirtHead_completions (h : Nat) (s : State) :
    (s.setVirtHead h).completions = s.completions := rfl
@[simp] theorem State.setVirtHead_driveLog (h : Nat) (s : State) : (s.setVirtHead h).driveLog = s.driveLog := rfl
@[simp] theorem State.setVirtHead_pending (h : Nat) (s : State) : (s.setVirtHead h).pending = s.pending := rfl

/-! ## beginHold -/

@[simp] theorem State.beginHold_now (k : HoldKind) (a : Addr) (s : State) : (s.beginHold k a).now = s.now := rfl
@[simp] theorem State.beginHold_geom (k : HoldKind) (a : Addr) (s : State) : (s.beginHold k a).geom = s.geom := rfl
@[simp] theorem State.beginHold_lines (k : HoldKind) (a : Addr) (s : State) : (s.beginHold k a).lines = s.lines := rfl
@[simp] theorem State.beginHold_port (k : HoldKind) (a : Addr) (s : State) :
    (s.beginHold k a).port = { s.port with hold := some { kind := k, addr := a, deadline := s.now + msTicks s.timing.holdLimit }, outstanding := s.port.outstanding.map (fun o => { o with stage := .held }) } := rfl
@[simp] theorem State.beginHold_timing (k : HoldKind) (a : Addr) (s : State) :
    (s.beginHold k a).timing = s.timing := rfl
@[simp] theorem State.beginHold_regions (k : HoldKind) (a : Addr) (s : State) :
    (s.beginHold k a).regions = s.regions := rfl
@[simp] theorem State.beginHold_ladders (k : HoldKind) (a : Addr) (s : State) :
    (s.beginHold k a).ladders = s.ladders := rfl
@[simp] theorem State.beginHold_map (k : HoldKind) (a : Addr) (s : State) : (s.beginHold k a).map = s.map := rfl
@[simp] theorem State.beginHold_posts (k : HoldKind) (a : Addr) (s : State) : (s.beginHold k a).posts = s.posts := rfl
@[simp] theorem State.beginHold_buffers (k : HoldKind) (a : Addr) (s : State) :
    (s.beginHold k a).buffers = s.buffers := rfl
@[simp] theorem State.beginHold_drive (k : HoldKind) (a : Addr) (s : State) : (s.beginHold k a).drive = s.drive := rfl
@[simp] theorem State.beginHold_timer (k : HoldKind) (a : Addr) (s : State) : (s.beginHold k a).timer = s.timer := rfl
@[simp] theorem State.beginHold_engine (k : HoldKind) (a : Addr) (s : State) :
    (s.beginHold k a).engine = s.engine := rfl
@[simp] theorem State.beginHold_results (k : HoldKind) (a : Addr) (s : State) :
    (s.beginHold k a).results = s.results := rfl
@[simp] theorem State.beginHold_events (k : HoldKind) (a : Addr) (s : State) :
    (s.beginHold k a).events = s.events := rfl
@[simp] theorem State.beginHold_pack (k : HoldKind) (a : Addr) (s : State) : (s.beginHold k a).pack = s.pack := rfl
@[simp] theorem State.beginHold_ci (k : HoldKind) (a : Addr) (s : State) : (s.beginHold k a).ci = s.ci := rfl
@[simp] theorem State.beginHold_completions (k : HoldKind) (a : Addr) (s : State) :
    (s.beginHold k a).completions = s.completions := rfl
@[simp] theorem State.beginHold_driveLog (k : HoldKind) (a : Addr) (s : State) :
    (s.beginHold k a).driveLog = s.driveLog := rfl
@[simp] theorem State.beginHold_pending (k : HoldKind) (a : Addr) (s : State) :
    (s.beginHold k a).pending = s.pending := rfl

/-! ## clearSpeed -/

@[simp] theorem State.clearSpeed_now (s : State) : s.clearSpeed.now = s.now := rfl
@[simp] theorem State.clearSpeed_geom (s : State) : s.clearSpeed.geom = s.geom := rfl
@[simp] theorem State.clearSpeed_lines (s : State) : s.clearSpeed.lines = s.lines := rfl
@[simp] theorem State.clearSpeed_port (s : State) : s.clearSpeed.port = s.port := rfl
@[simp] theorem State.clearSpeed_timing (s : State) : s.clearSpeed.timing = s.timing := rfl
@[simp] theorem State.clearSpeed_regions (s : State) : s.clearSpeed.regions = s.regions := rfl
@[simp] theorem State.clearSpeed_ladders (s : State) : s.clearSpeed.ladders = s.ladders := rfl
@[simp] theorem State.clearSpeed_map (s : State) : s.clearSpeed.map = s.map := rfl
@[simp] theorem State.clearSpeed_posts (s : State) : s.clearSpeed.posts = s.posts := rfl
@[simp] theorem State.clearSpeed_buffers (s : State) : s.clearSpeed.buffers = s.buffers := rfl
@[simp] theorem State.clearSpeed_drive (s : State) : s.clearSpeed.drive = s.drive := rfl
@[simp] theorem State.clearSpeed_timer (s : State) :
    s.clearSpeed.timer = { s.timer with speedFault := false, outside := 0, inside := 0 } := rfl
@[simp] theorem State.clearSpeed_engine (s : State) : s.clearSpeed.engine = { s.engine with speed := false } := rfl
@[simp] theorem State.clearSpeed_results (s : State) : s.clearSpeed.results = s.results := rfl
@[simp] theorem State.clearSpeed_events (s : State) : s.clearSpeed.events = s.events := rfl
@[simp] theorem State.clearSpeed_pack (s : State) : s.clearSpeed.pack = s.pack := rfl
@[simp] theorem State.clearSpeed_ci (s : State) : s.clearSpeed.ci = s.ci := rfl
@[simp] theorem State.clearSpeed_completions (s : State) : s.clearSpeed.completions = s.completions := rfl
@[simp] theorem State.clearSpeed_driveLog (s : State) : s.clearSpeed.driveLog = s.driveLog := rfl
@[simp] theorem State.clearSpeed_pending (s : State) : s.clearSpeed.pending = s.pending := rfl

/-! ## withPending -/

@[simp] theorem State.withPending_now (q : List Instr) (s : State) : (s.withPending q).now = s.now := rfl
@[simp] theorem State.withPending_geom (q : List Instr) (s : State) : (s.withPending q).geom = s.geom := rfl
@[simp] theorem State.withPending_lines (q : List Instr) (s : State) : (s.withPending q).lines = s.lines := rfl
@[simp] theorem State.withPending_port (q : List Instr) (s : State) : (s.withPending q).port = s.port := rfl
@[simp] theorem State.withPending_timing (q : List Instr) (s : State) : (s.withPending q).timing = s.timing := rfl
@[simp] theorem State.withPending_regions (q : List Instr) (s : State) : (s.withPending q).regions = s.regions := rfl
@[simp] theorem State.withPending_ladders (q : List Instr) (s : State) : (s.withPending q).ladders = s.ladders := rfl
@[simp] theorem State.withPending_map (q : List Instr) (s : State) : (s.withPending q).map = s.map := rfl
@[simp] theorem State.withPending_posts (q : List Instr) (s : State) : (s.withPending q).posts = s.posts := rfl
@[simp] theorem State.withPending_buffers (q : List Instr) (s : State) : (s.withPending q).buffers = s.buffers := rfl
@[simp] theorem State.withPending_drive (q : List Instr) (s : State) : (s.withPending q).drive = s.drive := rfl
@[simp] theorem State.withPending_timer (q : List Instr) (s : State) : (s.withPending q).timer = s.timer := rfl
@[simp] theorem State.withPending_engine (q : List Instr) (s : State) : (s.withPending q).engine = s.engine := rfl
@[simp] theorem State.withPending_results (q : List Instr) (s : State) : (s.withPending q).results = s.results := rfl
@[simp] theorem State.withPending_events (q : List Instr) (s : State) : (s.withPending q).events = s.events := rfl
@[simp] theorem State.withPending_pack (q : List Instr) (s : State) : (s.withPending q).pack = s.pack := rfl
@[simp] theorem State.withPending_ci (q : List Instr) (s : State) : (s.withPending q).ci = s.ci := rfl
@[simp] theorem State.withPending_completions (q : List Instr) (s : State) :
    (s.withPending q).completions = s.completions := rfl
@[simp] theorem State.withPending_driveLog (q : List Instr) (s : State) : (s.withPending q).driveLog = s.driveLog := rfl
@[simp] theorem State.withPending_pending (q : List Instr) (s : State) : (s.withPending q).pending = q := rfl

end Sys2Proof.Machine
end

