-- ==== Sys2Proof/Laws/Requests.lean ====
section
/-! SUPPORT. What taking a request or a command leaves: the shared operations of R2, R20, R163 to R168 as single equations. -/

namespace Sys2Proof.Machine

/-- A filter that drops nothing is the list itself. -/
theorem filter_keeps {α : Type} (p : α → Bool) (l : List α) (h : ∀ x ∈ l, p x = true) : l.filter p = l :=
  List.filter_eq_self.mpr h

/-- The drop of the earlier request, as one update (R2, R20). -/
theorem State.dropRequest_eq (s : State) :
    s.dropRequest =
      { s with port := { s.port with outstanding := none, hold := none }
               drive := { s.drive with requests := s.requestsKept false } } := by
  unfold State.dropRequest State.requestsKept
  by_cases h : s.stage = some Stage.standing
  · simp [h, State.withdraw, State.withDrive, bne]
  · have h' : (s.stage == some Stage.standing) = false := by simp [h]
    simp [h, h']

/-- The abandoning of a pending sequence, as one update (R167). -/
theorem State.abandonSequence_eq (s : State) :
    s.abandonSequence =
      { s with ci := if s.ci.sequence = .ready then s.ci else { s.ci with sequence := .ready, lastResult := .sequenceLost }
               events := if s.ci.sequence = .ready then s.events else withEvent .sequenceLost s.events } := by
  unfold State.abandonSequence
  by_cases h : s.ci.sequence = .ready <;> simp [h]

/-- What a new request leaves before its own effect (R2, R20, R167). -/
theorem State.newRequest_eq_afterRequest (s : State) : s.newRequest = s.afterRequest := by
  unfold State.newRequest
  rw [State.dropRequest_eq, State.abandonSequence_eq]
  rfl

/-- What a data request with a head in range leaves before its own effect (R2, R3, R20, R167). -/
theorem State.afterDataRequest_eq (head : Nat) (s : State) :
    (s.dropRequest.setVirtHead head).abandonSequence = s.afterDataRequest head := by
  rw [State.afterDataRequest, ← State.newRequest_eq_afterRequest, State.newRequest]
  unfold State.abandonSequence State.setVirtHead
  split <;> rfl

/-- A data request whose sector is out of range is answered after the virtual head has moved (R3, R4). -/
theorem State.outOfRange_eq (s : State) : s.outOfRange = s.abandonSequence.answer .headerCheck [] := rfl

/-- The virtual head is set whether the sequence is abandoned before or after it (R3, R167). -/
theorem State.afterDataRequest_abandon (head : Nat) (s : State) :
    (State.setVirtHead head
      { s with port := { s.port with outstanding := none, hold := none }
               drive := { s.drive with requests := s.requestsKept false } }).abandonSequence = s.afterDataRequest head := by
  rw [← State.afterDataRequest_eq, State.dropRequest_eq]

/-- A READ taken, its tests made on the state before (R4, R5, R6). -/
theorem State.takeRead_eq (head sector : Nat) (s : State) :
    s.takeRead head sector =
      if s.geom.heads ≤ head then s.afterRequest.answer .headerCheck []
      else if s.geom.sectors ≤ sector then (s.afterDataRequest head).answer .headerCheck []
      else if s.requestAddr head sector = s.ci.controlAddr then (s.dropRequest.setVirtHead head).readControl
      else (s.afterDataRequest head).dataRead (s.requestAddr head sector) := by
  rw [← State.newRequest_eq_afterRequest, State.newRequest, ← State.afterDataRequest_eq]
  unfold State.takeRead
  rw [State.dropRequest_eq]
  rfl

/-- A WRITE taken, its tests made on the state before (R4, R5, R6). -/
theorem State.takeWrite_eq (head sector : Nat) (words : List Word) (s : State) :
    s.takeWrite head sector words =
      if s.geom.heads ≤ head then s.afterRequest.answer .headerCheck []
      else if s.geom.sectors ≤ sector then (s.afterDataRequest head).answer .headerCheck []
      else if s.requestAddr head sector = s.ci.controlAddr then
        (s.dropRequest.setVirtHead head).controlWrite (fitWords s.geom.words words)
      else (s.afterDataRequest head).dataWrite (s.requestAddr head sector) (fitWords s.geom.words words) := by
  rw [← State.newRequest_eq_afterRequest, State.newRequest, ← State.afterDataRequest_eq]
  unfold State.takeWrite
  rw [State.dropRequest_eq]
  rfl

/-- A FORMAT taken, its test made on the state before (R4, R6). -/
theorem State.takeFormat_eq (head : Nat) (s : State) :
    s.takeFormat head =
      if s.geom.heads ≤ head then s.afterRequest.answer .headerCheck []
      else (s.afterDataRequest head).dataFormat { cyl := s.port.virtCyl, head := head } := by
  unfold State.takeFormat
  rw [State.newRequest_eq_afterRequest]
  rfl

/-- A READ that passes the range check and is no request of the control sector (R4, R5, R6). -/
theorem State.takeRead_data (head sector : Nat) (s : State) (h : s.isDataRequest head sector) :
    s.takeRead head sector = (s.afterDataRequest head).dataRead (s.requestAddr head sector) := by
  rw [State.takeRead_eq, if_neg (Nat.not_le.mpr h.1), if_neg (Nat.not_le.mpr h.2.1), if_neg h.2.2]

/-- A WRITE that passes the range check and is no request of the control sector (R4, R5, R6). -/
theorem State.takeWrite_data (head sector : Nat) (words : List Word) (s : State) (h : s.isDataRequest head sector) :
    s.takeWrite head sector words =
      (s.afterDataRequest head).dataWrite (s.requestAddr head sector) (fitWords s.geom.words words) := by
  rw [State.takeWrite_eq, if_neg (Nat.not_le.mpr h.1), if_neg (Nat.not_le.mpr h.2.1), if_neg h.2.2]

/-- A pack that is served is not UNLOADING (R6). -/
theorem serves_not_unloading (p : PackState) (h : packServes p = true) : (p != .unloading) = true := by
  cases p <;> simp_all [packServes]

/-- Drive work requested for a request just taken while the drive takes requests (R80). -/
theorem State.requestPortWork_taken (o : PortWork) (w : Work) (s : State) (h : packServes s.pack.state = true)
    (hc : s.drive.cond = .ready) :
    s.requestPortWork o w =
      { s with port := { s.port with outstanding := some { work := o, stage := .standing } }
               drive := { s.drive with requests := s.drive.requests ++ [{ client := .port, work := w }] } } := by
  simp [State.requestPortWork, State.takesRequests, hc, serves_not_unloading _ h]

/-- Drive work requested with the condition NOT_READY is handed back at once (R80). -/
theorem State.requestPortWork_handedBack (o : PortWork) (w : Work) (s : State) (hc : s.drive.cond ≠ .ready) :
    s.requestPortWork o w = s.answer .notReady [] := by
  simp [State.requestPortWork, State.takesRequests, hc]

/-- Words stored for an address, when the slot is the entry's or the lowest-numbered free one (R40, R42). -/
theorem State.storeSector_slot (a : Addr) (o : Origin) (ws : List Word) (s : State) (n : Nat)
    (held : ∀ e, s.entryAt a = some e → n = e.slot) (free : s.entryAt a = none → s.freeSlot = some n) :
    s.storeSector a o ws = some (s.putEntry a o ws n) := by
  unfold State.storeSector
  cases h : s.entryAt a with
  | some e => simp [held e h]
  | none => simp [free h]

/-- Words stored for an address when a new slot is needed and none is free (R42). -/
theorem State.storeSector_full (a : Addr) (o : Origin) (ws : List Word) (s : State) (h : s.entryAt a = none)
    (free : s.freeSlot = none) : s.storeSector a o ws = none := by
  simp [State.storeSector, h, free]

end Sys2Proof.Machine
end

