-- ==== Sys2Proof/Laws/Commands.lean ====
section
/-! SUPPORT. What a command row does, once for all of them: the state its body is given, and the state its outcome leaves. -/

namespace Sys2Proof.Machine

/-- The state a command's body is given: the earlier request dropped, the selector STATUS, the code recorded, a pending sequence
confirmed or abandoned (R2, R3, R20, R163, R165 to R168). -/
def State.commandTaken (confirming : Bool) (code : Word) (s : State) : State :=
  { s with
    port := { s.port with outstanding := none, hold := none, virtHead := s.ci.controlAddr.head }
    drive := { s.drive with requests := s.requestsKept true }
    ci := { s.ci with sequence := .ready, reply := none, lastCommand := code,
                      lastResult := if s.ci.sequence = .ready ∨ confirming then s.ci.lastResult else .sequenceLost }
    events := if s.ci.sequence = .ready ∨ confirming then s.events else withEvent .sequenceLost s.events }

/-- The selector set to STATUS, as one update (R168, R172). -/
theorem State.selectStatus_eq (s : State) :
    s.selectStatus =
      { s with ci := { s.ci with reply := none }
               drive := { s.drive with requests := s.drive.requests.filter (fun r =>
                 !(r.client == .commandInterface && s.ci.reply.any (fun q => q.driveRead == some false))) } } := by
  unfold State.selectStatus
  by_cases h : s.ci.reply.any (fun q => q.driveRead == some false) = true
  · simp [h, State.withdraw, State.withDrive, State.withReply, bne]
  · have h' : s.ci.reply.any (fun q => q.driveRead == some false) = false := by simpa using h
    simp [h', State.withReply]

/-- The requests a command write leaves: those the drop of the earlier request leaves, without the Command Interface's (R2, R172). -/
theorem State.requestsKept_filter (s : State) :
    (s.requestsKept false).filter (fun r =>
      !(r.client == .commandInterface && s.ci.reply.any (fun q => q.driveRead == some false))) = s.requestsKept true := by
  unfold State.requestsKept
  rw [List.filter_filter]
  refine congrArg (fun p => List.filter p s.drive.requests) (funext fun r => ?_)
  cases r.client <;> cases (s.ci.reply.any (fun q => q.driveRead == some false)) <;> simp [Bool.and_comm]

/-- The state in which a command sector's sequence is examined (R163, R165, R168). -/
theorem State.commandSelected_eq (s : State) :
    (s.dropRequest.setVirtHead s.ci.controlAddr.head).selectStatus =
      { s with port := { s.port with outstanding := none, hold := none, virtHead := s.ci.controlAddr.head }
               drive := { s.drive with requests := s.requestsKept true }
               ci := { s.ci with reply := none } } := by
  rw [State.selectStatus_eq, State.dropRequest_eq, ← State.requestsKept_filter]
  rfl

/-- A command row that no data sector is awaited for and that confirms nothing: its body runs on the state taken, and its outcome
is recorded (R163 to R168). -/
theorem State.commandStep_eq (code : Word) (ps : List Word) (body : State → ResultCode × State) (s : State)
    (noData : ∀ a, s.ci.sequence ≠ .awaitData a)
    (plain : ∀ pending, s.ci.sequence = .awaitConfirm pending →
      matchingConfirm s.geom.words ps.length code ps pending = false) :
    s.commandStep code ps body = concludeCommand (runBody ps.length body (s.commandTaken false code)) := by
  have e : (s.dropRequest.setVirtHead s.ci.controlAddr.head).ci.sequence = s.ci.sequence := by rw [State.dropRequest_eq]; rfl
  unfold State.commandStep State.takeCommand
  simp only [e, State.commandSelected_eq]
  cases h : s.ci.sequence with
  | awaitData a => exact absurd h (noData a)
  | ready => simp only [State.commandTaken, h]; rfl
  | awaitConfirm p =>
    simp only
    rw [if_neg (by rw [plain p h]; simp)]
    rw [State.abandonSequence_eq]
    simp [State.commandTaken, h]

/-- The CONFIRM that matches: the pending command executed on the state taken (R166). -/
theorem State.commandStep_confirming (ps : List Word) (body : State → ResultCode × State) (s : State) (pending : Word)
    (waits : s.ci.sequence = .awaitConfirm pending) (matching : matchingConfirm s.geom.words ps.length Code.confirm ps pending = true) :
    s.commandStep Code.confirm ps body = concludeCommand (confirmed pending (s.commandTaken true Code.confirm)) := by
  have e : (s.dropRequest.setVirtHead s.ci.controlAddr.head).ci.sequence = s.ci.sequence := by rw [State.dropRequest_eq]; rfl
  unfold State.commandStep State.takeCommand
  simp only [e, State.commandSelected_eq, waits]
  rw [if_pos matching]
  simp [State.commandTaken]

/-- A sector with room for its parameters runs the body (R163). -/
theorem runBody_room (body : State → ResultCode × State) (s : State) (n : Nat) (room : n + 4 ≤ s.geom.words) :
    runBody n body s = body s := if_neg (by omega)

/-- What a body that answers a code and changes nothing leaves (R163, R165). -/
theorem State.conclude_taken (confirming : Bool) (code : Word) (r : ResultCode) (s : State) :
    concludeCommand (r, s.commandTaken confirming code) = s.afterCommandWrite confirming code r := rfl

/-- A command row but CONFIRM, taken as a command with room for its parameters (R163 to R168). -/
theorem State.commandStep_takes (code : Word) (ps : List Word) (body : State → ResultCode × State) (s : State)
    (takes : s.takesCommand ps) (other : code ≠ Code.confirm) :
    s.commandStep code ps body = concludeCommand (body (s.commandTaken false code)) := by
  rw [State.commandStep_eq _ _ _ _ takes.1 (fun p _ => by simp [matchingConfirm, other]),
    runBody_room _ _ _ (by exact takes.2)]

/-- A command row whose body answers a code and changes nothing else. -/
theorem State.commandStep_refuses (code : Word) (ps : List Word) (body : State → ResultCode × State) (s : State) (r : ResultCode)
    (takes : s.takesCommand ps) (other : code ≠ Code.confirm)
    (h : body (s.commandTaken false code) = (r, s.commandTaken false code)) :
    s.commandStep code ps body = s.afterCommand code r := by
  rw [State.commandStep_takes _ _ _ _ takes other, h]
  rfl

/-- No words fitted to a width are zeros. -/
theorem fitWords_nil (n : Nat) : fitWords n [] = List.replicate n 0 := by
  induction n with
  | zero => rfl
  | succ n ih => simp [fitWords, ih, List.replicate_succ]

/-- Words fitted to a width have that width. -/
theorem fitWords_length (n : Nat) (ws : List Word) : (fitWords n ws).length = n := by
  induction n generalizing ws with
  | zero => rfl
  | succ n ih => cases ws <;> simp [fitWords, ih]

/-- Words that fit exactly stand as they are. -/
theorem fitWords_exact (ws : List Word) : fitWords ws.length ws = ws := by
  induction ws with
  | nil => rfl
  | cons w ws ih => simp [fitWords, ih]

/-- The three parameters of an address within the geometry (R51, R53, R56 to R58, R162, R172). -/
theorem addrOf_names (g : Geometry) (ps : List Word) (a : Addr) (h : namesAddr g ps a) : addrOf g ps = some a := by
  obtain ⟨h3, rfl, h1, h2, h4⟩ := h
  match ps, h3 with
  | c :: d :: e :: rest, _ =>
    simp at h1 h2 h4
    simp [addrOf, Addr.within, h1, h2, h4]

/-- Parameters that name no address within the geometry. -/
theorem addrOf_none (g : Geometry) (ps : List Word) (h : ∀ a, ¬ namesAddr g ps a) : addrOf g ps = none := by
  cases e : addrOf g ps with
  | none => rfl
  | some a =>
    exfalso
    match ps with
    | [] | [_] | [_, _] => simp [addrOf] at e
    | c :: d :: f :: rest =>
      simp only [addrOf] at e
      split at e
      · next hw =>
        simp only [Addr.within, Bool.and_eq_true, decide_eq_true_eq] at hw
        exact h ⟨c.toNat, d.toNat, f.toNat⟩ ⟨by simp, rfl, hw.1.1, hw.1.2, hw.2⟩
      · simp at e

/-- Every command row is the command step of its code: a row of the table and a command sector with its code do the same (R163,
R179). -/
theorem exec_command (i : Instr) (code : Word) (s : State) (h : i.code? = some code) :
    exec i s = .next (s.commandStep code i.params (commandBody code i.params)) := by
  cases i <;> first | (cases h; rfl) | (simp [Instr.code?] at h)

/-- A code outside the catalogue names no command (R163). -/
theorem commandBody_unlisted (code : Word) (ps : List Word) (s : State) (h : code ∉ Code.catalogue) :
    commandBody code ps s = (.badCommand, s) := by
  simp only [Code.catalogue, List.mem_cons, List.not_mem_nil, or_false, not_or] at h
  simp [commandBody, h]

end Sys2Proof.Machine
end

