-- ==== Sys2Proof/Laws/Channel.lean ====
section
/-! SUPPORT. The bits of the Read Channel and of the check word: what stands at each position of a decoded field, of a word made from
bits, and of a corrected candidate. -/

namespace Sys2Proof.Machine

/-! ## Words from bits (R137) -/

/-- The digits already read stand above those still to come. -/
theorem bitsToNat_acc (acc : Nat) (l : List Bool) : bitsToNat acc l = acc * 2 ^ l.length + bitsToNat 0 l := by
  induction l generalizing acc with
  | nil => simp [bitsToNat]
  | cons b l ih =>
    rw [bitsToNat, ih, bitsToNat, ih (2 * 0 + b.toNat)]
    simp [Nat.pow_succ]
    ring

theorem bitsToNat_lt (l : List Bool) : bitsToNat 0 l < 2 ^ l.length := by
  induction l with
  | nil => simp [bitsToNat]
  | cons b l ih =>
    rw [bitsToNat, bitsToNat_acc, List.length_cons, Nat.pow_succ]
    cases b <;> simp <;> omega

/-- The first bit is the most significant digit (R90, R137). -/
theorem bitsToNat_testBit (l : List Bool) (k : Nat) (h : k < l.length) :
    (bitsToNat 0 l).testBit (l.length - 1 - k) = l.getD k false := by
  induction l generalizing k with
  | nil => simp at h
  | cons b l ih =>
    rw [bitsToNat, bitsToNat_acc]
    cases k with
    | zero =>
      simp only [List.length_cons, Nat.add_sub_cancel, Nat.sub_zero, List.getD_cons_zero, Nat.mul_zero, Nat.zero_add]
      rw [Nat.mul_comm, Nat.testBit_two_pow_mul_add _ (bitsToNat_lt l)]
      cases b <;> simp
    | succ k =>
      simp only [List.length_cons, List.getD_cons_succ, Nat.mul_zero, Nat.zero_add] at *
      rw [show l.length + 1 - 1 - (k + 1) = l.length - 1 - k by omega, Nat.mul_comm,
        Nat.testBit_two_pow_mul_add _ (bitsToNat_lt l), if_pos (by omega)]
      exact ih k (by omega)

theorem bitsToWords_length (n : Nat) (bits : List Bool) : (bitsToWords n bits).length = n := by
  induction n generalizing bits with
  | zero => rfl
  | succ n ih => simp [bitsToWords, ih]

/-- One word from its first sixteen bits, filled with zeros (R137). -/
theorem word_of_bits (bits : List Bool) (k : Nat) (hk : k < 16) :
    (word (bitsToNat 0 (bits.take 16) * 2 ^ (16 - (bits.take 16).length))).getLsbD (15 - k) = bits.getD k false := by
  have hlt : 15 - k < 16 := by omega
  have hl : (bits.take 16).length = min 16 bits.length := List.length_take
  rw [word, BitVec.getLsbD_ofNat, decide_eq_true hlt, Bool.true_and, Nat.mul_comm, Nat.testBit_two_pow_mul,
    List.getD_eq_getElem?_getD]
  by_cases hb : k < bits.length
  · have e := bitsToNat_testBit (bits.take 16) k (by omega)
    rw [List.getD_eq_getElem?_getD, List.getElem?_take, if_pos (by omega)] at e
    rw [decide_eq_true (by omega), Bool.true_and, ← e]
    congr 1
    omega
  · rw [List.getElem?_eq_none (by omega), decide_eq_false (by omega), Bool.false_and]
    rfl

/-- Each word's bits are the sixteen at its place, most significant first, zeros beyond the list (R137). -/
theorem bitsToWords_bit (n : Nat) (bits : List Bool) (i : Nat) (hi : i < n) (k : Nat) (hk : k < 16) :
    ((bitsToWords n bits).getD i 0).getLsbD (15 - k) = bits.getD (16 * i + k) false := by
  induction n generalizing bits i with
  | zero => omega
  | succ n ih =>
    cases i with
    | zero => simpa [bitsToWords] using word_of_bits bits k hk
    | succ i =>
      simp only [bitsToWords, List.getD_cons_succ]
      rw [ih _ i (by omega), List.getD_eq_getElem?_getD, List.getElem?_drop, List.getD_eq_getElem?_getD]
      congr 2
      omega

/-! ## Decoded fields (R91) -/

theorem decodeCells_length (t n : Nat) (l : List BitCell) : (decodeCells t n l).length = n := by
  induction n generalizing l with
  | zero => rfl
  | succ n ih => cases l <;> simp [decodeCells, ih]

/-- Each decoded bit is its cell's, a cell the signal does not hold being out of lock (R91, log 7). -/
theorem decodeCells_get (t n : Nat) (l : List BitCell) (i : Nat) (hi : i < n) :
    (decodeCells t n l)[i]? = some (decodeCell t (l.getD i .outOfLock)) := by
  induction n generalizing l i with
  | zero => omega
  | succ n ih =>
    cases l with
    | nil =>
      cases i with
      | zero => rfl
      | succ i => simpa [decodeCells] using ih [] i (by omega)
    | cons c l =>
      cases i with
      | zero => rfl
      | succ i => simpa [decodeCells] using ih l i (by omega)

/-- The decoded value at a place of a field. -/
theorem decodeCells_value (t n : Nat) (l : List BitCell) (i : Nat) (hi : i < n) :
    ((decodeCells t n l).map (·.1)).getD i false = (decodeCell t (l.getD i .outOfLock)).1 := by
  rw [List.getD_eq_getElem?_getD, List.getElem?_map, decodeCells_get t n l i hi]
  rfl

theorem decodeHeader_length (t : Nat) (c : Option (List BitCell)) : (decodeHeader t c).length = 3 := by
  cases c with
  | none => rfl
  | some l => exact bitsToWords_length 3 _

/-- The first two of three header words. -/
theorem decodeHeader_take (t : Nat) (c : Option (List BitCell)) :
    (decodeHeader t c).take 2 = [(decodeHeader t c).getD 0 0, (decodeHeader t c).getD 1 0] := by
  match decodeHeader t c, decodeHeader_length t c with
  | [_, _, _], _ => rfl

/-! ## The check word (R90) -/

/-- One bit into the register: the shift, and the polynomial where the bit shifted out differs (R90). -/
theorem crcBit_eq (reg : Word) (b : Bool) :
    crcBit reg b = (reg <<< 1) ^^^ (if reg.getLsbD 15 = b then 0 else 0o010041) := by
  unfold crcBit
  simp only [beq_iff_eq]
  split <;> simp

/-- One word after others goes into the register they left (R90). -/
theorem crc_append (ws : List Word) (w : Word) : crc (ws ++ [w]) = crcWord (crc ws) w := by
  rw [crc, List.foldl_append]
  rfl

/-! ## Corrected candidates (R146) -/

/-- A correction inverts the bits at the named positions and no other (R146). -/
theorem invertAt_get (ps : List Nat) (k : Nat) (bits : List Bool) (i : Nat) :
    (invertAt ps k bits)[i]? = bits[i]?.map (fun b => if k + i ∈ ps then !b else b) := by
  induction bits generalizing k i with
  | nil => simp [invertAt]
  | cons b l ih =>
    cases i with
    | zero => simp [invertAt]
    | succ i => simp only [invertAt, List.getElem?_cons_succ, ih]; rw [show k + 1 + i = k + (i + 1) by omega]

/-! ## Words filled with zeros (R169, R170) -/

/-- A list no longer than the sector is completed with zeros. -/
theorem fitWords_short (n : Nat) (ws : List Word) (h : ws.length ≤ n) : fitWords n ws = ws ++ List.replicate (n - ws.length) 0 := by
  induction n generalizing ws with
  | zero => cases ws with
    | nil => rfl
    | cons => simp at h
  | succ n ih => cases ws with
    | nil => rw [fitWords_nil]; rfl
    | cons w ws => simp [fitWords, ih ws (by simpa using h)]

end Sys2Proof.Machine
end

