-- ==== Sys2Proof/Laws/Engine.lean ====
section
/-! SUPPORT. What the shared operations of the Recovery Engine and of a lost flush attempt can do to the state: each answers the state
it was given with the fields named changed, and no other. -/

namespace Sys2Proof.Machine

/-- The preemption test moves the ACTIVE job to the PARKED place or does nothing, and touches nothing but these and the standing
RECOVERY request (R123). -/
theorem State.preempt_frame (s : State) :
    s.preempt = { s with engine := { s.engine with active := s.preempt.engine.active, parked := s.preempt.engine.parked }
                         drive := { s.drive with recoveryRequest := s.preempt.drive.recoveryRequest } } := by
  unfold State.preempt
  split
  · rfl
  · split <;> rfl

/-- The preemption test either leaves the engine as it is or parks the ACTIVE job (R123). -/
theorem State.preempt_cases (s : State) :
    (s.preempt = s) ∨ ∃ j, s.engine.active = some j ∧ j.urgent = false ∧ s.engine.parked = none ∧
      s.engine.headUrgent = true ∧ s.engine.stopped = false ∧ s.canReserve = true ∧ s.drive.recoveryRunning = false ∧
      s.preempt = { s with engine := { s.engine with active := none, parked := some j }
                           drive := { s.drive with recoveryRequest := false } } := by
  unfold State.preempt
  split
  · exact .inl rfl
  · next j hj =>
    split
    · next h =>
      simp only [Bool.and_eq_true, Bool.not_eq_eq_eq_not, Bool.not_true, Option.isNone_iff_eq_none] at h
      exact .inr ⟨j, hj, h.1.1.1.1.1, h.1.1.1.1.2, h.1.1.1.2, h.1.1.2, h.1.2, h.2, rfl⟩
    · exact .inl rfl

/-- The engine's tests touch the ACTIVE and PARKED places and the standing RECOVERY request alone (R123, R124). -/
theorem State.poke_frame (s : State) :
    s.poke = { s with engine := { s.engine with active := s.poke.engine.active, parked := s.poke.engine.parked }
                      drive := { s.drive with recoveryRequest := s.poke.drive.recoveryRequest } } := by
  unfold State.poke
  obtain h | ⟨j, -, -, -, -, -, -, -, h⟩ := s.preempt_cases <;> rw [h] <;> rfl

/-- A RECOVERY grant runs exactly when the drive's grant is one that no command has aborted (R100). -/
theorem Drive.recoveryRunning_iff (d : Drive) :
    d.recoveryRunning = true ↔ ∃ g, d.grant = some g ∧ g.aborted = false ∧ ∃ t x f l, g.work = .recovery t x f l := by
  unfold Drive.recoveryRunning
  constructor
  · intro h
    split at h
    · next g hg =>
      split at h
      · next t x f l e => exact ⟨g, hg, by simpa using h, t, x, f, l, e⟩
      all_goals cases h
    · cases h
  · rintro ⟨g, hg, ha, t, x, f, l, e⟩
    simp [hg, e, ha]

/-- The engine is stopped by a hold reason or the suspend flag (R115). -/
theorem Engine.stopped_iff (e : Engine) :
    e.stopped = true ↔ e.noPack = true ∨ e.speed = true ∨ e.transparent = true ∨ e.resultsFull = true ∨ e.suspended = true := by
  simp [Engine.stopped, Engine.held, or_assoc]

/-- The head is urgent when the queued portion begins with an urgent job (R123). -/
theorem Engine.headUrgent_iff (e : Engine) : e.headUrgent = true ↔ ∃ k rest, e.queued = k :: rest ∧ k.urgent = true := by
  unfold Engine.headUrgent
  split <;> simp_all

/-- Without a preemption the tests leave the request standing exactly while the engine is not stopped and no grant runs (R116,
R124). -/
theorem State.poke_stays (s : State) (h : s.preempt = s) :
    s.poke = { s with drive := { s.drive with
      recoveryRequest := s.engine.active.isSome && !s.engine.stopped && !s.drive.recoveryRunning } } := by
  simp only [State.poke, h]
  rfl

/-! ## Places in the queued portion (R113, R119, R120) -/

/-- A new urgent job stands behind the urgent jobs at the front and before all others (R120). -/
theorem insertUrgent_split (j : Job) (l : List Job) : ∃ front back, insertUrgent j l = front ++ j :: back ∧ front ++ back = l ∧
    (∀ x ∈ front, x.urgent = true) ∧ (∀ x, back.head? = some x → x.urgent = false) := by
  induction l with
  | nil => exact ⟨[], [], rfl, rfl, by simp, by simp⟩
  | cons k l ih =>
    cases hk : k.urgent with
    | false => exact ⟨[], k :: l, by simp [insertUrgent, hk], rfl, by simp, by simp [hk]⟩
    | true =>
      obtain ⟨front, back, h1, h2, h3, h4⟩ := ih
      exact ⟨k :: front, back, by simp [insertUrgent, hk, h1], by simp [h2], by simpa [hk] using h3, h4⟩

/-- The job of a track in the queued portion, with those before it, none of them of that track (R113). -/
theorem splitQueued_some (t : Track) (l before after : List Job) (j : Job) (h : splitQueued t l = some (before, j, after)) :
    l = before ++ j :: after ∧ j.track = t ∧ ∀ k ∈ before, k.track ≠ t := by
  induction l generalizing before with
  | nil => cases h
  | cons k l ih =>
    simp only [splitQueued] at h
    split at h
    · next e => cases h; exact ⟨rfl, e, by simp⟩
    · next e =>
      obtain ⟨⟨b, i, a⟩, hp, hq⟩ := Option.map_eq_some_iff.1 h
      cases hq
      obtain ⟨h1, h2, h3⟩ := ih b hp
      exact ⟨by simp [h1], h2, by simpa [e] using h3⟩

/-- A track with no job in the queued portion is not found there (R113). -/
theorem splitQueued_none (t : Track) (l : List Job) (h : ∀ k ∈ l, k.track ≠ t) : splitQueued t l = none := by
  induction l with
  | nil => rfl
  | cons k l ih =>
    rw [splitQueued, if_neg (h k List.mem_cons_self), ih (fun x hx => h x (List.mem_cons_of_mem _ hx))]
    rfl

/-- The first job of a track is the one found (R113). -/
theorem splitQueued_found (t : Track) (before after : List Job) (j : Job) (hj : j.track = t) (h : ∀ k ∈ before, k.track ≠ t) :
    splitQueued t (before ++ j :: after) = some (before, j, after) := by
  induction before with
  | nil => simp [splitQueued, hj]
  | cons k l ih =>
    rw [List.cons_append, splitQueued, if_neg (h k List.mem_cons_self), ih (fun x hx => h x (List.mem_cons_of_mem _ hx))]
    rfl

/-- RESULTS_FULL is lifted when a place is free (R116). -/
theorem State.liftResultsFull_free (s : State) (h : s.canReserve = true) :
    s.liftResultsFull = { s with engine := { s.engine with resultsFull := false } } := by
  simp [State.liftResultsFull, h, State.withEngine]

/-- Lifting RESULTS_FULL touches that flag alone (R116). -/
theorem State.liftResultsFull_frame (s : State) :
    s.liftResultsFull = { s with engine := { s.engine with resultsFull := s.liftResultsFull.engine.resultsFull } } := by
  unfold State.liftResultsFull
  split <;> rfl

/-- After a job has left the queue only the window, RESULTS_FULL, the two places and the standing request may change (R116, R119,
R123, R124). -/
theorem State.afterQueueChange_frame (s : State) :
    s.afterQueueChange =
      { s with engine := { s.engine with active := s.afterQueueChange.engine.active, parked := s.afterQueueChange.engine.parked
                                         window := s.afterQueueChange.engine.window
                                         resultsFull := s.afterQueueChange.engine.resultsFull }
               drive := { s.drive with recoveryRequest := s.afterQueueChange.drive.recoveryRequest } } := by
  unfold State.afterQueueChange
  generalize hw : s.withEngine _ = w
  have e : w = { s with engine := { s.engine with window := w.engine.window } } := by
    subst hw; by_cases h0 : s.engine.length = 0 <;> simp [State.withEngine, h0]
  generalize hl : w.liftResultsFull = v
  have f : v = { w with engine := { w.engine with resultsFull := v.engine.resultsFull } } := by
    subst hl; exact w.liftResultsFull_frame
  generalize hp : v.poke = u
  have g := v.poke_frame
  rw [hp] at g
  rw [g, f, e]

/-- A record is placed in the Result Queue, or dropped with its event (R130). -/
theorem State.placeRecord_frame (ending : Ending) (j : Job) (s : State) :
    s.placeRecord ending j = { s with results := (s.placeRecord ending j).results, events := (s.placeRecord ending j).events } := by
  unfold State.placeRecord
  split <;> rfl

/-- Storing words touches the map alone (R40, R42). -/
theorem State.storeSector_frame (a : Addr) (o : Origin) (ws : List Word) (s t : State) (h : s.storeSector a o ws = some t) :
    t = { s with map := t.map } := by
  unfold State.storeSector at h
  split at h
  · cases h; rfl
  · split at h <;> cases h; rfl

/-- An offer touches the map and the event latches alone (R48, R49). -/
theorem State.offer_frame (a : Addr) (o : Origin) (ws : List Word) (s : State) :
    (s.offer a o ws).2 = { s with map := (s.offer a o ws).2.map, events := (s.offer a o ws).2.events } := by
  unfold State.offer
  split
  · rfl
  · split
    · rfl
    · cases h : s.storeSector a o ws with
      | none => rfl
      | some t => rw [State.storeSector_frame a o ws s t h]

/-! ## Passing a sector's outcome over (R118, R124, R128) -/

/-- Passing a sector over marks the running RECOVERY grant and touches nothing else (R118, R124, R128). -/
theorem State.passOver_frame (n : Nat) (s : State) :
    s.passOver n = { s with drive := { s.drive with grant := (s.passOver n).drive.grant } } := by
  unfold State.passOver
  split <;> rfl

/-- What passing a sector over does to the grant (R118, R124, R128). -/
theorem State.passOver_grant (n : Nat) (s : State) :
    (s.passOver n).drive.grant =
      if s.drive.recoveryRunning then s.drive.grant.map (fun g => { g with passedOver := insertSector n g.passedOver })
      else s.drive.grant := by
  unfold State.passOver
  split <;> rfl

@[simp] theorem State.passOver_now (n : Nat) (s : State) : (s.passOver n).now = s.now := by
  rw [State.passOver_frame]
@[simp] theorem State.passOver_geom (n : Nat) (s : State) : (s.passOver n).geom = s.geom := by
  rw [State.passOver_frame]
@[simp] theorem State.passOver_lines (n : Nat) (s : State) : (s.passOver n).lines = s.lines := by
  rw [State.passOver_frame]
@[simp] theorem State.passOver_port (n : Nat) (s : State) : (s.passOver n).port = s.port := by
  rw [State.passOver_frame]
@[simp] theorem State.passOver_timing (n : Nat) (s : State) : (s.passOver n).timing = s.timing := by
  rw [State.passOver_frame]
@[simp] theorem State.passOver_regions (n : Nat) (s : State) : (s.passOver n).regions = s.regions := by
  rw [State.passOver_frame]
@[simp] theorem State.passOver_ladders (n : Nat) (s : State) : (s.passOver n).ladders = s.ladders := by
  rw [State.passOver_frame]
@[simp] theorem State.passOver_map (n : Nat) (s : State) : (s.passOver n).map = s.map := by
  rw [State.passOver_frame]
@[simp] theorem State.passOver_posts (n : Nat) (s : State) : (s.passOver n).posts = s.posts := by
  rw [State.passOver_frame]
@[simp] theorem State.passOver_buffers (n : Nat) (s : State) : (s.passOver n).buffers = s.buffers := by
  rw [State.passOver_frame]
@[simp] theorem State.passOver_timer (n : Nat) (s : State) : (s.passOver n).timer = s.timer := by
  rw [State.passOver_frame]
@[simp] theorem State.passOver_engine (n : Nat) (s : State) : (s.passOver n).engine = s.engine := by
  rw [State.passOver_frame]
@[simp] theorem State.passOver_results (n : Nat) (s : State) : (s.passOver n).results = s.results := by
  rw [State.passOver_frame]
@[simp] theorem State.passOver_events (n : Nat) (s : State) : (s.passOver n).events = s.events := by
  rw [State.passOver_frame]
@[simp] theorem State.passOver_pack (n : Nat) (s : State) : (s.passOver n).pack = s.pack := by
  rw [State.passOver_frame]
@[simp] theorem State.passOver_ci (n : Nat) (s : State) : (s.passOver n).ci = s.ci := by
  rw [State.passOver_frame]
@[simp] theorem State.passOver_completions (n : Nat) (s : State) : (s.passOver n).completions = s.completions := by
  rw [State.passOver_frame]
@[simp] theorem State.passOver_driveLog (n : Nat) (s : State) : (s.passOver n).driveLog = s.driveLog := by
  rw [State.passOver_frame]
@[simp] theorem State.passOver_pending (n : Nat) (s : State) : (s.passOver n).pending = s.pending := by
  rw [State.passOver_frame]

/-! ## The charge of a grant's report (R85, R110, R125 to R127) -/

@[simp] theorem Job.charge_settles (g : Grant) (j : Job) :
    (j.charge g).settles = if g.settleSpent then countUp j.settles else j.settles := rfl
@[simp] theorem Job.charge_clamped (g : Grant) (j : Job) : (j.charge g).clamped = (j.clamped || g.clamped) := rfl

/-- A charge touches the settle count and the offset-clamped flag alone (R110). -/
theorem Job.charge_frame (g : Grant) (j : Job) :
    j.charge g = { j with settles := (j.charge g).settles, clamped := (j.charge g).clamped } := rfl

/-- A job cut off takes the charge of its running grant, or none (R127). -/
theorem State.chargeRunning_cases (j : Job) (s : State) :
    s.chargeRunning j = j ∨ ∃ g, s.drive.recoveryRunning = true ∧ s.drive.grant = some g ∧ s.chargeRunning j = j.charge g := by
  unfold State.chargeRunning
  split
  · next h =>
    cases hg : s.drive.grant with
    | none => exact .inl rfl
    | some g => exact .inr ⟨g, h, rfl, rfl⟩
  · exact .inl rfl

/-! ## A flush attempt that ends its grant (R66, R83, R98) -/

/-- Counting a failed attempt touches the Post Queue and the event latches alone (R66). -/
theorem State.countFlushFailure_frame (a : Addr) (s : State) :
    s.countFlushFailure a = { s with posts := (s.countFlushFailure a).posts, events := (s.countFlushFailure a).events } := by
  unfold State.countFlushFailure
  split
  · rfl
  · split <;> rfl

/-- A flush attempt lost with its grant frees the drive, invalidates the buffered sector and counts the failure; nothing else changes
(R66, R68, R75, R82). -/
theorem State.flushLost_frame (a : Addr) (dropped : Bool) (s : State) :
    s.flushLost a dropped =
      { s with drive := { s.drive with grant := none, activity := .idle }
               buffers := (s.invalidateSector a).buffers
               posts := (s.flushLost a dropped).posts
               events := (s.flushLost a dropped).events } := by
  unfold State.flushLost
  cases dropped with
  | true => rfl
  | false =>
    simp only [Bool.false_eq_true, ↓reduceIte]
    rw [State.countFlushFailure_frame]
    rfl

/-- A failed recalibrate of a grant that is no FLUSH grant ends it as a second positioning failure does (R83, R84). -/
theorem State.recalibrateLost_eq (g : Grant) (header field : List Word) (s : State) (h : ∀ a w d, g.work ≠ .flush a w d) :
    s.recalibrateLost g header field = s.positioningLost g header field := by
  unfold State.recalibrateLost
  split
  · next a w d e => exact absurd e (h a w d)
  all_goals rfl

end Sys2Proof.Machine
end

