-- ==== Sys2Proof/Laws/Operands.lean ====
section
/-! SUPPORT. The values a parameter word may name: each reader against the word its value is written with, and the words it
refuses. -/

namespace Sys2Proof.Machine

/-- A word equals a literal when its number does. -/
theorem word_eq_iff (w : Word) (n : Nat) (h : n < 65536) : w = BitVec.ofNat 16 n ↔ w.toNat = n := by
  constructor
  · rintro rfl; simp; omega
  · intro e; exact BitVec.eq_of_toNat_eq (by simp [e]; omega)

theorem flagOf_some (w : Word) (b : Bool) : flagOf w = some b ↔ flagWord b = w := by
  constructor
  · intro h
    unfold flagOf at h
    repeat' split at h
    all_goals cases h <;> simp [*, flagWord]
  · rintro rfl
    cases b <;> rfl

theorem flagOf_none (w : Word) : flagOf w = none ↔ 1 < w.toNat := by
  have h0 := word_eq_iff w 0 (by omega)
  have h1 := word_eq_iff w 1 (by omega)
  simp only [flagOf]
  split <;> (try split) <;> simp_all <;> omega

theorem modeOf_some (w : Word) (m : Mode) : modeOf w = some m ↔ Mode.toWord m = w := by
  constructor
  · intro h
    unfold modeOf at h
    repeat' split at h
    all_goals cases h <;> simp [*, Mode.toWord]
  · rintro rfl
    cases m <;> rfl

theorem writePolicyOf_some (w : Word) (p : WritePolicy) : writePolicyOf w = some p ↔ WritePolicy.toWord p = w := by
  constructor
  · intro h
    unfold writePolicyOf at h
    repeat' split at h
    all_goals cases h <;> simp [*, WritePolicy.toWord]
  · rintro rfl
    cases p <;> rfl

theorem writePolicyOf_none (w : Word) : writePolicyOf w = none ↔ 2 < w.toNat := by
  have h0 := word_eq_iff w 0 (by omega)
  have h1 := word_eq_iff w 1 (by omega)
  have h2 := word_eq_iff w 2 (by omega)
  simp only [writePolicyOf]
  split <;> (try split) <;> (try split) <;> simp_all <;> omega

theorem readPolicyOf_some (w : Word) (p : ReadPolicy) : readPolicyOf w = some p ↔ ReadPolicy.toWord p = w := by
  constructor
  · intro h
    unfold readPolicyOf at h
    repeat' split at h
    all_goals cases h <;> simp [*, ReadPolicy.toWord]
  · rintro rfl
    cases p <;> rfl

theorem readPolicyOf_none (w : Word) : readPolicyOf w = none ↔ 1 < w.toNat := by
  have h0 := word_eq_iff w 0 (by omega)
  have h1 := word_eq_iff w 1 (by omega)
  simp only [readPolicyOf]
  split <;> (try split) <;> simp_all <;> omega

theorem voteModeOf_some (w : Word) (m : VoteMode) : voteModeOf w = some m ↔ VoteMode.toWord m = w := by
  constructor
  · intro h
    unfold voteModeOf at h
    repeat' split at h
    all_goals cases h <;> simp [*, VoteMode.toWord]
  · rintro rfl
    cases m <;> rfl

theorem voteModeOf_none (w : Word) : voteModeOf w = none ↔ 1 < w.toNat := by
  have h0 := word_eq_iff w 0 (by omega)
  have h1 := word_eq_iff w 1 (by omega)
  simp only [voteModeOf]
  split <;> (try split) <;> simp_all <;> omega

theorem clampNat_eq (low high x : Nat) (h : low ≤ high) : clampNat low high x = max low (min high x) := by
  unfold clampNat
  split
  · omega
  · split <;> omega

theorem clampInt_eq (low high x : Int) (h : low ≤ high) : clampInt low high x = max low (min high x) := by
  unfold clampInt
  split
  · omega
  · split <;> omega

/-- A clamp changes a number exactly when it lies outside the range. -/
theorem clampNat_ne_iff (low high x : Nat) (h : low ≤ high) : (clampNat low high x != x) = true ↔ x < low ∨ high < x := by
  rw [clampNat_eq low high x h, bne_iff_ne]
  omega

theorem clampInt_ne_iff (low high x : Int) (h : low ≤ high) : (clampInt low high x != x) = true ↔ x < low ∨ high < x := by
  rw [clampInt_eq low high x h, bne_iff_ne]
  omega

end Sys2Proof.Machine
end

