-- ==== Sys2Proof/Laws/PerInstr.lean ====
section
/-! SUPPORT. Statements about every command as syntax, one lemma per constructor of Instr. -/

namespace Sys2Proof.Laws.CodeListed

open Sys2Proof

/-- The code of a command row is one of the catalogue's exactly when the row is not the one for unknown codes, for a command that can
arrive (R163, R179). -/
def Statement (i : Instr) : Prop :=
  i.wellFormed = true → ∀ c, i.code? = some c → (c ∈ Code.catalogue ↔ ∀ (d : Word) (ps : List Word), i ≠ .badCommand d ps)

/-- A row without a code. -/
theorem of_none (i : Instr) (h : i.code? = none) : Statement i := by
  intro _ c hc
  rw [h] at hc
  cases hc

/-- A row with a code of the catalogue. -/
theorem of_listed (i : Instr) (c : Word) (h : i.code? = some c) (listed : c ∈ Code.catalogue)
    (known : ∀ (d : Word) (ps : List Word), i ≠ .badCommand d ps) : Statement i := by
  intro _ d hd
  rw [h] at hd
  cases hd
  exact ⟨fun _ => known, fun _ => listed⟩

theorem powerOn (straps : Straps) (ready fault : Bool) : Statement (.powerOn straps ready fault) := of_none _ rfl

theorem controllerClear : Statement .controllerClear := of_none _ rfl

theorem otherUnitRequest (unit : Fin 8) (request : Request) : Statement (.otherUnitRequest unit request) := of_none _ rfl

theorem select : Statement .select := of_none _ rfl

theorem seek (cylinder : Nat) : Statement (.seek cylinder) := of_none _ rfl

theorem recalibrate : Statement .recalibrate := of_none _ rfl

theorem read (head sector : Nat) : Statement (.read head sector) := of_none _ rfl

theorem write (head sector : Nat) (words : List Word) (permit : Bool) : Statement (.write head sector words permit) := of_none _ rfl

theorem format (head : Nat) (permit : Bool) : Statement (.format head permit) := of_none _ rfl

theorem sense (permit : Bool) : Statement (.sense permit) := of_none _ rfl

theorem loadSectorData (words : List Word) : Statement (.loadSectorData words) := of_none _ rfl

theorem driveGrant (permit : Bool) : Statement (.driveGrant permit) := of_none _ rfl

theorem seekComplete : Statement .seekComplete := of_none _ rfl

theorem positioningLimitExpiry (permit : Bool) : Statement (.positioningLimitExpiry permit) := of_none _ rfl

theorem settleEnd : Statement .settleEnd := of_none _ rfl

theorem indexPulse (elapsed : Nat) (protect : Bool) : Statement (.indexPulse elapsed protect) := of_none _ rfl

theorem indexLoss (gateRaised : Bool) : Statement (.indexLoss gateRaised) := of_none _ rfl

theorem readSectorEnd (signal : SectorSignal) : Statement (.readSectorEnd signal) := of_none _ rfl

theorem captureSectorDecoded (sector : Nat) (signal : SectorSignal) : Statement (.captureSectorDecoded sector signal) := of_none _ rfl

theorem captureEnd : Statement .captureEnd := of_none _ rfl

theorem sectorWriteEnd (header : Option (List BitCell)) (protect permit : Bool) : Statement (.sectorWriteEnd header protect permit) := of_none _ rfl

theorem formatWorkEnd (headers : List (Option (List BitCell))) : Statement (.formatWorkEnd headers) := of_none _ rfl

theorem recoveryPassEnd (signals : List (Nat × SectorSignal)) : Statement (.recoveryPassEnd signals) := of_none _ rfl

theorem jobActivation : Statement .jobActivation := of_none _ rfl

theorem batchWindowExpiry : Statement .batchWindowExpiry := of_none _ rfl

theorem holdDeadline : Statement .holdDeadline := of_none _ rfl

theorem waitingWriteEntry (permit : Bool) : Statement (.waitingWriteEntry permit) := of_none _ rfl

theorem flushLatencyExpiry : Statement .flushLatencyExpiry := of_none _ rfl

theorem driveReadyRise : Statement .driveReadyRise := of_none _ rfl

theorem driveReadyFall : Statement .driveReadyFall := of_none _ rfl

theorem driveFault : Statement .driveFault := of_none _ rfl

theorem faultClearEnd : Statement .faultClearEnd := of_none _ rfl

theorem faultLineFall : Statement .faultLineFall := of_none _ rfl

theorem unloadRequest (elapsed : Nat) : Statement (.unloadRequest elapsed) := of_none _ rfl

theorem unloadRelease : Statement .unloadRelease := of_none _ rfl

theorem showStatus (params : List Word) : Statement (.showStatus params) :=
  of_listed _ Code.showStatus rfl (by decide) (fun _ _ h => by cases h)

theorem readResult (params : List Word) : Statement (.readResult params) :=
  of_listed _ Code.readResult rfl (by decide) (fun _ _ h => by cases h)

theorem readMapEntry (params : List Word) : Statement (.readMapEntry params) :=
  of_listed _ Code.readMapEntry rfl (by decide) (fun _ _ h => by cases h)

theorem readStoreData (params : List Word) : Statement (.readStoreData params) :=
  of_listed _ Code.readStoreData rfl (by decide) (fun _ _ h => by cases h)

theorem listMap (params : List Word) : Statement (.listMap params) :=
  of_listed _ Code.listMap rfl (by decide) (fun _ _ h => by cases h)

theorem readRegion (params : List Word) : Statement (.readRegion params) :=
  of_listed _ Code.readRegion rfl (by decide) (fun _ _ h => by cases h)

theorem readLadder (params : List Word) : Statement (.readLadder params) :=
  of_listed _ Code.readLadder rfl (by decide) (fun _ _ h => by cases h)

theorem readDriveSector (params : List Word) : Statement (.readDriveSector params) :=
  of_listed _ Code.readDriveSector rfl (by decide) (fun _ _ h => by cases h)

theorem loadRegion (params : List Word) : Statement (.loadRegion params) :=
  of_listed _ Code.loadRegion rfl (by decide) (fun _ _ h => by cases h)

theorem deleteRegion (params : List Word) : Statement (.deleteRegion params) :=
  of_listed _ Code.deleteRegion rfl (by decide) (fun _ _ h => by cases h)

theorem loadLadderStep (params : List Word) : Statement (.loadLadderStep params) :=
  of_listed _ Code.loadLadderStep rfl (by decide) (fun _ _ h => by cases h)

theorem clearLadder (params : List Word) : Statement (.clearLadder params) :=
  of_listed _ Code.clearLadder rfl (by decide) (fun _ _ h => by cases h)

theorem recoverTrack (params : List Word) : Statement (.recoverTrack params) :=
  of_listed _ Code.recoverTrack rfl (by decide) (fun _ _ h => by cases h)

theorem cancelTrack (params : List Word) : Statement (.cancelTrack params) :=
  of_listed _ Code.cancelTrack rfl (by decide) (fun _ _ h => by cases h)

theorem suspendEngine (params : List Word) : Statement (.suspendEngine params) :=
  of_listed _ Code.suspendEngine rfl (by decide) (fun _ _ h => by cases h)

theorem resumeEngine (params : List Word) : Statement (.resumeEngine params) :=
  of_listed _ Code.resumeEngine rfl (by decide) (fun _ _ h => by cases h)

theorem resetEngine (params : List Word) : Statement (.resetEngine params) :=
  of_listed _ Code.resetEngine rfl (by decide) (fun _ _ h => by cases h)

theorem loadSector (params : List Word) : Statement (.loadSector params) :=
  of_listed _ Code.loadSector rfl (by decide) (fun _ _ h => by cases h)

theorem dropSector (params : List Word) : Statement (.dropSector params) :=
  of_listed _ Code.dropSector rfl (by decide) (fun _ _ h => by cases h)

theorem clearMap (params : List Word) : Statement (.clearMap params) :=
  of_listed _ Code.clearMap rfl (by decide) (fun _ _ h => by cases h)

theorem permitUnload (params : List Word) : Statement (.permitUnload params) :=
  of_listed _ Code.permitUnload rfl (by decide) (fun _ _ h => by cases h)

theorem forceUnload (params : List Word) : Statement (.forceUnload params) :=
  of_listed _ Code.forceUnload rfl (by decide) (fun _ _ h => by cases h)

theorem setGuard (params : List Word) : Statement (.setGuard params) :=
  of_listed _ Code.setGuard rfl (by decide) (fun _ _ h => by cases h)

theorem setMode (params : List Word) : Statement (.setMode params) :=
  of_listed _ Code.setMode rfl (by decide) (fun _ _ h => by cases h)

theorem setGeometry (params : List Word) : Statement (.setGeometry params) :=
  of_listed _ Code.setGeometry rfl (by decide) (fun _ _ h => by cases h)

theorem setTiming (params : List Word) : Statement (.setTiming params) :=
  of_listed _ Code.setTiming rfl (by decide) (fun _ _ h => by cases h)

theorem setTrim (params : List Word) : Statement (.setTrim params) :=
  of_listed _ Code.setTrim rfl (by decide) (fun _ _ h => by cases h)

theorem setControlAddress (params : List Word) : Statement (.setControlAddress params) :=
  of_listed _ Code.setControlAddress rfl (by decide) (fun _ _ h => by cases h)

theorem enableFormat (params : List Word) : Statement (.enableFormat params) :=
  of_listed _ Code.enableFormat rfl (by decide) (fun _ _ h => by cases h)

theorem clearEvents (params : List Word) : Statement (.clearEvents params) :=
  of_listed _ Code.clearEvents rfl (by decide) (fun _ _ h => by cases h)

theorem confirm (params : List Word) : Statement (.confirm params) :=
  of_listed _ Code.confirm rfl (by decide) (fun _ _ h => by cases h)

theorem badCommand (code : Word) (params : List Word) : Statement (.badCommand code params) := by
  intro hw c hc
  cases hc
  have h : code ∉ Code.catalogue := by
    simp only [Instr.wellFormed, Bool.and_eq_true, Bool.not_eq_true'] at hw
    simpa using hw.1
  exact ⟨fun l => absurd l h, fun k => absurd rfl (k code params)⟩

end Sys2Proof.Laws.CodeListed
end

