-- ==== Sys2Proof/Laws/Tables.lean ====
section
/-! SUPPORT. The stores of the part: tables by number keep their one form and read back what was put; the Substitution Map keeps its
order, its entries are found again, and a free slot is the lowest one. -/

namespace Sys2Proof.Machine

/-! ## Tables by number -/

/-- Every number of a table's rest lies above its first. -/
theorem tableWf_cons {α : Type} (p : Nat × α) (l : List (Nat × α)) :
    tableWf (p :: l) = true ↔ (∀ q ∈ l, p.1 < q.1) ∧ tableWf l = true := by
  induction l generalizing p with
  | nil => simp [tableWf]
  | cons q l ih =>
    simp only [tableWf, Bool.and_eq_true, decide_eq_true_eq, List.mem_cons, forall_eq_or_imp]
    constructor
    · rintro ⟨h, w⟩
      exact ⟨⟨h, fun r hr => Nat.lt_trans h (((ih q).1 w).1 r hr)⟩, w⟩
    · rintro ⟨⟨h, -⟩, w⟩
      exact ⟨h, w⟩

/-- What a table may list after a put. -/
theorem tablePut_mem {α : Type} (k : Nat) (v : α) (l : List (Nat × α)) (q : Nat × α) (h : q ∈ tablePut k v l) :
    q = (k, v) ∨ q ∈ l := by
  induction l with
  | nil => simpa [tablePut] using h
  | cons p l ih =>
    simp only [tablePut] at h
    split at h
    · simpa using h
    · split at h
      · rcases List.mem_cons.1 h with h | h
        · exact .inl h
        · exact .inr (List.mem_cons_of_mem _ h)
      · rcases List.mem_cons.1 h with h | h
        · exact .inr (h ▸ List.mem_cons_self)
        · exact (ih h).imp id (List.mem_cons_of_mem _)

/-- A put keeps the one form (R43, R72). -/
theorem tablePut_wf {α : Type} (k : Nat) (v : α) (l : List (Nat × α)) (h : tableWf l = true) : tableWf (tablePut k v l) = true := by
  induction l with
  | nil => rfl
  | cons p l ih =>
    have hp := (tableWf_cons p l).1 h
    simp only [tablePut]
    split
    · next hk =>
      refine (tableWf_cons _ _).2 ⟨fun q hq => ?_, h⟩
      rcases List.mem_cons.1 hq with rfl | hq
      · exact hk
      · exact Nat.lt_trans hk (hp.1 q hq)
    · split
      · next hk =>
        refine (tableWf_cons _ _).2 ⟨fun q hq => ?_, hp.2⟩
        have := hp.1 q hq
        simp only
        omega
      · refine (tableWf_cons _ _).2 ⟨fun q hq => ?_, ih hp.2⟩
        rcases tablePut_mem _ _ _ _ hq with rfl | hq
        · simp only; omega
        · exact hp.1 q hq

/-- What a table may list after a delete. -/
theorem tableDel_mem {α : Type} (k : Nat) (l : List (Nat × α)) (q : Nat × α) (h : q ∈ tableDel k l) : q ∈ l := by
  induction l with
  | nil => exact h
  | cons p l ih =>
    simp only [tableDel] at h
    split at h
    · exact List.mem_cons_of_mem _ h
    · rcases List.mem_cons.1 h with h | h
      · exact h ▸ List.mem_cons_self
      · exact List.mem_cons_of_mem _ (ih h)

/-- A delete keeps the one form (R75, R136). -/
theorem tableDel_wf {α : Type} (k : Nat) (l : List (Nat × α)) (h : tableWf l = true) : tableWf (tableDel k l) = true := by
  induction l with
  | nil => rfl
  | cons p l ih =>
    have hp := (tableWf_cons p l).1 h
    simp only [tableDel]
    split
    · exact hp.2
    · exact (tableWf_cons _ _).2 ⟨fun q hq => hp.1 q (tableDel_mem _ _ _ hq), ih hp.2⟩

/-- What was put is read back. -/
theorem tableGet_put_self {α : Type} (k : Nat) (v : α) (l : List (Nat × α)) : tableGet k (tablePut k v l) = some v := by
  induction l with
  | nil => simp [tablePut, tableGet]
  | cons p l ih =>
    simp only [tablePut]
    split
    · simp [tableGet]
    · split
      · simp [tableGet]
      · next h1 h2 => rw [tableGet, if_neg (Ne.symm h2), ih]

/-- A put changes no other number. -/
theorem tableGet_put_other {α : Type} (k m : Nat) (v : α) (l : List (Nat × α)) (h : m ≠ k) :
    tableGet m (tablePut k v l) = tableGet m l := by
  induction l with
  | nil => simp [tablePut, tableGet, Ne.symm h]
  | cons p l ih =>
    simp only [tablePut]
    split
    · rw [tableGet, if_neg (Ne.symm h)]
    · split
      · next h2 => rw [tableGet, if_neg (Ne.symm h), tableGet, if_neg (by omega)]
      · rw [tableGet, tableGet, ih]

/-- A delete changes no other number. -/
theorem tableGet_del_other {α : Type} (k m : Nat) (l : List (Nat × α)) (h : m ≠ k) : tableGet m (tableDel k l) = tableGet m l := by
  induction l with
  | nil => rfl
  | cons p l ih =>
    simp only [tableDel]
    split
    · next h2 => rw [tableGet, if_neg (by omega)]
    · rw [tableGet, tableGet, ih]

/-- A number that lies below every number of a table is not in it. -/
theorem tableGet_below {α : Type} (k : Nat) (l : List (Nat × α)) (h : ∀ q ∈ l, k < q.1) : tableGet k l = none := by
  induction l with
  | nil => rfl
  | cons p l ih =>
    have hp := h p List.mem_cons_self
    rw [tableGet, if_neg (by omega), ih (fun q hq => h q (List.mem_cons_of_mem _ hq))]

/-- What was deleted is gone. -/
theorem tableGet_del_self {α : Type} (k : Nat) (l : List (Nat × α)) (h : tableWf l = true) : tableGet k (tableDel k l) = none := by
  induction l with
  | nil => rfl
  | cons p l ih =>
    have hp := (tableWf_cons p l).1 h
    simp only [tableDel]
    split
    · next e => exact tableGet_below _ _ (e ▸ hp.1)
    · next e => rw [tableGet, if_neg e, ih hp.2]

/-! ## The Post Queue by address (R60) -/

/-- The entry of an address after it is changed where it stands (R60). -/
theorem updatePost_find (a : Addr) (f : PostEntry → PostEntry) (hf : ∀ q, (f q).addr = q.addr) (l : List PostEntry) :
    (updatePost a f l).find? (fun p => p.addr == a) = (l.find? (fun p => p.addr == a)).map f := by
  induction l with
  | nil => rfl
  | cons q l ih =>
    by_cases h : q.addr = a
    · simp [updatePost, h, hf]
    · have e : updatePost a f (q :: l) = q :: updatePost a f l := by simp [updatePost, h]
      rw [e, List.find?_cons_of_neg (by simpa using h), List.find?_cons_of_neg (by simpa using h), ih]

/-! ## The accumulators of a bank (R136, R149) -/

/-- A discarded accumulator reads as the empty one. -/
theorem Engine.dropAccumulator_self (b : Option Nat) (n : Nat) (e : Engine) (h : ∀ l ∈ e.banks, tableWf l = true) :
    (e.dropAccumulator b n).accumulator b n = Accumulator.empty := by
  cases b with
  | none => rfl
  | some i =>
    by_cases hi : i < e.banks.length
    · simp [Engine.dropAccumulator, Engine.accumulator, Engine.setBank, Engine.bank, hi,
        tableGet_del_self n e.banks[i] (h _ (List.getElem_mem hi))]
    · simp [Engine.dropAccumulator, Engine.accumulator, Engine.setBank, Engine.bank, hi, tableGet]

/-- Discarding an accumulator changes no other sector's and no other bank's. -/
theorem Engine.dropAccumulator_other (b c : Option Nat) (n m : Nat) (e : Engine) (h : c ≠ b ∨ m ≠ n) :
    (e.dropAccumulator b n).accumulator c m = e.accumulator c m := by
  cases b with
  | none => rfl
  | some i =>
    cases c with
    | none => rfl
    | some k =>
      by_cases hk : k = i
      · subst hk
        have hm : m ≠ n := h.resolve_left (fun g => g rfl)
        by_cases hi : k < e.banks.length
        · simp [Engine.dropAccumulator, Engine.accumulator, Engine.setBank, Engine.bank, hi, tableGet_del_other n m _ hm]
        · simp [Engine.dropAccumulator, Engine.accumulator, Engine.setBank, Engine.bank, hi]
      · simp [Engine.dropAccumulator, Engine.accumulator, Engine.setBank, Engine.bank, Ne.symm hk]

/-! ## The Substitution Map -/

/-- Address order goes one way (R40). -/
theorem Addr.before_trans (a b c : Addr) (h : a.before b = true) (k : b.before c = true) : a.before c = true := by
  simp only [Addr.before, Bool.or_eq_true, Bool.and_eq_true, decide_eq_true_eq, beq_iff_eq] at *
  omega

/-- Two addresses are equal or stand in order one way (R40). -/
theorem Addr.before_total (a b : Addr) (h : a.before b = false) (k : a ≠ b) : b.before a = true := by
  have : ¬ (a.cyl = b.cyl ∧ a.head = b.head ∧ a.sector = b.sector) := by
    rintro ⟨h1, h2, h3⟩
    cases a; cases b
    simp_all
  simp only [Addr.before, Bool.or_eq_true, Bool.and_eq_true, decide_eq_true_eq, beq_iff_eq, Bool.or_eq_false_iff,
    Bool.and_eq_false_iff, decide_eq_false_iff_not, beq_eq_false_iff_ne] at *
  omega

/-- Every entry of a map's rest stands after its first (R40). -/
theorem entriesWf_cons (e : MapEntry) (l : List MapEntry) :
    entriesWf (e :: l) = true ↔ (∀ f ∈ l, e.addr.before f.addr = true) ∧ entriesWf l = true := by
  induction l generalizing e with
  | nil => simp [entriesWf]
  | cons f l ih =>
    simp only [entriesWf, Bool.and_eq_true, List.mem_cons, forall_eq_or_imp]
    constructor
    · rintro ⟨h, w⟩
      exact ⟨⟨h, fun g hg => Addr.before_trans _ _ _ h (((ih f).1 w).1 g hg)⟩, w⟩
    · rintro ⟨⟨h, -⟩, w⟩
      exact ⟨h, w⟩

/-- What the map may hold after an entry is put in (R40). -/
theorem insertEntry_mem (e : MapEntry) (l : List MapEntry) (g : MapEntry) (h : g ∈ insertEntry e l) : g = e ∨ g ∈ l := by
  induction l with
  | nil => simpa [insertEntry] using h
  | cons f l ih =>
    simp only [insertEntry] at h
    split at h
    · simpa using h
    · split at h
      · rcases List.mem_cons.1 h with h | h
        · exact .inl h
        · exact .inr (List.mem_cons_of_mem _ h)
      · rcases List.mem_cons.1 h with h | h
        · exact .inr (h ▸ List.mem_cons_self)
        · exact (ih h).imp id (List.mem_cons_of_mem _)

/-- An entry put in keeps the map's order, so that no address has two (R40). -/
theorem insertEntry_wf (e : MapEntry) (l : List MapEntry) (h : entriesWf l = true) : entriesWf (insertEntry e l) = true := by
  induction l with
  | nil => rfl
  | cons f l ih =>
    have hf := (entriesWf_cons f l).1 h
    simp only [insertEntry]
    split
    · next hb =>
      refine (entriesWf_cons _ _).2 ⟨fun g hg => ?_, h⟩
      rcases List.mem_cons.1 hg with rfl | hg
      · exact hb
      · exact Addr.before_trans _ _ _ hb (hf.1 g hg)
    · split
      · next hb => exact (entriesWf_cons _ _).2 ⟨fun g hg => hb ▸ hf.1 g hg, hf.2⟩
      · next hb hn =>
        refine (entriesWf_cons _ _).2 ⟨fun g hg => ?_, ih hf.2⟩
        rcases insertEntry_mem _ _ _ hg with rfl | hg
        · exact Addr.before_total _ _ (by simpa using hb) hn
        · exact hf.1 g hg

/-- Entries taken out leave the map in order (R42). -/
theorem filter_wf (p : MapEntry → Bool) (l : List MapEntry) (h : entriesWf l = true) : entriesWf (l.filter p) = true := by
  induction l with
  | nil => rfl
  | cons f l ih =>
    have hf := (entriesWf_cons f l).1 h
    rw [List.filter_cons]
    split
    · exact (entriesWf_cons _ _).2 ⟨fun g hg => hf.1 g (List.mem_of_mem_filter hg), ih hf.2⟩
    · exact ih hf.2

/-- The entry put in is found at its address (R40). -/
theorem insertEntry_find_self (e : MapEntry) (l : List MapEntry) :
    (insertEntry e l).find? (fun f => f.addr == e.addr) = some e := by
  induction l with
  | nil => simp [insertEntry]
  | cons f l ih =>
    simp only [insertEntry]
    split
    · simp
    · split
      · simp
      · next h1 h2 => rw [List.find?_cons_of_neg (by simpa using Ne.symm h2), ih]

/-- Words put in the store under an entry are what its address reads (R43). -/
theorem State.putEntry_slotWords (a : Addr) (o : Origin) (ws : List Word) (n : Nat) (s : State) :
    (s.putEntry a o ws n).slotWords n = fitWords s.geom.words ws := by
  simp [State.putEntry, State.slotWords, State.slotContents, tableGet_put_self]

/-- The entry of an address after words are put in for it (R40). -/
theorem State.putEntry_entryAt (a : Addr) (o : Origin) (ws : List Word) (n : Nat) (s : State) :
    (s.putEntry a o ws n).entryAt a = some { addr := a, origin := o, epoch := s.pack.epoch, slot := n } :=
  insertEntry_find_self { addr := a, origin := o, epoch := s.pack.epoch, slot := n } s.map.entries

/-- The map after words are put in keeps its order, and the store its form (R40, R43). -/
theorem State.putEntry_wf (a : Addr) (o : Origin) (ws : List Word) (n : Nat) (s : State) (h : entriesWf s.map.entries = true)
    (k : tableWf s.map.store = true) :
    entriesWf (s.putEntry a o ws n).map.entries = true ∧ tableWf (s.putEntry a o ws n).map.store = true :=
  ⟨insertEntry_wf _ _ h, tablePut_wf _ _ _ k⟩

/-! ## Free slots (R42) -/

/-- A slot found free is bound to no entry and is the lowest such one. -/
theorem freeSlotFrom_some (l : List MapEntry) (k fuel n : Nat) (h : freeSlotFrom l k fuel = some n) :
    k ≤ n ∧ n < k + fuel ∧ slotBound l n = false ∧ ∀ m, k ≤ m → m < n → slotBound l m = true := by
  induction fuel generalizing k with
  | zero => simp [freeSlotFrom] at h
  | succ fuel ih =>
    simp only [freeSlotFrom] at h
    split at h
    · next hb =>
      obtain ⟨h1, h2, h3, h4⟩ := ih _ h
      refine ⟨by omega, by omega, h3, fun m hm hn => ?_⟩
      by_cases e : m = k
      · exact e ▸ hb
      · exact h4 m (by omega) hn
    · next hb =>
      cases h
      exact ⟨by omega, by omega, by simpa using hb, fun m h1 h2 => by omega⟩

/-- No slot is found free when every one is bound. -/
theorem freeSlotFrom_none (l : List MapEntry) (k fuel : Nat) (h : freeSlotFrom l k fuel = none) (m : Nat) (hk : k ≤ m)
    (hm : m < k + fuel) : slotBound l m = true := by
  induction fuel generalizing k with
  | zero => omega
  | succ fuel ih =>
    simp only [freeSlotFrom] at h
    split at h
    · next hb =>
      by_cases e : m = k
      · exact e ▸ hb
      · exact ih _ h (by omega) (by omega)
    · cases h

end Sys2Proof.Machine
end

