-- ==== Sys2Proof/Tests/Slice0.lean ====
section
/-! SUPPORT. The model's own tests: the well-formedness smoke tests, the worked values of spec/, one-step tests, and for each
statement with hypotheses a concrete state and operands that meet them. -/

namespace Sys2Proof.Tests

open Sys2Proof Sys2Proof.Machine

/-! ## Well-formedness: each check refuses a command that breaks it -/

/-- A WRITE of 65 words is no sector (R178). -/
theorem test_wf_write_size : (Instr.write 0 0 (List.replicate 65 0) true).wellFormed = false := by decide

theorem test_wf_write_ok : (Instr.write 0 0 (List.replicate 64 0) true).wellFormed = true := by decide

theorem test_wf_other_unit : (Instr.otherUnitRequest 1 (.write 0 0 [])).wellFormed = false := by decide

theorem test_wf_load_data : (Instr.loadSectorData [1]).wellFormed = false := by decide

/-- A header of 47 cells is no header of three words (R89). -/
theorem test_wf_header : (Instr.readSectorEnd ⟨some (List.replicate 47 .outOfLock), none⟩).wellFormed = false := by decide

theorem test_wf_data : (Instr.readSectorEnd ⟨none, some [.outOfLock]⟩).wellFormed = false := by decide

theorem test_wf_capture_sector : (Instr.captureSectorDecoded 32 ⟨none, none⟩).wellFormed = false := by decide

theorem test_wf_write_header : (Instr.sectorWriteEnd (some []) false true).wellFormed = false := by decide

theorem test_wf_format_headers : (Instr.formatWorkEnd (List.replicate 33 none)).wellFormed = false := by decide

theorem test_wf_format_header : (Instr.formatWorkEnd [some []]).wellFormed = false := by decide

/-- The sectors of a pass come in ascending order (R92). -/
theorem test_wf_pass_order :
    (Instr.recoveryPassEnd [(3, ⟨none, none⟩), (2, ⟨none, none⟩)]).wellFormed = false := by decide

theorem test_wf_pass_last : (Instr.recoveryPassEnd [(32, ⟨none, none⟩)]).wellFormed = false := by decide

theorem test_wf_pass_signal : (Instr.recoveryPassEnd [(3, ⟨some [], none⟩)]).wellFormed = false := by decide

/-- A code of the catalogue is no unknown command (R163, R179). -/
theorem test_wf_bad_command_listed : (Instr.badCommand 0o141 []).wellFormed = false := by decide

theorem test_wf_bad_command_ok : (Instr.badCommand 0o142 []).wellFormed = true := by decide

/-- A parameter count is one word (R163). -/
theorem test_wf_params (ps : List Word) (h : 65536 ≤ ps.length) : (Instr.showStatus ps).wellFormed = false := by
  simp only [Instr.wellFormed, decide_eq_false_iff_not]
  omega

/-- The table gives no row any bits, so no word spells a command. -/
theorem test_decode_none : decodeTableWord 0 0 = none := by decide

/-! ## Worked values of spec/ -/

/-- R90: the CRC-16 of one zero word, and of two. -/
theorem test_crc_worked : crc [0] = 0o016417 ∧ crc [0, 0] = 0o102300 := by decide +kernel

/-- R85's table: the code for +12 % with trim 0, and the clamp at +50 % with trim 300. -/
theorem test_offset_worked : offsetCode 0 12 = 10158 ∧ offsetCode 300 50 = 16383 ∧ offsetClamped 300 50 = true := by
  decide +kernel

/-- R162's table: the control sector addresses of profiles B and D at power-on. -/
theorem test_power_on_control_address :
    (State.reset.poweredOn ⟨3, .b, .interpose⟩).ci.controlAddr = ⟨419, 1, 15⟩ ∧
      (State.reset.poweredOn ⟨3, .d, .interpose⟩).ci.controlAddr = ⟨759, 7, 31⟩ := by decide

/-! ## Concrete states -/

/-- A pack loaded and served, the heads at cylinder 0, settled, 64 words to a sector. -/
def loaded : State :=
  { State.reset with
    geom := ⟨210, 2, 16, 64, 25⟩
    lines := ⟨true, false, false, false⟩
    drive := { State.reset.drive with cond := .ready, physCyl := some 0, settled := true }
    engine := { State.reset.engine with noPack := false }
    pack := { State.reset.pack with state := .loaded, epoch := 1 } }

/-- A region over all cylinders, with its write and read policies. -/
def region (w : WritePolicy) (r : ReadPolicy) : Region := ⟨0, 209, w, r, false, 0, true⟩

/-- `loaded` with one region. -/
def regioned (w : WritePolicy) (r : ReadPolicy) : State :=
  { loaded with regions := some (region w r) :: List.replicate 15 none }

/-- The address the witnesses read and write. -/
def addr : Addr := ⟨0, 0, 3⟩

/-- A post entry of that address. -/
def post : PostEntry := ⟨addr, [5], 0, 0, false, false⟩

/-- `loaded` with a post entry. -/
def posted : State := { loaded with posts := ⟨[post], false⟩ }

/-- `loaded` with a map entry of an origin. -/
def mapped (o : Origin) : State := { loaded with map := ⟨[⟨addr, o, 1, 0⟩], [(0, ⟨[7], 0⟩)]⟩ }

/-- Eight posts of other addresses. -/
def eightPosts : List PostEntry := (List.range 8).map (fun n => ⟨⟨1, 0, n⟩, [], 0, 0, false, false⟩)

/-- Every slot of the store bound. -/
def fullMap : SubstMap := ⟨(List.range 1024).map (fun n => ⟨⟨1 + n, 0, 0⟩, .loaded, 1, n⟩), []⟩

/-- A job of track (0, 0) with sector 3 pending. -/
def job : Job := newJob ⟨0, 0⟩ 0 .commanded false true 1 |> fun j => { j with pending := [3] }

/-- That job activated. -/
def activeJob : Job := { job with bank := some 0, reservation := true }

/-- A grant of a work. -/
def grant (w : Work) : Grant := ⟨w, false, 8192, 0, 8, false, false, false, []⟩

/-- `loaded` with a grant running in an activity. -/
def granted (a : Activity) (w : Work) : State := { loaded with drive := { loaded.drive with activity := a, grant := some (grant w) } }

/-- A recovery pass of `activeJob`. -/
def passWork : Work := .recovery ⟨0, 0⟩ ⟨0, 0, 8, 1, .accumulate, 0, 0, false⟩ true [3]

/-- `loaded` with the pass running. -/
def passing : State :=
  { granted .reading passWork with engine := { loaded.engine with active := some activeJob } }

/-- The outstanding READ of a region. -/
def readOf (r : Region) (g : Stage) : Option Outstanding := some ⟨.read addr r true, g⟩

/-- The amplitude of a bit well away from the threshold. -/
def cell (b : Bool) : BitCell := if b then .amplitude 15 else .amplitude 0

/-- Words as strong cells. -/
def cells (ws : List Word) : List BitCell := (ws.flatMap wordBits).map cell

/-- The header of an address as written. -/
def headerCells (a : Addr) : List BitCell :=
  cells [word a.cyl, headSectorWord a.head a.sector, crc [word a.cyl, headSectorWord a.head a.sector]]

/-- A window with the header of an address and no data sync. -/
def headerOnly (a : Addr) : SectorSignal := ⟨some (headerCells a), none⟩

/-- A window with the header of an address and a field of two words, 1 and 2, with their check word. -/
def goodWindow (a : Addr) : SectorSignal := ⟨some (headerCells a), some (cells [1, 2, crc [1, 2]])⟩

/-- The state of a step's answer. -/
def after (o : Host.Outcome State Fault Refusal) : State :=
  match o with
  | .next t => t
  | .fault _ | .refused _ => State.reset

theorem test_loaded_sound : loaded.sound = true := by decide +kernel

theorem test_passing_sound : passing.sound = true := by decide +kernel

/-! ## One step each -/

/-- R3, R7: SEEK to the last cylinder is answered DONE at once, one beyond it SEEK_ERROR with the position kept. -/
theorem test_seek_last : (after (exec (.seek 209) loaded)).port.virtCyl = 209 ∧
    (after (exec (.seek 210) loaded)).completions = [.status .seekError []] := by decide +kernel

/-- R11: a READ meets the post entry. -/
theorem test_read_post : (after (exec (.read 0 3) posted)).completions = [.status .done [5]] := by decide +kernel

/-- R11, R41: a BEST_EFFORT entry answers DATA_CHECK with its words. -/
theorem test_read_best_effort : (after (exec (.read 0 3) (mapped .bestEffort))).completions =
    [.status .dataCheck (7 :: List.replicate 63 0)] := by decide +kernel

/-- R14, R44: a PASS write removes the map entry of its address and leaves one post entry. -/
theorem test_pass_write : (after (exec (.write 0 3 [9] true) { regioned .pass .pass with map := (mapped .loaded).map })).map.entries = [] ∧
    (after (exec (.write 0 3 [9] true) { regioned .pass .pass with map := (mapped .loaded).map })).posts.entries.length = 1 := by
  decide +kernel

/-- R14: REFUSE answers WRITE_PROTECTED. -/
theorem test_refuse_write : (after (exec (.write 0 3 [9] true) (regioned .refuse .pass))).completions =
    [.status .writeProtected []] := by decide +kernel

/-- R23: Controller Clear clears Format Enable. -/
theorem test_controller_clear : (after (exec .controllerClear { loaded with port := { loaded.port with formatEnable := true } })).port.formatEnable =
    false := by decide +kernel

/-- R35, R166: ENABLE FORMAT waits, and its CONFIRM sets Format Enable. -/
theorem test_enable_format :
    (after (exec (.confirm [0o125]) (after (exec (.enableFormat []) loaded)))).port.formatEnable = true ∧
      (after (exec (.enableFormat []) loaded)).port.formatEnable = false := by decide +kernel

/-- R163: a code of no command is refused. -/
theorem test_bad_command : (after (exec (.badCommand 0o142 []) loaded)).ci.lastResult = .badCommand := by decide +kernel

/-- R173: a Flush Latency of 9 ms is clamped to 10. -/
theorem test_set_timing : (after (exec (.setTiming [0, 1001, 9]) loaded)).timing = ⟨0, 1000, 10⟩ ∧
    (after (exec (.setTiming [0, 1001, 9]) loaded)).ci.lastResult = .clamped := by decide +kernel

/-- R88: the trim is a signed word. -/
theorem test_set_trim : (after (exec (.setTrim [0xFE00]) loaded)).drive.trim = -512 ∧
    (after (exec (.setTrim [0xFDFF]) loaded)).ci.lastResult = .clamped := by decide +kernel

/-- R10: a matching header without a data sync is DATA_CHECK with zero words. -/
theorem test_read_no_sync :
    (passOutcome 8 64 addr (headerOnly addr)).kind = .dataCheck ∧ (passOutcome 8 64 addr ⟨none, none⟩).kind = .noData := by
  decide +kernel

/-- R92: a whole window (here of two words, to keep the check small) reads GOOD, and one of another sector WRONG_ADDRESS. -/
theorem test_read_good : (passOutcome 8 2 addr (goodWindow addr)).kind = .good ∧
    (passOutcome 8 64 addr (headerOnly ⟨0, 0, 4⟩)).kind = .wrongAddress := by decide +kernel

/-- R140: a score moves by 3 for a STRONG bit, by 1 for a WEAK one. -/
theorem test_fold_strong : ((Accumulator.empty.fold [(true, .strong), (false, .weak)] false).votes.map (·.score)) = [3, -1] := by
  decide +kernel

/-- R121, R122: the head is activated in bank 0 with a reservation. -/
theorem test_activation :
    ((after (exec .jobActivation { loaded with engine := { loaded.engine with queued := [job] } })).engine.active.map
      (fun j => (j.bank, j.reservation))) = some (some 0, true) := by decide +kernel

/-- R152: the eighth period in the band loads the pack. -/
theorem test_spin_up :
    (after (exec (.indexPulse 2500 false) { loaded with
      timer := { loaded.timer with counting := true }
      pack := { loaded.pack with state := .spinningUp, spinUp := 7 } })).pack.state = .loaded := by decide +kernel

/-- R118, R124, R128: a sector written while a pass runs leaves its job, and the pass's outcome of it is passed over although RECOVER
TRACK makes it pending again: nothing is folded and the job goes on. -/
theorem test_superseded_rejoined :
    (let s := after (exec (.recoverTrack [0, 0, 0, 8, 0, 0]) (passing.supersede addr))
     s.engine.active.map (·.pending) = some [3] ∧
       (after (exec (.recoveryPassEnd [(3, goodWindow addr)]) { s with geom := ⟨210, 2, 16, 2, 25⟩ })).map.entries = [] ∧
       (after (exec (.recoveryPassEnd [(3, goodWindow addr)]) { passing with geom := ⟨210, 2, 16, 2, 25⟩ })).map.entries ≠ []) := by
  decide +kernel

/-- R83: a failed recalibrate ends a FLUSH grant, with a failed attempt counted. -/
theorem test_flush_recalibrate_fails :
    (let s := after (exec (.positioningLimitExpiry true)
       { granted (.positioning true 5) (.flush addr none false) with posts := ⟨[post], false⟩ })
     s.drive.grant = none ∧ s.posts.entries.map (·.failed) = [1]) := by decide +kernel

/-- R85, R110: a report of seek failed carries the offset clamp. -/
theorem test_seek_failed_clamped :
    ((after (exec (.positioningLimitExpiry true)
      { granted (.positioning true 5) passWork with
        drive := { (granted (.positioning true 5) passWork).drive with grant := some { grant passWork with clamped := true } }
        engine := { loaded.engine with active := some activeJob } })).engine.active.map (fun j => (j.clamped, j.misSeeks))) =
      some (true, 1) := by decide +kernel

/-- R94: the writing revolution of a FORMAT puts a header with its check word and words of zero into each window. -/
theorem test_format_contents :
    ((after (exec (.indexPulse 5 false) (granted .writing (.format ⟨0, 1⟩ .awaitIndex)))).driveLog.map (fun a => match a with
      | .formatTrack _ l => (l.length, (l.getD 2 ⟨[], [], 0⟩).header.take 2)
      | .seek _ | .recalibrate | .faultClear | .writeSector _ _ _ => (0, []))) = [(16, [0, 258])] := by decide +kernel

/-! ## Witnesses: for each statement, states and operands that meet its hypotheses, clause by clause -/

theorem witness_StepRunsFrontCommand :
    ({ State.reset with pending := [.select] } : State).pending = .select :: [] ∧ State.reset.pending = [] := by decide

theorem witness_PositioningRequests :
    loaded.geom.cylinders ≤ 210 ∧ loaded.port.mode = .interpose ∧ packServes State.reset.pack.state = false ∧
      209 < loaded.geom.cylinders ∧
      (let s : State := { loaded with port := { loaded.port with mode := .transparent } }
       s.port.mode = .transparent ∧ packServes s.pack.state = true ∧ s.drive.cond = .ready ∧
         ({ s with drive := { s.drive with cond := .fault } } : State).drive.cond ≠ .ready) := by decide

theorem witness_ReadRequestDisposition :
    posted.isDataRequest 0 3 ∧ packServes posted.pack.state = true ∧ posted.port.mode = .interpose ∧
      posted.postAt (posted.requestAddr 0 3) = some post ∧
      (mapped .bestEffort).postAt addr = none ∧ (mapped .bestEffort).entryAt addr = some ⟨addr, .bestEffort, 1, 0⟩ ∧
      (let s : State := { loaded with buffers := ⟨[⟨some ⟨0, 0⟩, [(3, [4])]⟩], [0]⟩ }
       s.postAt addr = none ∧ s.entryAt addr = none ∧ s.bufferedSector addr = some (0, [4])) ∧
      (loaded.bufferedSector addr = none ∧ loaded.drive.capturePending addr = false ∧ loaded.drive.cond = .ready) ∧
      (granted .reading (.capture ⟨0, 0⟩ 1 none [])).drive.capturePending addr = true := by decide +kernel

theorem witness_RequestsTurnedAway :
    (1 : Fin 8) ≠ loaded.port.unit ∧ loaded.geom.heads ≤ 2 ∧ 1 < loaded.geom.heads ∧ loaded.geom.sectors ≤ 16 ∧
      packServes State.reset.pack.state = false ∧ State.reset.isDataRequest 1 15 := by decide +kernel

theorem witness_InterposeWrite_refused :
    loaded.isDataRequest 0 3 ∧ packServes loaded.pack.state = true ∧ loaded.port.mode = .interpose ∧
      ((regioned .refuse .pass).regionAt 0).write = .refuse ∧ ((regioned .pass .pass).regionAt 0).write = .pass ∧
      (let s : State := { regioned .pass .pass with posts := ⟨eightPosts, false⟩ }
       s.postAt addr = none ∧ 8 ≤ s.posts.entries.length ∧ 0 < s.timing.holdLimit) := by decide +kernel

/-- The default region is DIVERT (R25); slot 0 is the lowest free one of an empty store. -/
theorem witness_InterposeWrite_divert :
    (loaded.regionAt loaded.port.virtCyl).write = .divert ∧ loaded.entryAt addr = none ∧ loaded.freeSlot = some 0 ∧
      (mapped .loaded).entryAt addr = some ⟨addr, .loaded, 1, 0⟩ := by decide +kernel

/-- A full store has no free slot (R42). -/
theorem witness_InterposeWrite_full :
    ({ loaded with map := fullMap } : State).entryAt addr = none ∧ ({ loaded with map := fullMap } : State).freeSlot = none := by
  constructor
  · simp [State.entryAt, fullMap, addr]
  · have bound : ∀ m, m < 1024 → slotBound fullMap.entries m = true := by
      intro m hm
      simp [slotBound, fullMap, hm]
    cases h : ({ loaded with map := fullMap } : State).freeSlot with
    | none => rfl
    | some n =>
      obtain ⟨-, h2, h3, -⟩ := freeSlotFrom_some _ _ _ _ h
      rw [bound n (by simpa [Config.storeSlots] using h2)] at h3
      cases h3

theorem witness_InterposeWrite_posted :
    (regioned .pass .pass).postAt addr = none ∧ (regioned .pass .pass).posts.entries.length < 8 ∧
      ({ regioned .pass .pass with posts := ⟨[post], false⟩ } : State).postAt addr = some post := by decide +kernel

theorem witness_TransparentWrite :
    (let s : State := { regioned .pass .pass with port := { loaded.port with mode := .transparent } }
     s.isDataRequest 0 3 ∧ packServes s.pack.state = true ∧ s.port.mode = .transparent ∧
       (s.regionAt s.port.virtCyl).write = .pass ∧ s.drive.cond = .ready) ∧ (loaded.regionAt 0).write ≠ .pass := by
  decide +kernel

theorem witness_FormatDataRequest :
    (let s : State := { regioned .pass .pass with port := { loaded.port with formatEnable := true } }
     s.sound = true ∧ 1 < s.geom.heads ∧ packServes s.pack.state = true ∧ s.port.formatEnable = true ∧
       (s.regionAt s.port.virtCyl).write = .pass ∧ s.drive.cond = .ready) ∧ loaded.port.formatEnable = false := by
  decide +kernel

theorem witness_LoadSectorDataTaken :
    (let s : State := { loaded with ci := { loaded.ci with sequence := .awaitData addr } }
     s.ci.sequence = .awaitData addr ∧ packServes s.pack.state = true ∧ s.entryAt addr = none ∧ s.freeSlot = some 0) ∧
      packServes State.reset.pack.state = false := by decide +kernel

theorem witness_WrittenWordsReadBack :
    (regioned .pass .pass).sound = true ∧ (regioned .pass .pass).isDataRequest 0 3 ∧
      packServes (regioned .pass .pass).pack.state = true ∧ (regioned .pass .pass).port.mode = .interpose ∧
      exec (.write 0 3 [9] true) (regioned .pass .pass) = .next (after (exec (.write 0 3 [9] true) (regioned .pass .pass))) ∧
      (after (exec (.write 0 3 [9] true) (regioned .pass .pass))).completions = [] ++ [.status .done []] :=
  ⟨by decide +kernel, by decide +kernel, by decide +kernel, by decide +kernel, rfl, by decide +kernel⟩

theorem witness_OffsetCode : offsetClamped 0 12 = false ∧ (-512 : Int) ≤ 511 ∧ offsetClamped 511 0 = false := by decide +kernel

theorem witness_PassOutcomeKinds :
    headerMatching 8 addr (headerOnly addr).header = true ∧ headerValid 8 (headerOnly ⟨0, 0, 4⟩).header = true ∧
      headerMatching 8 addr (headerOnly ⟨0, 0, 4⟩).header = false ∧ headerValid 8 none = false := by decide +kernel

/-- R91's table at the edges of its ranges, thresholds 0 and 15 among them. -/
theorem witness_PassOutcomeKinds_cells :
    [10, 9, 8, 7, 6].map (fun a => decodeCell 8 (.amplitude a)) =
        [(true, .strong), (true, .weak), (true, .weak), (false, .weak), (false, .strong)] ∧
      decodeCell 0 (.amplitude 0) = (true, .weak) ∧ decodeCell 15 (.amplitude 15) = (true, .weak) ∧
      decodeCell 15 (.amplitude 13) = (false, .strong) := by decide +kernel

/-- A window with both fields, one with no data sync, one with no header sync; a signal that ends within its field is read out of lock
from there on. -/
theorem witness_PassOutcomeKinds_words :
    (passOutcome 8 2 addr (goodWindow addr)).header.take 2 = [0, 3] ∧
      (passOutcome 8 2 addr (goodWindow addr)).answerData 2 = [1, 2] ∧
      (passOutcome 8 2 addr (headerOnly addr)).bits = none ∧
      (passOutcome 8 2 addr ⟨none, some [cell true]⟩).answerData 2 = [32768, 0] ∧
      (passOutcome 8 2 addr ⟨none, some [cell true]⟩).bits.map (·.take 2) = some [(true, .strong), (false, .erased)] := by
  decide +kernel

theorem witness_GrantPositionsThenWorks :
    State.reset.drive.physCyl = none ∧ loaded.drive.physCyl = some 0 ∧ (grant (.read ⟨1, 0, 3⟩ false)).work.cylinder = some 1 ∧
      (grant (.read addr false)).work.cylinder = some 0 ∧ (grant (.seek ⟨0, 1⟩)).work = .seek ⟨0, 1⟩ ∧
      State.reset.drive.settled = false ∧ loaded.drive.settled = true ∧ loaded.drive.offsetCode = (grant passWork).code ∧
      (grant (.read addr false)).work.readAddr.isSome = true ∧ posted.postAt addr = some post := by decide +kernel

theorem witness_ArbiterOrder :
    (let s : State := { posted with now := 20001 }
     s.flushOverdue = true ∧ s.drive.activity = .idle ∧ s.drive.cond = .ready ∧ s.pack.state ≠ .unloading ∧
       s.posts.entries = post :: []) ∧
      (posted.flushOverdue = false ∧ posted.flushRequested = true ∧ posted.drive.requests = []) ∧
      (let s : State := { loaded with drive := { loaded.drive with requests := [⟨.port, .recalibrate⟩] } }
       s.flushOverdue = false ∧ s.drive.requests = ⟨.port, .recalibrate⟩ :: []) ∧
      (let s : State := { loaded with engine := { loaded.engine with active := some activeJob }
                                      drive := { loaded.drive with recoveryRequest := true } }
       s.flushRequested = false ∧ s.drive.recoveryRequest = true ∧ s.engine.active = some activeJob ∧
         (s.ladders.getD activeJob.ladder [])[activeJob.step]?.isSome = true) ∧
      loaded.drive.recoveryRequest = false ∧ State.reset.drive.cond ≠ .ready := by decide +kernel

theorem witness_ControllerGrantsStart :
    (⟨.commandInterface, .driveSector addr⟩ : ControllerRequest) = ⟨.commandInterface, .driveSector addr⟩ ∧
      loaded.timer.speedFault = false ∧ (∀ b ∈ loaded.buffers.slots, b.track ≠ some addr.track) ∧
      (∃ k ∈ loaded.buffers.order, (loaded.buffer k).track = none) ∧
      (let s : State := { loaded with buffers := ⟨List.replicate 4 ⟨some ⟨9, 0⟩, []⟩, [0, 1, 2, 3]⟩ }
       (∀ b ∈ s.buffers.slots, b.track ≠ some addr.track) ∧ (∀ k ∈ s.buffers.order, (s.buffer k).track ≠ none)) := by
  decide +kernel

theorem witness_SeekAndSettle :
    (granted (.positioning true 5) .recalibrate).drive.activity = .positioning true 5 ∧
      (granted (.positioning true 5) .recalibrate).drive.grant = some (grant .recalibrate) ∧
      (grant .recalibrate).aborted = false ∧ (grant (.read ⟨1, 0, 3⟩ false)).work.cylinder = some 1 ∧
      (granted (.positioning false 5) (.read addr false)).drive.activity = .positioning false 5 ∧
      loaded.drive.activity.working = false ∧
      (granted .settling (.read addr false)).drive.activity = .settling ∧
      ({ granted .settling (.flush addr none false) with posts := ⟨[post], false⟩ } : State).postAt addr = some post := by
  decide +kernel

/-- A grant in every activity but POSITIONING finds nothing at SEEK_COMPLETE, and in every one but SETTLING nothing at SETTLE_END. -/
theorem witness_SeekAndSettle_nothing :
    (∀ a ∈ [Activity.idle, .settling, .reading, .writing, .verifying, .clearing 5],
      after (exec .seekComplete (granted a passWork)) = granted a passWork) ∧
      (∀ a ∈ [Activity.idle, .positioning false 5, .reading, .writing, .verifying, .clearing 5],
        after (exec .settleEnd (granted a passWork)) = granted a passWork) ∧
      loaded.drive.grant = none ∧ State.reset.drive.activity ≠ .settling := by decide +kernel

theorem witness_PositioningLimitFails :
    (granted (.positioning false 5) passWork).drive.activity = .positioning false 5 ∧
      (granted (.positioning false 5) passWork).drive.grant = some (grant passWork) ∧ (grant passWork).aborted = false ∧
      (grant passWork).allowanceUsed = false ∧ loaded.engine.ending = none ∧
      ({ loaded with engine := { loaded.engine with ending := some activeJob } } : State).engine.ending ≠ none ∧
      ({ grant (.write addr []) with allowanceUsed := true } : Grant).allowanceUsed = true ∧
      (granted (.positioning true 5) (.flush addr none false)).drive.grant = some (grant (.flush addr none false)) ∧
      posted.postAt addr = some post ∧ post.failed < 2 ∧ 2 ≤ ({ post with failed := 2 } : PostEntry).failed ∧
      loaded.postAt addr = none ∧ activeJob.misSeeks < 2 ∧ 2 ≤ ({ activeJob with misSeeks := 2 } : Job).misSeeks := by
  decide +kernel

/-- A failed flush attempt with the line deasserted, asserted in a speed fault, and asserted with the retry; of a dropped entry. -/
theorem witness_PositioningLimitFails_flush :
    (let g := grant (.flush addr (some [5]) false)
     let on : State := { posted with lines := { posted.lines with permit := true }, drive := (granted .writing g.work).drive }
     posted.lines.permit = false ∧ on.lines.permit = true ∧ on.timer.speedFault = false ∧ on.postAt addr = some post ∧
       (posted.flushFailed g addr false).posts.heldForPermit = true ∧
       ({ on with timer := { on.timer with speedFault := true } } : State).flushFailed g addr false =
         { on with timer := { on.timer with speedFault := true }
                   posts := ⟨[{ post with failed := 1 }], false⟩
                   drive := { on.drive with grant := none, activity := .idle } } ∧
       (on.flushFailed g addr false).drive.activity = .writing ∧ (on.flushFailed g addr true).drive.grant = none) := by
  decide +kernel

theorem witness_IndexPulse :
    State.reset.timer.counting = false ∧
      (let s : State := { loaded with timer := { loaded.timer with counting := true } }
       s.timer.counting = true ∧ packServes s.pack.state = true ∧ inBand s.geom (min 65535 (s.timer.count + 2575)) = true ∧
         inBand s.geom (min 65535 (s.timer.count + 2576)) = false ∧ s.timer.outside = 0 ∧ s.timer.inside < 7) := by
  decide +kernel

theorem witness_IndexPulse_speed_and_spin_up :
    (let s : State := { loaded with timer := ⟨0, true, 0, true, 1, 7, true⟩ }
     s.timer.speedFault = true ∧ 7 ≤ s.timer.inside ∧ 1 ≤ s.timer.outside) ∧
      (let s : State := { loaded with pack := { loaded.pack with state := .spinningUp, spinUp := 7 } }
       s.pack.state = .spinningUp ∧ 7 ≤ s.pack.spinUp) ∧ State.reset.pack.spinUp < 7 := by decide +kernel

theorem witness_FormatWrittenAndVerified :
    (granted .writing (.format ⟨0, 0⟩ .awaitIndex)).drive.activity = .writing ∧
      (granted .writing (.format ⟨0, 0⟩ .awaitIndex)).drive.grant = some (grant (.format ⟨0, 0⟩ .awaitIndex)) ∧
      (granted .verifying (.format ⟨0, 0⟩ .verifying)).drive.activity = .verifying ∧
      ({ loaded with port := { loaded.port with outstanding := some ⟨.format ⟨0, 0⟩, .working⟩ } } : State).stage =
        some .working ∧ loaded.stage ≠ some .working ∧
      (∀ n < 2, headerMatching 8 (Track.at ⟨0, 0⟩ n) ([some (headerCells ⟨0, 0, 0⟩), some (headerCells ⟨0, 0, 1⟩)].getD n none) = true) := by
  decide +kernel

theorem witness_IndexLossTaken :
    packServes State.reset.pack.state = false ∧ loaded.timer.watching = false ∧
      (let s : State := { granted .reading passWork with timer := { loaded.timer with watching := true } }
       packServes s.pack.state = true ∧ s.timer.watching = true ∧ s.drive.grant = some (grant passWork) ∧
         s.drive.activity.rotating = true ∧ (grant passWork).aborted = false ∧ s.engine.ending = none) ∧
      loaded.drive.grant = none ∧ (granted (.positioning false 5) passWork).drive.activity.rotating = false := by decide +kernel

theorem witness_ReadAnswered :
    (granted .reading (.read addr false)).drive.activity = .reading ∧
      (granted .reading (.read addr false)).drive.grant = some (grant (.read addr false)) ∧
      (passOutcome 8 64 addr ⟨none, none⟩).otherCylinder 0 = false ∧ (passOutcome 8 64 addr ⟨none, none⟩).kind = .noData ∧
      (passOutcome 8 64 addr (headerOnly ⟨0, 1, 3⟩)).otherCylinder 0 = false ∧
      (passOutcome 8 64 addr (headerOnly ⟨0, 1, 3⟩)).kind = .wrongAddress ∧
      (passOutcome 8 64 addr (headerOnly ⟨1, 0, 3⟩)).otherCylinder 0 = true ∧
      (passOutcome 8 2 addr (goodWindow addr)).kind = .good ∧ (region .pass .pass).read = .pass ∧
      loaded.stage ≠ some .working := by decide +kernel

theorem witness_FailedReadHeld :
    (let s : State := { granted .reading (.read addr false) with
       port := { loaded.port with outstanding := readOf (region .pass .recover) .working } }
     s.drive.activity = .reading ∧ s.drive.grant = some (grant (.read addr false)) ∧
       s.port.outstanding = some ⟨.read addr (region .pass .recover) true, .working⟩ ∧
       (region .pass .recover).read = .recover ∧ s.timer.speedFault = false ∧ packServes s.pack.state = true ∧
       (∀ j ∈ s.engine.jobs, j.track ≠ addr.track) ∧ s.engine.length < 16 ∧ s.servingAt addr = false ∧ 0 < s.timing.holdLimit) ∧
      (let e : Engine := { loaded.engine with queued := (List.range 16).map (fun n => { job with track := ⟨1 + n, 0⟩ }) }
       (∀ j ∈ e.jobs, j.track ≠ addr.track) ∧ 16 ≤ e.length) := by decide +kernel

/-- The failed READ of a RECOVER region, with the engine as it stands. -/
def failedRead (e : Engine) : State :=
  { loaded with engine := e, port := { loaded.port with outstanding := readOf (region .pass .recover) .working } }

/-- What the READ's going to recovery leaves of the engine: its queued portion, each job by cylinder, urgent flag and pending set; the
window. -/
def recovered (s : State) : List (Nat × Bool × List Nat) × Option Nat :=
  let t := s.sendToRecovery addr (region .pass .recover) [1]
  (t.engine.queued.map (fun j => (j.track.cyl, j.urgent, j.pending)), t.engine.window)

/-- A READ whose track has no job: the new urgent job closes an open window, the batch sorted behind it, and stands behind an urgent job;
with the Hold Limit 0 it is appended and the window stays; with 16 jobs queued none is made. -/
theorem witness_FailedReadHeld_new :
    (let other (c : Nat) : Job := { job with track := ⟨c, 0⟩ }
     let batch : Engine := { loaded.engine with queued := [other 2, other 1], window := some 9 }
     (∀ x ∈ batch.queued, x.track ≠ addr.track) ∧ batch.orderWf = true ∧
       recovered (failedRead batch) = ([(0, true, [3]), (1, false, [3]), (2, false, [3])], none) ∧
       recovered { failedRead batch with timing := ⟨0, 100, 200⟩ } = ([(2, false, [3]), (1, false, [3]), (0, false, [3])], some 9) ∧
       recovered (failedRead { loaded.engine with queued := [{ other 2 with urgent := true }, other 1] }) =
         ([(2, true, [3]), (0, true, [3]), (1, false, [3])], none) ∧
       ((failedRead { loaded.engine with queued := List.replicate 16 (other 1) }).sendToRecovery addr (region .pass .recover)
         [1]).completions = [.status .dataCheck [1]]) := by decide +kernel

/-- A READ whose track has a job with another sector pending: QUEUED in an open batch, QUEUED and urgent, ACTIVE and PARKED. -/
theorem witness_FailedReadHeld_merge :
    (let j : Job := { job with pending := [5] }
     let other : Job := { job with track := ⟨1, 0⟩ }
     recovered (failedRead { loaded.engine with queued := [other, j], window := some 9 }) =
         ([(0, true, [3, 5]), (1, false, [3])], none) ∧
       recovered (failedRead { loaded.engine with queued := [{ other with urgent := true }, { j with urgent := true }] }) =
         ([(1, true, [3]), (0, true, [3, 5])], none) ∧
       ((failedRead { loaded.engine with active := some { activeJob with pending := [5] } }).sendToRecovery addr
         (region .pass .recover) [1]).engine.active.map (fun k => (k.urgent, k.pending)) = some (true, [3, 5]) ∧
       ((failedRead { loaded.engine with parked := some { activeJob with pending := [5] } }).sendToRecovery addr
         (region .pass .recover) [1]).engine.parked.map (fun k => (k.urgent, k.pending)) = some (true, [3, 5])) := by decide +kernel

/-- A READ whose sector has come to have a serving entry (log 36), with and without a job of its track, and with no place for a
record. -/
theorem witness_FailedReadHeld_serving :
    (let s : State := { mapped .loaded with port := (failedRead loaded.engine).port }
     s.servingAt addr = true ∧ s.canReserve = true ∧
       ({ s with results := List.replicate 64 (activeJob.record .completed) } : State).canReserve = false ∧
       (s.sendToRecovery addr (region .pass .recover) [1]).results.map (·.outcomes) = [[⟨3, .alreadyHeld, 0⟩]] ∧
       recovered { s with engine := { loaded.engine with queued := [{ job with pending := [5] }] } } = ([(0, true, [5])], none)) := by
  decide +kernel

theorem witness_CaptureFillsBuffer :
    (granted .reading (.capture ⟨0, 0⟩ 1 (some 0) [2])).drive.activity = .reading ∧
      2 ∈ [2] ∧ loaded.geom.sectors ≤ 16 ∧ 3 ∉ [2] ∧ 15 < loaded.geom.sectors ∧ 3 ≠ 1 ∧
      (passOutcome 8 2 addr (goodWindow addr)).kind = .good ∧ loaded.awaitsCapture addr = false ∧
      ({ loaded with port := { loaded.port with outstanding := readOf (region .pass .pass) .capturing } } : State).awaitsCapture addr =
        true ∧ loaded.stage ≠ some .capturing := by decide +kernel

/-- An awaited sector that fails, by each kind, and a header of another cylinder. -/
theorem witness_CaptureFillsBuffer_failed :
    (passOutcome 8 64 addr ⟨none, none⟩).kind = .noData ∧ (passOutcome 8 64 addr (headerOnly addr)).kind = .dataCheck ∧
      (passOutcome 8 64 addr (headerOnly ⟨0, 1, 3⟩)).kind = .wrongAddress ∧
      (passOutcome 8 2 addr ⟨none, (goodWindow addr).data⟩).kind = .headerCheck ∧
      (passOutcome 8 64 addr (headerOnly addr)).otherCylinder 0 = false ∧
      (passOutcome 8 64 addr (headerOnly ⟨1, 0, 3⟩)).otherCylinder 0 = true ∧
      (region .pass .recover).read = .recover ∧ loaded.timer.speedFault = false ∧ packServes loaded.pack.state = true ∧
      (∀ j ∈ loaded.engine.jobs, j.track ≠ ⟨0, 0⟩) ∧ loaded.engine.length < 16 ∧
      loaded.servingAt (Track.at ⟨0, 0⟩ 3) = false ∧ 0 < loaded.timing.holdLimit := by decide +kernel

/-- A READ that awaits a sector of the capture, which fails or is never decoded, is held while the capture goes on or ends. -/
theorem witness_CaptureFillsBuffer_recovered :
    (let s : State := { granted .reading (.capture ⟨0, 0⟩ 3 none []) with
       port := { loaded.port with outstanding := readOf (region .pass .recover) .capturing } }
     s.port.outstanding = some ⟨.read addr (region .pass .recover) true, .capturing⟩ ∧
       (after (exec (.captureSectorDecoded 3 ⟨none, none⟩) s)).stage = some .held ∧
       (after (exec .captureEnd s)).stage = some .held ∧ (after (exec .captureEnd s)).drive.grant = none ∧
       (after (exec .captureEnd s)).engine.queued.map (fun j => (j.urgent, j.pending)) = [(true, [3])]) := by decide +kernel

theorem witness_SectorWriteEnds :
    (granted .writing (.write addr [])).drive.activity = .writing ∧
      (granted .writing (.flush addr (some [5]) false)).drive.grant = some (grant (.flush addr (some [5]) false)) ∧
      headerOfOtherCylinder 8 0 (headerOnly addr).header = false ∧ headerMatching 8 addr (headerOnly addr).header = true ∧
      headerOfOtherCylinder 8 0 none = false ∧ headerMatching 8 addr none = false ∧ posted.postAt addr = some post ∧
      post.failed < 2 ∧ 2 ≤ ({ post with failed := 2 } : PostEntry).failed ∧
      headerOfOtherCylinder 8 0 (headerOnly ⟨1, 0, 3⟩).header = true ∧
      headerMatching 8 addr (headerOnly ⟨1, 0, 3⟩).header = false ∧ (grant (.write addr [])).allowanceUsed = false := by
  decide +kernel

/-- The write of an entry dropped since it began meets a header of another cylinder: the first time it is repeated (log 13), the second
time the grant ends. -/
theorem witness_SectorWriteEnds_dropped :
    (let s := granted .writing (.flush addr (some [5]) true)
     s.drive.activity = .writing ∧ s.drive.grant = some (grant (.flush addr (some [5]) true)) ∧ s.postAt addr = none ∧
       headerOfOtherCylinder 8 0 (headerOnly ⟨1, 0, 3⟩).header = true ∧ (grant (.flush addr (some [5]) true)).allowanceUsed = false ∧
       ((after (exec (.sectorWriteEnd (headerOnly ⟨1, 0, 3⟩).header false true) s)).drive.grant.map (fun g => (g.work, g.allowanceUsed))) =
         some (.flush addr (some [5]) true, true) ∧
       (after (exec (.sectorWriteEnd (headerOnly ⟨1, 0, 3⟩).header false true)
         { s with drive := { s.drive with grant := some { grant (.flush addr (some [5]) true) with allowanceUsed := true } } })).drive.grant =
           none) := by decide +kernel

theorem witness_DriveLinesTaken :
    loaded.lines.fault = false ∧ loaded.lines.ready = true ∧ loaded.drive.grant = none ∧
      loaded.drive.activity = .idle ∧ State.reset.lines.ready = false ∧
      ({ loaded with lines := ⟨true, true, false, false⟩ } : State).lines.fault = true ∧
      (granted (.clearing 7) passWork).drive.activity = .clearing 7 ∧
      ({ loaded with port := { loaded.port with outstanding := some ⟨.write addr [], .clearing⟩ } } : State).stage = some .clearing := by
  decide +kernel

theorem witness_ResolutionOffersToMap :
    posted.postAt addr ≠ none ∧ loaded.postAt addr = none ∧ (mapped .diverted).entryAt addr = some ⟨addr, .diverted, 1, 0⟩ ∧
      (mapped .direct).entryAt addr = some ⟨addr, .direct, 1, 0⟩ ∧ loaded.entryAt addr = none ∧ loaded.freeSlot = some 0 ∧
      passing.engine.active = some activeJob ∧
      (let s : State := { passing with engine := Engine.putAccumulator activeJob.bank 3 (Accumulator.empty.fold [(true, .strong)] false) passing.engine }
       s.engine.active = some activeJob ∧ (∀ b ∈ s.engine.banks, tableWf b = true) ∧
         s.engine.accumulator activeJob.bank 3 ≠ Accumulator.empty ∧
         (s.resolveSector 3 .direct [1]).engine.accumulator activeJob.bank 3 = Accumulator.empty) := by decide +kernel

theorem witness_OutcomeExamined :
    passing.engine.active = some activeJob ∧ 4 ∉ activeJob.pending ∧ 3 ∈ activeJob.pending ∧
      (passOutcome 8 2 addr (goodWindow addr)).kind = .good ∧
      (passOutcome 8 2 addr ⟨none, (goodWindow addr).data⟩).kind = .headerCheck ∧
      (passOutcome 8 2 addr ⟨none, (goodWindow addr).data⟩).bits.isSome = true ∧
      (passOutcome 8 2 addr ⟨none, none⟩).kind = .noData := by decide +kernel

/-- Two STRONG reads of the words 1, 2 with their check word make a candidate that passes (R142, R143). -/
theorem witness_FoldThenEvaluation :
    [(true, Quality.strong)][0]? = some (true, .strong) ∧ Accumulator.empty.votes.length ≤ 1 ∧
      (let read := ([1, 2, crc [1, 2]].flatMap wordBits).map (fun b => (b, Quality.strong))
       evaluate 2 0 0 ((Accumulator.empty.fold read false).fold read false) = some (.vote false, [1, 2])) := by decide +kernel

/-- The votes of two STRONG reads of bits, with the named positions WEAK. -/
def readTwice (bits : List Bool) (weak : List Nat) : Accumulator :=
  let read := bits.mapIdx (fun i b => (b, if i ∈ weak then Quality.weak else Quality.strong))
  (Accumulator.empty.fold read false).fold read false

/-- The words 1, 2 with the last bit of their check word read wrong and WEAK: one position is eligible, and its inversion passes. -/
theorem witness_FoldThenEvaluation_flip :
    (let acc := readTwice (invertAt [47] 0 ([1, 2, crc [1, 2]].flatMap wordBits)) [47]
     2 ≤ acc.count ∧ bitsPass 2 acc.candidateBits = false ∧ ([47] : List Nat).length ≤ 1 ∧
       (∀ i ∈ [47], i < acc.votes.length ∧ (acc.votes.getD i ⟨0, none⟩).score.natAbs ≤ 2) ∧
       (∀ k < acc.votes.length, (acc.votes.getD k ⟨0, none⟩).score.natAbs ≤ 2 → k ∈ [47]) ∧
       bitsPass 2 (invertAt [47] 0 acc.candidateBits) = true ∧
       evaluate 2 1 2 acc = some (.flip 1 false, [1, 2]) ∧ evaluate 2 0 2 acc = none) ∧
      Accumulator.empty.count < 2 := by decide +kernel

/-- Two wrong bits between the codewords of the words 0 and 1, which differ in four positions: two subsets pass, and nothing is
answered (R146). -/
theorem witness_FoldThenEvaluation_two :
    (let acc := readTwice (invertAt [15, 19] 0 ([0, crc [0]].flatMap wordBits)) [15, 19, 26, 31]
     2 ≤ acc.count ∧ bitsPass 1 acc.candidateBits = false ∧
       bitsPass 1 (invertAt [15, 19] 0 acc.candidateBits) = true ∧ bitsPass 1 (invertAt [26, 31] 0 acc.candidateBits) = true ∧
       evaluate 1 4 2 acc = none) := by decide +kernel

theorem witness_RecoveryPassTaken :
    passing.drive.activity = .reading ∧ passing.drive.grant = some (grant passWork) ∧ (grant passWork).aborted = false ∧
      passing.engine.ending = none ∧ passing.engine.active = some activeJob ∧ activeJob.misSeeks < 2 ∧
      2 ≤ ({ activeJob with misSeeks := 2 } : Job).misSeeks ∧
      (passOutcome 8 64 addr (headerOnly ⟨1, 0, 3⟩)).otherCylinder 0 = true ∧
      (passing.ladders.getD activeJob.ladder [])[activeJob.step]?.isSome = true ∧ activeJob.pending ≠ [] ∧
      ({ activeJob with pending := [] } : Job).pending = [] := by decide +kernel

/-- The engine's tests: an urgent head parks a non-urgent ACTIVE job; it does not park an urgent one, nor one whose pass runs, nor without a
place to reserve; a stopped engine has no request standing. -/
theorem witness_RecoveryPassTaken_tests :
    (let e : Engine := { loaded.engine with active := some activeJob, queued := [{ job with track := ⟨1, 0⟩, urgent := true }] }
     let s : State := { loaded with engine := e }
     let seen (t : State) : Bool × Bool × Bool := (t.engine.active.isSome, t.engine.parked.isSome, t.drive.recoveryRequest)
     seen s.poke = (false, true, false) ∧
       seen ({ s with engine := { e with active := some { activeJob with urgent := true } } } : State).poke = (true, false, true) ∧
       seen ({ s with drive := passing.drive } : State).poke = (true, false, false) ∧
       seen ({ s with results := List.replicate 63 (activeJob.record .completed) } : State).poke = (true, false, true) ∧
       seen ({ s with engine := { e with suspended := true } } : State).poke = (true, false, false) ∧
       seen loaded.poke = (false, false, false)) := by decide +kernel

theorem witness_EndedJobLeavesRecord :
    activeJob.reservation = true ∧ loaded.canReserve = true ∧ job.reservation = false ∧
      ({ loaded with results := List.replicate 64 (activeJob.record .completed) } : State).canReserve = false ∧
      activeJob.bank = some 0 ∧ 0 < loaded.engine.banks.length ∧ job.bank = none := by decide +kernel

/-- `loaded` with one contributing read of sector 3 in bank 0: the bits 1, 1. -/
def folded : State :=
  { loaded with engine :=
    Engine.putAccumulator (some 0) 3 (Accumulator.empty.fold [(true, .strong), (true, .weak)] false) loaded.engine }

/-- The outcome of sector 3 in the record of a job that ends. -/
def endedOutcome (j : Job) (s : State) : List SectorOutcome := ((s.endJob .cancelled j).results.flatMap (·.outcomes)).map (·.outcome)

/-- An undecided sector is KEPT with its words, UNRESOLVED without keep-best or without a contributing read, SUPERSEDED at a DIVERTED
entry. -/
theorem witness_EndedJobLeavesRecord_outcomes :
    folded.mapWf = true ∧ activeJob.keepBest = true ∧ 1 ≤ (folded.engine.accumulator activeJob.bank 3).count ∧
      activeJob.pending = [] ++ 3 :: [] ∧ 3 ∉ ([] : List Nat) ∧
      (folded.offer (Track.at ⟨0, 0⟩ 3) .bestEffort [1]).1 = .stored ∧
      endedOutcome activeJob folded = [.kept] ∧
      (folded.endJob .cancelled activeJob).map.entries.map (fun e => (e.addr, e.origin)) = [(addr, .bestEffort)] ∧
      ((folded.endJob .cancelled activeJob).slotWords 0).take 2 = [49152, 0] ∧
      endedOutcome { activeJob with keepBest := false } folded = [.unresolved] ∧ endedOutcome activeJob loaded = [.unresolved] ∧
      endedOutcome activeJob { folded with map := (mapped .diverted).map } = [.superseded] := by decide +kernel

/-- With every slot bound the candidate is not taken (R49). -/
theorem witness_EndedJobLeavesRecord_full :
    (({ loaded with map := fullMap } : State).offer addr .bestEffort [1]).1 = .full := by
  have e : ∀ s : State, s.postAt addr = none → s.entryAt addr = none → s.freeSlot = none →
      (s.offer addr .bestEffort [1]).1 = .full := by
    intro s p h f
    simp [State.offer, State.storeSector, h, f, p]
  exact e _ rfl witness_InterposeWrite_full.1 witness_InterposeWrite_full.2

/-- A held READ of a sector still pending is answered with the candidate, or with its last read's data; one of another sector stays
held. -/
theorem witness_EndedJobLeavesRecord_held :
    (let held (s : State) (n : Nat) : State :=
       { s with geom := ⟨210, 2, 16, 2, 25⟩
                port := { loaded.port with outstanding := readOf (region .pass .recover) .held
                                           hold := some ⟨.read [9], ⟨0, 0, n⟩, 5⟩ } }
     (addr.track = activeJob.track ∧ addr.sector ∈ activeJob.pending ∧ 4 ∉ activeJob.pending) ∧
       ((held folded 3).endJob .cancelled activeJob).completions = [.status .dataCheck [49152, 0]] ∧
       ((held loaded 3).endJob .cancelled activeJob).completions = [.status .dataCheck [9]] ∧
       ((held folded 4).endJob .cancelled activeJob).port = (held folded 4).port) := by decide +kernel

/-- A job left ENDING completes its ending with the outcomes it has (R134). -/
theorem witness_EndedJobLeavesRecord_ending :
    (let s : State := { loaded with engine := { loaded.engine with ending := some activeJob } }
     s.engine.ending = some activeJob ∧ activeJob.reservation = true ∧
       s.finishEnding.results.map (fun r => (r.track.cyl, r.ending, r.outcomes.length)) = [(0, .abandoned, 0)] ∧
       s.finishEnding.engine.ending = none) ∧ loaded.engine.ending = none := by decide +kernel

theorem witness_SupersededSectorLeavesJob :
    passing.queuesWf = true ∧ activeJob.track = addr.track ∧ addr.sector ∈ activeJob.pending ∧
      (∃ m ∈ ({ activeJob with pending := [3, 4] } : Job).pending, m ≠ addr.sector) ∧ activeJob.pending = [addr.sector] ∧
      passing.engine.active = some activeJob ∧ passing.drive.recoveryRunning = true ∧ passing.drive.grant = some (grant passWork) ∧
      (let s : State := { loaded with engine := { loaded.engine with queued := [job] } }
       s.queuesWf = true ∧ s.engine.active ≠ some job ∧ s.canReserve = true ∧ job.pending = [addr.sector]) := by decide +kernel

theorem witness_JobActivationChoice :
    (let s : State := { loaded with engine := { loaded.engine with queued := [job] } }
     s.queuesWf = true ∧ s.engine.active = none ∧ s.engine.noPack = false ∧ s.engine.speed = false ∧
       s.engine.transparent = false ∧ s.engine.suspended = false ∧ s.engine.window = none ∧ s.engine.jobs ≠ [] ∧
       s.engine.ending = none ∧ s.engine.parked = none ∧ s.canReserve = true ∧ s.ladders.getD job.ladder [] ≠ [] ∧
       s.ladders.getD 1 [] = []) ∧
      (let s : State := { loaded with engine := { loaded.engine with parked := some activeJob, queued := [{ job with track := ⟨1, 0⟩, urgent := true }] } }
       s.queuesWf = true ∧ s.engine.parked = some activeJob ∧ s.engine.headUrgent = true ∧ s.canReserve = true) := by
  decide +kernel

theorem witness_HoldsAndDeadlines :
    ({ loaded with engine := { loaded.engine with window := some 9 } } : State).engine.window = some 9 ∧ loaded.port.hold = none ∧
      (let s : State := { loaded with port := { loaded.port with hold := some ⟨.write [1], addr, 9⟩ } }
       s.port.hold = some ⟨.write [1], addr, 9⟩ ∧ s.postAt addr = none ∧ s.posts.entries.length < 8) ∧
      ({ loaded with posts := ⟨eightPosts, false⟩ } : State).postAt addr = none ∧ 8 ≤ eightPosts.length ∧
      posted.posts.entries = post :: [] ∧ posted.flushRequested = true := by decide +kernel

/-- A command with no sequence pending, and with room for its parameters, is taken. -/
theorem loaded_takes (ps : List Word) (h : ps.length ≤ 60) : loaded.takesCommand ps :=
  ⟨fun a e => (by simp [loaded, State.reset] at e), (by simpa [loaded] using h)⟩

/-- The address 0, 0, 3 named by parameters, with a fourth that is ignored; and parameters that name none. -/
theorem witness_addresses : namesAddr loaded.geom [0, 0, 3, 9] addr ∧ (∀ a, ¬ namesAddr loaded.geom [0, 0] a) ∧
    (∀ a, ¬ namesAddr loaded.geom [210, 0, 0] a) := by
  refine ⟨by decide +kernel, fun a h => absurd h.1 (by decide), fun a h => ?_⟩
  have e := h.2.1
  subst e
  exact absurd h.2.2.1 (by decide)

theorem witness_ControlSectorWrites :
    geometryWf loaded.geom = true ∧ (Instr.setTrim [1]).code? = some 0o123 ∧ (Instr.setTrim [1]).wellFormed = true ∧
      (let s : State := { loaded with port := { loaded.port with virtCyl := 209 } }
       s.port.virtCyl = s.ci.controlAddr.cyl ∧ s.ci.controlAddr.within s.geom = true) ∧
      loaded.geom.words < (List.replicate 61 (0 : Word)).length + 4 := by decide +kernel

theorem witness_ControlSectorRead :
    (let s : State := { loaded with port := { loaded.port with virtCyl := 209 } }
     s.ci.controlAddr.within s.geom = true ∧ s.port.virtCyl = s.ci.controlAddr.cyl ∧ s.ci.reply = none) ∧
      (⟨.region, .ok, true, [], 1, 0, none⟩ : Reply).ready = true ∧
      (⟨.driveSector, .ok, false, [], 2, 0, some true⟩ : Reply).ready = false := by decide +kernel

/-- Every geometry of R178 has room for the 23 words; the word of the engine shown in four states. -/
theorem witness_ControlSectorRead_status :
    23 ≤ loaded.geom.words ∧ (loaded.statusRecord.take 6) = [1, 0, 2, 0, 1, 0] ∧
      State.reset.statusRecord.getD 5 9 = 4 ∧ State.reset.statusRecord.getD 6 9 = 1 ∧ passing.statusRecord.getD 5 9 = 2 ∧
      passing.statusRecord.getD 10 9 = 1 ∧
      ({ loaded with engine := { loaded.engine with suspended := true } } : State).statusRecord.getD 5 9 = 3 ∧
      ({ loaded with drive := { loaded.drive with trim := -40 } } : State).statusRecord.getD 22 9 = 0o177730 := by decide +kernel

/-- Every command row has a code; a row taken in READY meets the frame's hypotheses. -/
theorem witness_CommandRowsFrame :
    (Instr.readResult []).code? = some 0o002 ∧ loaded.ci.sequence = .ready ∧
      exec (.readResult []) loaded = .next (after (exec (.readResult []) loaded)) :=
  ⟨by decide +kernel, by decide +kernel, rfl⟩

theorem witness_QueriesFormReplies :
    loaded.entryAt addr = none ∧ (mapped .loaded).entryAt addr = some ⟨addr, .loaded, 1, 0⟩ ∧ 16 ≤ (16 : Word).toNat ∧
      (0 : Word).toNat < 16 ∧ (regioned .pass .pass).regions.getD 0 none = some (region .pass .pass) ∧
      loaded.regions.getD 15 none = none ∧ 8 ≤ (8 : Word).toNat ∧ (7 : Word).toNat < 8 ∧ loaded.results = [] ∧
      ({ loaded with results := [activeJob.record .completed] } : State).results = activeJob.record .completed :: [] := by
  decide +kernel

theorem witness_ReadDriveSectorReply :
    packServes loaded.pack.state = true ∧ loaded.drive.cond = .ready ∧ packServes State.reset.pack.state = false ∧
      ({ loaded with drive := { loaded.drive with cond := .fault } } : State).drive.cond ≠ .ready ∧
      (granted .reading (.driveSector addr)).drive.grant = some (grant (.driveSector addr)) ∧
      (passOutcome 8 64 addr ⟨none, none⟩).otherCylinder 0 = false ∧
      (⟨.driveSector, .ok, false, [], 2, 0, some true⟩ : Reply).driveRead = some true := by decide +kernel

theorem witness_RegionCommands :
    15 < (16 : Word).toNat ∧ (0 : Word).toNat ≤ 15 ∧ (209 : Word).toNat < loaded.geom.cylinders ∧
      (regioned .pass .pass).regions[0]? = some (some (region .pass .pass)) ∧ loaded.regions.getD 0 none = none ∧
      regionsWf loaded.geom.cylinders (regioned .pass .pass).regions = true := by decide +kernel

theorem witness_LadderCommands :
    7 < (8 : Word).toNat ∧ (loaded.ladders.getD 1 []).length = (0 : Word).toNat ∧ 11 < (12 : Word).toNat ∧
      (∃ j ∈ ({ loaded with engine := { loaded.engine with queued := [job] } } : State).engine.jobs, j.ladder = (0 : Word).toNat) ∧
      (∀ j ∈ loaded.engine.jobs, j.ladder ≠ (7 : Word).toNat) := by decide +kernel

theorem witness_TrackCommands :
    packServes loaded.pack.state = true ∧ (∀ j ∈ loaded.engine.jobs, j.track ≠ ⟨0, 0⟩) ∧ loaded.engine.length < 16 ∧
      loaded.servingAt (Track.at ⟨0, 0⟩ 3) = false ∧ loaded.engine.jobs = [] ∧ loaded.engine.window = none ∧
      (let e : Engine := { loaded.engine with queued := (List.range 16).map (fun n => { job with track := ⟨1 + n, 0⟩ }) }
       (∀ j ∈ e.jobs, j.track ≠ ⟨0, 0⟩) ∧ 16 ≤ e.length) ∧
      (let s : State := { loaded with engine := { loaded.engine with queued := [job] } }
       s.engine.queued = [] ++ job :: [] ∧ job.track = ⟨0, 0⟩ ∧ s.queuesWf = true ∧ s.canReserve = true ∧
         job ∈ s.engine.active.toList ++ s.engine.parked.toList ++ s.engine.queued) := by decide +kernel

/-- A new job while the engine is COLLECTING and while it is RUNNING, one with nothing pending, and merges into an ACTIVE job with
its grant running and into a PARKED one. -/
theorem witness_TrackCommands_phases :
    (let s : State := { loaded with engine := { loaded.engine with queued := [job], window := some 9 } }
     s.queuesWf = true ∧ s.engine.window.isSome = true ∧ (∀ j ∈ s.engine.jobs, j.track ≠ ⟨1, 0⟩) ∧ s.engine.length < 16 ∧
       s.servingAt (Track.at ⟨1, 0⟩ 3) = false) ∧
      (passing.engine.window = none ∧ passing.engine.jobs ≠ [] ∧ (∀ j ∈ passing.engine.jobs, j.track ≠ ⟨1, 0⟩)) ∧
      (mapped .loaded).servingAt (Track.at ⟨0, 0⟩ 3) = true ∧
      (passing.queuesWf = true ∧ activeJob ∈ passing.engine.active.toList ++ passing.engine.parked.toList ∧
        activeJob.track = ⟨0, 0⟩ ∧ passing.drive.recoveryRunning = true) ∧
      (let s : State := { loaded with engine := { loaded.engine with parked := some activeJob, queued := [{ job with track := ⟨1, 0⟩ }] } }
       s.queuesWf = true ∧ activeJob ∈ s.engine.active.toList ++ s.engine.parked.toList ∧
         (∀ k ∈ s.engine.active.toList ++ s.engine.parked.toList, k.track ≠ ⟨1, 0⟩)) := by decide +kernel

/-- CANCEL TRACK of the ACTIVE job whose pass runs: a read stops at once, a seek is finished first, a settle spent is charged; the grant of
another work runs on. -/
theorem witness_TrackCommands_abort :
    (let spent : Grant := { grant passWork with settleSpent := true, clamped := true }
     let reading : State := { passing with drive := { passing.drive with grant := some spent } }
     let seeking : State := { reading with drive := { reading.drive with activity := .positioning false 5 } }
     let flushing : State := { passing with drive := { passing.drive with grant := some (grant (.flush addr none false)) } }
     (reading.queuesWf = true ∧ reading.engine.active = some activeJob ∧ activeJob.track = ⟨0, 0⟩) ∧
       (after (exec (.cancelTrack [0, 0]) reading)).drive.grant = none ∧
       (after (exec (.cancelTrack [0, 0]) reading)).results.map (fun r => (r.settles, r.clamped)) = [(1, true)] ∧
       (after (exec (.cancelTrack [0, 0]) seeking)).drive.grant = some { spent with aborted := true } ∧
       (after (exec (.cancelTrack [0, 0]) seeking)).drive.activity = .positioning false 5 ∧
       (after (exec (.cancelTrack [0, 0]) flushing)).drive.grant = some (grant (.flush addr none false))) := by decide +kernel

theorem witness_EngineCommands :
    passing.engine.active = some activeJob ∧ passing.engine.held = false ∧
      ({ loaded with engine := { loaded.engine with active := some activeJob } } : State).drive.recoveryRunning = false := by
  decide +kernel

/-- RESET ENGINE with a pass running, a job PARKED and two QUEUED, and one place left for their records. -/
theorem witness_EngineCommands_reset :
    (let s : State := { passing with
       results := List.replicate 61 (activeJob.record .completed)
       engine := { passing.engine with
         parked := some { activeJob with track := ⟨1, 0⟩, bank := some 1 }
         queued := [{ job with track := ⟨2, 0⟩ }, { job with track := ⟨3, 0⟩ }] } }
     let t := after (exec (.resetEngine []) s)
     s.queuesWf = true ∧ s.drive.recoveryRunning = true ∧ 64 - (s.results.length + s.engine.reservations) < s.engine.queued.length ∧
       (t.results.drop 61).map (fun r => (r.track.cyl, r.ending)) = [(0, .abandoned), (1, .abandoned), (2, .abandoned)] ∧
       hasEvent .resultsFull t.events = true ∧ t.drive.grant = none) := by decide +kernel

theorem witness_LoadSectorAwaitsData :
    packServes loaded.pack.state = true ∧ posted.postAt addr ≠ none ∧ loaded.postAt addr = none ∧ loaded.freeSlot ≠ none ∧
      (mapped .loaded).entryAt addr ≠ none := by decide +kernel

theorem witness_DropSector : loaded.entryAt addr = none ∧ (mapped .direct).entryAt addr ≠ none := by decide +kernel

theorem witness_ConfirmedCommands :
    (let s : State := { loaded with ci := { loaded.ci with sequence := .awaitConfirm 0o101 } }
     s.ci.sequence = .awaitConfirm 0o101 ∧ packServes s.pack.state = true ∧ s.sound = true) ∧
      ({ posted with ci := { loaded.ci with sequence := .awaitConfirm 0o101 } } : State).sound = true ∧
      State.reset.pack.state = .empty := by decide +kernel

theorem witness_SettingCommands :
    loaded.posts.entries = [] ∧ loaded.requestsKept true = [] ∧ loaded.drive.grant = none ∧ posted.posts.entries ≠ [] ∧
      Mode.transparent ≠ loaded.port.mode ∧ geometryWf ⟨1, 1, 1, 64, 10⟩ = true ∧ geometryWf ⟨1025, 1, 1, 64, 10⟩ = false ∧
      packServes State.reset.pack.state = false ∧ State.reset.pack.state ≠ .unloading ∧ [word 2].head? = some (word 2) := by
  decide +kernel

theorem witness_UnloadSequence :
    loaded.sound = true ∧ State.reset.sound = true ∧ loaded.pack.state = .loaded ∧
      (after (exec .driveReadyRise State.reset)).sound = true ∧
      (after (exec .driveReadyRise State.reset)).pack.state = .spinningUp ∧
      (let s : State := { loaded with pack := { loaded.pack with state := .unloadPending, firstRequest := some 0, permitGiven := true } }
       s.sound = true ∧ s.pack.state = .unloadPending ∧ s.pack.firstRequest = some 0 ∧ s.posts.entries = [] ∧
         s.now + 999999 < 0 + 1000000 ∧ 0 + 1000000 ≤ s.now + 1000000) ∧
      (let s : State := { passing with pack := { loaded.pack with state := .unloadPending, firstRequest := some 0, permitGiven := true } }
       s.sound = true ∧ s.engine.active = some activeJob ∧ s.drive.recoveryRunning = true) := by decide +kernel

/-- A state with every law, and a step from it that answers a next state. -/
theorem witness_EveryStep :
    ({ loaded with pending := [.jobActivation] } : State).sound = true ∧
      step { loaded with pending := [.jobActivation] } = .next (after (step { loaded with pending := [.jobActivation] })) ∧
      State.reset.sound = true :=
  ⟨by decide +kernel, rfl, by decide +kernel⟩

/-- A command that is no power-on and answers a next state; a latch set, a Format Enable set. -/
theorem witness_WholeMachineLaws :
    exec .controllerClear loaded = .next (after (exec .controllerClear loaded)) ∧
      (∀ straps ready fault, Instr.controllerClear ≠ .powerOn straps ready fault) ∧
      hasEvent .storeFull (withEvent .storeFull 0) = true ∧
      ({ loaded with port := { loaded.port with formatEnable := true } } : State).port.formatEnable = true ∧
      loaded.driveWf = true ∧ loaded.sequenceWf = true ∧ loaded.queuesWf = true ∧ loaded.emptyWithoutPack = true := by
  refine ⟨rfl, fun _ _ _ h => (by cases h), by decide, by decide, by decide +kernel, by decide +kernel, by decide +kernel,
    by decide +kernel⟩

end Sys2Proof.Tests
end

