-- ==== Sys2Proof/Proofs/ControllerClear.lean ====
section
/-! Controller Clear (R23): a new request's drop of the earlier one and of a pending sequence, then the selector to STATUS. -/

namespace Sys2Proof.Machine

/-- What a new request leaves, the selector then set to STATUS: the standing requests kept are those a command write keeps
(R2, R20, R167, R172). -/
theorem State.afterRequest_selectStatus_eq (s : State) :
    s.afterRequest.selectStatus =
      { s.afterRequest with
        drive := { s.drive with requests := s.requestsKept true }
        ci := { s.afterRequest.ci with reply := none } } := by
  have reply_kept : s.afterRequest.ci.reply = s.ci.reply := by
    unfold State.afterRequest
    split <;> rfl
  rw [State.selectStatus_eq, reply_kept, ← State.requestsKept_filter]
  rfl

/-- Controller Clear by its parts: the shared drop and abandonment, the selector, and the port's own registers (R23). -/
theorem State.controllerClear_eq (s : State) :
    s.controllerClear =
      { s.afterRequest with
        port := { s.afterRequest.port with virtCyl := 0, virtHead := 0, formatEnable := false }
        drive := { s.drive with requests := s.requestsKept true }
        ci := { s.afterRequest.ci with reply := none } } := by
  rw [State.controllerClear, ← State.newRequest, State.newRequest_eq_afterRequest, State.afterRequest_selectStatus_eq]

/-- CONTROLLER_CLEAR answers the cleared state. -/
theorem exec_controllerClear (s : State) : exec .controllerClear s = .next s.controllerClear := rfl

/-- Settles O11, from what a new request leaves and the selector's fall to STATUS, by whether a sequence is pending (R167). -/
theorem controllerClearEffects : Obligations.ControllerClearEffects := by
  intro s
  rw [exec_controllerClear, State.controllerClear_eq, State.afterRequest]
  by_cases ready : s.ci.sequence = .ready
  · simp only [if_pos ready]
  · simp only [if_neg ready]

end Sys2Proof.Machine
end

