-- ==== Sys2Proof/Proofs/MediaView.lean ====
section
/-! What the law of media writes (R33, R34, R37, R93, R94) looks at in a state, and the relations between two such views that the
law is assembled from: a step that brings no new write, one that runs a work that may write, and one that keeps the law. -/

namespace Sys2Proof.Machine

/-! ## The view -/

/-- The part of a work that may end in a write of the medium: a WRITE, a FORMAT, or a flush with the words it has begun with. -/
inductive Duty where
  | write (addr : Addr) (words : List Word)
  | format (track : Track)
  | flush (addr : Addr) (begun : Option (List Word))

/-- The duty of a work, none for the works that never write. -/
def Work.duty : Work → Option Duty
  | .write a ws => some (.write a ws)
  | .format t _ => some (.format t)
  | .flush a begun _ => some (.flush a begun)
  | .read _ _ | .capture _ _ _ _ | .driveSector _ | .seek _ | .recalibrate | .recovery _ _ _ _ => none

theorem Work.duty_eq_write {w : Work} {a : Addr} {ws : List Word} : w.duty = some (.write a ws) ↔ w = .write a ws := by
  cases w <;> simp [Work.duty]

theorem Work.duty_eq_format {w : Work} {t : Track} : w.duty = some (.format t) ↔ ∃ phase, w = .format t phase := by
  cases w <;> simp [Work.duty]

theorem Work.duty_eq_flush {w : Work} {a : Addr} {begun : Option (List Word)} :
    w.duty = some (.flush a begun) ↔ ∃ dropped, w = .flush a begun dropped := by
  cases w <;> simp [Work.duty]

/-- What the law reads of a state: the posted words by address, the standing requests, the duty of the running grant, the commands
given to the drive, Media Write Permit and the Region Table. -/
structure Media where
  posts : List (Addr × List Word)
  requests : List ControllerRequest
  duty : Option Duty
  log : List DriveAction
  permit : Bool
  regions : List (Option Region)

/-- A post entry's address and words. -/
def PostEntry.posted (p : PostEntry) : Addr × List Word := (p.addr, p.data)

/-- The view of a state. -/
def State.media (s : State) : Media :=
  { posts := s.posts.entries.map PostEntry.posted
    requests := s.drive.requests
    duty := s.drive.grant.bind (fun g => g.work.duty)
    log := s.driveLog
    permit := s.lines.permit
    regions := s.regions }

theorem State.media_duty (s : State) (g : Grant) (h : s.drive.grant = some g) : s.media.duty = g.work.duty := by
  simp [State.media, h]

/-- A write at the cylinder may be taken: Media Write Permit asserted and a PASS policy (R33, R34). -/
def Media.allows (cyl : Nat) (m : Media) : Prop :=
  m.permit = true ∧ ((findRegion cyl m.regions).getD defaultRegion).write = .pass

/-- The commands that make the drive write. -/
def DriveAction.writes : DriveAction → Bool
  | .writeSector _ _ _ | .formatTrack _ _ => true
  | .seek _ | .recalibrate | .faultClear => false

/-! ## The relations -/

section
variable (ok : DriveAction → Prop)

/-- The commands given between two views: those that write are all of the kind `ok`. -/
def Media.Logs (m n : Media) : Prop := ∃ new, n.log = m.log ++ new ∧ ∀ x ∈ new, x.writes = true → ok x

/-- Nothing new is posted, requested or granted that may write. -/
structure Media.Quiet (m n : Media) : Prop where
  posts : n.posts ⊆ m.posts
  requests : ∀ r ∈ n.requests, r ∈ m.requests ∨ r.work.duty = none
  duty : n.duty = none ∨ n.duty = m.duty
  log : m.Logs ok n

/-- A duty taken up: the grant keeps it or ends, or a flush begins its write with the words posted for its address. -/
structure Media.Runs (d : Option Duty) (m n : Media) : Prop where
  posts : n.posts = m.posts
  requests : n.requests = m.requests
  permit : n.permit = m.permit
  duty : n.duty = none ∨ n.duty = d ∨
    ∃ a ws, d = some (.flush a none) ∧ (a, ws) ∈ m.posts ∧ n.duty = some (.flush a (some ws))
  log : m.Logs ok n

/-- A request that stands with the leave of R34 and R37. -/
def Media.Permits (formatEnable : Bool) (m : Media) (d : Option Duty) : Prop :=
  (∀ a ws, d = some (.write a ws) → m.allows a.cyl) ∧ (∀ t, d = some (.format t) → m.allows t.cyl ∧ formatEnable = true)

/-- The law of media writes between two views; `formatEnable` is Format Enable as it was found. -/
structure Media.Lawful (formatEnable : Bool) (m n : Media) : Prop where
  posts : ∀ p ∈ n.posts, p ∈ m.posts ∨ n.allows p.1.cyl
  requests : ∀ r ∈ n.requests, r ∈ m.requests ∨ n.Permits formatEnable r.work.duty
  duty : ∀ d, n.duty = some d →
    m.duty = some d ∨ (∃ r ∈ m.requests, r.work.duty = some d) ∨ (∃ a, d = .flush a none ∧ n.permit = true) ∨
      ∃ a ws, d = .flush a (some ws) ∧ (a, ws) ∈ m.posts ∧ (m.duty = some (.flush a none) ∨ n.permit = true)
  log : m.Logs ok n

end

section
variable {ok : DriveAction → Prop} {m n k : Media} {d : Option Duty} {formatEnable : Bool}

theorem Media.Logs.of_log_eq (h : n.log = m.log) : m.Logs ok n := ⟨[], by simp [h], by simp⟩

theorem Media.Logs.trans (h : m.Logs ok n) (h' : n.Logs ok k) : m.Logs ok k := by
  obtain ⟨new, eq, hok⟩ := h
  obtain ⟨new', eq', hok'⟩ := h'
  exact ⟨new ++ new', by rw [eq', eq, List.append_assoc], List.forall_mem_append.2 ⟨hok, hok'⟩⟩

theorem Media.Quiet.of_eq (h : n = m) : m.Quiet ok n :=
  h ▸ ⟨List.Subset.refl _, fun _ hr => .inl hr, .inr rfl, .of_log_eq rfl⟩

theorem Media.Quiet.refl (m : Media) : m.Quiet ok m := .of_eq rfl

theorem Media.Quiet.trans (h : m.Quiet ok n) (h' : n.Quiet ok k) : m.Quiet ok k where
  posts := List.Subset.trans h'.posts h.posts
  requests r hr := (h'.requests r hr).elim (h.requests r) .inr
  duty := h'.duty.elim .inl (fun e => e ▸ h.duty)
  log := h.log.trans h'.log

/-- A quiet step after one that ends in the same view. -/
theorem Media.Quiet.andThen {n' : Media} (h : m.Quiet ok n) (h' : n'.Quiet ok k) (e : n' = n := by rfl) : m.Quiet ok k :=
  h.trans (e ▸ h')

theorem Media.Runs.trans_eq (h : m.Runs ok d n) (e : k = n) : m.Runs ok d k := e ▸ h

/-- A step that brings no new write keeps the law. -/
theorem Media.Quiet.lawful (h : m.Quiet ok n) : m.Lawful ok formatEnable n where
  posts p hp := .inl (h.posts hp)
  requests r hr := (h.requests r hr).imp_right (fun e => by simp [e, Media.Permits])
  duty d hd := .inl (h.duty.elim (fun e => by simp [e] at hd) (fun e => e ▸ hd))
  log := h.log

/-- A step that brings no new write may come before one that keeps the law. -/
theorem Media.Lawful.after (h : m.Quiet ok n) (h' : n.Lawful ok formatEnable k) : m.Lawful ok formatEnable k where
  posts p hp := (h'.posts p hp).imp_left (fun e => h.posts e)
  requests r hr := (h'.requests r hr).elim
    (fun e => (h.requests r e).imp_right (fun e => by simp [e, Media.Permits])) .inr
  duty x hx := by
    have back : ∀ y, n.duty = some y → m.duty = some y := fun y hy =>
      h.duty.elim (fun e => by simp [e] at hy) (fun e => e ▸ hy)
    rcases h'.duty x hx with e | ⟨r, hr, e⟩ | e | ⟨a, ws, e, posted, from_⟩
    · exact .inl (back x e)
    · exact (h.requests r hr).elim (fun hr => .inr (.inl ⟨r, hr, e⟩)) (fun e' => by simp [e'] at e)
    · exact .inr (.inr (.inl e))
    · exact .inr (.inr (.inr ⟨a, ws, e, h.posts posted, from_.imp_left (back _)⟩))
  log := h.log.trans h'.log

theorem Media.Quiet.then_lawful {n' : Media} (h : m.Quiet ok n) (h' : n'.Lawful ok formatEnable k) (e : n' = n := by rfl) :
    m.Lawful ok formatEnable k := .after h (e ▸ h')

/-- A duty taken up keeps the law when the grant had it already, when it was requested, or when it is a flush begun with Media Write
Permit asserted. -/
theorem Media.Runs.lawful (h : m.Quiet ok n) (h' : n.Runs ok d k)
    (grounds : m.duty = d ∨ (∃ r ∈ m.requests, r.work.duty = d ∧ ∀ a, d ≠ some (.flush a none)) ∨
      (∃ a, d = some (.flush a none)) ∧ n.permit = true) : m.Lawful ok formatEnable k where
  posts p hp := .inl (h.posts (h'.posts ▸ hp))
  requests r hr := (h.requests r (h'.requests ▸ hr)).imp_right (fun e => by simp [e, Media.Permits])
  duty x hx := by
    rcases h'.duty with e | e | ⟨a, ws, flushing, posted, begun⟩
    · simp [e] at hx
    · rcases grounds with e' | ⟨r, hr, e', -⟩ | ⟨⟨a, e'⟩, permit⟩
      · exact .inl (by rw [e', ← e, hx])
      · exact .inr (.inl ⟨r, hr, by rw [e', ← e, hx]⟩)
      · exact .inr (.inr (.inl ⟨a, by rw [e, e'] at hx; exact (Option.some.inj hx).symm, h'.permit ▸ permit⟩))
    · refine .inr (.inr (.inr ⟨a, ws, by rw [begun] at hx; exact (Option.some.inj hx).symm, h.posts posted, ?_⟩))
      rcases grounds with e' | ⟨r, hr, e', noFlush⟩ | ⟨-, permit⟩
      · exact .inl (by rw [e', flushing])
      · exact absurd flushing (noFlush a)
      · exact .inr (h'.permit ▸ permit)
  log := h.log.trans h'.log

end

end Sys2Proof.Machine
end

