-- ==== Sys2Proof/Proofs/MediaKept.lean ====
section
/-! The shared operations that leave the view of the law of media writes (`State.media`) as it was: the Recovery Engine, the answers
to the controller, the map and the buffers, the pack's own record, the speed and spin-up tests. -/

namespace Sys2Proof.Machine

/-- Two outcomes with the same view. -/
theorem State.media_ite {c : Prop} [Decidable c] {s t : State} {m : Media} (hs : s.media = m) (ht : t.media = m) :
    (if c then s else t).media = m := by
  split
  · exact hs
  · exact ht

/-! ## Answers and replies -/

@[simp] theorem State.media_abandonSequence (s : State) : s.abandonSequence.media = s.media := by
  rw [State.abandonSequence_eq]
  rfl

@[simp] theorem State.media_answerAt (g : Stage) (st : Status) (data : List Word) (s : State) :
    (s.answerAt g st data).media = s.media := by
  unfold State.answerAt
  split <;> rfl

@[simp] theorem State.media_fillDriveReply (granted : Bool) (a : Addr) (c : Word) (header field : List Word) (s : State) :
    (s.fillDriveReply granted a c header field).media = s.media := by
  unfold State.fillDriveReply
  split
  · split <;> rfl
  · rfl

@[simp] theorem State.media_fillDriveReplyEmpty (granted : Bool) (a : Addr) (c : Word) (s : State) :
    (s.fillDriveReplyEmpty granted a c).media = s.media := State.media_fillDriveReply ..

@[simp] theorem State.media_handBack (s : State) (r : ControllerRequest) : (s.handBack r).media = s.media := by
  unfold State.handBack
  split
  · exact State.media_answerAt ..
  · split
    · exact State.media_fillDriveReplyEmpty ..
    all_goals rfl

@[simp] theorem State.media_releaseHold (s : State) : s.releaseHold.media = s.media := by
  unfold State.releaseHold
  split <;> rfl

@[simp] theorem State.media_answerHeldRead (a : Addr) (st : Status) (ws : List Word) (s : State) :
    (s.answerHeldRead a st ws).media = s.media := by
  unfold State.answerHeldRead
  split
  · split
    · split <;> rfl
    · rfl
  · rfl

/-! ## The map and the buffers -/

@[simp] theorem State.media_giveBuffer (i : Nat) (t : Track) (s : State) : (s.giveBuffer i t).media = s.media := by
  unfold State.giveBuffer
  split <;> rfl

@[simp] theorem State.media_storeCaptured (buffer : Option Nat) (n : Nat) (o : PassOutcome) (s : State) :
    (s.storeCaptured buffer n o).media = s.media := by
  unfold State.storeCaptured
  split
  · rfl
  · split <;> rfl

theorem State.media_storeSector {a : Addr} {o : Origin} {ws : List Word} {s t : State} (h : s.storeSector a o ws = some t) :
    t.media = s.media := by
  rw [State.storeSector_frame a o ws s t h]
  rfl

@[simp] theorem State.media_offer (a : Addr) (o : Origin) (ws : List Word) (s : State) :
    (s.offer a o ws).2.media = s.media := by
  rw [State.offer_frame]
  rfl

/-- A change of the running grant's work that keeps its duty keeps the view. -/
theorem State.media_mapWork (f : Work → Work) (hf : ∀ w, (f w).duty = w.duty) (s : State) :
    State.media { s with drive := s.drive.mapWork f } = s.media := by
  simp only [State.media, Drive.mapWork, Option.bind_map]
  congr
  funext g
  exact hf g.work

theorem Work.duty_loseBuffer (t : Track) (w : Work) : (w.loseBuffer t).duty = w.duty := by cases w <;> rfl

theorem Work.duty_restart (w : Work) : w.restart.duty = w.duty := by cases w <;> rfl

/-- A dropped entry's flush goes on as the flush it was, its result to be discarded (R68). -/
theorem Work.duty_markDropped (gone : Addr → Bool) (w : Work) : (w.markDropped gone).duty = w.duty := by cases w <;> rfl

@[simp] theorem State.media_emptyTrackBuffer (t : Track) (s : State) : (s.emptyTrackBuffer t).media = s.media :=
  State.media_mapWork _ (Work.duty_loseBuffer t) s

/-! ## The engine's tests -/

@[simp] theorem State.media_poke (s : State) : s.poke.media = s.media := by
  rw [State.poke_frame]
  rfl

@[simp] theorem State.media_liftResultsFull (s : State) : s.liftResultsFull.media = s.media := by
  rw [State.liftResultsFull_frame]
  rfl

@[simp] theorem State.media_afterQueueChange (s : State) : s.afterQueueChange.media = s.media := by
  rw [State.afterQueueChange_frame]
  rfl

@[simp] theorem State.media_passOver (n : Nat) (s : State) : (s.passOver n).media = s.media := by
  unfold State.passOver
  split
  · simp only [State.media, Option.bind_map, Function.comp_def]
  · rfl

/-! ## Job endings (R129, R130, R133, R134) -/

@[simp] theorem State.media_leaveUndecided (p : State × Job) (n : Nat) : (leaveUndecided p n).1.media = p.1.media := by
  unfold leaveUndecided
  dsimp only
  split
  · exact State.media_offer ..
  · rfl

theorem State.media_leaveAllUndecided (ns : List Nat) (p : State × Job) :
    (ns.foldl leaveUndecided p).1.media = p.1.media := by
  induction ns generalizing p with
  | nil => rfl
  | cons n ns ih => exact (ih _).trans (State.media_leaveUndecided p n)

@[simp] theorem State.media_answerHeldAtEnd (j : Job) (s : State) : (s.answerHeldAtEnd j).media = s.media := by
  unfold State.answerHeldAtEnd
  split
  · split
    · split <;> rfl
    · rfl
  · rfl

@[simp] theorem State.media_closeSectors (j : Job) (s : State) : (s.closeSectors j).1.media = s.media :=
  (State.media_answerHeldAtEnd ..).trans (State.media_leaveAllUndecided ..)

@[simp] theorem State.media_closeJob (ending : Ending) (j : Job) (s : State) : (s.closeJob ending j).media = s.media := by
  rw [State.closeJob, State.media_afterQueueChange, State.placeRecord_frame]
  rfl

@[simp] theorem State.media_endJob (ending : Ending) (j : Job) (s : State) : (s.endJob ending j).media = s.media :=
  (State.media_closeJob ..).trans (State.media_closeSectors ..)

@[simp] theorem State.media_endActive (ending : Ending) (j : Job) (s : State) : (s.endActive ending j).media = s.media :=
  State.media_endJob ..

@[simp] theorem State.media_finishEnding (s : State) : s.finishEnding.media = s.media := by
  unfold State.finishEnding
  split
  · rfl
  · exact State.media_closeJob ..

@[simp] theorem State.media_endQueued (ending : Ending) (fuel : Nat) (s : State) :
    (s.endQueued ending fuel).media = s.media := by
  induction fuel generalizing s with
  | zero => rfl
  | succ fuel ih =>
    unfold State.endQueued
    split
    · rfl
    · exact (ih _).trans (State.media_endJob ..)

@[simp] theorem State.media_endParked (ending : Ending) (s : State) : (s.endParked ending).media = s.media := by
  unfold State.endParked
  split
  · rfl
  · exact State.media_endJob ..

@[simp] theorem State.media_abandonJobs (s : State) : s.abandonJobs.media = s.media := by
  unfold State.abandonJobs
  split <;> simp

@[simp] theorem State.media_releaseActive (s : State) : s.releaseActive.media = s.media := by
  unfold State.releaseActive
  split
  · rfl
  · split
    · exact State.media_closeSectors ..
    · exact State.media_endActive ..

@[simp] theorem State.media_releaseJobs (s : State) : s.releaseJobs.media = s.media := by
  simp [State.releaseJobs]

/-! ## Supersession (R128) -/

@[simp] theorem State.media_supersedeActive (n : Nat) (j : Job) (s : State) : (s.supersedeActive n j).media = s.media := by
  unfold State.supersedeActive
  dsimp only
  split
  · exact (State.media_endActive ..).trans (State.media_passOver ..)
  · exact State.media_passOver ..

@[simp] theorem State.media_supersedeParked (n : Nat) (j : Job) (s : State) : (s.supersedeParked n j).media = s.media := by
  unfold State.supersedeParked
  dsimp only
  split
  · exact State.media_endJob ..
  · rfl

@[simp] theorem State.media_supersedeQueued (n : Nat) (before after : List Job) (j : Job) (s : State) :
    (s.supersedeQueued n before j after).media = s.media := by
  unfold State.supersedeQueued
  dsimp only
  split
  · exact State.media_endJob ..
  · rfl

@[simp] theorem State.media_supersede (a : Addr) (s : State) : (s.supersede a).media = s.media := by
  unfold State.supersede
  split
  · split
    · exact State.media_supersedeActive ..
    · rfl
  · split
    · split
      · exact State.media_supersedeParked ..
      · rfl
    · split
      · split
        · exact State.media_supersedeQueued ..
        · rfl
      · rfl

theorem State.media_supersedeAll (t : Track) (ns : List Nat) (s : State) :
    (ns.foldl (fun s n => s.supersede (t.at n)) s).media = s.media := by
  induction ns generalizing s with
  | nil => rfl
  | cons n ns ih => exact (ih _).trans (State.media_supersede ..)

/-- The effects of a PASS write are on the map, the buffers and the jobs alone (R45). -/
@[simp] theorem State.media_passEffects (a : Addr) (s : State) : (s.passEffects a).media = s.media :=
  State.media_supersede ..

/-! ## Recovery requests and reports (R13, R109, R118 to R120, R125 to R127) -/

theorem State.media_automaticRequest {a : Addr} {ladder : Nat} {keepBest urgent : Bool} {s t : State}
    (h : s.automaticRequest a ladder keepBest urgent = some t) : t.media = s.media := by
  unfold State.automaticRequest at h
  split at h
  · rw [← Option.some.inj h]
    exact State.media_poke _
  · rw [← Option.some.inj h]
    exact State.media_poke _
  · dsimp only at h
    split at h <;> rw [← Option.some.inj h] <;> exact State.media_poke _
  · split at h
    · cases h
    · dsimp only at h
      split at h <;> rw [← Option.some.inj h]
      · exact State.media_endJob ..
      · exact State.media_poke _

@[simp] theorem State.media_placeCommanded (j : Job) (s : State) : (s.placeCommanded j).media = s.media := by
  unfold State.placeCommanded
  split <;> rfl

theorem State.media_commandedRequest {t : Track} {ns : List Nat} {ladder : Nat} {keepBest : Bool} {s u : State}
    (h : s.commandedRequest t ns ladder keepBest = some u) : u.media = s.media := by
  unfold State.commandedRequest at h
  split at h
  · rw [← Option.some.inj h]
    exact State.media_poke _
  · rw [← Option.some.inj h]
    exact State.media_poke _
  · rw [← Option.some.inj h]
    exact State.media_poke _
  · split at h
    · cases h
    · dsimp only at h
      split at h <;> rw [← Option.some.inj h]
      · exact State.media_endJob ..
      · exact (State.media_poke _).trans (State.media_placeCommanded ..)

@[simp] theorem State.media_sendToRecovery (a : Addr) (r : Region) (data : List Word) (s : State) :
    (s.sendToRecovery a r data).media = s.media := by
  unfold State.sendToRecovery
  split
  · rfl
  · next u h =>
    have same := State.media_automaticRequest h
    exact State.media_ite same same

@[simp] theorem State.media_finishRead (o : PassOutcome) (s : State) : (s.finishRead o).media = s.media := by
  unfold State.finishRead
  split
  · rfl
  · split
    · split
      · rfl
      · rfl
      all_goals
        split
        · exact State.media_sendToRecovery ..
        · rfl
    all_goals rfl

@[simp] theorem State.media_resolveSector (n : Nat) (r : Resolution) (ws : List Word) (s : State) :
    (s.resolveSector n r ws).media = s.media := by
  have offered (j : Job) := State.media_offer (j.track.at n) r.mapOrigin ws s
  unfold State.resolveSector
  split
  · rfl
  · next j hj =>
    dsimp only
    split
    · exact (State.media_answerHeldRead ..).trans (offered j)
    · exact (State.media_answerHeldRead ..).trans (offered j)
    · exact offered j

@[simp] theorem State.media_contribute (step : LadderStep) (n : Nat) (bits : List (Bool × Quality)) (inferred : Bool)
    (s : State) : (s.contribute step n bits inferred).media = s.media := by
  unfold State.contribute
  split
  · rfl
  · dsimp only
    split
    · exact State.media_resolveSector ..
    · rfl

@[simp] theorem State.media_examine (step : LadderStep) (firstPass : Bool) (s : State) (p : Nat × PassOutcome) :
    (s.examine step firstPass p).media = s.media := by
  unfold State.examine
  split
  · rfl
  · next j hj =>
    split
    · dsimp only
      generalize cleared : (if firstPass && step.voteMode == .reset then _ else s) = s1
      have same : s1.media = s.media := by subst cleared; split <;> rfl
      split
      · exact (State.media_resolveSector ..).trans same
      · exact (State.media_contribute ..).trans same
      · split
        · exact (State.media_contribute ..).trans same
        · exact same
      all_goals exact same
    · rfl

theorem State.media_examineAll (step : LadderStep) (firstPass : Bool) (outcomes : List (Nat × PassOutcome)) (s : State) :
    (outcomes.foldl (State.examine step firstPass) s).media = s.media := by
  induction outcomes generalizing s with
  | nil => rfl
  | cons p rest ih => exact (ih _).trans (State.media_examine ..)

@[simp] theorem State.media_misSeek (passRead : Bool) (s : State) : (s.misSeek passRead).media = s.media := by
  unfold State.misSeek
  split
  · rfl
  · dsimp only
    split
    · exact State.media_endActive ..
    · exact State.media_poke _

@[simp] theorem State.media_passCounted (s : State) : s.passCounted.media = s.media := by
  unfold State.passCounted
  split
  · rfl
  · dsimp only
    split
    · exact State.media_endActive ..
    · split
      · exact State.media_endActive ..
      · exact State.media_poke _

@[simp] theorem State.media_takeReport (step : LadderStep) (firstPass : Bool) (g : Grant)
    (outcomes : List (Nat × PassOutcome)) (s : State) : (s.takeReport step firstPass g outcomes).media = s.media := by
  unfold State.takeReport
  split
  · rfl
  · dsimp only
    split
    · exact State.media_misSeek ..
    · exact (State.media_passCounted _).trans (State.media_examineAll ..)

@[simp] theorem State.media_takeSeekFailed (g : Grant) (s : State) : (s.takeSeekFailed g).media = s.media :=
  State.media_misSeek ..

@[simp] theorem State.media_takeAborted (g : Grant) (s : State) : (s.takeAborted g).media = s.media :=
  State.media_poke _

/-- The end of a RECOVERY grant keeps the view where its report does. -/
theorem State.media_recoveryEnded (g : Grant) (report : State → State) (s : State) (h : (report s).media = s.media) :
    (s.recoveryEnded g report).media = s.media := by
  unfold State.recoveryEnded
  split
  · rfl
  · split
    · exact State.media_finishEnding s
    · exact h

/-! ## Activation (R121, R122) -/

@[simp] theorem State.media_activateHead (j : Job) (rest : List Job) (s : State) : (s.activateHead j rest).media = s.media := by
  unfold State.activateHead
  dsimp only
  split
  · exact State.media_endActive ..
  · exact (State.media_poke _).trans (State.media_liftResultsFull _)

@[simp] theorem State.media_activateOrHold (s : State) : s.activateOrHold.media = s.media := by
  unfold State.activateOrHold
  split
  · rfl
  · split
    · exact State.media_activateHead ..
    · rfl

@[simp] theorem State.media_resumeParked (j : Job) (s : State) : (s.resumeParked j).media = s.media :=
  (State.media_poke _).trans (State.media_liftResultsFull _)

@[simp] theorem State.media_activate (s : State) : s.activate.media = s.media := by
  unfold State.activate
  split
  · exact State.media_activateOrHold s
  · split
    · exact State.media_resumeParked ..
    · split
      · exact State.media_activateOrHold s
      · exact State.media_resumeParked ..

/-! ## The pack's record and the periods (R95, R96, R152) -/

@[simp] theorem State.media_beginDeparture (s : State) : s.beginDeparture.media = s.media := State.media_releaseHold s

@[simp] theorem State.media_checkSpinUp (period : Nat) (s : State) : (s.checkSpinUp period).media = s.media := by
  unfold State.checkSpinUp
  exact State.media_ite (State.media_poke _) rfl

@[simp] theorem State.media_checkSpeed (period : Nat) (s : State) : (s.checkSpeed period).media = s.media := by
  unfold State.checkSpeed
  exact State.media_ite (State.media_ite (State.media_poke _) rfl) (State.media_ite rfl rfl)

@[simp] theorem State.media_takePeriod (period : Nat) (s : State) : (s.takePeriod period).media = s.media := by
  unfold State.takePeriod
  split
  · exact State.media_checkSpinUp ..
  · exact State.media_checkSpeed ..
  · exact State.media_checkSpeed ..
  all_goals rfl

@[simp] theorem State.media_latchPeriod (s : State) : s.latchPeriod.media = s.media := by
  unfold State.latchPeriod
  dsimp only
  split
  · exact State.media_takePeriod ..
  · rfl

@[simp] theorem State.media_speedAtLoss (s : State) : s.speedAtLoss.media = s.media := by
  unfold State.speedAtLoss
  split <;> rfl

end Sys2Proof.Machine
end

