-- ==== Sys2Proof/Proofs/MediaQuiet.lean ====
section
/-! The shared operations that may end a grant, withdraw requests or drop posts, but bring no new write; and the phases of a grant,
which take up the duty of its work. -/

namespace Sys2Proof.Machine

section
variable {ok : DriveAction → Prop} {m n : Media} {d : Option Duty}

/-! ## One part of the view changed -/

theorem Media.Quiet.of_posts {l : List (Addr × List Word)} (h : l ⊆ m.posts) : m.Quiet ok { m with posts := l } :=
  ⟨h, fun _ hr => .inl hr, .inr rfl, .of_log_eq rfl⟩

theorem Media.Quiet.of_requests {l : List ControllerRequest} (h : ∀ r ∈ l, r ∈ m.requests ∨ r.work.duty = none) :
    m.Quiet ok { m with requests := l } :=
  ⟨List.Subset.refl _, h, .inr rfl, .of_log_eq rfl⟩

theorem Media.Quiet.of_ended : m.Quiet ok { m with duty := none } :=
  ⟨List.Subset.refl _, fun _ hr => .inl hr, .inl rfl, .of_log_eq rfl⟩

theorem Media.Quiet.of_command {x : DriveAction} (h : x.writes = true → ok x) :
    m.Quiet ok { m with log := m.log ++ [x] } :=
  ⟨List.Subset.refl _, fun _ hr => .inl hr, .inr rfl, ⟨[x], rfl, by simpa using h⟩⟩

theorem Media.Quiet.of_rules (permit : Bool) (regions : List (Option Region)) :
    m.Quiet ok { m with permit := permit, regions := regions } :=
  ⟨List.Subset.refl _, fun _ hr => .inl hr, .inr rfl, .of_log_eq rfl⟩

/-- A quiet step whose end has the same view as another state. -/
theorem Media.Quiet.congr {k : Media} (h : m.Quiet ok n) (e : k = n) : m.Quiet ok k := e ▸ h

/-- A step from a state with the same view. -/
theorem Media.Quiet.from_eq {k : Media} (h : n.Quiet ok k) (e : n = m) : m.Quiet ok k := e ▸ h

theorem Media.Runs.of_eq (h : m.duty = d) : m.Runs ok d m := ⟨rfl, rfl, rfl, .inr (.inl h), .of_log_eq rfl⟩

theorem Media.Runs.of_ended : m.Runs ok d { m with duty := none } := ⟨rfl, rfl, rfl, .inl rfl, .of_log_eq rfl⟩

theorem Media.Runs.of_command {x : DriveAction} (h : m.duty = d) (harmless : x.writes = false) :
    m.Runs ok d { m with log := m.log ++ [x] } :=
  ⟨rfl, rfl, rfl, .inr (.inl h), ⟨[x], rfl, by simp [harmless]⟩⟩

/-- Which duty stood before does not matter to the duty taken up. -/
theorem Media.Runs.of_granted {x : Option Duty} (h : Media.Runs ok d { m with duty := x } n) : m.Runs ok d n :=
  ⟨h.posts, h.requests, h.permit, h.duty, h.log⟩

/-- A work that never writes brings no new write. -/
theorem Media.Runs.quiet (h : m.Runs ok none n) : m.Quiet ok n where
  posts := h.posts ▸ List.Subset.refl _
  requests r hr := .inl (h.requests ▸ hr)
  duty := .inl (by simpa using h.duty)
  log := h.log

/-- A grant that goes on with its own duty keeps the law. -/
theorem Media.Runs.goes_on {formatEnable : Bool} (h : m.Runs ok d n) (own : m.duty = d) : m.Lawful ok formatEnable n :=
  h.lawful (.refl m) (.inl own)

end

section
variable (ok : DriveAction → Prop)

/-! ## Requests -/

theorem State.quiet_withdraw (c : Client) (s : State) : s.media.Quiet ok (s.withdraw c).media :=
  .of_requests (fun _ hr => .inl (List.mem_of_mem_filter hr))

theorem State.quiet_dropRequest (s : State) : s.media.Quiet ok s.dropRequest.media := by
  unfold State.dropRequest
  dsimp only
  split
  · exact s.quiet_withdraw ok .port
  · exact .refl _

theorem State.quiet_selectStatus (s : State) : s.media.Quiet ok s.selectStatus.media := by
  unfold State.selectStatus
  dsimp only
  split
  · exact s.quiet_withdraw ok .commandInterface
  · exact .refl _

theorem State.quiet_handBackAll (s : State) : s.media.Quiet ok s.handBackAll.media := by
  have handed (l : List ControllerRequest) (u : State) : (l.foldl State.handBack u).media = u.media := by
    induction l generalizing u with
    | nil => rfl
    | cons r l ih => exact (ih _).trans (State.media_handBack u r)
  exact .congr (.of_requests (l := []) (by simp)) (handed _ _)

/-- A request for work that never writes. -/
theorem State.quiet_requestPortWork (o : PortWork) (w : Work) (s : State) (h : w.duty = none) :
    s.media.Quiet ok (s.requestPortWork o w).media := by
  unfold State.requestPortWork
  split
  · exact .of_requests (List.forall_mem_append.2 ⟨fun _ hr => .inl hr, by simp [h]⟩)
  · exact .refl _

/-- A request made with the leave of R34 and R37. -/
theorem State.lawful_requestPortWork (formatEnable : Bool) (o : PortWork) (w : Work) (s : State)
    (h : s.media.Permits formatEnable w.duty) : s.media.Lawful ok formatEnable (s.requestPortWork o w).media := by
  unfold State.requestPortWork
  split
  · exact ⟨fun _ hp => .inl hp, List.forall_mem_append.2 ⟨fun _ hr => .inl hr, by simpa using .inr h⟩,
      fun _ hd => .inl hd, .of_log_eq rfl⟩
  · exact (Media.Quiet.refl _).lawful

/-! ## The Post Queue -/

/-- A change of an entry that keeps its address and words. -/
theorem State.media_updatePost (a : Addr) (f : PostEntry → PostEntry) (hf : ∀ p, (f p).posted = p.posted) (s : State) :
    (s.withPosts (updatePost a f s.posts.entries)).media = s.media := by
  have same : (updatePost a f s.posts.entries).map PostEntry.posted = s.posts.entries.map PostEntry.posted := by
    simp only [updatePost, List.map_map]
    refine List.map_congr_left (fun p _ => ?_)
    simp only [Function.comp_apply]
    split
    · exact hf p
    · rfl
  simp only [State.media, State.withPosts, same]

theorem State.quiet_filterPosts (keep : PostEntry → Bool) (s : State) :
    s.media.Quiet ok (s.withPosts (s.posts.entries.filter keep)).media :=
  .of_posts (List.map_subset _ (List.filter_subset_self _))

/-- Dropped entries leave the Post Queue, and nothing else changes for the law (R68). -/
theorem State.media_dropPosts (gone : Addr → Bool) (s : State) :
    (s.dropPosts gone).media =
      { s.media with posts := (s.posts.entries.filter (fun p => !gone p.addr)).map PostEntry.posted } :=
  State.media_mapWork _ (Work.duty_markDropped gone) (s.withPosts (s.posts.entries.filter (fun p => !gone p.addr)))

theorem State.quiet_dropPosts (gone : Addr → Bool) (s : State) : s.media.Quiet ok (s.dropPosts gone).media :=
  .congr (s.quiet_filterPosts ok _) (s.media_dropPosts gone)

theorem State.quiet_discardPosts (s : State) : s.media.Quiet ok s.discardPosts.media := by
  unfold State.discardPosts
  split
  · exact .refl _
  · exact .of_posts (l := []) (List.nil_subset _)

theorem State.quiet_countFlushFailure (a : Addr) (s : State) : s.media.Quiet ok (s.countFlushFailure a).media := by
  unfold State.countFlushFailure
  split
  · exact .refl _
  · split
    · exact s.quiet_filterPosts ok _
    · exact .of_eq (State.media_updatePost a _ (by exact fun _ => rfl) s)

theorem State.quiet_flushWritten (a : Addr) (s : State) : s.media.Quiet ok (s.flushWritten a).media := by
  unfold State.flushWritten
  split
  · exact .refl _
  · split
    · exact .of_eq (State.media_updatePost a _ (by exact fun _ => rfl) s)
    · exact s.quiet_filterPosts ok _

theorem State.quiet_flushProtected (a : Addr) (s : State) : s.media.Quiet ok (s.flushProtected a).media := by
  unfold State.flushProtected
  split
  · exact s.quiet_filterPosts ok _
  · exact .refl _

theorem State.quiet_divert {a : Addr} {ws : List Word} {s t : State} (h : s.divert a ws = some t) :
    s.media.Quiet ok t.media := by
  obtain ⟨u, stored, rfl⟩ := Option.map_eq_some_iff.1 h
  exact ((u.quiet_dropPosts ok _).congr (State.media_supersede ..)).from_eq (State.media_storeSector stored)

/-! ## Grants that end -/

theorem State.quiet_endGrant (s : State) : s.media.Quiet ok s.endGrant.media := .of_ended

theorem State.quiet_flushLost (a : Addr) (dropped : Bool) (s : State) : s.media.Quiet ok (s.flushLost a dropped).media := by
  unfold State.flushLost
  dsimp only
  split
  · exact s.quiet_endGrant ok
  · exact (s.quiet_endGrant ok).trans (State.quiet_countFlushFailure ok a (s.endGrant.invalidateSector a))

theorem State.quiet_loseGrant (why : Loss) (s : State) : s.media.Quiet ok (s.loseGrant why).media := by
  have writeLost (t : State) : (if why = .fault then (if t.stage = some .working then t.setStage .clearing else t)
      else t.answerAt .working .notReady []).media = t.media :=
    State.media_ite (State.media_ite rfl rfl) (State.media_answerAt ..)
  have ended := s.quiet_endGrant ok
  unfold State.loseGrant
  split
  · exact .refl _
  · next g _ =>
    dsimp only
    split
    · exact ended.congr (State.media_answerAt ..)
    · exact ended.congr (State.media_answerAt ..)
    · exact ended.congr (State.media_answerAt ..)
    · exact ended.congr (State.media_answerAt ..)
    · exact ended.congr (State.media_fillDriveReplyEmpty ..)
    · exact ended.congr (writeLost _)
    · exact ended.congr ((writeLost _).trans (State.media_emptyTrackBuffer ..))
    · next a _ dropped _ =>
      split
      · exact s.quiet_flushLost ok a dropped
      · exact ended.congr (State.media_updatePost a _ (by exact fun _ => rfl) (s.endGrant.invalidateSector a))
    · exact ended.congr (State.media_recoveryEnded g _ _ (State.media_takeAborted ..))

theorem State.quiet_faultClear (s : State) : s.media.Quiet ok (s.command .faultClear).media :=
  .of_command (fun h => by cases h)

theorem State.quiet_beginFault (s : State) : s.media.Quiet ok s.beginFault.media :=
  ((s.setEvent .driveFault).quiet_loseGrant ok .fault).trans (State.quiet_faultClear ok _)

theorem State.quiet_abortRecovery (s : State) : s.media.Quiet ok s.abortRecovery.media := by
  unfold State.abortRecovery
  split
  · exact .refl _
  · next g hg =>
    split
    · split
      · exact .of_eq (by rw [State.media, State.media, hg]; rfl)
      all_goals exact s.quiet_endGrant ok
    · exact .refl _

theorem State.quiet_cutActive (ending : Ending) (j : Job) (s : State) : s.media.Quiet ok (s.cutActive ending j).media :=
  (s.quiet_abortRecovery ok).congr (State.media_endActive ..)

theorem State.quiet_abortGrant (s : State) : s.media.Quiet ok s.abortGrant.media := by
  unfold State.abortGrant
  split
  · exact .refl _
  · exact s.quiet_loseGrant ok .forced

/-! ## The pack leaves -/

theorem State.quiet_giveRelease (s : State) : s.media.Quiet ok s.giveRelease.media :=
  (State.quiet_handBackAll ok _).from_eq ((State.media_releaseJobs _).trans (State.media_beginDeparture s))

theorem State.quiet_forceRelease (s : State) : s.media.Quiet ok s.forceRelease.media :=
  ((s.quiet_abortGrant ok).trans (State.quiet_discardPosts ok _)).trans
    ((State.quiet_handBackAll ok _).from_eq ((State.media_abandonJobs _).trans (State.media_beginDeparture _)))

@[simp] theorem State.media_packGone (s : State) : s.packGone.media = s.media := rfl

theorem State.quiet_losePack (s : State) : s.media.Quiet ok s.losePack.media := by
  unfold State.losePack
  refine ((s.setEvent .packLost).quiet_discardPosts ok).congr ?_
  rw [State.media_packGone, State.media_abandonJobs, State.media_beginDeparture]

theorem State.quiet_packFall (s : State) : s.media.Quiet ok s.packFall.media := by
  unfold State.packFall
  split
  · exact .refl _
  · exact .of_eq s.media_packGone
  · exact s.quiet_losePack ok
  · exact s.quiet_losePack ok
  · exact .of_eq ((State.media_packGone _).trans s.media_finishEnding)

theorem State.quiet_sequencerFall (s : State) : s.media.Quiet ok s.sequencerFall.media :=
  (s.quiet_loseGrant ok .ready).trans ((State.quiet_handBackAll ok _).from_eq (State.media_answerAt ..))

/-! ## The phases of a grant (R82) -/

/-- A flush write begins with the words posted for its address, or goes on with those it began with (R66, R67). -/
theorem State.runs_beginFlushWrite (g : Grant) (a : Addr) (writing : Option (List Word)) (dropped : Bool) (s : State)
    (h : s.media.duty = some (.flush a writing)) :
    s.media.Runs ok (some (.flush a writing)) (s.beginFlushWrite g a writing dropped).media := by
  unfold State.beginFlushWrite
  split
  · split
    · exact .of_eq h
    · exact .of_ended
  · split
    · next p hp =>
      have marked : (((s.withPosts (updatePost a (fun p => { p with inFlight := true }) s.posts.entries)).setGrant
          { g with work := .flush a (some (writing.getD p.data)) false }).setActivity .writing).media =
          { s.media with duty := some (.flush a (some (writing.getD p.data))) } :=
        congrArg (fun m : Media => { m with duty := some (.flush a (some (writing.getD p.data))) })
          (State.media_updatePost a (fun p => { p with inFlight := true }) (fun _ => rfl) s)
      rw [marked]
      refine ⟨rfl, rfl, rfl, .inr ?_, .of_log_eq rfl⟩
      cases writing with
      | some ws => exact .inl rfl
      | none =>
        have entry : p ∈ s.posts.entries := List.mem_of_find?_eq_some hp
        have addr : p.addr = a := by simpa using List.find?_some hp
        exact .inr ⟨a, p.data, rfl, List.mem_map.2 ⟨p, entry, by rw [PostEntry.posted, addr]⟩, rfl⟩
    · exact .of_ended

theorem State.runs_beginWork (g : Grant) (s : State) (h : s.media.duty = g.work.duty) :
    s.media.Runs ok g.work.duty (s.beginWork g).media := by
  unfold State.beginWork
  cases work : g.work with
  | flush a writing dropped => exact s.runs_beginFlushWrite ok g a writing dropped (by rw [h, work]; rfl)
  | _ => exact .of_eq (by rw [h, work])

theorem State.runs_applyConditions (g : Grant) (s : State) (h : s.media.duty = g.work.duty) :
    s.media.Runs ok g.work.duty (s.applyConditions g).media := by
  unfold State.applyConditions
  dsimp only
  split
  · exact State.runs_beginWork ok g (s.withDrive (fun d => { d with strobe := g.strobe, threshold := g.threshold })) h
  · exact .of_eq h

theorem State.runs_positioned (g : Grant) (s : State) (h : s.media.duty = g.work.duty) :
    s.media.Runs ok g.work.duty (s.positioned g).media := by
  unfold State.positioned
  split
  · exact Media.Runs.of_ended.trans_eq (State.media_answerAt ..)
  · exact Media.Runs.of_ended.trans_eq (State.media_answerAt ..)
  all_goals exact s.runs_applyConditions ok g h

theorem State.runs_seekPhase (g : Grant) (s : State) (h : s.media.duty = g.work.duty) :
    s.media.Runs ok g.work.duty (s.seekPhase g).media := by
  unfold State.seekPhase
  split
  · exact s.runs_positioned ok g h
  · split
    · exact s.runs_positioned ok g h
    · exact .of_command h rfl

theorem State.runs_beginPositioning (recalFirst : Bool) (g : Grant) (s : State) (h : s.media.duty = g.work.duty) :
    s.media.Runs ok g.work.duty (s.beginPositioning recalFirst g).media := by
  unfold State.beginPositioning
  split
  · exact .of_command h rfl
  · exact s.runs_seekPhase ok g h

/-- A grant set out with takes up the duty of its work, whatever stood before. -/
theorem State.runs_setGrant_beginPositioning (recalFirst : Bool) (g : Grant) (s : State) :
    s.media.Runs ok g.work.duty ((s.setGrant g).beginPositioning recalFirst g).media :=
  .of_granted (State.runs_beginPositioning ok recalFirst g (s.setGrant g) rfl)

theorem State.runs_startGrant (recalFirst : Bool) (g : Grant) (s : State) :
    s.media.Runs ok g.work.duty (s.startGrant recalFirst g).media :=
  State.runs_setGrant_beginPositioning ok recalFirst g
    (s.withDrive (fun d => { d with physHead := g.work.head.getD d.physHead }))

end

end Sys2Proof.Machine
end

