-- ==== Sys2Proof/Proofs/MediaRows.lean ====
section
/-! The rows of the table against the law of media writes, in the order of their files: the controller's requests, the commands of the
command sector, grants, the drive's events, the lines, the part's own moments. -/

namespace Sys2Proof.Machine

section
variable (ok : DriveAction → Prop)

/-! ## What a new request does first (R2, R20, R167) -/

theorem State.quiet_afterRequest (s : State) : s.media.Quiet ok s.afterRequest.media :=
  .of_requests (fun _ hr => .inl (List.mem_of_mem_filter hr))

theorem State.quiet_afterDataRequest (head : Nat) (s : State) : s.media.Quiet ok (s.afterDataRequest head).media :=
  s.quiet_afterRequest ok

/-! ## READ, SEEK and RECALIBRATE (R3, R7, R11, R12, R16) -/

theorem State.quiet_driveRead (a : Addr) (s : State) : s.media.Quiet ok (s.driveRead a).media := by
  unfold State.driveRead
  dsimp only
  split
  · exact .refl _
  · exact s.quiet_requestPortWork ok _ _ rfl

theorem State.quiet_lookupRead (a : Addr) (s : State) : s.media.Quiet ok (s.lookupRead a).media := by
  unfold State.lookupRead
  split
  · exact .refl _
  · split
    · exact .refl _
    · split
      · exact .refl _
      · exact s.quiet_driveRead ok a

theorem State.quiet_dataRead (a : Addr) (s : State) : s.media.Quiet ok (s.dataRead a).media := by
  unfold State.dataRead
  split
  · exact .refl _
  · split
    · exact s.quiet_lookupRead ok a
    · exact s.quiet_requestPortWork ok _ _ rfl

@[simp] theorem State.media_readControl (s : State) : s.readControl.media = s.media := by
  have built : s.buildStatus.2.media = s.media := State.media_ite rfl rfl
  have data : s.controlData.2.media = s.media := by
    unfold State.controlData
    split
    · exact built
    · split <;> rfl
  exact data

theorem State.quiet_takeRead (head sector : Nat) (s : State) : s.media.Quiet ok (s.takeRead head sector).media := by
  rw [State.takeRead_eq]
  split
  · exact s.quiet_afterRequest ok
  · split
    · exact s.quiet_afterDataRequest ok head
    · split
      · exact (s.quiet_dropRequest ok).congr (State.media_readControl _)
      · exact (s.quiet_afterDataRequest ok head).trans (State.quiet_dataRead ok ..)

theorem State.quiet_newRequest (s : State) : s.media.Quiet ok s.newRequest.media := by
  rw [State.newRequest_eq_afterRequest]
  exact s.quiet_afterRequest ok

theorem State.quiet_takeSeek (c : Nat) (s : State) : s.media.Quiet ok (s.takeSeek c).media := by
  have taken := s.quiet_newRequest ok
  unfold State.takeSeek
  dsimp only
  split
  · exact taken
  · split
    · exact taken.andThen (State.quiet_requestPortWork ok _ _ _ rfl)
    · exact taken

theorem State.quiet_takeRecalibrate (s : State) : s.media.Quiet ok s.takeRecalibrate.media := by
  have taken := s.quiet_newRequest ok
  unfold State.takeRecalibrate
  dsimp only
  split
  · exact taken.andThen (State.quiet_requestPortWork ok _ _ _ rfl)
  · exact taken

/-! ## WRITE (R14, R16, R61) -/

/-- The words posted when a PASS write is taken: the entries' own, and its words at its address (R61). -/
theorem State.posts_takePost (a : Addr) (ws : List Word) (s : State) (p : Addr × List Word)
    (h : p ∈ (s.takePost a ws).media.posts) : p ∈ s.media.posts ∨ p.1 = a := by
  rw [State.takePost, State.media_passEffects] at h
  split at h
  · obtain ⟨_, merged, rfl⟩ := List.mem_map.1 h
    obtain ⟨q, hq, rfl⟩ := List.mem_map.1 merged
    by_cases e : q.addr = a
    · exact .inr (by rw [if_pos e]; exact e)
    · exact .inl (by rw [if_neg e]; exact List.mem_map_of_mem hq)
  · obtain ⟨q, hq, rfl⟩ := List.mem_map.1 h
    rcases List.mem_append.1 hq with hq | hq
    · exact .inl (List.mem_map_of_mem hq)
    · exact .inr (by rw [List.mem_singleton.1 hq]; rfl)

/-- A post taken touches nothing else of the view (R45, R61). -/
theorem State.media_takePost (a : Addr) (ws : List Word) (s : State) :
    (s.takePost a ws).media = { s.media with posts := (s.takePost a ws).media.posts } := by
  rw [State.takePost, State.media_passEffects]
  split <;> rfl

/-- Words enter the Post Queue with the leave of R34. -/
theorem State.lawful_takePost (formatEnable : Bool) (a : Addr) (ws : List Word) (s : State) (h : s.media.allows a.cyl) :
    s.media.Lawful ok formatEnable (s.takePost a ws).media := by
  have posted := s.posts_takePost a ws
  rw [State.media_takePost] at posted ⊢
  exact ⟨fun p hp => (posted p hp).imp_right (fun e => by rw [e]; exact h), fun _ hr => .inl hr, fun _ hd => .inl hd,
    .of_log_eq rfl⟩

theorem State.lawful_interposeWrite (formatEnable : Bool) (a : Addr) (ws : List Word) (s : State) :
    s.media.Lawful ok formatEnable (s.interposeWrite a ws).media := by
  have quiet : s.media.Lawful ok formatEnable s.media := (Media.Quiet.refl _).lawful
  unfold State.interposeWrite
  split
  · exact quiet
  · split
    · next h => exact (State.quiet_divert ok h).lawful
    · exact quiet
  · next pass =>
    split
    · exact quiet
    · next permit =>
      split
      · exact s.lawful_takePost ok formatEnable a ws ⟨by simpa [State.media] using permit, pass⟩
      · unfold State.waitForRoom
        split <;> exact quiet

theorem State.lawful_transparentWrite (formatEnable : Bool) (a : Addr) (ws : List Word) (s : State) :
    s.media.Lawful ok formatEnable (s.transparentWrite a ws).media := by
  unfold State.transparentWrite
  split
  · next h =>
    refine s.lawful_requestPortWork ok formatEnable _ _ ⟨fun b vs e => ?_, fun t e => by cases e⟩
    cases e
    exact h.symm
  · exact (Media.Quiet.refl _).lawful

theorem State.lawful_dataWrite (formatEnable : Bool) (a : Addr) (ws : List Word) (s : State) :
    s.media.Lawful ok formatEnable (s.dataWrite a ws).media := by
  unfold State.dataWrite
  split
  · exact (Media.Quiet.refl _).lawful
  · split
    · exact s.lawful_interposeWrite ok formatEnable a ws
    · exact s.lawful_transparentWrite ok formatEnable a ws

/-! ## FORMAT (R15, R37, R47) -/

/-- The effects of an accepted FORMAT drop posts of its track; nothing else changes for the law. -/
theorem State.media_formatEffects (t : Track) (s : State) :
    (s.formatEffects t).media =
      { s.media with posts := (s.posts.entries.filter (fun p => !(p.addr.track == t))).map PostEntry.posted } :=
  (State.media_supersedeAll ..).trans ((State.media_emptyTrackBuffer ..).trans (State.media_dropPosts ..))

theorem State.quiet_formatEffects (t : Track) (s : State) : s.media.Quiet ok (s.formatEffects t).media :=
  .congr (s.quiet_filterPosts ok (fun p => !(p.addr.track == t))) (s.media_formatEffects t)

theorem State.acceptsFormat_iff (t : Track) (s : State) :
    s.acceptsFormat t = true ↔ s.port.formatEnable = true ∧ s.media.allows t.cyl := by
  simp [State.acceptsFormat, Media.allows, State.media, State.regionAt, and_assoc]

theorem State.lawful_dataFormat (t : Track) (s : State) :
    s.media.Lawful ok s.port.formatEnable (s.dataFormat t).media := by
  unfold State.dataFormat
  split
  · exact (Media.Quiet.refl _).lawful
  · dsimp only
    split
    · next accepted =>
      obtain ⟨enabled, allowed⟩ := (s.acceptsFormat_iff t).1 accepted
      refine (State.quiet_formatEffects ok t { s with port := { s.port with formatEnable := false } }).then_lawful
        (State.lawful_requestPortWork ok _ _ _ _ ⟨fun a ws (e : some (Duty.format t) = _) => (by cases e), ?_⟩)
      rintro u ⟨⟩
      rw [State.media_formatEffects]
      exact ⟨allowed, enabled⟩
    · exact (Media.Quiet.refl _).lawful

theorem State.lawful_takeFormat (head : Nat) (s : State) :
    s.media.Lawful ok s.port.formatEnable (s.takeFormat head).media := by
  rw [State.takeFormat_eq]
  split
  · exact (s.quiet_afterRequest ok).lawful
  · exact (s.quiet_afterDataRequest ok head).then_lawful ((s.afterDataRequest head).lawful_dataFormat ok _)

/-! ## The commands of the command sector -/

theorem media_cmdReadResult (ps : List Word) (s : State) : (cmdReadResult ps s).2.media = s.media := by
  unfold cmdReadResult
  split
  · rfl
  · exact (State.media_poke _).trans (State.media_liftResultsFull _)

theorem media_cmdReadMapEntry (ps : List Word) (s : State) : (cmdReadMapEntry ps s).2.media = s.media := by
  unfold cmdReadMapEntry
  split <;> rfl

theorem media_cmdReadStoreData (ps : List Word) (s : State) : (cmdReadStoreData ps s).2.media = s.media := by
  unfold cmdReadStoreData
  split
  · rfl
  · split <;> rfl

theorem media_cmdListMap (ps : List Word) (s : State) : (cmdListMap ps s).2.media = s.media := by
  unfold cmdListMap
  split <;> rfl

theorem media_cmdReadRegion (ps : List Word) (s : State) : (cmdReadRegion ps s).2.media = s.media := by
  unfold cmdReadRegion
  split
  · rfl
  · split <;> rfl

theorem media_cmdReadLadder (ps : List Word) (s : State) : (cmdReadLadder ps s).2.media = s.media := by
  unfold cmdReadLadder
  split
  · rfl
  · split <;> rfl

/-- READ DRIVE SECTOR makes a request that never writes (R172). -/
theorem quiet_cmdReadDriveSector (ps : List Word) (s : State) : s.media.Quiet ok (cmdReadDriveSector ps s).2.media := by
  unfold cmdReadDriveSector
  split
  · exact .refl _
  · split
    · exact .refl _
    · dsimp only
      split
      · exact .of_requests (List.forall_mem_append.2 ⟨fun _ hr => .inl hr, by simp [Work.duty]⟩)
      · exact .of_eq (State.media_fillDriveReplyEmpty ..)

theorem quiet_cmdLoadRegion (ps : List Word) (s : State) : s.media.Quiet ok (cmdLoadRegion ps s).2.media := by
  unfold cmdLoadRegion
  split
  · exact .refl _
  · split
    · exact .refl _
    · exact .of_rules s.lines.permit _

theorem quiet_cmdDeleteRegion (ps : List Word) (s : State) : s.media.Quiet ok (cmdDeleteRegion ps s).2.media := by
  unfold cmdDeleteRegion
  split
  · exact .refl _
  · split
    · split
      · exact .refl _
      · exact .of_rules s.lines.permit _
    · exact .refl _

theorem media_cmdLoadLadderStep (ps : List Word) (s : State) : (cmdLoadLadderStep ps s).2.media = s.media := by
  unfold cmdLoadLadderStep
  split
  · split
    · rfl
    · dsimp only
      split <;> rfl
  · rfl

theorem media_cmdClearLadder (ps : List Word) (s : State) : (cmdClearLadder ps s).2.media = s.media := by
  unfold cmdClearLadder
  split
  · rfl
  · split
    · rfl
    · split <;> rfl

theorem media_cmdRecoverTrack (ps : List Word) (s : State) : (cmdRecoverTrack ps s).2.media = s.media := by
  unfold cmdRecoverTrack
  split
  · rfl
  · split
    · rfl
    · split
      · rfl
      · next h => exact State.media_commandedRequest h

theorem quiet_cmdCancelTrack (ps : List Word) (s : State) : s.media.Quiet ok (cmdCancelTrack ps s).2.media := by
  unfold cmdCancelTrack
  split
  · dsimp only
    split
    · exact .refl _
    · split
      · exact .refl _
      · exact s.quiet_cutActive ok ..
      · exact .of_eq (State.media_endJob ..)
      · exact .of_eq (State.media_endJob ..)
  · exact .refl _

theorem quiet_cmdResetEngine (ps : List Word) (s : State) : s.media.Quiet ok (cmdResetEngine ps s).2.media := by
  have rest (u : State) : u.abandonJobs.engineAtRest.media = u.media := State.media_abandonJobs u
  unfold cmdResetEngine
  dsimp only
  split
  · exact (s.quiet_abortRecovery ok).congr ((rest _).trans (State.media_finishEnding _))
  · exact (s.quiet_cutActive ok ..).congr ((rest _).trans (State.media_finishEnding _))

theorem media_cmdLoadSector (ps : List Word) (s : State) : (cmdLoadSector ps s).2.media = s.media := by
  unfold cmdLoadSector
  split
  · rfl
  · split
    · rfl
    · split
      · rfl
      · split <;> rfl

theorem media_cmdDropSector (ps : List Word) (s : State) : (cmdDropSector ps s).2.media = s.media := by
  unfold cmdDropSector
  split
  · rfl
  · split <;> rfl

theorem media_cmdPermitUnload (ps : List Word) (s : State) : (cmdPermitUnload ps s).2.media = s.media := by
  unfold cmdPermitUnload
  split <;> rfl

theorem media_cmdSetGuard (ps : List Word) (s : State) : (cmdSetGuard ps s).2.media = s.media := by
  unfold cmdSetGuard
  split <;> rfl

theorem media_cmdSetMode (ps : List Word) (s : State) : (cmdSetMode ps s).2.media = s.media := by
  unfold cmdSetMode
  split
  · rfl
  · split
    · rfl
    · split
      · rfl
      · exact State.media_poke _

theorem quiet_cmdSetGeometry (ps : List Word) (s : State) : s.media.Quiet ok (cmdSetGeometry ps s).2.media := by
  unfold cmdSetGeometry
  split
  · exact .refl _
  · split
    · exact .refl _
    · exact .refl _
    · exact .refl _
    all_goals exact .of_rules s.lines.permit _

theorem media_cmdSetTiming (ps : List Word) (s : State) : (cmdSetTiming ps s).2.media = s.media := by
  unfold cmdSetTiming
  split <;> rfl

theorem media_cmdSetTrim (ps : List Word) (s : State) : (cmdSetTrim ps s).2.media = s.media := by
  unfold cmdSetTrim
  split <;> rfl

theorem media_cmdSetControlAddress (ps : List Word) (s : State) : (cmdSetControlAddress ps s).2.media = s.media := by
  unfold cmdSetControlAddress
  split <;> rfl

theorem media_cmdClearEvents (ps : List Word) (s : State) : (cmdClearEvents ps s).2.media = s.media := by
  unfold cmdClearEvents
  split <;> rfl

theorem quiet_confirmed (code : Word) (s : State) : s.media.Quiet ok (confirmed code s).2.media := by
  unfold confirmed
  split
  · exact .refl _
  · split
    · unfold confirmedForceUnload
      split
      · exact .refl _
      · exact s.quiet_giveRelease ok
      · exact s.quiet_forceRelease ok
      · exact s.quiet_forceRelease ok
      · exact .refl _
    · unfold confirmedEnableFormat
      split <;> exact .refl _

/-- One of two command bodies chosen by a code. -/
theorem quiet_body_ite {c : Prop} [Decidable c] {m : Media} {p q : ResultCode × State} (hp : m.Quiet ok p.2.media)
    (hq : m.Quiet ok q.2.media) : m.Quiet ok (if c then p else q).2.media := by
  split
  · exact hp
  · exact hq

/-- No command of the command sector brings a new write, whatever its code. -/
theorem quiet_commandBody (code : Word) (ps : List Word) (s : State) : s.media.Quiet ok (commandBody code ps s).2.media := by
  unfold commandBody
  refine quiet_body_ite ok (.refl _) ?_
  refine quiet_body_ite ok (.of_eq (media_cmdReadResult ps s)) ?_
  refine quiet_body_ite ok (.of_eq (media_cmdReadMapEntry ps s)) ?_
  refine quiet_body_ite ok (.of_eq (media_cmdReadStoreData ps s)) ?_
  refine quiet_body_ite ok (.of_eq (media_cmdListMap ps s)) ?_
  refine quiet_body_ite ok (.of_eq (media_cmdReadRegion ps s)) ?_
  refine quiet_body_ite ok (.of_eq (media_cmdReadLadder ps s)) ?_
  refine quiet_body_ite ok (quiet_cmdReadDriveSector ok ps s) ?_
  refine quiet_body_ite ok (quiet_cmdLoadRegion ok ps s) ?_
  refine quiet_body_ite ok (quiet_cmdDeleteRegion ok ps s) ?_
  refine quiet_body_ite ok (.of_eq (media_cmdLoadLadderStep ps s)) ?_
  refine quiet_body_ite ok (.of_eq (media_cmdClearLadder ps s)) ?_
  refine quiet_body_ite ok (.of_eq (media_cmdRecoverTrack ps s)) ?_
  refine quiet_body_ite ok (quiet_cmdCancelTrack ok ps s) ?_
  refine quiet_body_ite ok (.refl _) ?_
  refine quiet_body_ite ok (.of_eq (State.media_poke _)) ?_
  refine quiet_body_ite ok (quiet_cmdResetEngine ok ps s) ?_
  refine quiet_body_ite ok (.of_eq (media_cmdLoadSector ps s)) ?_
  refine quiet_body_ite ok (.of_eq (media_cmdDropSector ps s)) ?_
  refine quiet_body_ite ok (.refl _) ?_
  refine quiet_body_ite ok (.of_eq (media_cmdPermitUnload ps s)) ?_
  refine quiet_body_ite ok (.refl _) ?_
  refine quiet_body_ite ok (.of_eq (media_cmdSetGuard ps s)) ?_
  refine quiet_body_ite ok (.of_eq (media_cmdSetMode ps s)) ?_
  refine quiet_body_ite ok (quiet_cmdSetGeometry ok ps s) ?_
  refine quiet_body_ite ok (.of_eq (media_cmdSetTiming ps s)) ?_
  refine quiet_body_ite ok (.of_eq (media_cmdSetTrim ps s)) ?_
  refine quiet_body_ite ok (.of_eq (media_cmdSetControlAddress ps s)) ?_
  refine quiet_body_ite ok (.refl _) ?_
  refine quiet_body_ite ok (.of_eq (media_cmdClearEvents ps s)) ?_
  exact quiet_body_ite ok (.refl _) (.refl _)

theorem State.quiet_takeCommand (code : Word) (count : Nat) (ps : List Word) (body : State → ResultCode × State) (s : State)
    (h : ∀ u : State, u.media.Quiet ok (body u).2.media) : s.media.Quiet ok (s.takeCommand code count ps body).media := by
  have run (u : State) : u.media.Quiet ok (runBody count body u).2.media := quiet_body_ite ok (.refl _) (h u)
  have selected := s.quiet_selectStatus ok
  unfold State.takeCommand
  dsimp only
  split
  · split
    · exact selected.andThen (quiet_confirmed ok ..)
    · exact selected.andThen (run _) (State.media_abandonSequence _)
  · exact selected.andThen (run _)
  · exact selected.andThen (run _)

@[simp] theorem State.media_takeDataSector (a : Addr) (ws : List Word) (s : State) :
    (s.takeDataSector a ws).media = s.media := by
  have loaded : (s.loadData a ws).2.media = s.media := by
    unfold State.loadData
    split
    · rfl
    · split
      · next h => exact State.media_storeSector h
      · rfl
  exact loaded

theorem State.quiet_commandStep (code : Word) (ps : List Word) (s : State) :
    s.media.Quiet ok (s.commandStep code ps (commandBody code ps)).media := by
  have dropped := s.quiet_dropRequest ok
  unfold State.commandStep
  dsimp only
  split
  · exact dropped.congr (State.media_takeDataSector ..)
  · exact dropped.andThen (State.quiet_takeCommand ok _ _ _ _ _ (quiet_commandBody ok code ps))
  · exact dropped.andThen (State.quiet_takeCommand ok _ _ _ _ _ (quiet_commandBody ok code ps))

/-- A WRITE to the control sector address: data, a command, or an ordinary WRITE (R163). -/
theorem State.lawful_controlWrite (formatEnable : Bool) (ws : List Word) (s : State) :
    s.media.Lawful ok formatEnable (s.controlWrite ws).media := by
  have ordinary := ((s.quiet_selectStatus ok).congr (State.media_abandonSequence _)).then_lawful
    (s.selectStatus.abandonSequence.lawful_dataWrite ok formatEnable s.ci.controlAddr ws)
  have command (n : Nat) (code : Word) (ps : List Word) :
      s.media.Lawful ok formatEnable (s.takeCommand code n ps (commandBody code ps)).media :=
    (s.quiet_takeCommand ok _ _ _ _ (quiet_commandBody ok code ps)).lawful
  unfold State.controlWrite
  split
  · exact (Media.Quiet.of_eq (State.media_takeDataSector ..)).lawful
  · split
    · exact command ..
    · exact ordinary
  · split
    · exact command ..
    · exact ordinary

theorem State.lawful_takeWrite (formatEnable : Bool) (head sector : Nat) (words : List Word) (s : State) :
    s.media.Lawful ok formatEnable (s.takeWrite head sector words).media := by
  rw [State.takeWrite_eq]
  split
  · exact (s.quiet_afterRequest ok).lawful
  · split
    · exact (s.quiet_afterDataRequest ok head).lawful
    · split
      · exact (s.quiet_dropRequest ok).then_lawful ((s.dropRequest.setVirtHead head).lawful_controlWrite ok ..)
      · exact (s.quiet_afterDataRequest ok head).then_lawful (State.lawful_dataWrite ok ..)

theorem State.lawful_takeControlWrite (formatEnable : Bool) (words : List Word) (s : State) :
    s.media.Lawful ok formatEnable (s.takeControlWrite words).media :=
  (s.quiet_dropRequest ok).then_lawful (State.lawful_controlWrite ok ..)

/-- A request of any kind taken. -/
theorem State.lawful_takeRequest (r : Request) (s : State) :
    s.media.Lawful ok s.port.formatEnable (s.takeRequest r).media := by
  cases r with
  | select => exact (s.quiet_newRequest ok).lawful
  | seek c => exact (s.quiet_takeSeek ok c).lawful
  | recalibrate => exact (s.quiet_takeRecalibrate ok).lawful
  | read head sector => exact (s.quiet_takeRead ok head sector).lawful
  | write head sector words => exact s.lawful_takeWrite ok _ head sector words
  | format head => exact s.lawful_takeFormat ok head
  | sense => exact (Media.Quiet.of_eq (State.media_abandonSequence s)).lawful

theorem State.quiet_controllerClear (s : State) : s.media.Quiet ok s.controllerClear.media := by
  rw [State.controllerClear_eq]
  exact .of_requests (fun _ hr => .inl (List.mem_of_mem_filter hr))

/-- At power-on nothing is posted, requested or granted (R177). -/
theorem State.quiet_poweredOn (straps : Straps) (s : State) : s.media.Quiet ok (s.poweredOn straps).media :=
  ⟨List.nil_subset _, fun _ hr => (by cases hr), .inl rfl, .of_log_eq rfl⟩

theorem State.quiet_powerOnReady (fault : Bool) (s : State) : s.media.Quiet ok (s.powerOnReady fault).media := by
  unfold State.powerOnReady
  dsimp only
  split
  · exact (Media.Quiet.refl _).andThen (State.quiet_beginFault ok _)
  · exact .refl _

end

end Sys2Proof.Machine
end

