-- ==== Sys2Proof/Proofs/MediaDrive.lean ====
section
/-! The Drive Sequencer's rows against the law of media writes: a grant given, its positioning and its failures, the ends of its work,
and what the lines and the part's own moments do to it. -/

namespace Sys2Proof.Machine

section
variable (ok : DriveAction → Prop)

/-! ## The grant at work -/

theorem State.grantIn_eq_some {s : State} {a : Activity} {g : Grant} :
    s.grantIn a = some g ↔ s.drive.activity = a ∧ s.drive.grant = some g := by
  unfold State.grantIn
  split <;> simp_all

/-- A grant replaced by one of the same duty. -/
theorem State.media_setGrant {s : State} {g : Grant} (h : s.media.duty = g.work.duty) : (s.setGrant g).media = s.media := by
  have e : (s.setGrant g).media = { s.media with duty := g.work.duty } := rfl
  rw [e, ← h]

/-! ## A grant given (R81, R82) -/

/-- A standing request is no flush: the Post Queue's is computed, not held (R62, R80). -/
theorem ControllerRequest.wf_not_flush (r : ControllerRequest) (h : r.wf = true) (a : Addr) (begun : Option (List Word)) :
    r.work.duty ≠ some (.flush a begun) := by
  intro flushing
  obtain ⟨dropped, e⟩ := Work.duty_eq_flush.1 flushing
  unfold ControllerRequest.wf at h
  rw [e] at h
  cases hc : r.client <;> simp [hc] at h

theorem State.winner_controller {s : State} {r : ControllerRequest} {rest : List ControllerRequest}
    (h : s.winner = .controller r rest) : s.drive.requests = r :: rest := by
  unfold State.winner at h
  split at h
  · cases h
  · split at h
    · next e => cases h; exact e
    · split at h
      · cases h
      · split at h <;> cases h

/-- A flush is granted with Media Write Permit asserted (R64). -/
theorem State.lawful_grantFlush (formatEnable : Bool) (s : State) :
    s.media.Lawful ok formatEnable s.grantFlush.media := by
  unfold State.grantFlush
  split
  · next permit =>
    split
    · exact (Media.Quiet.refl _).lawful
    · next p _ _ =>
      exact (s.runs_startGrant ok false (s.centreGrant (.flush p.addr none false))).lawful (.refl _)
        (.inr (.inr ⟨⟨p.addr, rfl⟩, permit⟩))
  · exact (Media.Quiet.refl _).lawful

theorem State.runs_centreGrant (w : Work) (s : State) :
    s.media.Runs ok w.duty (s.startGrant false (s.centreGrant w)).media :=
  s.runs_startGrant ok false (s.centreGrant w)

/-- A capture has no duty (R71). -/
theorem State.runs_grantCapture (a : Addr) (s : State) : s.media.Runs ok none (s.grantCapture a).media := by
  have given : ((s.giveBuffer (s.chooseBuffer a.track) a.track).setStage .capturing).media = s.media :=
    State.media_giveBuffer ..
  rw [← given]
  exact State.runs_centreGrant ok (.capture a.track a.sector (some (s.chooseBuffer a.track)) []) _

/-- A Controller Port request granted takes up the duty it asked for; a capture, like the READ it serves, has none (R71, R82). -/
theorem State.runs_grantPortWork (w : Work) (s : State) : s.media.Runs ok w.duty (s.grantPortWork w).media := by
  have started := (s.setStage .working).runs_centreGrant ok w
  cases w with
  | read a prefetch =>
    unfold State.grantPortWork
    dsimp only
    split
    · exact s.runs_grantCapture ok a
    · exact started
  | _ => exact started

theorem State.lawful_grantController (formatEnable : Bool) (r : ControllerRequest) (rest : List ControllerRequest) (s : State)
    (standing : s.drive.requests = r :: rest) (wf : r.wf = true) :
    s.media.Lawful ok formatEnable (s.grantController r rest).media := by
  have taken : s.media.Quiet ok { s.media with requests := rest } :=
    .of_requests (fun q hq => .inl (by rw [State.media, standing]; exact List.mem_cons_of_mem r hq))
  have asked : ∃ q ∈ s.media.requests, q.work.duty = r.work.duty ∧ ∀ a, r.work.duty ≠ some (.flush a none) :=
    ⟨r, by rw [State.media, standing]; exact List.mem_cons_self, rfl, fun a => r.wf_not_flush wf a none⟩
  unfold State.grantController
  dsimp only
  split
  · exact (State.runs_grantPortWork ok r.work (s.withDrive (fun d => { d with requests := rest }))).lawful taken
      (.inr (.inl asked))
  · exact (State.runs_startGrant ok false _ (s.withDrive (fun d => { d with requests := rest })).markDriveReply).lawful taken
      (.inr (.inl asked))

theorem State.quiet_grantRecovery (s : State) : s.media.Quiet ok s.grantRecovery.media := by
  unfold State.grantRecovery
  split
  · exact .refl _
  · split
    · exact .refl _
    · exact (Media.Quiet.refl _).andThen (State.runs_startGrant ok _ (State.recoveryGrant _ _ _) _).quiet

theorem State.lawful_giveGrant (formatEnable : Bool) (s : State) (wf : s.drive.requests.all ControllerRequest.wf = true) :
    s.media.Lawful ok formatEnable s.giveGrant.media := by
  unfold State.giveGrant
  split
  · exact s.lawful_grantFlush ok formatEnable
  · next r rest h =>
    have standing := State.winner_controller h
    exact s.lawful_grantController ok formatEnable r rest standing
      (List.all_eq_true.1 wf r (standing ▸ List.mem_cons_self))
  · exact (s.quiet_grantRecovery ok).lawful
  · exact (Media.Quiet.refl _).lawful

theorem lawful_execDriveGrant (formatEnable permit : Bool) (s t : State)
    (wf : s.drive.requests.all ControllerRequest.wf = true) (h : execDriveGrant permit s = .next t) :
    s.media.Lawful ok formatEnable t.media := by
  have sampled : s.media.Quiet ok (s.setPermit permit).media := .of_rules permit s.regions
  unfold execDriveGrant at h
  cases h
  split
  · exact sampled.then_lawful (State.lawful_giveGrant ok formatEnable (s.setPermit permit) wf)
  · exact sampled.lawful

/-! ## Positioning and its failures (R66, R67, R83, R84) -/

/-- A failed flush attempt is begun again only with Media Write Permit asserted (R67). -/
theorem State.lawful_flushFailed (formatEnable : Bool) (g : Grant) (a : Addr) (dropped : Bool) (s : State) :
    s.media.Lawful ok formatEnable (s.flushFailed g a dropped).media := by
  have counted := s.quiet_countFlushFailure ok a
  unfold State.flushFailed
  split
  · exact (s.quiet_endGrant ok).lawful
  · dsimp only
    split
    · exact (counted.trans (State.quiet_endGrant ok _)).lawful
    · split
      · exact (counted.trans (State.quiet_endGrant ok _)).lawful
      · next permit =>
        split
        · exact (counted.trans (State.quiet_endGrant ok _)).lawful
        · exact (State.runs_setGrant_beginPositioning ok false
            { g with allowanceUsed := false, work := .flush a none false } (s.countFlushFailure a)).lawful counted
            (.inr (.inr ⟨⟨a, rfl⟩, by simpa [State.media] using permit⟩))

theorem State.lawful_positioningLost (formatEnable : Bool) (g : Grant) (header field : List Word) (s : State) :
    s.media.Lawful ok formatEnable (s.positioningLost g header field).media := by
  have ended := s.quiet_endGrant ok
  unfold State.positioningLost
  split
  · exact (ended.congr (State.media_answerAt ..)).lawful
  · exact (ended.congr (State.media_answerAt ..)).lawful
  · exact (ended.congr (State.media_answerAt ..)).lawful
  · exact (ended.congr (State.media_answerAt ..)).lawful
  · exact (ended.congr (State.media_fillDriveReply ..)).lawful
  · exact (ended.congr (State.media_answerAt ..)).lawful
  · exact (ended.congr ((State.media_answerAt ..).trans (State.media_emptyTrackBuffer ..))).lawful
  · next a _ dropped _ => exact (s.invalidateSector a).lawful_flushFailed ok formatEnable g a dropped
  · exact (ended.congr (State.media_recoveryEnded g _ _ (State.media_takeSeekFailed ..))).lawful

theorem State.lawful_recalibrateLost (formatEnable : Bool) (g : Grant) (header field : List Word) (s : State) :
    s.media.Lawful ok formatEnable (s.recalibrateLost g header field).media := by
  unfold State.recalibrateLost
  split
  · exact (s.quiet_flushLost ok ..).lawful
  all_goals exact s.lawful_positioningLost ok formatEnable g header field

theorem State.lawful_positioningFailure (formatEnable : Bool) (g : Grant) (header field : List Word) (s : State)
    (own : s.media.duty = g.work.duty) : s.media.Lawful ok formatEnable (s.positioningFailure g header field).media := by
  unfold State.positioningFailure
  split
  · exact s.lawful_positioningLost ok formatEnable g header field
  · have again := State.media_setGrant (g := { g with allowanceUsed := true, work := g.work.restart })
      (own.trans (Work.duty_restart g.work).symm)
    exact ((Media.Quiet.of_eq again).andThen (.of_command (x := .recalibrate) (fun h => by cases h))).lawful

theorem State.lawful_positioningDone (formatEnable recalibrating : Bool) (g : Grant) (s : State)
    (own : s.media.duty = g.work.duty) : s.media.Lawful ok formatEnable (s.positioningDone recalibrating g).media := by
  unfold State.positioningDone
  split
  · dsimp only
    split
    · exact (s.quiet_endGrant ok).lawful
    · exact ((s.setPhysCyl (some 0)).runs_seekPhase ok g own).goes_on own
  · dsimp only
    split
    · exact (s.quiet_endGrant ok).lawful
    · exact ((s.setPhysCyl g.work.cylinder).runs_positioned ok g own).goes_on own

theorem lawful_execSeekComplete (formatEnable : Bool) (s t : State) (h : execSeekComplete s = .next t) :
    s.media.Lawful ok formatEnable t.media := by
  unfold execSeekComplete at h
  cases h
  split
  case h_1 g _ hg => exact s.lawful_positioningDone ok formatEnable _ g (s.media_duty g hg)
  all_goals exact (Media.Quiet.refl _).lawful

theorem State.lawful_positioningExpired (formatEnable recalibrating : Bool) (g : Grant) (s : State)
    (own : s.media.duty = g.work.duty) : s.media.Lawful ok formatEnable (s.positioningExpired recalibrating g).media := by
  unfold State.positioningExpired
  dsimp only
  split
  · exact (s.quiet_endGrant ok).lawful
  · split
    · exact (s.setPhysCyl none).lawful_recalibrateLost ok formatEnable g _ _
    · split
      · exact (s.setPhysCyl none).lawful_positioningLost ok formatEnable g _ _
      all_goals exact (s.setPhysCyl none).lawful_positioningFailure ok formatEnable g _ _ own

theorem lawful_execPositioningLimitExpiry (formatEnable permit : Bool) (s t : State)
    (h : execPositioningLimitExpiry permit s = .next t) : s.media.Lawful ok formatEnable t.media := by
  have sampled : s.media.Quiet ok (s.setPermit permit).media := .of_rules permit s.regions
  unfold execPositioningLimitExpiry at h
  cases h
  split
  case h_1 deadline g _ hg =>
    exact sampled.then_lawful
      (State.lawful_positioningExpired ok formatEnable _ g ((s.setPermit permit).advanceTo deadline) (s.media_duty g hg))
  all_goals exact (Media.Quiet.refl _).lawful

theorem lawful_execSettleEnd (formatEnable : Bool) (s t : State) (h : execSettleEnd s = .next t) :
    s.media.Lawful ok formatEnable t.media := by
  unfold execSettleEnd at h
  cases h
  split
  · exact (Media.Quiet.refl _).lawful
  · next g hg =>
    have own := s.media_duty g (State.grantIn_eq_some.1 hg).2
    have charged : ((s.withDrive (fun d => { d with settled := true })).setGrant { g with settleSpent := true }).media =
        s.media := State.media_setGrant (s := s.withDrive _) own
    exact (Media.Quiet.of_eq charged).then_lawful
      ((State.runs_beginWork ok { g with settleSpent := true } _ (charged ▸ own)).goes_on (charged ▸ own))

/-! ## The index pulse and its loss (R94, R95, R97) -/

/-- The lines and the grant at work, which a latched period leaves as they are. -/
def State.running (s : State) : Lines × Activity × Option Grant := (s.lines, s.drive.activity, s.drive.grant)

theorem State.running_poke (s : State) : s.poke.running = s.running := by
  rw [State.poke_frame]
  rfl

theorem State.running_ite {c : Prop} [Decidable c] {s t u : State} (hs : s.running = u.running) (ht : t.running = u.running) :
    (if c then s else t).running = u.running := by
  split
  · exact hs
  · exact ht

theorem State.running_checkSpeed (period : Nat) (s : State) : (s.checkSpeed period).running = s.running := by
  unfold State.checkSpeed
  exact State.running_ite (State.running_ite (State.running_poke _) rfl) (State.running_ite rfl rfl)

theorem State.running_latchPeriod (s : State) : s.latchPeriod.running = s.running := by
  have taken (period : Nat) (u : State) : (u.takePeriod period).running = u.running := by
    unfold State.takePeriod
    split
    · exact State.running_ite (State.running_poke _) rfl
    · exact u.running_checkSpeed period
    · exact u.running_checkSpeed period
    all_goals rfl
  exact State.running_ite (taken _ _) rfl

theorem State.quiet_formatEnds (t : Track) (st : Status) (s : State) : s.media.Quiet ok (s.formatEnds t st).media :=
  (s.quiet_endGrant ok).congr ((State.media_answerAt ..).trans (State.media_emptyTrackBuffer ..))

/-- The pulse a FORMAT awaits commands its writing revolution, the write-protect line deasserted (R94). -/
theorem State.quiet_formatIndex (g : Grant) (s : State) (own : s.media.duty = g.work.duty)
    (justified : ∀ t, g.work = .format t .awaitIndex → s.lines.writeProtect = false →
      ok (.formatTrack t (formattedTrack s.geom t))) : s.media.Quiet ok (s.formatIndex g).media := by
  unfold State.formatIndex
  split
  · next t awaits =>
    split
    · exact s.quiet_formatEnds ok t .writeFault
    · next unprotected =>
      exact (Media.Quiet.of_command (fun _ => justified t awaits (by simpa using unprotected))).congr
        (State.media_setGrant (by rw [awaits] at own; exact own))
  · next t writing =>
    have same : (s.setGrant { g with work := .format t .verifying }).media = s.media :=
      State.media_setGrant (by rw [writing] at own; exact own)
    exact .of_eq same
  all_goals exact .refl _

theorem quiet_execIndexPulse (elapsed : Nat) (protect : Bool) (s t : State) (h : execIndexPulse elapsed protect s = .next t)
    (justified : ∀ (g : Grant) (k : Track) (geom : Geometry), s.drive.activity = .writing → s.drive.grant = some g →
      g.work = .format k .awaitIndex → protect = false → ok (.formatTrack k (formattedTrack geom k))) :
    s.media.Quiet ok t.media := by
  obtain ⟨u, hu⟩ : ∃ u, u = (((s.advance elapsed).setProtect protect).latchPeriod).renewFlush := ⟨_, rfl⟩
  have same : u.media = s.media := hu ▸ State.media_latchPeriod ((s.advance elapsed).setProtect protect)
  have running : u.running = ((s.advance elapsed).setProtect protect).running := hu ▸ State.running_latchPeriod _
  simp only [State.running, Prod.mk.injEq] at running
  obtain ⟨lines, activity, grant⟩ := running
  unfold execIndexPulse at h
  cases h
  rw [← hu]
  refine Media.Quiet.from_eq ?_ same
  unfold State.advanceFormat
  split
  · exact .refl _
  · next g hg =>
    obtain ⟨writing, granted⟩ := State.grantIn_eq_some.1 hg
    refine u.quiet_formatIndex ok g (u.media_duty g granted) (fun k awaits unprotected => ?_)
    exact justified g k u.geom (activity.symm.trans writing) (grant.symm.trans granted) awaits
      ((congrArg Lines.writeProtect lines).symm.trans unprotected)

theorem State.quiet_readLost (stage : Stage) (s : State) : s.media.Quiet ok (s.endGrant.readLost stage).media :=
  (s.quiet_endGrant ok).congr (State.media_answerAt ..)

theorem State.lawful_rotationLost (formatEnable gateRaised : Bool) (g : Grant) (s : State) :
    s.media.Lawful ok formatEnable (s.rotationLost gateRaised g).media := by
  have ended := s.quiet_endGrant ok
  have same : s.media.Lawful ok formatEnable s.media := (Media.Quiet.refl _).lawful
  unfold State.rotationLost
  split
  · exact (s.quiet_readLost ok .working).lawful
  · exact (s.quiet_readLost ok .capturing).lawful
  · exact (ended.congr (State.media_fillDriveReplyEmpty ..)).lawful
  · split
    · exact same
    · exact (ended.congr (State.media_answerAt ..)).lawful
  · exact (s.quiet_formatEnds ok ..).lawful
  · next a _ dropped _ =>
    split
    · exact same
    · exact (s.invalidateSector a).lawful_flushFailed ok formatEnable g a dropped
  · exact (ended.congr (State.media_recoveryEnded g _ _ (State.media_takeAborted ..))).lawful
  · exact same
  · exact same

theorem lawful_execIndexLoss (formatEnable gateRaised : Bool) (s t : State) (h : execIndexLoss gateRaised s = .next t) :
    s.media.Lawful ok formatEnable t.media := by
  unfold execIndexLoss at h
  cases h
  split
  · unfold State.takeIndexLoss
    dsimp only
    generalize lost : State.speedAtLoss _ = u
    have same : u.media = s.media := lost ▸ State.media_speedAtLoss _
    rw [← same]
    split
    · split
      · exact u.lawful_rotationLost ok formatEnable _ _
      · exact (Media.Quiet.refl _).lawful
    · exact (Media.Quiet.refl _).lawful
  · exact (Media.Quiet.refl _).lawful

/-! ## Reads (R10, R72, R84, R172) -/

theorem State.lawful_sectorRead (formatEnable : Bool) (g : Grant) (a : Addr) (o : PassOutcome) (s : State)
    (own : s.media.duty = g.work.duty) : s.media.Lawful ok formatEnable (s.sectorRead g a o).media := by
  have ended := s.quiet_endGrant ok
  have answered : s.media.Lawful ok formatEnable
      (if s.stage = some .working then s.endGrant.finishRead o else s.endGrant).media :=
    (ended.congr (State.media_ite (State.media_finishRead ..) rfl)).lawful
  unfold State.sectorRead
  split
  · exact s.lawful_positioningFailure ok formatEnable g _ _ own
  · split
    · exact (ended.congr (State.media_fillDriveReply ..)).lawful
    all_goals exact answered

theorem lawful_execReadSectorEnd (formatEnable : Bool) (signal : SectorSignal) (s t : State)
    (h : execReadSectorEnd signal s = .next t) : s.media.Lawful ok formatEnable t.media := by
  unfold execReadSectorEnd at h
  cases h
  split
  · exact (Media.Quiet.refl _).lawful
  · next g hg =>
    split
    · exact (Media.Quiet.refl _).lawful
    · exact s.lawful_sectorRead ok formatEnable g _ _ (s.media_duty g (State.grantIn_eq_some.1 hg).2)

theorem State.lawful_captureDecoded (formatEnable : Bool) (g : Grant) (t : Track) (want : Nat) (buffer : Option Nat)
    (decoded : List Nat) (n : Nat) (o : PassOutcome) (s : State) (own : s.media.duty = g.work.duty) (reads : g.work.duty = none) :
    s.media.Lawful ok formatEnable (s.captureDecoded g t want buffer decoded n o).media := by
  unfold State.captureDecoded
  dsimp only
  split
  · exact s.lawful_positioningFailure ok formatEnable g _ _ own
  · have stored := s.media_storeCaptured buffer n o
    have same : ((s.storeCaptured buffer n o).setGrant
        { g with work := .capture t want buffer (insertSector n decoded) }).media = s.media :=
      (State.media_setGrant (by rw [stored, own, reads]; rfl)).trans stored
    exact (Media.Quiet.of_eq (State.media_ite ((State.media_finishRead ..).trans same) same)).lawful

theorem lawful_execCaptureSectorDecoded (formatEnable : Bool) (n : Nat) (signal : SectorSignal) (s t : State)
    (h : execCaptureSectorDecoded n signal s = .next t) : s.media.Lawful ok formatEnable t.media := by
  unfold execCaptureSectorDecoded at h
  cases h
  split
  · exact (Media.Quiet.refl _).lawful
  · next g hg =>
    have own := s.media_duty g (State.grantIn_eq_some.1 hg).2
    split
    · next capturing =>
      split
      · exact s.lawful_captureDecoded ok formatEnable g _ _ _ _ _ _ own (by rw [capturing]; rfl)
      · exact (Media.Quiet.refl _).lawful
    all_goals exact (Media.Quiet.refl _).lawful

theorem quiet_execCaptureEnd (s t : State) (h : execCaptureEnd s = .next t) : s.media.Quiet ok t.media := by
  unfold execCaptureEnd at h
  cases h
  split
  · exact .refl _
  · split
    · exact (s.quiet_endGrant ok).congr (State.media_ite (State.media_finishRead ..) rfl)
    all_goals exact .refl _

theorem quiet_execRecoveryPassEnd (signals : List (Nat × SectorSignal)) (s t : State)
    (h : execRecoveryPassEnd signals s = .next t) : s.media.Quiet ok t.media := by
  unfold execRecoveryPassEnd at h
  cases h
  split
  · exact .refl _
  · next g _ =>
    split
    · exact (s.quiet_endGrant ok).congr (State.media_recoveryEnded g _ _ (State.media_takeReport ..))
    all_goals exact .refl _

/-! ## Writes (R66, R67, R93, R94) -/

theorem writeEnd_eq_written {threshold : Nat} {a : Addr} {header : Option (List BitCell)} {protect : Bool} :
    writeEnd threshold a header protect = .written ↔ headerMatching threshold a header = true ∧ protect = false := by
  unfold writeEnd
  split <;> (try split) <;> simp_all

theorem State.quiet_writeSector (a : Addr) (ws : List Word) (s : State) (justified : ok (.writeSector a ws (crc ws))) :
    s.media.Quiet ok (s.writeSector a ws).media :=
  .of_command (fun _ => justified)

theorem State.quiet_directWriteEnds (a : Addr) (ws : List Word) (e : WriteEnd) (s : State)
    (justified : e = .written → ok (.writeSector a ws (crc ws))) : s.media.Quiet ok (s.directWriteEnds a ws e).media := by
  unfold State.directWriteEnds
  split
  · exact ((s.quiet_writeSector ok a ws (justified rfl)).trans (State.quiet_endGrant ok _)).congr
      ((State.media_answerAt ..).trans (State.media_passEffects ..))
  all_goals exact (s.quiet_endGrant ok).congr (State.media_answerAt ..)

theorem State.lawful_flushWriteEnds (formatEnable : Bool) (g : Grant) (a : Addr) (ws : List Word) (dropped : Bool) (e : WriteEnd)
    (s : State) (justified : e = .written → ok (.writeSector a ws (crc ws))) :
    s.media.Lawful ok formatEnable (s.flushWriteEnds g a ws dropped e).media := by
  unfold State.flushWriteEnds
  split
  · have written := (s.quiet_writeSector ok a ws (justified rfl)).trans (State.quiet_endGrant ok _)
    dsimp only
    split
    · exact written.lawful
    · exact (written.andThen (State.quiet_flushWritten ok a _)).lawful
  · dsimp only
    split
    · exact (s.quiet_endGrant ok).lawful
    · exact ((s.quiet_endGrant ok).andThen (State.quiet_flushProtected ok a _)).lawful
  · exact (s.invalidateSector a).lawful_flushFailed ok formatEnable g a dropped

theorem lawful_execSectorWriteEnd (formatEnable : Bool) (header : Option (List BitCell)) (protect permit : Bool) (s t : State)
    (h : execSectorWriteEnd header protect permit s = .next t)
    (justified : ∀ (g : Grant) (a : Addr) (ws : List Word), s.drive.activity = .writing → s.drive.grant = some g →
      headerMatching g.threshold a header = true → protect = false →
      (g.work = .write a ws ∨ ∃ d, g.work = .flush a (some ws) d) → ok (.writeSector a ws (crc ws))) :
    s.media.Lawful ok formatEnable t.media := by
  unfold execSectorWriteEnd at h
  cases h
  generalize sampling : (s.setProtect protect).setPermit permit = u
  have sampled : s.media.Quiet ok u.media := sampling ▸ .of_rules permit s.regions
  refine sampled.then_lawful ?_
  have drive : u.drive = s.drive := by rw [← sampling]; rfl
  split
  · exact (Media.Quiet.refl _).lawful
  · next g hg =>
    obtain ⟨writing, granted⟩ := State.grantIn_eq_some.1 hg
    have own := u.media_duty g granted
    rw [drive] at writing granted
    split
    · next a ws work =>
      split
      · exact u.lawful_positioningFailure ok formatEnable g _ _ own
      · refine (u.quiet_directWriteEnds ok a ws _ (fun e => ?_)).lawful
        obtain ⟨matching, unprotected⟩ := writeEnd_eq_written.1 e
        exact justified g a ws writing granted matching unprotected (.inl work)
    · next a ws dropped work =>
      split
      · exact u.lawful_positioningFailure ok formatEnable g _ _ own
      · refine u.lawful_flushWriteEnds ok formatEnable g a ws dropped _ (fun e => ?_)
        obtain ⟨matching, unprotected⟩ := writeEnd_eq_written.1 e
        exact justified g a ws writing granted matching unprotected (.inr ⟨dropped, work⟩)
    all_goals exact (Media.Quiet.refl _).lawful

theorem quiet_execFormatWorkEnd (headers : List (Option (List BitCell))) (s t : State)
    (h : execFormatWorkEnd headers s = .next t) : s.media.Quiet ok t.media := by
  unfold execFormatWorkEnd at h
  cases h
  split
  · exact .refl _
  · split
    · exact s.quiet_formatEnds ok ..
    all_goals exact .refl _

/-! ## The lines and the panel (R77, R98, R99, R152 to R160) -/

theorem State.quiet_takeReadyRise (s : State) : s.media.Quiet ok s.takeReadyRise.media := by
  have rise (u : State) : u.packRise.media = u.media := State.media_ite rfl rfl
  have risen : s.media.Quiet ok ((s.setReady true).setCond .ready).packRise.media := .of_eq (rise _)
  unfold State.takeReadyRise
  dsimp only
  split
  · exact risen.andThen (State.quiet_beginFault ok _)
  · exact risen

theorem State.quiet_takeFaultRise (s : State) : s.media.Quiet ok s.takeFaultRise.media := by
  unfold State.takeFaultRise
  dsimp only
  split
  · exact (s.setFault true).quiet_beginFault ok
  · exact .refl _

theorem quiet_execFaultClearEnd (s t : State) (h : execFaultClearEnd s = .next t) : s.media.Quiet ok t.media := by
  unfold execFaultClearEnd at h
  cases h
  split
  · dsimp only
    split
    · exact (State.quiet_handBackAll ok _).from_eq (State.media_answerAt ..)
    · exact .of_eq (State.media_answerAt ..)
  all_goals exact .refl _

theorem State.quiet_takeUnloadRequest (s : State) : s.media.Quiet ok s.takeUnloadRequest.media := by
  unfold State.takeUnloadRequest
  split
  · exact .refl _
  · exact .refl _
  · exact (s.setEvent .unloadRequested).quiet_giveRelease ok
  · exact .refl _
  · unfold State.secondRequest
    split
    · split
      · exact (s.setEvent .unloadRequested).quiet_forceRelease ok
      · exact .refl _
    · exact .refl _

/-! ## The part's own moments (R19, R21, R62, R119, R122) -/

theorem State.media_expireHold (h : Hold) (s : State) : (s.expireHold h).media = s.media := by
  unfold State.expireHold
  split <;> rfl

theorem quiet_execHoldDeadline (s t : State) (h : execHoldDeadline s = .next t) : s.media.Quiet ok t.media := by
  unfold execHoldDeadline at h
  cases h
  split
  · exact .refl _
  · next hold _ => exact .of_eq (State.media_expireHold hold (s.advanceTo hold.deadline))

/-- A waiting WRITE enters with the leave of R34 as it stands then (R21). -/
theorem lawful_execWaitingWriteEntry (formatEnable permit : Bool) (s t : State)
    (h : execWaitingWriteEntry permit s = .next t) : s.media.Lawful ok formatEnable t.media := by
  have sampled : s.media.Quiet ok (s.setPermit permit).media := .of_rules permit s.regions
  unfold execWaitingWriteEntry at h
  cases h
  refine sampled.then_lawful ?_
  have same : (s.setPermit permit).media.Lawful ok formatEnable (s.setPermit permit).media := (Media.Quiet.refl _).lawful
  split
  · exact same
  · split
    · exact same
    · split
      · unfold State.enterWaiting
        split
        · next leave => exact (s.setPermit permit).lawful_takePost ok formatEnable _ _ leave.symm
        · exact same
      · exact same

end

end Sys2Proof.Machine
end

