-- ==== Sys2Proof/Proofs/MediaWriteLaw.lean ====
section
/-! The law of media writes (R34): every command keeps it between the views of the state before and after, and what that says of the
states themselves. -/

namespace Sys2Proof.Machine

/-- The commands to write that a row may give in a state: the end of the window of the granted sector, with the words granted and
their check word (R93), or the index pulse that a FORMAT awaits (R94), the write-protect line deasserted. -/
def Justified (i : Instr) (s : State) : DriveAction → Prop
  | .writeSector a ws c =>
      c = crc ws ∧ ∃ header permit g, i = .sectorWriteEnd header false permit ∧ s.drive.activity = .writing ∧
        s.drive.grant = some g ∧ headerMatching g.threshold a header = true ∧
        (g.work = .write a ws ∨ ∃ d, g.work = .flush a (some ws) d)
  | .formatTrack k l =>
      (∀ x ∈ l, ∀ w ∈ x.words, w = 0) ∧ ∃ elapsed g, i = .indexPulse elapsed false ∧ s.drive.activity = .writing ∧
        s.drive.grant = some g ∧ g.work = .format k .awaitIndex
  | .seek _ | .recalibrate | .faultClear => True

/-- A FORMAT writes words of zero (R94). -/
theorem formattedTrack_zero (g : Geometry) (t : Track) : ∀ x ∈ formattedTrack g t, ∀ w ∈ x.words, w = 0 := by
  intro x hx w hw
  obtain ⟨n, -, rfl⟩ := List.mem_map.1 hx
  rw [formattedSector, fitWords_nil] at hw
  exact List.eq_of_mem_replicate hw

section
variable (ok : DriveAction → Prop)

/-- A row of the command sector, as every row with a code. -/
theorem lawful_commandRow (formatEnable : Bool) (i : Instr) (code : Word) (s t : State) (row : i.code? = some code)
    (h : exec i s = .next t) : s.media.Lawful ok formatEnable t.media := by
  rw [exec_command i code s row] at h
  cases h
  exact (s.quiet_commandStep ok code i.params).lawful

theorem lawful_execPowerOn (formatEnable : Bool) (straps : Straps) (ready fault : Bool) (s t : State)
    (h : execPowerOn straps ready fault s = .next t) : s.media.Lawful ok formatEnable t.media := by
  have on := s.quiet_poweredOn ok straps
  unfold execPowerOn at h
  cases h
  split
  · exact (on.trans (State.quiet_powerOnReady ok fault _)).lawful
  · exact on.lawful

theorem lawful_execOtherUnitRequest (unit : Fin 8) (r : Request) (s t : State)
    (h : execOtherUnitRequest unit r s = .next t) : s.media.Lawful ok s.port.formatEnable t.media := by
  unfold execOtherUnitRequest at h
  cases h
  split
  · exact s.lawful_takeRequest ok r
  · exact (Media.Quiet.refl _).lawful

/-- A row that samples Media Write Permit and takes a request. -/
theorem State.lawful_sampledRequest (permit : Bool) (r : Request) (s : State) :
    s.media.Lawful ok s.port.formatEnable ((s.setPermit permit).takeRequest r).media :=
  (Media.Quiet.of_rules permit s.regions).then_lawful ((s.setPermit permit).lawful_takeRequest ok r)

end

/-- Every command keeps the law of media writes, from every state whose standing requests are of the kinds their clients make. -/
theorem exec_lawful (i : Instr) (s t : State) (wf : s.drive.requests.all ControllerRequest.wf = true) (h : exec i s = .next t) :
    s.media.Lawful (Justified i s) s.port.formatEnable t.media := by
  have kept : s.media.Lawful (Justified i s) s.port.formatEnable s.media := (Media.Quiet.refl _).lawful
  cases i with
  | powerOn straps ready fault => exact lawful_execPowerOn _ _ straps ready fault s t h
  | controllerClear => cases h; exact (s.quiet_controllerClear _).lawful
  | otherUnitRequest unit r => exact lawful_execOtherUnitRequest _ unit r s t h
  | select => cases h; exact s.lawful_takeRequest _ .select
  | seek c => cases h; exact s.lawful_takeRequest _ (.seek c)
  | recalibrate => cases h; exact s.lawful_takeRequest _ .recalibrate
  | read head sector => cases h; exact s.lawful_takeRequest _ (.read head sector)
  | write head sector words permit => cases h; exact s.lawful_sampledRequest _ permit (.write head sector words)
  | format head permit => cases h; exact s.lawful_sampledRequest _ permit (.format head)
  | sense permit => cases h; exact s.lawful_sampledRequest _ permit .sense
  | loadSectorData words => cases h; exact s.lawful_takeControlWrite _ _ words
  | driveGrant permit => exact lawful_execDriveGrant _ _ permit s t wf h
  | seekComplete => exact lawful_execSeekComplete _ _ s t h
  | positioningLimitExpiry permit => exact lawful_execPositioningLimitExpiry _ _ permit s t h
  | settleEnd => exact lawful_execSettleEnd _ _ s t h
  | indexPulse elapsed protect =>
    refine (quiet_execIndexPulse _ elapsed protect s t h (fun g k geom writing granted awaits unprotected => ?_)).lawful
    subst unprotected
    exact ⟨formattedTrack_zero geom k, elapsed, g, rfl, writing, granted, awaits⟩
  | indexLoss gateRaised => exact lawful_execIndexLoss _ _ gateRaised s t h
  | readSectorEnd signal => exact lawful_execReadSectorEnd _ _ signal s t h
  | captureSectorDecoded n signal => exact lawful_execCaptureSectorDecoded _ _ n signal s t h
  | captureEnd => exact (quiet_execCaptureEnd _ s t h).lawful
  | sectorWriteEnd header protect permit =>
    refine lawful_execSectorWriteEnd _ _ header protect permit s t h
      (fun g a ws writing granted matching unprotected work => ?_)
    subst unprotected
    exact ⟨rfl, header, permit, g, rfl, writing, granted, matching, work⟩
  | formatWorkEnd headers => exact (quiet_execFormatWorkEnd _ headers s t h).lawful
  | recoveryPassEnd signals => exact (quiet_execRecoveryPassEnd _ signals s t h).lawful
  | jobActivation => cases h; split; exacts [(Media.Quiet.of_eq s.media_activate).lawful, kept]
  | batchWindowExpiry => cases h; split <;> exact kept
  | holdDeadline => exact (quiet_execHoldDeadline _ s t h).lawful
  | waitingWriteEntry permit => exact lawful_execWaitingWriteEntry _ _ permit s t h
  | flushLatencyExpiry => cases h; split <;> exact kept
  | driveReadyRise => cases h; split; exacts [kept, (s.quiet_takeReadyRise _).lawful]
  | driveReadyFall =>
    cases h
    split
    exacts [(((s.setReady false).quiet_sequencerFall _).trans (State.quiet_packFall _ _)).lawful, kept]
  | driveFault => cases h; split; exacts [kept, (s.quiet_takeFaultRise _).lawful]
  | faultClearEnd => exact (quiet_execFaultClearEnd _ s t h).lawful
  | faultLineFall => cases h; split <;> exact kept
  | unloadRequest elapsed => cases h; exact ((s.advance elapsed).quiet_takeUnloadRequest _).lawful
  | unloadRelease => cases h; split; exacts [(s.quiet_giveRelease _).lawful, kept]
  | _ => exact lawful_commandRow _ _ _ _ s t rfl h

/-! ## The law said of the states -/

section
variable {ok : DriveAction → Prop} {formatEnable : Bool} {s t : State}

theorem State.posted_of_lawful (h : s.media.Lawful ok formatEnable t.media) :
    ∀ p ∈ t.posts.entries, (∃ q ∈ s.posts.entries, q.addr = p.addr ∧ q.data = p.data) ∨
      t.lines.permit = true ∧ (t.regionAt p.addr.cyl).write = .pass := by
  intro p hp
  refine (h.posts p.posted (List.mem_map_of_mem hp)).imp_left (fun old => ?_)
  obtain ⟨q, hq, e⟩ := List.mem_map.1 old
  exact ⟨q, hq, congrArg Prod.fst e, congrArg Prod.snd e⟩

theorem State.requested_of_lawful (h : s.media.Lawful ok formatEnable t.media) :
    ∀ r ∈ t.drive.requests, r ∈ s.drive.requests ∨
      ((∀ a ws, r.work = .write a ws → t.media.allows a.cyl) ∧
        ∀ k phase, r.work = .format k phase → t.media.allows k.cyl ∧ formatEnable = true) := by
  intro r hr
  refine (h.requests r hr).imp_right (fun leave => ⟨fun a ws e => ?_, fun k phase e => ?_⟩)
  · exact leave.1 a ws (Work.duty_eq_write.2 e)
  · exact leave.2 k (Work.duty_eq_format.2 ⟨phase, e⟩)

/-- A grant with a duty in the view. -/
theorem State.grant_of_media_duty {d : Duty} (h : s.media.duty = some d) :
    ∃ g, s.drive.grant = some g ∧ g.work.duty = some d :=
  Option.bind_eq_some_iff.1 h

/-- A grant flushing an address. -/
theorem State.flush_of_media_duty {a : Addr} {begun : Option (List Word)} (h : s.media.duty = some (.flush a begun)) :
    ∃ g u, s.drive.grant = some g ∧ g.work = .flush a begun u := by
  obtain ⟨g, hg, e⟩ := State.grant_of_media_duty h
  obtain ⟨u, e⟩ := Work.duty_eq_flush.1 e
  exact ⟨g, u, hg, e⟩

/-- A WRITE or FORMAT granted was granted before, or requested. -/
theorem State.granted_of_lawful (h : s.media.Lawful ok formatEnable t.media) {g : Grant} (granted : t.drive.grant = some g)
    {d : Duty} (duty : g.work.duty = some d) (noFlush : ∀ a begun, d ≠ .flush a begun) :
    (∃ h, s.drive.grant = some h ∧ h.work.duty = some d) ∨ ∃ r ∈ s.drive.requests, r.work.duty = some d := by
  rcases h.duty d ((t.media_duty g granted).trans duty) with e | e | ⟨a, e, -⟩ | ⟨a, ws, e, -⟩
  · exact .inl (State.grant_of_media_duty e)
  · exact .inr e
  · exact absurd e (noFlush a none)
  · exact absurd e (noFlush a (some ws))

/-- A flush granted was granted before, begun with Media Write Permit asserted, or has begun its write with posted words. -/
theorem State.flushing_of_lawful (h : s.media.Lawful ok formatEnable t.media)
    (wf : s.drive.requests.all ControllerRequest.wf = true) {g : Grant} (granted : t.drive.grant = some g) {a : Addr}
    {begun : Option (List Word)} {dropped : Bool} (work : g.work = .flush a begun dropped) :
    (∃ h u, s.drive.grant = some h ∧ h.work = .flush a begun u) ∨ (begun = none ∧ t.lines.permit = true) ∨
      ∃ ws, begun = some ws ∧ ((∃ h u, s.drive.grant = some h ∧ h.work = .flush a none u) ∨ t.lines.permit = true) ∧
        ∃ p ∈ s.posts.entries, p.addr = a ∧ p.data = ws := by
  have duty := (t.media_duty g granted).trans (Work.duty_eq_flush.2 ⟨dropped, work⟩)
  rcases h.duty _ duty with e | ⟨r, hr, e⟩ | ⟨b, e, permit⟩ | ⟨b, ws, e, posted, grounds⟩
  · exact .inl (State.flush_of_media_duty e)
  · exact absurd e (r.wf_not_flush (List.all_eq_true.1 wf r hr) a begun)
  · cases e
    exact .inr (.inl ⟨rfl, permit⟩)
  · cases e
    obtain ⟨p, hp, e⟩ := List.mem_map.1 posted
    exact .inr (.inr ⟨ws, rfl, grounds.imp_left State.flush_of_media_duty, p, hp, congrArg Prod.fst e, congrArg Prod.snd e⟩)

end

/-- The standing requests of a state with its drive law are of the kinds their clients make (R80). -/
theorem State.requests_wf {s : State} (h : s.driveWf = true) : s.drive.requests.all ControllerRequest.wf = true := by
  simp only [State.driveWf, Bool.and_eq_true] at h
  obtain ⟨⟨⟨⟨-, wf⟩, -⟩, -⟩, -⟩ := h
  exact wf

/-- Settles O58: every command keeps the law between the views of the two states, and each clause is read off there. -/
theorem mediaWriteLaw : Obligations.MediaWriteLaw := by
  intro s t i drive h
  have wf := State.requests_wf drive
  have law := exec_lawful i s t wf h
  refine ⟨State.posted_of_lawful law, State.requested_of_lawful law,
    fun g granted => ⟨?write, ?format, ?flush, ?flushWrite⟩, ?log⟩
  case write =>
    intro a ws work
    have from_ := State.granted_of_lawful law granted (Work.duty_eq_write.2 work) (by simp)
    simpa only [Work.duty_eq_write] using from_
  case format =>
    intro k phase work
    have duty := Work.duty_eq_format.2 ⟨phase, work⟩
    rcases State.granted_of_lawful law granted duty (by simp) with ⟨q, hq, e⟩ | ⟨r, hr, e⟩
    · obtain ⟨u, e⟩ := Work.duty_eq_format.1 e
      exact .inl ⟨q, u, hq, e⟩
    · exact .inr ⟨r, hr, Work.duty_eq_format.1 e⟩
  case flush =>
    intro a d work
    rcases State.flushing_of_lawful law wf granted work with e | ⟨-, permit⟩ | ⟨ws, e, -⟩
    · exact .inl e
    · exact .inr permit
    · cases e
  case flushWrite =>
    intro a ws d work
    rcases State.flushing_of_lawful law wf granted work with e | ⟨e, -⟩ | ⟨vs, e, begun⟩
    · exact .inl e
    · cases e
    · cases e
      exact .inr begun
  case log =>
    obtain ⟨new, log, justified⟩ := law.log
    exact ⟨new, log, fun a ws c hx => justified _ hx rfl, fun k l hx => justified _ hx rfl⟩

end Sys2Proof.Machine
end

