-- ==== Sys2Proof/Proofs/RegionCommands.lean ====
section
/-! LOAD REGION and DELETE REGION (R26, R27, R28): the parameters that name an entry, the overlap test over the table by slot, and what
a deleted slot leaves to the lookup (R25). -/

namespace Sys2Proof.Machine

/-! ## The parameters of LOAD REGION (R26) -/

/-- Fewer than eight parameters name no entry. -/
theorem regionOf_short (g : Geometry) (ps : List Word) (h : ps.length < 8) : regionOf g ps = none := by
  unfold regionOf
  split
  · simp only [List.length_cons] at h
    omega
  · rfl

/-- The grounds on which R26 refuses eight parameters. -/
def regionRefused (g : Geometry) (slot low high wp rp pf lad kb : Word) : Prop :=
  15 < slot.toNat ∨ high.toNat < low.toNat ∨ g.cylinders ≤ high.toNat ∨ 2 < wp.toNat ∨ 1 < rp.toNat ∨ 1 < pf.toNat ∨
    1 < kb.toNat ∨ 7 < lad.toNat

section
variable {g : Geometry} {slot low high wp rp pf lad kb : Word} {rest : List Word}

theorem regionOf_refused (h : regionRefused g slot low high wp rp pf lad kb) :
    regionOf g (slot :: low :: high :: wp :: rp :: pf :: lad :: kb :: rest) = none := by
  simp only [regionOf]
  split
  · next w r p k hw hr hp hk =>
    refine if_neg (fun inRange => ?_)
    obtain ⟨slotIn, ordered, within, ladderIn⟩ := inRange
    have writeNamed := mt (writePolicyOf_none wp).2 (by simp [hw])
    have readNamed := mt (readPolicyOf_none rp).2 (by simp [hr])
    have prefetchNamed := mt (flagOf_none pf).2 (by simp [hp])
    have keepNamed := mt (flagOf_none kb).2 (by simp [hk])
    simp only [Config.regionSlots, Config.ladders] at slotIn ladderIn
    rcases h with h | h | h | h | h | h | h | h <;> omega
  · rfl

theorem regionOf_named (h : ¬ regionRefused g slot low high wp rp pf lad kb) :
    ∃ r : Region, r.low = low.toNat ∧ r.high = high.toNat ∧ WritePolicy.toWord r.write = wp ∧ ReadPolicy.toWord r.read = rp ∧
      flagWord r.prefetch = pf ∧ r.ladder = lad.toNat ∧ flagWord r.keepBest = kb ∧
      regionOf g (slot :: low :: high :: wp :: rp :: pf :: lad :: kb :: rest) = some (slot.toNat, r) := by
  simp only [regionRefused, not_or] at h
  obtain ⟨slotIn, ordered, within, writeNamed, readNamed, prefetchNamed, keepNamed, ladderIn⟩ := h
  obtain ⟨w, hw⟩ := Option.ne_none_iff_exists'.1 (mt (writePolicyOf_none wp).1 writeNamed)
  obtain ⟨r, hr⟩ := Option.ne_none_iff_exists'.1 (mt (readPolicyOf_none rp).1 readNamed)
  obtain ⟨p, hp⟩ := Option.ne_none_iff_exists'.1 (mt (flagOf_none pf).1 prefetchNamed)
  obtain ⟨k, hk⟩ := Option.ne_none_iff_exists'.1 (mt (flagOf_none kb).1 keepNamed)
  refine ⟨⟨low.toNat, high.toNat, w, r, p, lad.toNat, k⟩, rfl, rfl, (writePolicyOf_some _ _).1 hw, (readPolicyOf_some _ _).1 hr,
    (flagOf_some _ _).1 hp, rfl, (flagOf_some _ _).1 hk, ?_⟩
  have inRange : slot.toNat < Config.regionSlots ∧ low.toNat ≤ high.toNat ∧ high.toNat < g.cylinders ∧
      lad.toNat < Config.ladders := by
    simp only [Config.regionSlots, Config.ladders]
    omega
  simp only [regionOf, hw, hr, hp, hk]
  exact if_pos inRange

end

/-! ## The table by slot (R24, R25, R27) -/

/-- The overlap test finds an occupied slot other than the named one that shares a cylinder (R27). -/
theorem overlapsOther_iff (slot : Nat) (r : Region) (i : Nat) (l : List (Option Region)) :
    overlapsOther slot r i l = true ↔
      ∃ k t, i + k ≠ slot ∧ l[k]? = some (some t) ∧ r.low ≤ t.high ∧ t.low ≤ r.high := by
  induction l generalizing i with
  | nil => simp [overlapsOther]
  | cons o l ih =>
    have firstOrLater := Nat.or_exists_add_one (p := fun k =>
      ∃ t, i + k ≠ slot ∧ (o :: l)[k]? = some (some t) ∧ r.low ≤ t.high ∧ t.low ≤ r.high)
    have later : ∀ k, i + 1 + k = i + (k + 1) := fun k => by omega
    refine Iff.trans ?_ firstOrLater
    cases o with
    | none => simp [overlapsOther, ih, later]
    | some u => simp [overlapsOther, ih, later, Region.overlaps]

/-- A region that covers a cylinder of another shares it. -/
theorem Region.overlaps_of_covers {r t : Region} {c : Nat} (hr : Region.covers r c = true) (ht : Region.covers t c = true) :
    Region.overlaps r t = true := by
  simp only [Region.covers, Region.overlaps, Bool.and_eq_true, decide_eq_true_eq] at *
  omega

/-- A region apart from every slot of a list shares none of its cylinders with a region of the list. -/
theorem covers_of_apartFrom {r t : Region} {l : List (Option Region)} {c : Nat} (apart : apartFrom r l = true) (mem : some t ∈ l) :
    Region.covers r c = true → Region.covers t c = false := by
  intro hr
  have noOverlap : Region.overlaps r t = false := by simpa using List.all_eq_true.1 apart _ mem
  by_contra ht
  rw [Region.overlaps_of_covers hr (by simpa using ht)] at noOverlap
  cases noOverlap

/-- A cylinder that no slot covers is not found (R25). -/
theorem findRegion_none {l : List (Option Region)} {c : Nat} (h : ∀ t, some t ∈ l → Region.covers t c = false) :
    findRegion c l = none := by
  induction l with
  | nil => rfl
  | cons o l ih =>
    have tail := ih (fun t ht => h t (List.mem_cons_of_mem _ ht))
    cases o with
    | none => exact tail
    | some u => rw [findRegion, h u List.mem_cons_self, if_neg Bool.false_ne_true, tail]

/-- With its slot emptied, no slot covers a cylinder that a region apart from the others covered (R24, R28). -/
theorem findRegion_emptied {l : List (Option Region)} {k : Nat} {r : Region} {c : Nat} (apart : regionsApart l = true)
    (held : l[k]? = some (some r)) (covered : Region.covers r c = true) : findRegion c (l.set k none) = none := by
  induction l generalizing k with
  | nil => rfl
  | cons o l ih =>
    cases k with
    | zero =>
      obtain rfl : o = some r := by simpa using held
      obtain ⟨fromRest, -⟩ := Bool.and_eq_true_iff.1 apart
      exact findRegion_none (l := l) (fun t mem => covers_of_apartFrom fromRest mem covered)
    | succ k =>
      have held : l[k]? = some (some r) := by simpa using held
      cases o with
      | none => exact ih apart held
      | some u =>
        obtain ⟨fromRest, apart⟩ := Bool.and_eq_true_iff.1 apart
        have uncovered : Region.covers u c = false := by
          by_contra hu
          rw [covers_of_apartFrom fromRest (List.mem_of_getElem? held) (by simpa using hu)] at covered
          cases covered
        rw [List.set_cons_succ, findRegion, uncovered, if_neg Bool.false_ne_true, ih apart held]

/-! ## The two commands -/

theorem exec_loadRegion_refuses (ps : List Word) (s : State) (r : ResultCode) (takes : s.takesCommand ps)
    (h : cmdLoadRegion ps (s.commandTaken false Code.loadRegion) = (r, s.commandTaken false Code.loadRegion)) :
    exec (.loadRegion ps) s = .next (s.afterCommand 0o020 r) :=
  congrArg _ (s.commandStep_refuses Code.loadRegion ps (cmdLoadRegion ps) r takes (by decide) h)

theorem exec_loadRegion_unnamed (ps : List Word) (s : State) (takes : s.takesCommand ps) (h : regionOf s.geom ps = none) :
    exec (.loadRegion ps) s = .next (s.afterCommand 0o020 .badParameter) :=
  exec_loadRegion_refuses ps s _ takes (by simp [cmdLoadRegion, State.commandTaken, h])

/-- LOAD REGION with its parameters in range: OVERLAP, or the entry in its slot (R27). -/
theorem exec_loadRegion_named (ps : List Word) (s : State) (slot : Nat) (r : Region) (takes : s.takesCommand ps)
    (h : regionOf s.geom ps = some (slot, r)) :
    exec (.loadRegion ps) s = .next (if overlapsOther slot r 0 s.regions then s.afterCommand 0o020 .overlap
      else { s.afterCommand 0o020 .ok with regions := s.regions.set slot (some r) }) := by
  split
  · next shares => exact exec_loadRegion_refuses ps s _ takes (by simp [cmdLoadRegion, State.commandTaken, h, shares])
  · next apart =>
    refine congrArg _ ((s.commandStep_takes Code.loadRegion ps (cmdLoadRegion ps) takes (by decide)).trans ?_)
    simp only [cmdLoadRegion, State.commandTaken, h, apart]
    rfl

theorem exec_deleteRegion_refuses (ps : List Word) (s : State) (r : ResultCode) (takes : s.takesCommand ps)
    (h : cmdDeleteRegion ps (s.commandTaken false Code.deleteRegion) = (r, s.commandTaken false Code.deleteRegion)) :
    exec (.deleteRegion ps) s = .next (s.afterCommand 0o021 r) :=
  congrArg _ (s.commandStep_refuses Code.deleteRegion ps (cmdDeleteRegion ps) r takes (by decide) h)

/-- DELETE REGION of an occupied slot empties it (R28). -/
theorem exec_deleteRegion_occupied (slot : Word) (rest : List Word) (s : State) (r : Region)
    (takes : s.takesCommand (slot :: rest)) (inRange : slot.toNat < Config.regionSlots)
    (held : s.regions.getD slot.toNat none = some r) :
    exec (.deleteRegion (slot :: rest)) s =
      .next { s.afterCommand 0o021 .ok with regions := s.regions.set slot.toNat none } := by
  refine congrArg _
    ((s.commandStep_takes Code.deleteRegion (slot :: rest) (cmdDeleteRegion (slot :: rest)) takes (by decide)).trans ?_)
  simp only [cmdDeleteRegion, State.commandTaken, if_pos inRange, held]
  rfl

/-- The cylinders of a slot emptied have the default region (R25, R28). -/
theorem regionAt_emptied (s : State) (slot : Nat) (r : Region) (c : Nat) (wf : regionsWf s.geom.cylinders s.regions = true)
    (held : s.regions.getD slot none = some r) (low : r.low ≤ c) (high : c ≤ r.high) :
    (findRegion c (s.regions.set slot none)).getD defaultRegion = defaultRegion := by
  obtain ⟨-, apart⟩ := Bool.and_eq_true_iff.1 wf
  have held : s.regions[slot]? = some (some r) := by
    rw [List.getD_eq_getElem?_getD] at held
    cases e : s.regions[slot]? <;> simp_all
  rw [findRegion_emptied apart held (by simp [Region.covers, low, high])]
  rfl

/-- Settles O42, LOAD REGION by the grounds of R26 and the overlap test, DELETE REGION by its slot. -/
theorem regionCommands : Obligations.RegionCommands := by
  intro s ps takes
  refine ⟨fun short => exec_loadRegion_unnamed ps s takes (regionOf_short s.geom ps short), ?load, ?noParameter, ?delete⟩
  case load =>
    rintro slot low high wp rp pf lad kb rest rfl bad overlap
    have test (r : Region) (hlow : r.low = low.toNat) (hhigh : r.high = high.toNat) :
        overlapsOther slot.toNat r 0 s.regions = true ↔ overlap := by
      rw [overlapsOther_iff, hlow, hhigh]
      simp only [Nat.zero_add]
      exact Iff.rfl
    refine ⟨fun h => exec_loadRegion_unnamed _ s takes (regionOf_refused h), fun h shares => ?_, fun h apart => ?_⟩
    · obtain ⟨r, hlow, hhigh, -, -, -, -, -, named⟩ := regionOf_named (rest := rest) h
      rw [exec_loadRegion_named _ s _ r takes named, if_pos ((test r hlow hhigh).2 shares)]
    · obtain ⟨r, hlow, hhigh, hwp, hrp, hpf, hlad, hkb, named⟩ := regionOf_named (rest := rest) h
      refine ⟨r, hlow, hhigh, hwp, hrp, hpf, hlad, hkb, ?_⟩
      rw [exec_loadRegion_named _ s _ r takes named, if_neg (mt (test r hlow hhigh).1 apart)]
  case noParameter =>
    rintro rfl
    exact exec_deleteRegion_refuses [] s _ takes rfl
  case delete =>
    rintro slot rest rfl
    refine ⟨fun outside => ?_, fun inRange empty => ?_, fun r inRange held => ⟨?_, ?_⟩⟩
    · have outside : ¬ slot.toNat < Config.regionSlots := by simp only [Config.regionSlots]; omega
      exact exec_deleteRegion_refuses _ s _ takes (if_neg outside)
    · have inRange : slot.toNat < Config.regionSlots := by simp only [Config.regionSlots]; omega
      exact exec_deleteRegion_refuses _ s _ takes (by simp only [cmdDeleteRegion, State.commandTaken, if_pos inRange, empty])
    · exact exec_deleteRegion_occupied slot rest s r takes (by simp only [Config.regionSlots]; omega) held
    · exact fun wf c low high => regionAt_emptied s slot.toNat r c wf held low high

end Sys2Proof.Machine
end

