-- ==== Sys2Proof/Proofs/DropSector.lean ====
section
/-! DROP SECTOR (R53): what its body answers in each of its three cases, and the entry of the address gone from the map. -/

namespace Sys2Proof.Machine

/-! ## The body, by the tests of R53 -/

section
variable {ps : List Word} {s : State} {a : Addr}

theorem cmdDropSector_unnamed (unnamed : ∀ a, ¬ namesAddr s.geom ps a) : cmdDropSector ps s = (.badParameter, s) := by
  simp only [cmdDropSector, addrOf_none s.geom ps unnamed]

theorem cmdDropSector_unmapped (named : namesAddr s.geom ps a) (unmapped : s.entryAt a = none) :
    cmdDropSector ps s = (.notFound, s) := by
  simp [cmdDropSector, addrOf_names s.geom ps a named, unmapped]

theorem cmdDropSector_mapped (named : namesAddr s.geom ps a) (mapped : s.entryAt a ≠ none) :
    cmdDropSector ps s = (.ok, s.removeEntry a) := by
  simp [cmdDropSector, addrOf_names s.geom ps a named, Option.isSome_iff_ne_none.2 mapped]

end

/-! ## The command -/

theorem exec_dropSector_refuses (ps : List Word) (s : State) (r : ResultCode) (takes : s.takesCommand ps)
    (h : cmdDropSector ps (s.commandTaken false Code.dropSector) = (r, s.commandTaken false Code.dropSector)) :
    exec (.dropSector ps) s = .next (s.afterCommand 0o061 r) :=
  congrArg _ (s.commandStep_refuses Code.dropSector ps (cmdDropSector ps) r takes (by decide) h)

/-- An entry of any origin is removed; taking the command touched neither the geometry nor the map that the body looks at. -/
theorem exec_dropSector_mapped (ps : List Word) (s : State) (a : Addr) (takes : s.takesCommand ps)
    (named : namesAddr s.geom ps a) (mapped : s.entryAt a ≠ none) :
    exec (.dropSector ps) s = .next ((s.afterCommand 0o061 .ok).removeEntry a) := by
  have body : cmdDropSector ps (s.commandTaken false Code.dropSector) =
      (.ok, (s.commandTaken false Code.dropSector).removeEntry a) := cmdDropSector_mapped named mapped
  refine congrArg _ ((s.commandStep_takes Code.dropSector ps (cmdDropSector ps) takes (by decide)).trans ?_)
  rw [body]
  rfl

/-- Settles O47, by the tests of R53 in their order. -/
theorem dropSectorRemovesEntry : Obligations.DropSectorRemovesEntry := by
  intro s ps takes
  refine ⟨fun unnamed => ?badParameter, fun a named => ⟨fun unmapped => ?notFound, fun mapped => ?removed⟩⟩
  case badParameter => exact exec_dropSector_refuses ps s _ takes (cmdDropSector_unnamed unnamed)
  case notFound => exact exec_dropSector_refuses ps s _ takes (cmdDropSector_unmapped named unmapped)
  case removed => exact exec_dropSector_mapped ps s a takes named mapped

end Sys2Proof.Machine
end

