-- ==== Sys2Proof/Proofs/QueueForm.lean ====
section
/-! The form of the Recovery Queue and the Result Queue (R113, R114, R119 to R122, R130, R134, R136) in the words of lists, and the
changes of the queue that keep it: jobs changed in their places, jobs taken out, a job parked, resumed, activated or entered. -/

namespace Sys2Proof.Machine

/-! ## The form -/

/-- `State.queuesWf` for a queue, the number of records held, and whether the pack is UNLOADING. -/
structure Engine.WellQueued (e : Engine) (records : Nat) (unloading : Prop) : Prop where
  room : e.jobs.length ≤ 16
  tracks : (e.jobs.map Job.track).Nodup
  placed : ∀ j ∈ e.placed, j.reservation = true ∧ ∃ b < 2, j.bank = some b
  queued : ∀ j ∈ e.queued, j.reservation = false ∧ j.bank = none
  apart : ∀ j p, e.active = some j → e.parked = some p → j.bank ≠ p.bank
  order : e.queued.Pairwise (fun j k => k.urgent = true → j.urgent = true)
  batch : e.window ≠ none → ∀ j ∈ e.queued, j.urgent = false
  places : records + e.placed.length ≤ 64
  ending : e.ending = none ∨ unloading
  banks : e.banks.length = 2
  tables : ∀ l ∈ e.banks, tableWf l = true

theorem tracksApart_iff (l : List Track) : tracksApart l = true ↔ l.Nodup := by
  induction l with
  | nil => simp [tracksApart]
  | cons t l ih => simp [tracksApart, ih]

theorem urgentFirst_iff (l : List Job) :
    urgentFirst l = true ↔ l.Pairwise (fun j k => k.urgent = true → j.urgent = true) := by
  induction l with
  | nil => simp [urgentFirst]
  | cons j l ih =>
    simp only [urgentFirst, Bool.and_eq_true, Bool.or_eq_true, List.all_eq_true, Bool.not_eq_true', ih, List.pairwise_cons]
    refine and_congr_left fun _ => ⟨?_, fun h => ?_⟩
    · rintro (h | h) k hk hu
      · exact h
      · exact absurd hu (by simp [h k hk])
    · cases hj : j.urgent with
      | true => exact .inl rfl
      | false =>
        refine .inr fun k hk => ?_
        cases hk' : k.urgent with
        | false => rfl
        | true => exact absurd (h k hk hk') (by simp [hj])

theorem Engine.banksApart_iff (e : Engine) :
    e.banksApart = true ↔ ∀ j p, e.active = some j → e.parked = some p → j.bank ≠ p.bank := by
  unfold Engine.banksApart
  split
  · next j p hj hp => simp [hj, hp]
  · next hp => simp [hp]
  · next ha => simp [ha]

theorem Engine.orderWf_iff (e : Engine) :
    e.orderWf = true ↔ e.queued.Pairwise (fun j k => k.urgent = true → j.urgent = true) ∧
      (e.window ≠ none → ∀ j ∈ e.queued, j.urgent = false) := by
  unfold Engine.orderWf
  simp only [Bool.and_eq_true, urgentFirst_iff, Bool.or_eq_true, Option.isNone_iff_eq_none, List.all_eq_true, Bool.not_eq_true']
  exact and_congr_right fun _ => or_iff_not_imp_left

/-- Every placed job of a queue in its form holds a reservation, so that the reservations are counted by the places taken. -/
theorem Engine.reservations_eq (e : Engine) (h : ∀ j ∈ e.placed, j.reservation = true) : e.reservations = e.placed.length := by
  unfold Engine.reservations
  rw [List.filter_eq_self.2 h]

theorem Job.placedWf_iff (j : Job) : j.placedWf = true ↔ j.reservation = true ∧ ∃ b < 2, j.bank = some b := by
  unfold Job.placedWf
  cases j.bank <;> simp

theorem Job.queuedWf_iff (j : Job) : j.queuedWf = true ↔ j.reservation = false ∧ j.bank = none := by
  unfold Job.queuedWf
  simp

theorem State.queuesWf_iff (s : State) :
    s.queuesWf = true ↔ s.engine.WellQueued s.results.length (s.pack.state = .unloading) := by
  simp only [State.queuesWf, Bool.and_eq_true, decide_eq_true_eq, tracksApart_iff, List.all_eq_true, Job.placedWf_iff, Job.queuedWf_iff,
    Engine.banksApart_iff, Engine.orderWf_iff, Bool.or_eq_true, Option.isNone_iff_eq_none, beq_iff_eq]
  constructor
  · rintro ⟨⟨⟨⟨⟨⟨⟨⟨⟨room, tracks⟩, placed⟩, queued⟩, apart⟩, order, batch⟩, places⟩, ending⟩, banks⟩, tables⟩
    rw [Engine.reservations_eq _ (fun j hj => (placed j hj).1)] at places
    exact ⟨room, tracks, placed, queued, apart, order, batch, places, ending, banks, tables⟩
  · rintro ⟨room, tracks, placed, queued, apart, order, batch, places, ending, banks, tables⟩
    rw [← Engine.reservations_eq _ (fun j hj => (placed j hj).1)] at places
    exact ⟨⟨⟨⟨⟨⟨⟨⟨⟨room, tracks⟩, placed⟩, queued⟩, apart⟩, order, batch⟩, places⟩, ending⟩, banks⟩, tables⟩

/-! ## The batch sorted (R119) -/

theorem insertByTrack_perm (j : Job) (l : List Job) : (insertByTrack j l).Perm (j :: l) := by
  induction l with
  | nil => exact .refl _
  | cons k l ih =>
    unfold insertByTrack
    split
    · exact (ih.cons k).trans (.swap j k l)
    · exact .refl _

theorem sortBatch_perm (l : List Job) : (sortBatch l).Perm l := by
  induction l with
  | nil => exact .refl _
  | cons j l ih => exact (insertByTrack_perm j _).trans (ih.cons j)

theorem Engine.closeWindow_closed (e : Engine) (h : e.window = none) : e.closeWindow = e := by
  simp [Engine.closeWindow, h]

theorem Engine.closeWindow_open (e : Engine) (d : Nat) (h : e.window = some d) :
    e.closeWindow = { e with window := none, queued := sortBatch e.queued } := by
  simp [Engine.closeWindow, h]

/-! ## Banks (R136) -/

theorem Engine.setBank_tables (i : Nat) (accs : List (Nat × Accumulator)) (e : Engine) (wf : tableWf accs = true)
    (h : ∀ l ∈ e.banks, tableWf l = true) : ∀ l ∈ (e.setBank i accs).banks, tableWf l = true := by
  intro l hl
  rcases List.mem_or_eq_of_mem_set hl with hl | same
  · exact h l hl
  · exact same ▸ wf

theorem Engine.bank_wf (i : Nat) (e : Engine) (h : ∀ l ∈ e.banks, tableWf l = true) : tableWf (e.bank i) = true := by
  unfold Engine.bank
  rw [List.getD_eq_getElem?_getD]
  cases hi : e.banks[i]? with
  | none => rfl
  | some l => exact h l (List.mem_of_getElem? hi)

/-! ## Changes that keep it -/

/-- What the form reads of a job out of the queued portion. -/
def Job.berth (j : Job) : Track × Bool × Option Nat := (j.track, j.reservation, j.bank)

/-- What the form reads of a QUEUED job. -/
def Job.badge (j : Job) : Bool × Track × Bool × Option Nat := (j.urgent, j.berth)

theorem Engine.placed_berths (e : Engine) :
    e.placed.map Job.berth =
      (e.active.map Job.berth).toList ++ (e.parked.map Job.berth).toList ++ (e.ending.map Job.berth).toList := by
  simp only [Engine.placed, List.map_append, Option.toList_map]

section
variable {e e' : Engine} {records records' : Nat} {unloading : Prop}

/-- Jobs changed where they stand, in nothing the form reads. -/
theorem Engine.WellQueued.rebadged (h : e.WellQueued records unloading)
    (active : e'.active.map Job.berth = e.active.map Job.berth) (parked : e'.parked.map Job.berth = e.parked.map Job.berth)
    (ending : e'.ending.map Job.berth = e.ending.map Job.berth) (queued : e'.queued.map Job.badge = e.queued.map Job.badge)
    (window : e'.window ≠ none → e.window ≠ none) (banks : e'.banks.length = e.banks.length)
    (tables : ∀ l ∈ e'.banks, tableWf l = true) : e'.WellQueued records unloading := by
  have placed : e'.placed.map Job.berth = e.placed.map Job.berth := by
    rw [Engine.placed_berths, Engine.placed_berths, active, parked, ending]
  have tracks : e'.jobs.map Job.track = e.jobs.map Job.track := by
    have split (f : Engine) : f.jobs.map Job.track = (f.placed.map Job.berth).map (·.1) ++ (f.queued.map Job.badge).map (·.2.1) := by
      simp [Engine.jobs, Job.berth, Job.badge, Function.comp_def]
    rw [split, split, placed, queued]
  have inPlace : ∀ x ∈ e.placed.map Job.berth, x.2.1 = true ∧ ∃ b < 2, x.2.2 = some b := List.forall_mem_map.2 h.placed
  have inQueue : ∀ x ∈ e.queued.map Job.badge, x.2.2.1 = false ∧ x.2.2.2 = none := List.forall_mem_map.2 h.queued
  have notUrgent (w : e.window ≠ none) : ∀ x ∈ e.queued.map Job.badge, x.1 = false := List.forall_mem_map.2 (h.batch w)
  have inOrder : (e.queued.map Job.badge).Pairwise (fun x y => y.1 = true → x.1 = true) := List.pairwise_map.2 h.order
  rw [← placed] at inPlace
  rw [← queued] at inQueue notUrgent inOrder
  refine ⟨?_, tracks ▸ h.tracks, List.forall_mem_map.1 inPlace, List.forall_mem_map.1 inQueue, ?_, List.pairwise_map.1 inOrder,
    fun w => List.forall_mem_map.1 (notUrgent (window w)), ?_, ?_, banks ▸ h.banks, tables⟩
  · have same : e'.jobs.length = e.jobs.length := by simpa using congrArg List.length tracks
    exact same ▸ h.room
  · intro j p hj hp
    rw [hj] at active
    rw [hp] at parked
    obtain ⟨j', hj', ej⟩ := Option.map_eq_some_iff.1 active.symm
    obtain ⟨p', hp', ep⟩ := Option.map_eq_some_iff.1 parked.symm
    simp only [Job.berth, Prod.mk.injEq] at ej ep
    rw [← ej.2.2, ← ep.2.2]
    exact h.apart j' p' hj' hp'
  · have same : e'.placed.length = e.placed.length := by simpa using congrArg List.length placed
    rw [same]
    exact h.places
  · refine h.ending.imp_left fun none => ?_
    rw [none] at ending
    exact Option.map_eq_none_iff.1 ending

/-- Jobs taken out of the queue. -/
theorem Engine.WellQueued.shrunk (h : e.WellQueued records unloading) (active : e'.active = none ∨ e'.active = e.active)
    (parked : e'.parked = none ∨ e'.parked = e.parked) (ending : e'.ending = none ∨ e'.ending = e.ending)
    (queued : e'.queued.Sublist e.queued) (window : e'.window = none ∨ e'.window = e.window)
    (banks : e'.banks.length = e.banks.length) (tables : ∀ l ∈ e'.banks, tableWf l = true)
    (places : records' + e'.placed.length ≤ 64) : e'.WellQueued records' unloading := by
  have kept {a b : Option Job} (h : a = none ∨ a = b) : a.toList.Sublist b.toList := by
    rcases h with rfl | rfl
    · exact List.nil_sublist _
    · exact List.Sublist.refl _
  have placed : e'.placed.Sublist e.placed := ((kept active).append (kept parked)).append (kept ending)
  have jobs : e'.jobs.Sublist e.jobs := placed.append queued
  refine ⟨jobs.length_le.trans h.room, h.tracks.sublist (jobs.map _), fun j hj => h.placed j (placed.subset hj),
    fun j hj => h.queued j (queued.subset hj), ?_, h.order.sublist queued, ?_, places, ?_, banks ▸ h.banks, tables⟩
  · intro j p hj hp
    exact h.apart j p ((active.resolve_left (by simp [hj])).symm.trans hj) ((parked.resolve_left (by simp [hp])).symm.trans hp)
  · intro w j hj
    exact h.batch (by rwa [← window.resolve_left w]) j (queued.subset hj)
  · exact ending.elim .inl (fun same => same ▸ h.ending)

/-- A queue with the same jobs and banks, whose batch window is open at most where the QUEUED jobs are none of them urgent. -/
theorem Engine.WellQueued.windowed (h : e.WellQueued records unloading) (w : Option Nat)
    (batch : w ≠ none → ∀ j ∈ e.queued, j.urgent = false) : ({ e with window := w } : Engine).WellQueued records unloading :=
  ⟨h.room, h.tracks, h.placed, h.queued, h.apart, h.order, batch, h.places, h.ending, h.banks, h.tables⟩

/-- The window closed and a batch of jobs that are not urgent sorted (R119). -/
theorem Engine.WellQueued.sorted (h : e.WellQueued records unloading) (calm : ∀ j ∈ e.queued, j.urgent = false) :
    ({ e with window := none, queued := sortBatch e.queued } : Engine).WellQueued records unloading := by
  have perm := sortBatch_perm e.queued
  have jobs : ({ e with window := none, queued := sortBatch e.queued } : Engine).jobs.Perm e.jobs := perm.append_left _
  refine ⟨jobs.length_eq ▸ h.room, (jobs.map _).nodup_iff.2 h.tracks, h.placed, fun j hj => h.queued j (perm.subset hj), h.apart,
    ?_, by simp, h.places, h.ending, h.banks, h.tables⟩
  exact List.pairwise_of_forall_mem_list fun j _ k hk urgent => absurd urgent (by simp [calm k (perm.subset hk)])

/-- The ACTIVE job taken out frees its reservation. -/
theorem Engine.WellQueued.withoutActive {j : Job} (h : e.WellQueued records unloading) (ha : e.active = some j) :
    ({ e with active := none } : Engine).WellQueued (records + 1) unloading := by
  refine h.shrunk (.inl rfl) (.inr rfl) (.inr rfl) (List.Sublist.refl _) (.inr rfl) rfl h.tables ?_
  have places := h.places
  simp only [Engine.placed, ha, Option.toList_some, Option.toList_none, List.length_append, List.length_cons,
    List.length_nil] at places ⊢
  omega

/-- The PARKED job taken out frees its reservation. -/
theorem Engine.WellQueued.withoutParked {j : Job} (h : e.WellQueued records unloading) (hp : e.parked = some j) :
    ({ e with parked := none } : Engine).WellQueued (records + 1) unloading := by
  refine h.shrunk (.inr rfl) (.inl rfl) (.inr rfl) (List.Sublist.refl _) (.inr rfl) rfl h.tables ?_
  have places := h.places
  simp only [Engine.placed, hp, Option.toList_some, Option.toList_none, List.length_append, List.length_cons,
    List.length_nil] at places ⊢
  omega

/-- The job left ENDING taken out frees its reservation. -/
theorem Engine.WellQueued.withoutEnding {j : Job} (h : e.WellQueued records unloading) (he : e.ending = some j) :
    ({ e with ending := none } : Engine).WellQueued (records + 1) unloading := by
  refine h.shrunk (.inr rfl) (.inr rfl) (.inl rfl) (List.Sublist.refl _) (.inr rfl) rfl h.tables ?_
  have places := h.places
  simp only [Engine.placed, he, Option.toList_some, Option.toList_none, List.length_append, List.length_cons,
    List.length_nil] at places ⊢
  omega

/-- QUEUED jobs taken out. -/
theorem Engine.WellQueued.withQueued {l : List Job} (h : e.WellQueued records unloading) (sub : l.Sublist e.queued) :
    ({ e with queued := l } : Engine).WellQueued records unloading :=
  h.shrunk (.inr rfl) (.inr rfl) (.inr rfl) sub (.inr rfl) rfl h.tables h.places

/-- A record placed where there is a place for it. -/
theorem Engine.WellQueued.recorded (h : e.WellQueued records unloading) (places : records' + e.placed.length ≤ 64) :
    e.WellQueued records' unloading :=
  h.shrunk (.inr rfl) (.inr rfl) (.inr rfl) (List.Sublist.refl _) (.inr rfl) rfl h.tables places

/-- Banks replaced by well-formed ones. -/
theorem Engine.WellQueued.banked {banks : List (List (Nat × Accumulator))} (h : e.WellQueued records unloading)
    (len : banks.length = e.banks.length) (tables : ∀ l ∈ banks, tableWf l = true) :
    ({ e with banks := banks } : Engine).WellQueued records unloading :=
  h.shrunk (.inr rfl) (.inr rfl) (.inr rfl) (List.Sublist.refl _) (.inr rfl) len tables h.places

/-- The ACTIVE job moved to the free PARKED place (R123). -/
theorem Engine.WellQueued.parks {j : Job} (h : e.WellQueued records unloading) (ha : e.active = some j) (hp : e.parked = none) :
    ({ e with active := none, parked := some j } : Engine).WellQueued records unloading := by
  have placed : ({ e with active := none, parked := some j } : Engine).placed = e.placed := by simp [Engine.placed, ha, hp]
  have jobs : ({ e with active := none, parked := some j } : Engine).jobs = e.jobs := by simp only [Engine.jobs, placed]
  exact ⟨jobs ▸ h.room, jobs ▸ h.tracks, placed ▸ h.placed, h.queued, by simp, h.order, h.batch, placed ▸ h.places, h.ending,
    h.banks, h.tables⟩

/-- The PARKED job moved to the free ACTIVE place (R121). -/
theorem Engine.WellQueued.resumes {j : Job} (h : e.WellQueued records unloading) (ha : e.active = none) (hp : e.parked = some j) :
    ({ e with active := some j, parked := none } : Engine).WellQueued records unloading := by
  have placed : ({ e with active := some j, parked := none } : Engine).placed = e.placed := by simp [Engine.placed, ha, hp]
  have jobs : ({ e with active := some j, parked := none } : Engine).jobs = e.jobs := by simp only [Engine.jobs, placed]
  exact ⟨jobs ▸ h.room, jobs ▸ h.tracks, placed ▸ h.placed, h.queued, by simp, h.order, h.batch, placed ▸ h.places, h.ending,
    h.banks, h.tables⟩

/-- The ACTIVE job left ENDING while the pack is UNLOADING (R134). -/
theorem Engine.WellQueued.leavesEnding {j k : Job} (h : e.WellQueued records unloading) (ha : e.active = some j)
    (he : e.ending = none) (hu : unloading) (same : k.berth = j.berth) :
    ({ e with active := none, ending := some k } : Engine).WellQueued records unloading := by
  simp only [Job.berth, Prod.mk.injEq] at same
  obtain ⟨track, reservation, bank⟩ := same
  have placed := h.placed
  have places := h.places
  have room := h.room
  have tracks := h.tracks
  simp only [Engine.placed, Engine.jobs, ha, he, Option.toList_some, Option.toList_none, List.append_nil, List.map_append,
    List.map_cons, List.length_append, List.length_cons, List.cons_append, List.nil_append, List.forall_mem_cons] at placed places room tracks
  refine ⟨?_, ?_, ?_, h.queued, by simp, h.order, h.batch, ?_, .inr hu, h.banks, h.tables⟩
  all_goals simp only [Engine.placed, Engine.jobs, Option.toList_some, Option.toList_none, List.nil_append]
  · simp only [List.length_append, List.length_cons, List.length_nil]
    omega
  · have perm : (e.parked.toList ++ [k] ++ e.queued).Perm (k :: (e.parked.toList ++ e.queued)) := by
      simp [List.perm_middle]
    refine (perm.map Job.track).nodup_iff.2 ?_
    simpa [track] using tracks
  · intro x hx
    rcases List.mem_append.1 hx with hx | hx
    · exact placed.2 x hx
    · obtain rfl := List.mem_singleton.1 hx
      rw [reservation, bank]
      exact placed.1
  · simp only [List.length_append, List.length_cons, List.length_nil]
    omega

/-- A job entered in the queued portion (R119, R120): a new track, and an order that the form allows. -/
theorem Engine.WellQueued.enters {j : Job} {l : List Job} (h : e.WellQueued records unloading) (perm : l.Perm (j :: e.queued))
    (room : e.jobs.length < 16) (fresh : ∀ k ∈ e.jobs, k.track ≠ j.track) (bare : j.reservation = false ∧ j.bank = none)
    (order : l.Pairwise (fun j k => k.urgent = true → j.urgent = true)) (w : Option Nat)
    (batch : w ≠ none → ∀ k ∈ l, k.urgent = false) :
    ({ e with queued := l, window := w } : Engine).WellQueued records unloading := by
  have jobs : ({ e with queued := l, window := w } : Engine).jobs.Perm (j :: e.jobs) := by
    exact (perm.append_left e.placed).trans List.perm_middle
  refine ⟨?_, ?_, h.placed, ?_, h.apart, order, batch, h.places, h.ending, h.banks, h.tables⟩
  · have := jobs.length_eq
    simp only [List.length_cons] at this
    omega
  · refine (jobs.map Job.track).nodup_iff.2 (List.nodup_cons.2 ⟨?_, h.tracks⟩)
    intro mem
    obtain ⟨k, hk, e⟩ := List.mem_map.1 mem
    exact fresh k hk e
  · intro k hk
    rcases List.mem_cons.1 (perm.subset hk) with rfl | hk
    · exact bare
    · exact h.queued k hk

/-- An urgent job entered (R120). -/
theorem Engine.WellQueued.entersUrgent {j : Job} (h : e.WellQueued records unloading) (room : e.jobs.length < 16)
    (fresh : ∀ k ∈ e.jobs, k.track ≠ j.track) (bare : j.reservation = false ∧ j.bank = none) (urgent : j.urgent = true) :
    (e.enterUrgent j).WellQueued records unloading := by
  obtain ⟨q, perm, order, form⟩ : ∃ q, q.Perm e.queued ∧ q.Pairwise (fun j k => k.urgent = true → j.urgent = true) ∧
      e.enterUrgent j = { e with queued := insertUrgent j q, window := none } := by
    unfold Engine.enterUrgent
    cases hw : e.window with
    | none => exact ⟨e.queued, .refl _, h.order, by rw [Engine.closeWindow_closed e hw, ← hw]⟩
    | some d =>
      refine ⟨sortBatch e.queued, sortBatch_perm _, ?_, by rw [Engine.closeWindow_open e d hw]⟩
      exact List.pairwise_of_forall_mem_list fun j _ k hk hu =>
        absurd hu (by simp [h.batch (by simp [hw]) k ((sortBatch_perm _).subset hk)])
  obtain ⟨front, back, split, joined, inFront, atBack⟩ := insertUrgent_split j q
  rw [form]
  refine h.enters ?_ room fresh bare ?_ none (by simp)
  · rw [split]
    exact List.perm_middle.trans ((joined ▸ perm).cons j)
  · rw [← joined] at order
    obtain ⟨front_order, back_order, across⟩ := List.pairwise_append.1 order
    rw [split]
    refine List.pairwise_append.2 ⟨front_order, List.pairwise_cons.2 ⟨fun _ _ _ => urgent, back_order⟩, fun k hk _ _ _ => inFront k hk⟩

/-- A job that is not urgent appended (R119, R120). -/
theorem Engine.WellQueued.appends {j : Job} (h : e.WellQueued records unloading) (room : e.jobs.length < 16)
    (fresh : ∀ k ∈ e.jobs, k.track ≠ j.track) (bare : j.reservation = false ∧ j.bank = none) (calm : j.urgent = false)
    (w : Option Nat) (batch : w ≠ none → ∀ k ∈ e.queued, k.urgent = false) :
    ({ e with queued := e.queued ++ [j], window := w } : Engine).WellQueued records unloading := by
  refine h.enters (List.perm_append_singleton j e.queued) room fresh bare ?_ w fun hw k hk => ?_
  · exact List.pairwise_append.2 ⟨h.order, List.pairwise_singleton _ _, by simp [calm]⟩
  · rcases List.mem_append.1 hk with hk | hk
    · exact batch hw k hk
    · rwa [List.mem_singleton.1 hk]

/-- The job at the head activated into the free ACTIVE place, with a reservation and the bank the PARKED job does not hold (R121). -/
theorem Engine.WellQueued.activates {j k : Job} {rest : List Job} (h : e.WellQueued records unloading) (ha : e.active = none)
    (hq : e.queued = j :: rest) (places : records + e.placed.length < 64) (track : k.track = j.track) (reserved : k.reservation = true)
    (bank : k.bank = some e.otherBank) :
    ({ e.setBank e.otherBank [] with active := some k, queued := rest } : Engine).WellQueued records unloading := by
  have tracks := h.tracks
  have room := h.room
  have order := h.order
  simp only [Engine.jobs, Engine.placed, ha, hq, Option.toList_none, List.nil_append, List.map_append, List.map_cons,
    List.length_append, List.length_cons] at tracks room places
  rw [hq] at order
  refine ⟨?_, ?_, ?_, fun x hx => h.queued x (by simp [hq, hx]), ?_, order.of_cons,
    fun w x hx => h.batch w x (by simp [hq, hx]), ?_, h.ending, ?_, Engine.setBank_tables _ _ _ rfl h.tables⟩
  · simp only [Engine.jobs, Engine.placed, Engine.setBank, Option.toList_some, List.cons_append, List.nil_append, List.length_cons,
      List.length_append]
    omega
  · refine ((?_ : List.Perm _ _).nodup_iff).2 tracks
    simp only [Engine.jobs, Engine.placed, Engine.setBank, Option.toList_some, List.cons_append, List.nil_append, List.map_cons,
      List.map_append, track]
    exact List.perm_middle.symm
  · intro x hx
    simp only [Engine.placed, Engine.setBank, Option.toList_some, List.cons_append, List.nil_append, List.mem_cons] at hx
    rcases hx with rfl | hx
    · refine ⟨reserved, e.otherBank, ?_, bank⟩
      unfold Engine.otherBank
      split <;> omega
    · exact h.placed x (by simpa [Engine.placed, ha] using hx)
  · intro x p hx hp
    obtain rfl : k = x := by simpa using hx
    have parked : e.parked = some p := hp
    obtain ⟨-, b, hb, hpb⟩ := h.placed p (by simp [Engine.placed, parked])
    rw [bank, hpb]
    simp only [Engine.otherBank, parked, hpb, Option.bind_some, Option.some.injEq, ne_eq]
    split <;> omega
  · simp only [Engine.placed, Engine.setBank, Option.toList_some, List.cons_append, List.nil_append, List.length_cons,
      List.length_append]
    omega
  · simpa [Engine.setBank] using h.banks

end

end Sys2Proof.Machine
end

