-- ==== Sys2Proof/Proofs/Acts.lean ====
section
/-! What the rows of the part are made of, said once for all the laws that every step keeps: the acts of the Recovery Engine, and the
other acts by which a row changes what the laws read of a state. -/

namespace Sys2Proof.Machine

/-! ## What the laws read -/

/-- Everything of a state that a law of the part reads. -/
structure Seen where
  geom : Geometry
  port : Port
  timing : Timing
  regions : List (Option Region)
  ladders : List (List LadderStep)
  map : SubstMap
  posts : List PostEntry
  trim : Int
  requests : List ControllerRequest
  granted : Bool
  working : Bool
  speedFault : Bool
  engine : Engine
  results : List ResultRecord
  events : BitVec 10
  pack : Pack
  controlAddr : Addr
  sequence : Sequence
  asksDrive : Bool

/-- The reply is a READ DRIVE SECTOR whose request has not been granted (R172). -/
def State.asksDrive (s : State) : Bool := s.ci.reply.any (fun r => r.driveRead == some false)

/-- What the laws read of a state. -/
def State.seen (s : State) : Seen :=
  { geom := s.geom, port := s.port, timing := s.timing, regions := s.regions, ladders := s.ladders, map := s.map
    posts := s.posts.entries, trim := s.drive.trim, requests := s.drive.requests, granted := s.drive.grant.isSome
    working := s.drive.activity.working, speedFault := s.timer.speedFault, engine := s.engine, results := s.results
    events := s.events, pack := s.pack, controlAddr := s.ci.controlAddr, sequence := s.ci.sequence, asksDrive := s.asksDrive }

/-! ## The acts of the Recovery Engine -/

/-- The slot that words for an address go into: its entry's, or the lowest-numbered free one (R40, R42). -/
def State.hasSlot (a : Addr) (n : Nat) (s : State) : Prop :=
  (∀ e, s.entryAt a = some e → n = e.slot) ∧ (s.entryAt a = none → s.freeSlot = some n)

/-- The queues changed: the hold reasons but RESULTS_FULL stay, a job comes to a queue without one only while a pack is served, a job is
left ENDING only while the pack is UNLOADING, and the form is kept. -/
structure State.Requeues (s : State) (e : Engine) (records : List ResultRecord) : Prop where
  noPack : e.noPack = s.engine.noPack
  speed : e.speed = s.engine.speed
  transparent : e.transparent = s.engine.transparent
  live : s.engine.liveJobs = [] → e.liveJobs = [] ∨ packServes s.pack.state = true
  ending : s.engine.ending = none → e.ending = none ∨ s.pack.state = .unloading
  wellQueued : s.engine.WellQueued s.results.length (s.pack.state = .unloading) →
    e.WellQueued records.length (s.pack.state = .unloading)

/-- An act of the Recovery Engine. -/
inductive EngineAct (s : State) : State → Prop
  /-- No law reads what changes. -/
  | unseen (t : State) (same : t.seen = s.seen) : EngineAct s t
  /-- An event is set (R176). -/
  | sets (e : Event) : EngineAct s (s.setEvent e)
  /-- A held request is answered (R18). -/
  | answers (st : Status) (data : List Word) (held : s.port.hold.isSome = true) : EngineAct s (s.finishRequest st data)
  /-- Words of a job are stored for an address without a post entry (R48, R49). -/
  | stores (a : Addr) (o : Origin) (ws : List Word) (n : Nat) (slot : s.hasSlot a n) (unposted : s.postAt a = none)
      (works : s.engine.jobs ≠ []) : EngineAct s (s.putEntry a o ws n)
  /-- The queues change. -/
  | queues (e : Engine) (records : List ResultRecord) (h : s.Requeues e records) :
      EngineAct s { s with engine := e, results := records }

/-- Acts of the Recovery Engine, one after another. -/
abbrev EngineActs : State → State → Prop := Relation.ReflTransGen EngineAct

end Sys2Proof.Machine
end

