-- ==== Sys2Proof/Proofs/EngineEnds.lean ====
section
/-! The acts of the Recovery Engine in the endings of jobs (R18, R48, R49, R123, R129, R130, R133, R134). -/

namespace Sys2Proof.Machine

theorem EngineActs.unseen {s t : State} (same : t.seen = s.seen) : EngineActs s t := .single (.unseen t same)

theorem EngineActs.queues {s : State} {e : Engine} {records : List ResultRecord} (h : s.Requeues e records) :
    EngineActs s { s with engine := e, results := records } := .single (.queues e records h)

theorem EngineActs.ite {c : Prop} [Decidable c] {s t u : State} (ht : c → EngineActs s t) (hu : ¬ c → EngineActs s u) :
    EngineActs s (if c then t else u) := by
  split
  · next h => exact ht h
  · next h => exact hu h

theorem State.canReserve_iff (s : State) : s.canReserve = true ↔ s.results.length + s.engine.reservations < 64 :=
  decide_eq_true_iff

/-! ## The engine's tests (R116, R119, R123) -/

/-- Queues changed in nothing but the suspend flag, RESULTS_FULL, the window closed, and jobs changed in what the form does not read. -/
theorem State.Requeues.of_badges {s : State} {e : Engine} (noPack : e.noPack = s.engine.noPack) (speed : e.speed = s.engine.speed)
    (transparent : e.transparent = s.engine.transparent) (active : e.active.map Job.berth = s.engine.active.map Job.berth)
    (parked : e.parked.map Job.berth = s.engine.parked.map Job.berth) (ending : e.ending = s.engine.ending)
    (queued : e.queued.map Job.badge = s.engine.queued.map Job.badge) (window : e.window ≠ none → s.engine.window ≠ none)
    (banks : e.banks.length = s.engine.banks.length)
    (tables : (∀ l ∈ s.engine.banks, tableWf l = true) → ∀ l ∈ e.banks, tableWf l = true) : s.Requeues e s.results where
  noPack := noPack
  speed := speed
  transparent := transparent
  live none := by
    simp only [Engine.liveJobs, List.append_eq_nil_iff, Option.toList_eq_nil_iff] at none ⊢
    obtain ⟨⟨ha, hp⟩, hq⟩ := none
    rw [ha] at active
    rw [hp] at parked
    rw [hq] at queued
    exact .inl ⟨⟨Option.map_eq_none_iff.1 active, Option.map_eq_none_iff.1 parked⟩, List.map_eq_nil_iff.1 queued⟩
  ending h := .inl (ending.trans h)
  wellQueued h := h.rebadged active parked (by rw [ending]) queued window banks (tables h.tables)

theorem State.preempt_acts (s : State) : EngineActs s s.preempt := by
  obtain h | ⟨j, ha, -, hp, -, -, -, -, h⟩ := s.preempt_cases
  · rw [h]
  · have parks : s.Requeues { s.engine with active := none, parked := some j } s.results :=
      { noPack := rfl, speed := rfl, transparent := rfl, live := by simp [Engine.liveJobs, ha], ending := .inl
        wellQueued := fun h => h.parks ha hp }
    rw [h]
    exact (EngineActs.queues parks).trans (EngineActs.unseen rfl)

theorem State.poke_acts (s : State) : EngineActs s s.poke := s.preempt_acts.trans (EngineActs.unseen rfl)

theorem State.liftResultsFull_acts (s : State) : EngineActs s s.liftResultsFull := by
  unfold State.liftResultsFull
  refine .ite (fun _ => ?_) (fun _ => .refl)
  exact .queues (.of_badges rfl rfl rfl rfl rfl rfl rfl id rfl id)

theorem State.afterQueueChange_acts (s : State) : EngineActs s s.afterQueueChange := by
  unfold State.afterQueueChange
  refine .trans (.trans ?_ (State.liftResultsFull_acts _)) (State.poke_acts _)
  unfold State.withEngine
  dsimp only
  split
  · exact EngineActs.queues (.of_badges rfl rfl rfl rfl rfl rfl rfl (by simp) rfl id)
  · exact .refl

/-! ## Offers (R48, R49) -/

/-- Words stored go into the slot of the address, under a new entry (R40, R42). -/
theorem State.storeSector_some {a : Addr} {o : Origin} {ws : List Word} {s t : State} (h : s.storeSector a o ws = some t) :
    ∃ n, s.hasSlot a n ∧ t = s.putEntry a o ws n := by
  unfold State.storeSector at h
  unfold State.hasSlot
  split at h
  · next e he => cases h; exact ⟨e.slot, ⟨by simp [he], by simp [he]⟩, rfl⟩
  · next he =>
    split at h
    · next n hn => cases h; exact ⟨n, ⟨by simp [he], fun _ => hn⟩, rfl⟩
    · cases h

theorem State.offer_acts (a : Addr) (o : Origin) (ws : List Word) (s : State) (works : s.engine.jobs ≠ []) :
    EngineActs s (s.offer a o ws).2 := by
  unfold State.offer
  split
  · exact .refl
  · next unposted =>
    split
    · exact .refl
    · split
      · next t h =>
        obtain ⟨n, slot, rfl⟩ := State.storeSector_some h
        exact .single (.stores a o ws n slot (by simpa using unposted) works)
      · exact .single (.sets .storeFull)

theorem State.offer_engine (a : Addr) (o : Origin) (ws : List Word) (s : State) : (s.offer a o ws).2.engine = s.engine := by
  rw [State.offer_frame]

/-- An offer reads nothing of the queues. -/
theorem State.offer_withEngine (a : Addr) (o : Origin) (ws : List Word) (s : State) (e : Engine) :
    ({ s with engine := e } : State).offer a o ws = ((s.offer a o ws).1, { (s.offer a o ws).2 with engine := e }) := by
  have store : ({ s with engine := e } : State).storeSector a o ws =
      (s.storeSector a o ws).map (fun t => { t with engine := e }) := by
    unfold State.storeSector State.entryAt State.freeSlot
    dsimp only
    split
    · rfl
    · split <;> rfl
  unfold State.offer
  rw [store]
  unfold State.postAt State.entryAt
  dsimp only
  split
  · rfl
  · split
    · rfl
    · cases s.storeSector a o ws <;> rfl

/-! ## The sectors left undecided (R129 steps 1 to 3, R148) -/

@[simp] theorem Job.decide_berth (n : Nat) (o : SectorOutcome) (j : Job) : (j.decide n o).berth = j.berth := rfl
@[simp] theorem Job.decide_badge (n : Nat) (o : SectorOutcome) (j : Job) : (j.decide n o).badge = j.badge := rfl

theorem leaveUndecided_acts (p : State × Job) (n : Nat) (works : p.1.engine.jobs ≠ []) :
    EngineActs p.1 (leaveUndecided p n).1 := by
  unfold leaveUndecided
  dsimp only
  split
  · exact p.1.offer_acts _ _ _ works
  · exact .refl

theorem leaveUndecided_engine (p : State × Job) (n : Nat) : (leaveUndecided p n).1.engine = p.1.engine := by
  unfold leaveUndecided
  dsimp only
  split
  · exact State.offer_engine _ _ _ _
  · rfl

theorem leaveUndecided_berth (p : State × Job) (n : Nat) : (leaveUndecided p n).2.berth = p.2.berth := by
  unfold leaveUndecided
  dsimp only
  split <;> rfl

theorem leaveUndecided_withEngine (s : State) (j : Job) (n : Nat) (e : Engine) (banks : e.banks = s.engine.banks) :
    leaveUndecided ({ s with engine := e }, j) n =
      ({ (leaveUndecided (s, j) n).1 with engine := e }, (leaveUndecided (s, j) n).2) := by
  have acc : e.accumulator j.bank n = s.engine.accumulator j.bank n := by simp only [Engine.accumulator, Engine.bank, banks]
  unfold leaveUndecided
  simp only [acc, State.offer_withEngine]
  split <;> rfl

theorem leaveAllUndecided_acts (ns : List Nat) (p : State × Job) (works : ns = [] ∨ p.1.engine.jobs ≠ []) :
    EngineActs p.1 (ns.foldl leaveUndecided p).1 := by
  induction ns generalizing p with
  | nil => exact .refl
  | cons n ns ih =>
    have works := works.resolve_left (by simp)
    exact (leaveUndecided_acts p n works).trans (ih _ (.inr (by rwa [leaveUndecided_engine])))

theorem leaveAllUndecided_engine (ns : List Nat) (p : State × Job) : (ns.foldl leaveUndecided p).1.engine = p.1.engine := by
  induction ns generalizing p with
  | nil => rfl
  | cons n ns ih => rw [List.foldl_cons, ih, leaveUndecided_engine]

theorem leaveAllUndecided_berth (ns : List Nat) (p : State × Job) : (ns.foldl leaveUndecided p).2.berth = p.2.berth := by
  induction ns generalizing p with
  | nil => rfl
  | cons n ns ih => rw [List.foldl_cons, ih, leaveUndecided_berth]

theorem leaveAllUndecided_withEngine (ns : List Nat) (s : State) (j : Job) (e : Engine) (banks : e.banks = s.engine.banks) :
    ns.foldl leaveUndecided ({ s with engine := e }, j) =
      ({ (ns.foldl leaveUndecided (s, j)).1 with engine := e }, (ns.foldl leaveUndecided (s, j)).2) := by
  induction ns generalizing s j with
  | nil => rfl
  | cons n ns ih =>
    rw [List.foldl_cons, leaveUndecided_withEngine s j n e banks, ih _ _ (by rw [leaveUndecided_engine]; exact banks)]
    rfl

theorem State.answerHeldAtEnd_acts (j : Job) (s : State) : EngineActs s (s.answerHeldAtEnd j) := by
  unfold State.answerHeldAtEnd
  split
  · next h held =>
    split
    · exact .ite (fun _ => .single (.answers _ _ (by simp [held]))) (fun _ => .refl)
    · exact .refl
  · exact .refl

theorem State.answerHeldAtEnd_engine (j : Job) (s : State) : (s.answerHeldAtEnd j).engine = s.engine := by
  unfold State.answerHeldAtEnd
  split
  · split
    · split <;> rfl
    · rfl
  · rfl

theorem State.answerHeldAtEnd_withEngine (j : Job) (s : State) (e : Engine) (banks : e.banks = s.engine.banks) :
    ({ s with engine := e } : State).answerHeldAtEnd j = { s.answerHeldAtEnd j with engine := e } := by
  have acc (n : Nat) : e.accumulator j.bank n = s.engine.accumulator j.bank n := by simp only [Engine.accumulator, Engine.bank, banks]
  unfold State.answerHeldAtEnd
  simp only [acc]
  split
  · split
    · split <;> rfl
    · rfl
  · rfl

theorem State.closeSectors_acts (j : Job) (s : State) (works : j.pending = [] ∨ s.engine.jobs ≠ []) :
    EngineActs s (s.closeSectors j).1 :=
  (leaveAllUndecided_acts j.pending (s, j) works).trans (State.answerHeldAtEnd_acts j _)

theorem State.closeSectors_engine (j : Job) (s : State) : (s.closeSectors j).1.engine = s.engine :=
  (State.answerHeldAtEnd_engine j _).trans (leaveAllUndecided_engine j.pending (s, j))

theorem State.closeSectors_berth (j : Job) (s : State) : (s.closeSectors j).2.berth = j.berth :=
  leaveAllUndecided_berth j.pending (s, j)

/-- The sectors are closed alike before the job is taken from its place and after. -/
theorem State.closeSectors_withEngine (j : Job) (s : State) (e : Engine) (banks : e.banks = s.engine.banks) :
    ({ s with engine := e } : State).closeSectors j = ({ (s.closeSectors j).1 with engine := e }, (s.closeSectors j).2) := by
  have fold := leaveAllUndecided_withEngine j.pending s j e banks
  have held := State.answerHeldAtEnd_withEngine j (j.pending.foldl leaveUndecided (s, j)).1 e
    (by rw [leaveAllUndecided_engine]; exact banks)
  unfold State.closeSectors
  rw [fold]
  exact congrArg (·, _) held

/-! ## The ending of a job taken from its place -/

/-- A queue from which a job has been taken: nothing but the jobs has changed, and its reservation is free. -/
structure Engine.TakesOut (e e' : Engine) (j : Job) : Prop where
  noPack : e'.noPack = e.noPack
  speed : e'.speed = e.speed
  transparent : e'.transparent = e.transparent
  banks : e'.banks = e.banks
  live : e.liveJobs = [] → e'.liveJobs = []
  ending : e.ending = none → e'.ending = none
  wellQueued : ∀ (records : Nat) (unloading : Prop), e.WellQueued records unloading →
    e'.WellQueued (if j.reservation then records + 1 else records) unloading

theorem Engine.TakesOut.of_active {e : Engine} {j k : Job} (h : e.active = some k) : e.TakesOut { e with active := none } j where
  noPack := rfl
  speed := rfl
  transparent := rfl
  banks := rfl
  live := by simp [Engine.liveJobs, h]
  ending := id
  wellQueued records unloading wf := by
    have out := wf.withoutActive h
    split
    · exact out
    · exact out.recorded ((Nat.add_le_add_right (Nat.le_succ _) _).trans out.places)

theorem Engine.TakesOut.of_parked {e : Engine} {j k : Job} (h : e.parked = some k) : e.TakesOut { e with parked := none } j where
  noPack := rfl
  speed := rfl
  transparent := rfl
  banks := rfl
  live := by simp [Engine.liveJobs, h]
  ending := id
  wellQueued records unloading wf := by
    have out := wf.withoutParked h
    split
    · exact out
    · exact out.recorded ((Nat.add_le_add_right (Nat.le_succ _) _).trans out.places)

theorem Engine.TakesOut.of_ending {e : Engine} {j k : Job} (h : e.ending = some k) : e.TakesOut { e with ending := none } j where
  noPack := rfl
  speed := rfl
  transparent := rfl
  banks := rfl
  live := id
  ending := by simp
  wellQueued records unloading wf := by
    have out := wf.withoutEnding h
    split
    · exact out
    · exact out.recorded ((Nat.add_le_add_right (Nat.le_succ _) _).trans out.places)

theorem Engine.TakesOut.of_queued {e : Engine} {before after : List Job} {j k : Job} (h : e.queued = before ++ k :: after)
    (same : j.reservation = k.reservation) : e.TakesOut { e with queued := before ++ after } j where
  noPack := rfl
  speed := rfl
  transparent := rfl
  banks := rfl
  live := by simp [Engine.liveJobs, h]
  ending := id
  wellQueued records unloading wf := by
    have bare : j.reservation = false := by rw [same]; exact (wf.queued k (by simp [h])).1
    rw [if_neg (by simp [bare])]
    exact wf.withQueued (by rw [h]; exact (List.Sublist.refl _).append (List.sublist_cons_self _ _))

/-- A job that has never stood in the queue. -/
theorem Engine.TakesOut.of_new {e : Engine} {j : Job} (h : j.reservation = false) : e.TakesOut e j where
  noPack := rfl
  speed := rfl
  transparent := rfl
  banks := rfl
  live := id
  ending := id
  wellQueued records unloading wf := by rwa [if_neg (by simp [h])]

theorem Engine.freeBank_eq (b : Option Nat) (e : Engine) : e.freeBank b = { e with banks := (e.freeBank b).banks } := by
  cases b <;> rfl

theorem Engine.freeBank_banks (b : Option Nat) (e : Engine) : (e.freeBank b).banks.length = e.banks.length ∧
    ((∀ l ∈ e.banks, tableWf l = true) → ∀ l ∈ (e.freeBank b).banks, tableWf l = true) := by
  cases b with
  | none => exact ⟨rfl, id⟩
  | some i => exact ⟨List.length_set, Engine.setBank_tables i [] e rfl⟩

theorem Engine.freeBank_wellQueued {e : Engine} {records : Nat} {unloading : Prop} (b : Option Nat)
    (h : e.WellQueued records unloading) : (e.freeBank b).WellQueued records unloading := by
  rw [Engine.freeBank_eq]
  exact h.banked (e.freeBank_banks b).1 ((e.freeBank_banks b).2 h.tables)

theorem State.closeJob_acts (ending : Ending) (j k : Job) (s : State) (e : Engine) (out : s.engine.TakesOut e j)
    (same : k.reservation = j.reservation) : EngineActs s (({ s with engine := e } : State).closeJob ending k) := by
  have form (records : List ResultRecord)
      (places : s.engine.WellQueued s.results.length (s.pack.state = .unloading) → e.WellQueued records.length (s.pack.state = .unloading)) :
      s.Requeues (e.freeBank k.bank) records := by
    have parts := Engine.freeBank_eq k.bank e
    exact {
      noPack := by rw [parts]; exact out.noPack
      speed := by rw [parts]; exact out.speed
      transparent := by rw [parts]; exact out.transparent
      live := fun h => .inl (by rw [parts]; exact out.live h)
      ending := fun h => .inl (by rw [parts]; exact out.ending h)
      wellQueued := fun h => Engine.freeBank_wellQueued _ (places h) }
  refine .trans ?_ (State.afterQueueChange_acts _)
  unfold State.placeRecord
  split
  · next room =>
    refine EngineActs.queues (form (s.results ++ [k.record ending]) fun h => ?_)
    have out := out.wellQueued _ _ h
    rw [List.length_append]
    split at out
    · exact out
    · next unreserved =>
      have free : s.results.length + (e.freeBank k.bank).reservations < 64 :=
        (State.canReserve_iff _).1 ((Bool.or_eq_true_iff.1 room).resolve_left (by rw [same]; exact unreserved))
      have freed := Engine.freeBank_wellQueued k.bank out
      rw [Engine.reservations_eq _ (fun j hj => (freed.placed j hj).1)] at free
      have kept : (e.freeBank k.bank).placed = e.placed := by rw [Engine.freeBank_eq]; rfl
      rw [kept] at free
      refine out.recorded ?_
      simp only [List.length_cons, List.length_nil]
      omega
  · refine .tail (EngineActs.queues (form s.results fun h => ?_)) (.sets .resultsFull)
    have out := out.wellQueued _ _ h
    exact out.recorded (le_trans (by split <;> omega) out.places)

theorem State.endJob_acts (ending : Ending) (j : Job) (s : State) (e : Engine) (out : s.engine.TakesOut e j)
    (works : j.pending = [] ∨ s.engine.jobs ≠ []) : EngineActs s (({ s with engine := e } : State).endJob ending j) := by
  have kept : (s.closeSectors j).1.engine.TakesOut e j := by rw [State.closeSectors_engine]; exact out
  have berth : (s.closeSectors j).2.reservation = j.reservation := congrArg (·.2.1) (State.closeSectors_berth j s)
  refine (s.closeSectors_acts j works).trans ?_
  unfold State.endJob
  rw [State.closeSectors_withEngine j s e out.banks]
  exact State.closeJob_acts ending j _ _ e kept berth

theorem State.endActive_acts (ending : Ending) (j k : Job) (s : State) (h : s.engine.active = some k) :
    EngineActs s (s.endActive ending j) := by
  have out : (s.setRecoveryRequest false).engine.TakesOut { s.engine with active := none } j := .of_active h
  refine .trans (EngineActs.unseen (t := s.setRecoveryRequest false) rfl) ?_
  exact State.endJob_acts ending j _ _ out (.inr (by simp [State.setRecoveryRequest, Engine.jobs, Engine.placed, h]))

theorem State.finishEnding_acts (s : State) : EngineActs s s.finishEnding := by
  unfold State.finishEnding
  split
  · exact .refl
  · next j h => exact State.closeJob_acts .abandoned j j s _ (.of_ending h) rfl

theorem State.endParked_acts (ending : Ending) (s : State) : EngineActs s (s.endParked ending) := by
  unfold State.endParked
  split
  · exact .refl
  · next j h => exact State.endJob_acts ending j s _ (.of_parked h) (.inr (by simp [Engine.jobs, Engine.placed, h]))

theorem State.endQueued_acts (ending : Ending) (fuel : Nat) (s : State) : EngineActs s (s.endQueued ending fuel) := by
  induction fuel generalizing s with
  | zero => exact .refl
  | succ fuel ih =>
    unfold State.endQueued
    split
    · exact .refl
    · next j rest h =>
      exact (State.endJob_acts ending j s _ (.of_queued (before := []) h rfl) (.inr (by simp [Engine.jobs, h]))).trans (ih _)

theorem State.abandonJobs_acts (s : State) : EngineActs s s.abandonJobs := by
  unfold State.abandonJobs
  refine .trans ?_ (State.endQueued_acts _ _ _)
  refine .trans ?_ (State.endParked_acts _ _)
  split
  · exact .refl
  · next j h => exact State.endActive_acts .abandoned j j s h

end Sys2Proof.Machine
end

