-- ==== Sys2Proof/Proofs/EngineWorks.lean ====
section
/-! The acts of the Recovery Engine while jobs are made, merged, activated, superseded and passed over the track (R118 to R128, R134,
R140, R147). -/

namespace Sys2Proof.Machine

/-! ## Banks and jobs changed in their places -/

theorem Engine.dropAccumulator_eq (b : Option Nat) (n : Nat) (e : Engine) :
    e.dropAccumulator b n = { e with banks := (e.dropAccumulator b n).banks } := by
  cases b <;> rfl

theorem Engine.dropAccumulator_banks (b : Option Nat) (n : Nat) (e : Engine) :
    (e.dropAccumulator b n).banks.length = e.banks.length ∧
      ((∀ l ∈ e.banks, tableWf l = true) → ∀ l ∈ (e.dropAccumulator b n).banks, tableWf l = true) := by
  cases b with
  | none => exact ⟨rfl, id⟩
  | some i => exact ⟨List.length_set, fun h => Engine.setBank_tables i _ e (tableDel_wf n _ (e.bank_wf i h)) h⟩

theorem Engine.putAccumulator_eq (b : Option Nat) (n : Nat) (a : Accumulator) (e : Engine) :
    e.putAccumulator b n a = { e with banks := (e.putAccumulator b n a).banks } := by
  cases b <;> rfl

theorem Engine.putAccumulator_banks (b : Option Nat) (n : Nat) (a : Accumulator) (e : Engine) :
    (e.putAccumulator b n a).banks.length = e.banks.length ∧
      ((∀ l ∈ e.banks, tableWf l = true) → ∀ l ∈ (e.putAccumulator b n a).banks, tableWf l = true) := by
  cases b with
  | none => exact ⟨rfl, id⟩
  | some i => exact ⟨List.length_set, fun h => Engine.setBank_tables i _ e (tablePut_wf n a _ (e.bank_wf i h)) h⟩

theorem Engine.emptyJoined_eq (ns before : List Nat) (b : Option Nat) (e : Engine) :
    e.emptyJoined ns before b = { e with banks := (e.emptyJoined ns before b).banks } := by
  unfold Engine.emptyJoined
  induction ns generalizing e with
  | nil => rfl
  | cons n ns ih =>
    rw [List.foldl_cons, ih]
    split
    · rfl
    · rw [Engine.dropAccumulator_eq]

theorem Engine.emptyJoined_banks (ns before : List Nat) (b : Option Nat) (e : Engine) :
    (e.emptyJoined ns before b).banks.length = e.banks.length ∧
      ((∀ l ∈ e.banks, tableWf l = true) → ∀ l ∈ (e.emptyJoined ns before b).banks, tableWf l = true) := by
  unfold Engine.emptyJoined
  induction ns generalizing e with
  | nil => exact ⟨rfl, id⟩
  | cons n ns ih =>
    rw [List.foldl_cons]
    split
    · exact ih e
    · obtain ⟨len, tables⟩ := e.dropAccumulator_banks b n
      exact ⟨(ih _).1.trans len, fun h => (ih _).2 (tables h)⟩

/-- Banks replaced. -/
theorem State.Requeues.of_banks {s : State} {banks : List (List (Nat × Accumulator))} (len : banks.length = s.engine.banks.length)
    (tables : (∀ l ∈ s.engine.banks, tableWf l = true) → ∀ l ∈ banks, tableWf l = true) :
    s.Requeues { s.engine with banks := banks } s.results :=
  .of_badges rfl rfl rfl rfl rfl rfl rfl id len tables

theorem State.dropAccumulator_acts (b : Option Nat) (n : Nat) (s : State) :
    EngineActs s (s.withEngine (Engine.dropAccumulator b n)) := by
  unfold State.withEngine
  rw [Engine.dropAccumulator_eq]
  exact EngineActs.queues (.of_banks (s.engine.dropAccumulator_banks b n).1 (s.engine.dropAccumulator_banks b n).2)

theorem State.putAccumulator_acts (b : Option Nat) (n : Nat) (a : Accumulator) (s : State) :
    EngineActs s (s.withEngine (Engine.putAccumulator b n a)) := by
  unfold State.withEngine
  rw [Engine.putAccumulator_eq]
  exact EngineActs.queues (.of_banks (s.engine.putAccumulator_banks b n a).1 (s.engine.putAccumulator_banks b n a).2)

/-- The ACTIVE job changed, with banks replaced. -/
theorem State.Requeues.of_active {s : State} {j k : Job} {banks : List (List (Nat × Accumulator))}
    (h : s.engine.active = some k) (same : j.berth = k.berth) (len : banks.length = s.engine.banks.length)
    (tables : (∀ l ∈ s.engine.banks, tableWf l = true) → ∀ l ∈ banks, tableWf l = true) :
    s.Requeues { s.engine with active := some j, banks := banks } s.results :=
  .of_badges rfl rfl rfl (by simp [h, same]) rfl rfl rfl id len tables

theorem State.setActive_acts {s : State} {j k : Job} (h : s.engine.active = some k) (same : j.berth = k.berth) :
    EngineActs s (s.withEngine (fun e => { e with active := some j })) :=
  EngineActs.queues (.of_active h same rfl id)

/-- The PARKED job changed, with banks replaced. -/
theorem State.Requeues.of_parked {s : State} {j k : Job} {banks : List (List (Nat × Accumulator))}
    (h : s.engine.parked = some k) (same : j.berth = k.berth) (len : banks.length = s.engine.banks.length)
    (tables : (∀ l ∈ s.engine.banks, tableWf l = true) → ∀ l ∈ banks, tableWf l = true) :
    s.Requeues { s.engine with parked := some j, banks := banks } s.results :=
  .of_badges rfl rfl rfl rfl (by simp [h, same]) rfl rfl id len tables

/-- A QUEUED job changed. -/
theorem State.Requeues.of_queued {s : State} {before after : List Job} {j k : Job} (h : s.engine.queued = before ++ k :: after)
    (same : j.badge = k.badge) : s.Requeues { s.engine with queued := before ++ j :: after } s.results :=
  .of_badges rfl rfl rfl rfl rfl rfl (by simp [h, same]) id rfl id

/-! ## Supersession (R128) -/

theorem State.passOver_seen (n : Nat) (s : State) : (s.passOver n).seen = s.seen := by
  have granted : (s.passOver n).drive.grant.isSome = s.drive.grant.isSome := by
    rw [State.passOver_grant]
    split <;> simp
  rw [State.seen, State.seen, granted, State.passOver_frame]
  rfl

theorem State.supersedeActive_acts (n : Nat) (j : Job) (s : State) (h : s.engine.active = some j) :
    EngineActs s (s.supersedeActive n j) := by
  have dropped : EngineActs s ((s.withEngine (Engine.dropAccumulator j.bank n)).passOver n) :=
    (s.dropAccumulator_acts j.bank n).trans (EngineActs.unseen (State.passOver_seen n _))
  have active : ((s.withEngine (Engine.dropAccumulator j.bank n)).passOver n).engine.active = some j := by
    rw [State.passOver_engine, State.withEngine, Engine.dropAccumulator_eq]
    exact h
  unfold State.supersedeActive
  dsimp only
  split
  · exact dropped.trans (State.endActive_acts _ _ j _ active)
  · exact dropped.trans (State.setActive_acts active rfl)

theorem jobs_ne_nil_of_parked {e : Engine} {j : Job} (h : e.parked = some j) : e.jobs ≠ [] := by
  simp [Engine.jobs, Engine.placed, h]

theorem State.supersedeParked_acts (n : Nat) (j : Job) (s : State) (h : s.engine.parked = some j) :
    EngineActs s (s.supersedeParked n j) := by
  have parked : (s.withEngine (Engine.dropAccumulator j.bank n)).engine.parked = some j := by
    rw [State.withEngine, Engine.dropAccumulator_eq]
    exact h
  unfold State.supersedeParked
  refine (s.dropAccumulator_acts j.bank n).trans ?_
  dsimp only
  split
  · exact State.endJob_acts _ _ _ _ (.of_parked parked) (.inr (jobs_ne_nil_of_parked parked))
  · exact EngineActs.queues (.of_parked parked rfl rfl id)

theorem State.supersedeQueued_acts (n : Nat) (before : List Job) (j : Job) (after : List Job) (s : State)
    (h : s.engine.queued = before ++ j :: after) : EngineActs s (s.supersedeQueued n before j after) := by
  unfold State.supersedeQueued
  dsimp only
  split
  · exact State.endJob_acts _ _ _ _ (.of_queued h rfl) (.inr (by simp [Engine.jobs, h]))
  · exact EngineActs.queues (.of_queued h rfl)

theorem State.supersede_acts (a : Addr) (s : State) : EngineActs s (s.supersede a) := by
  unfold State.supersede
  split
  · next j h =>
    exact .ite (fun _ => s.supersedeActive_acts _ j (Option.filter_eq_some_iff.1 h).1) (fun _ => .refl)
  · split
    · next j h =>
      exact .ite (fun _ => s.supersedeParked_acts _ j (Option.filter_eq_some_iff.1 h).1) (fun _ => .refl)
    · split
      · next before j after h =>
        exact .ite (fun _ => s.supersedeQueued_acts _ before j after (splitQueued_some _ _ _ _ _ h).1) (fun _ => .refl)
      · exact .refl

theorem State.supersedeAll_acts (t : Track) (ns : List Nat) (s : State) :
    EngineActs s (ns.foldl (fun s n => s.supersede (t.at n)) s) := by
  induction ns generalizing s with
  | nil => exact .refl
  | cons n ns ih => exact (s.supersede_acts _).trans (ih _)

/-! ## Requests for recovery (R118 to R120) -/

@[simp] theorem Job.treat_badge (serving : Bool) (n : Nat) (j : Job) : (j.treat serving n).badge = j.badge := by
  unfold Job.treat
  split
  · rfl
  · split
    · split <;> rfl
    · rfl

theorem State.treatAll_badge (ns : List Nat) (j : Job) (s : State) : (s.treatAll ns j).badge = j.badge := by
  unfold State.treatAll
  induction ns generalizing j with
  | nil => rfl
  | cons n ns ih => rw [List.foldl_cons, ih, Job.treat_badge]

theorem State.mergeInto_berth (ns : List Nat) (urgent : Bool) (j : Job) (s : State) : (s.mergeInto ns urgent j).berth = j.berth :=
  congrArg (·.2) (s.treatAll_badge ns j)

theorem State.mergeInto_badge (ns : List Nat) (urgent : Bool) (j : Job) (s : State) :
    (s.mergeInto ns urgent j).badge = (j.urgent || urgent, j.berth) := by
  have urgency : (s.treatAll ns j).urgent = j.urgent := congrArg (·.1) (s.treatAll_badge ns j)
  rw [← s.mergeInto_berth ns urgent j, Job.badge, State.mergeInto, ← urgency]

theorem State.mergeActive_acts {ns : List Nat} {urgent : Bool} {j : Job} {s : State} (h : s.engine.active = some j) :
    EngineActs s (s.withEngine (fun e =>
      { e.emptyJoined ns j.pending j.bank with active := some (s.mergeInto ns urgent j) })) := by
  unfold State.withEngine
  dsimp only
  rw [Engine.emptyJoined_eq]
  exact EngineActs.queues (.of_active h (s.mergeInto_berth ns urgent j) (s.engine.emptyJoined_banks ns _ _).1
    (s.engine.emptyJoined_banks ns _ _).2)

theorem State.mergeParked_acts {ns : List Nat} {urgent : Bool} {j : Job} {s : State} (h : s.engine.parked = some j) :
    EngineActs s (s.withEngine (fun e =>
      { e.emptyJoined ns j.pending j.bank with parked := some (s.mergeInto ns urgent j) })) := by
  unfold State.withEngine
  dsimp only
  rw [Engine.emptyJoined_eq]
  exact EngineActs.queues (.of_parked h (s.mergeInto_berth ns urgent j) (s.engine.emptyJoined_banks ns _ _).1
    (s.engine.emptyJoined_banks ns _ _).2)

theorem Engine.place_active {t : Track} {e : Engine} {j : Job} (h : e.place t = .active j) : e.active = some j ∧ j.track = t := by
  unfold Engine.place at h
  split at h
  · next ha => cases h; simpa using Option.filter_eq_some_iff.1 ha
  · split at h
    · cases h
    · split at h <;> cases h

theorem Engine.place_parked {t : Track} {e : Engine} {j : Job} (h : e.place t = .parked j) : e.parked = some j ∧ j.track = t := by
  unfold Engine.place at h
  split at h
  · cases h
  · split at h
    · next hp => cases h; simpa using Option.filter_eq_some_iff.1 hp
    · split at h <;> cases h

theorem Engine.place_queued {t : Track} {e : Engine} {before after : List Job} {j : Job}
    (h : e.place t = .queued before j after) :
    e.queued = before ++ j :: after ∧ j.track = t ∧ ∀ k ∈ before, k.track ≠ t := by
  unfold Engine.place at h
  split at h
  · cases h
  · split at h
    · cases h
    · split at h
      · next hq => cases h; exact splitQueued_some _ _ _ _ _ hq
      · cases h

theorem splitQueued_eq_none (t : Track) (l : List Job) (h : splitQueued t l = none) : ∀ k ∈ l, k.track ≠ t := by
  induction l with
  | nil => simp
  | cons k l ih =>
    rw [splitQueued] at h
    split at h
    · cases h
    · next other =>
      intro x hx
      rcases List.mem_cons.1 hx with rfl | hx
      · exact other
      · exact ih (Option.map_eq_none_iff.1 h) x hx

theorem Engine.place_absent {t : Track} {e : Engine} (h : e.place t = .absent) : ∀ k ∈ e.liveJobs, k.track ≠ t := by
  unfold Engine.place at h
  split at h
  · cases h
  · next ha =>
    split at h
    · cases h
    · next hp =>
      split at h
      · cases h
      · next hq =>
        intro k hk
        simp only [Engine.liveJobs, List.mem_append, Option.mem_toList] at hk
        rcases hk with (hk | hk) | hk
        · simpa using Option.filter_eq_none_iff.1 ha k hk
        · simpa using Option.filter_eq_none_iff.1 hp k hk
        · exact splitQueued_eq_none t _ hq k hk

/-- A job of its own comes to the queue while a pack is served, when none is left ENDING: no job of the queue has its track. -/
theorem Engine.WellQueued.fresh {e : Engine} {records : Nat} {unloading : Prop} {t : Track} (h : e.WellQueued records unloading)
    (loaded : ¬ unloading) (absent : e.place t = .absent) : ∀ k ∈ e.jobs, k.track ≠ t := by
  have ended : e.ending = none := h.ending.resolve_right loaded
  intro k hk
  refine Engine.place_absent absent k ?_
  simpa [Engine.jobs, Engine.placed, Engine.liveJobs, ended] using hk

theorem newJob_bare (t : Track) (ladder : Nat) (origin : JobOrigin) (urgent keepBest : Bool) (epoch : BitVec 32) (ns : List Nat)
    (s : State) :
    (s.treatAll ns (newJob t ladder origin urgent keepBest epoch)).badge = (urgent, t, false, none) := by
  rw [State.treatAll_badge]
  rfl

/-- Jobs come to the queue while a pack is served. -/
theorem State.Requeues.of_entry {s : State} {e : Engine} (serves : packServes s.pack.state = true)
    (noPack : e.noPack = s.engine.noPack) (speed : e.speed = s.engine.speed) (transparent : e.transparent = s.engine.transparent)
    (ending : e.ending = s.engine.ending) (wellQueued : s.engine.WellQueued s.results.length (s.pack.state = .unloading) →
      s.pack.state ≠ .unloading → e.WellQueued s.results.length (s.pack.state = .unloading)) : s.Requeues e s.results where
  noPack := noPack
  speed := speed
  transparent := transparent
  live _ := .inr serves
  ending h := .inl (ending.trans h)
  wellQueued h := wellQueued h (by simpa using serves_not_unloading _ serves)

theorem Engine.enterUrgent_frame (j : Job) (e : Engine) :
    e.enterUrgent j = { e with queued := (e.enterUrgent j).queued, window := (e.enterUrgent j).window } := by
  unfold Engine.enterUrgent Engine.closeWindow
  dsimp only
  split <;> rfl

/-- A queue without one of its QUEUED jobs has room for a job of that track. -/
theorem Engine.WellQueued.vacated {e : Engine} {records : Nat} {unloading : Prop} {before after : List Job} {j : Job}
    (h : e.WellQueued records unloading) (hq : e.queued = before ++ j :: after) :
    let e' : Engine := { e with queued := before ++ after }
    e'.WellQueued records unloading ∧ e'.jobs.length < 16 ∧ ∀ k ∈ e'.jobs, k.track ≠ j.track := by
  have perm : e.jobs.Perm (j :: (e.placed ++ (before ++ after))) := by
    rw [Engine.jobs, hq]
    exact (List.perm_middle.append_left _).trans List.perm_middle
  have tracks := (perm.map Job.track).nodup_iff.1 h.tracks
  have length := perm.length_eq
  have room := h.room
  rw [List.map_cons, List.nodup_cons] at tracks
  refine ⟨h.withQueued (by rw [hq]; exact (List.Sublist.refl _).append (List.sublist_cons_self _ _)), ?_, ?_⟩
  · simp only [Engine.jobs, List.length_cons, Engine.placed] at length room ⊢
    omega
  · intro k hk same
    exact tracks.1 (List.mem_map.2 ⟨k, hk, same⟩)

/-- An urgent job comes to a queue that is the engine's but for QUEUED jobs taken out. -/
theorem State.Requeues.of_urgentEntry {s : State} {l : List Job} {j : Job} (serves : packServes s.pack.state = true)
    (wellQueued : s.engine.WellQueued s.results.length (s.pack.state = .unloading) → s.pack.state ≠ .unloading →
      (({ s.engine with queued := l } : Engine).enterUrgent j).WellQueued s.results.length (s.pack.state = .unloading)) :
    s.Requeues (({ s.engine with queued := l } : Engine).enterUrgent j) s.results := by
  refine .of_entry serves ?_ ?_ ?_ ?_ wellQueued
  all_goals rw [Engine.enterUrgent_frame]

theorem State.automaticRequest_acts {a : Addr} {ladder : Nat} {keepBest urgent : Bool} {s t : State}
    (serves : packServes s.pack.state = true) (h : s.automaticRequest a ladder keepBest urgent = some t) : EngineActs s t := by
  unfold State.automaticRequest at h
  dsimp only at h
  split at h
  · next j place =>
    cases h
    exact (State.mergeActive_acts (Engine.place_active place).1).trans (State.poke_acts _)
  · next j place =>
    cases h
    exact (State.mergeParked_acts (Engine.place_parked place).1).trans (State.poke_acts _)
  · next before j after place =>
    obtain ⟨hq, -, -⟩ := Engine.place_queued place
    have merged := s.mergeInto_badge [a.sector] urgent j
    simp only [Job.badge, Job.berth, Prod.mk.injEq] at merged
    obtain ⟨urgency, track, reservation, bank⟩ := merged
    split at h
    · next moves =>
      cases h
      have nowUrgent : urgent = true := (Bool.and_eq_true_iff.1 moves).1
      refine .trans (EngineActs.queues (.of_urgentEntry serves fun wf _ => ?_)) (State.poke_acts _)
      obtain ⟨left, room, fresh⟩ := Engine.WellQueued.vacated wf hq
      have bare := wf.queued j (by simp [hq])
      exact left.entersUrgent room (by rw [track]; exact fresh) (by rw [reservation, bank]; exact bare) (by rw [urgency, nowUrgent, Bool.or_true])
    · next stays =>
      cases h
      refine .trans (EngineActs.queues (.of_queued hq ?_)) (State.poke_acts _)
      have same : (j.urgent || urgent) = j.urgent := by
        revert stays
        cases j.urgent <;> cases urgent <;> simp
      rw [State.mergeInto_badge, same]
      rfl
  · next absent =>
    split at h
    · cases h
    · next room =>
      split at h
      · next empty =>
        cases h
        have bare := newJob_bare a.track ladder .automatic urgent keepBest s.pack.epoch [a.sector] s
        exact State.endJob_acts _ _ s s.engine (.of_new (congrArg (·.2.2.1) bare)) (.inl (List.isEmpty_iff.1 empty))
      · cases h
        have room : s.engine.jobs.length < 16 := Nat.not_le.1 room
        have badge := newJob_bare a.track ladder .automatic urgent keepBest s.pack.epoch [a.sector] s
        generalize s.treatAll [a.sector] (newJob a.track ladder .automatic urgent keepBest s.pack.epoch) = j at badge
        simp only [Job.badge, Job.berth, Prod.mk.injEq] at badge
        obtain ⟨urgency, track, reservation, bank⟩ := badge
        refine .trans ?_ (State.poke_acts _)
        unfold State.withEngine
        dsimp only
        split
        · next nowUrgent =>
          refine EngineActs.queues (.of_urgentEntry (l := s.engine.queued) serves fun wf loaded => ?_)
          exact wf.entersUrgent room (by rw [track]; exact wf.fresh loaded absent) ⟨reservation, bank⟩ (by rw [urgency, nowUrgent])
        · next notUrgent =>
          refine EngineActs.queues (.of_entry serves rfl rfl rfl rfl fun wf loaded => ?_)
          exact wf.appends room (by rw [track]; exact wf.fresh loaded absent) ⟨reservation, bank⟩
            (by rw [urgency]; simpa using notUrgent) s.engine.window wf.batch

end Sys2Proof.Machine
end

