-- ==== Sys2Proof/Proofs/EnginePasses.lean ====
section
/-! The acts of the Recovery Engine at a commanded request, over the track and at an activation (R117 to R122, R125 to R127, R138 to
R147). -/

namespace Sys2Proof.Machine

/-! ## Commanded requests (R117 to R119) -/

theorem State.restartWindow_acts (s : State) : EngineActs s s.restartWindow := by
  unfold State.restartWindow State.withEngine
  dsimp only
  split
  · next opened =>
    refine EngineActs.queues (.of_badges rfl rfl rfl rfl rfl rfl rfl (fun _ => ?_) rfl id)
    exact Option.isSome_iff_ne_none.1 opened
  · exact .refl

theorem Engine.runPhase_idle {e : Engine} (h : e.runPhase = .idle) : e.jobs = [] := by
  unfold Engine.runPhase at h
  split at h
  · cases h
  · split at h
    · next none => exact List.length_eq_zero_iff.1 none
    · cases h

theorem Engine.runPhase_collecting {e : Engine} (h : e.runPhase = .collecting) : e.window ≠ none := by
  unfold Engine.runPhase at h
  split at h
  · next opened => exact Option.isSome_iff_ne_none.1 opened
  · split at h <;> cases h

theorem State.placeCommanded_acts {j : Job} {s : State} (serves : packServes s.pack.state = true) (room : s.engine.jobs.length < 16)
    (absent : s.engine.place j.track = .absent) (bare : j.reservation = false ∧ j.bank = none) (calm : j.urgent = false) :
    EngineActs s (s.placeCommanded j) := by
  have enters (w : Option Nat) (batch : w ≠ none → s.engine.jobs = [] ∨ s.engine.window ≠ none) :
      s.Requeues { s.engine with queued := s.engine.queued ++ [j], window := w } s.results := by
    refine .of_entry serves rfl rfl rfl rfl fun wf loaded => ?_
    refine wf.appends room (wf.fresh loaded absent) bare calm w fun opened k hk => ?_
    rcases batch opened with none | collecting
    · exact absurd hk (by simp [(List.append_eq_nil_iff.1 none).2])
    · exact wf.batch collecting k hk
  unfold State.placeCommanded
  split
  · next idle => exact EngineActs.queues (enters _ fun _ => .inl (Engine.runPhase_idle idle))
  · next collecting => exact EngineActs.queues (enters _ fun _ => .inr (Engine.runPhase_collecting collecting))
  · exact EngineActs.queues (enters s.engine.window .inr)

theorem State.commandedRequest_acts {t : Track} {ns : List Nat} {ladder : Nat} {keepBest : Bool} {s u : State}
    (serves : packServes s.pack.state = true) (h : s.commandedRequest t ns ladder keepBest = some u) : EngineActs s u := by
  unfold State.commandedRequest at h
  split at h
  · next j place =>
    cases h
    exact ((State.mergeActive_acts (Engine.place_active place).1).trans (State.restartWindow_acts _)).trans (State.poke_acts _)
  · next j place =>
    cases h
    exact ((State.mergeParked_acts (Engine.place_parked place).1).trans (State.restartWindow_acts _)).trans (State.poke_acts _)
  · next before j after place =>
    cases h
    have same : (s.mergeInto ns false j).badge = j.badge := by rw [State.mergeInto_badge, Bool.or_false]; rfl
    exact ((EngineActs.queues (.of_queued (Engine.place_queued place).1 same)).trans (State.restartWindow_acts _)).trans
      (State.poke_acts _)
  · next absent =>
    have badge := newJob_bare t ladder .commanded false keepBest s.pack.epoch ns s
    split at h
    · cases h
    · next room =>
      dsimp only at h
      split at h
      · next empty =>
        cases h
        exact State.endJob_acts _ _ s s.engine (.of_new (congrArg (·.2.2.1) badge)) (.inl (List.isEmpty_iff.1 empty))
      · cases h
        have track : (s.treatAll ns (newJob t ladder .commanded false keepBest s.pack.epoch)).track = t := congrArg (·.2.1) badge
        refine (State.placeCommanded_acts serves (Nat.not_le.1 room) ?_ ⟨congrArg (·.2.2.1) badge, congrArg (·.2.2.2) badge⟩
          (congrArg (·.1) badge)).trans (State.poke_acts _)
        rw [track]
        exact absent

/-! ## Decisions (R125, R138 to R147) -/

theorem State.answerHeldRead_acts (a : Addr) (st : Status) (ws : List Word) (s : State) :
    EngineActs s (s.answerHeldRead a st ws) := by
  unfold State.answerHeldRead
  split
  · next h held =>
    split
    · exact .ite (fun _ => .single (.answers st ws (by simp [held]))) (fun _ => .refl)
    · exact .refl
  · exact .refl

/-- The ACTIVE job of a sector decided, its accumulator discarded. -/
theorem State.decided_acts {s : State} {j k : Job} (n : Nat) (h : s.engine.active = some j) (same : k.berth = j.berth) :
    EngineActs s (s.withEngine (fun e => { e.dropAccumulator j.bank n with active := some k })) := by
  have banks := s.engine.dropAccumulator_banks j.bank n
  unfold State.withEngine
  dsimp only
  rw [Engine.dropAccumulator_eq]
  exact EngineActs.queues (.of_active h same banks.1 banks.2)

theorem State.resolveSector_acts (n : Nat) (r : Resolution) (ws : List Word) (s : State) :
    EngineActs s (s.resolveSector n r ws) := by
  unfold State.resolveSector
  split
  · exact .refl
  · next j h =>
    have offered := s.offer_acts (j.track.at n) r.mapOrigin ws (by simp [Engine.jobs, Engine.placed, h])
    have active : (s.offer (j.track.at n) r.mapOrigin ws).2.engine.active = some j := by rw [State.offer_engine, h]
    dsimp only
    generalize s.offer (j.track.at n) r.mapOrigin ws = p at offered active ⊢
    obtain ⟨res, s1⟩ := p
    have decided (o : SectorOutcome) : EngineActs s (s1.withEngine (fun e =>
        { e.dropAccumulator j.bank n with active := some (j.decide n o) })) :=
      offered.trans (State.decided_acts n active (j.decide_berth n o))
    cases res with
    | stored => exact (decided _).trans (State.answerHeldRead_acts _ _ _ _)
    | full => exact (decided _).trans (State.answerHeldRead_acts _ _ _ _)
    | superseded => exact decided _

theorem State.contribute_acts (step : LadderStep) (n : Nat) (bits : List (Bool × Quality)) (inferred : Bool) (s : State) :
    EngineActs s (s.contribute step n bits inferred) := by
  unfold State.contribute
  split
  · exact .refl
  · dsimp only
    split
    · exact (s.putAccumulator_acts _ _ _).trans (State.resolveSector_acts _ _ _ _)
    · exact s.putAccumulator_acts _ _ _

theorem State.examine_acts (step : LadderStep) (firstPass : Bool) (s : State) (p : Nat × PassOutcome) :
    EngineActs s (s.examine step firstPass p) := by
  unfold State.examine
  split
  · exact .refl
  · next j _ =>
    refine .ite (fun _ => ?_) (fun _ => .refl)
    have emptied : EngineActs s (if firstPass && step.voteMode == .reset then
        s.withEngine (Engine.dropAccumulator j.bank p.1) else s) :=
      .ite (fun _ => s.dropAccumulator_acts _ _) (fun _ => .refl)
    refine emptied.trans ?_
    generalize (if firstPass && step.voteMode == .reset then s.withEngine (Engine.dropAccumulator j.bank p.1) else s) = s1
    dsimp only
    split
    · exact State.resolveSector_acts _ _ _ _
    · exact State.contribute_acts _ _ _ _ _
    · exact EngineActs.ite (fun _ => State.contribute_acts _ _ _ _ _) (fun _ => .refl)
    all_goals exact .refl

theorem State.examineAll_acts (step : LadderStep) (firstPass : Bool) (outcomes : List (Nat × PassOutcome)) (s : State) :
    EngineActs s (outcomes.foldl (State.examine step firstPass) s) := by
  induction outcomes generalizing s with
  | nil => exact .refl
  | cons p outcomes ih => exact (State.examine_acts step firstPass s p).trans (ih _)

/-! ## The end of a pass (R109, R125 to R127) -/

theorem State.updateActive_acts (f : Job → Job) (same : ∀ j, (f j).berth = j.berth) (s : State) :
    EngineActs s (s.withEngine (Engine.updateActive f)) := by
  refine EngineActs.queues (.of_badges rfl rfl rfl ?_ rfl rfl rfl id rfl id)
  simp [Engine.updateActive, Function.comp_def, same]

theorem Job.charge_berth (g : Grant) (j : Job) : (j.charge g).berth = j.berth := rfl

theorem State.misSeek_acts (passRead : Bool) (s : State) : EngineActs s (s.misSeek passRead) := by
  unfold State.misSeek
  split
  · exact .refl
  · next j h =>
    dsimp only
    split
    · exact State.endActive_acts _ _ j s h
    · refine .trans (State.setActive_acts h ?_) (State.poke_acts _)
      rfl

theorem State.countPass_berth (j : Job) (s : State) : (s.countPass j).berth = j.berth := by
  unfold State.countPass
  dsimp only
  split <;> split <;> rfl

theorem State.passCounted_acts (s : State) : EngineActs s s.passCounted := by
  unfold State.passCounted
  split
  · exact .refl
  · next j h =>
    dsimp only
    split
    · exact State.endActive_acts _ _ j s h
    · split
      · exact State.endActive_acts _ _ j s h
      · exact (State.setActive_acts h (s.countPass_berth j)).trans (State.poke_acts _)

theorem State.takeReport_acts (step : LadderStep) (firstPass : Bool) (g : Grant) (outcomes : List (Nat × PassOutcome)) (s : State) :
    EngineActs s (s.takeReport step firstPass g outcomes) := by
  unfold State.takeReport
  split
  · exact .refl
  · have charged := State.updateActive_acts (Job.charge g) (Job.charge_berth g) s
    dsimp only
    split
    · exact charged.trans (State.misSeek_acts _ _)
    · refine .trans (.trans (charged.trans (State.updateActive_acts _ ?_ _)) (State.examineAll_acts _ _ _ _))
        (State.passCounted_acts _)
      exact fun _ => rfl

theorem State.takeSeekFailed_acts (g : Grant) (s : State) : EngineActs s (s.takeSeekFailed g) :=
  (State.updateActive_acts _ (Job.charge_berth g) s).trans (State.misSeek_acts _ _)

theorem State.takeAborted_acts (g : Grant) (s : State) : EngineActs s (s.takeAborted g) :=
  (State.updateActive_acts _ (Job.charge_berth g) s).trans (State.poke_acts _)

theorem State.recoveryEnded_acts {g : Grant} {report : State → State} {s : State} (h : EngineActs s (report s)) :
    EngineActs s (s.recoveryEnded g report) :=
  .ite (fun _ => .refl) (fun _ => .ite (fun _ => s.finishEnding_acts) (fun _ => h))

/-! ## Activation (R121, R122) and the engine's own commands (R132, R133) -/

theorem State.resumeParked_acts {j : Job} {s : State} (active : s.engine.active = none) (parked : s.engine.parked = some j) :
    EngineActs s (s.resumeParked j) := by
  have resumes : s.Requeues { s.engine with active := some j, parked := none } s.results :=
    { noPack := rfl, speed := rfl, transparent := rfl, live := by simp [Engine.liveJobs, parked], ending := .inl
      wellQueued := fun h => h.resumes active parked }
  exact ((EngineActs.queues resumes).trans (State.liftResultsFull_acts _)).trans (State.poke_acts _)

theorem State.activateHead_acts {j : Job} {rest : List Job} {s : State} (active : s.engine.active = none)
    (queued : s.engine.queued = j :: rest) (free : s.canReserve = true) : EngineActs s (s.activateHead j rest) := by
  have activates (k : Job) (track : k.track = j.track) (reserved : k.reservation = true) (bank : k.bank = some s.engine.otherBank) :
      s.Requeues { s.engine.setBank s.engine.otherBank [] with active := some k, queued := rest } s.results := by
    refine { noPack := rfl, speed := rfl, transparent := rfl, live := by simp [Engine.liveJobs, queued], ending := .inl
             wellQueued := fun h => ?_ }
    have places := s.canReserve_iff.1 free
    rw [Engine.reservations_eq _ (fun j hj => (h.placed j hj).1)] at places
    exact h.activates active queued places track reserved bank
  unfold State.activateHead
  dsimp only
  split
  · refine .trans (EngineActs.queues (activates _ ?_ ?_ ?_)) (State.endActive_acts _ _ _ _ rfl) <;> rfl
  · refine .trans (.trans (EngineActs.queues (activates _ ?_ ?_ ?_)) (State.liftResultsFull_acts _)) (State.poke_acts _) <;> rfl

theorem State.placeResultsFull_acts (s : State) : EngineActs s s.placeResultsFull :=
  .trans (.single (.sets .resultsFull)) (EngineActs.queues (.of_badges rfl rfl rfl rfl rfl rfl rfl id rfl id))

theorem State.activateOrHold_acts {s : State} (active : s.engine.active = none) : EngineActs s s.activateOrHold := by
  unfold State.activateOrHold
  split
  · exact .refl
  · next j rest queued =>
    split
    · next free => exact State.activateHead_acts active queued free
    · exact s.placeResultsFull_acts

theorem State.activate_acts {s : State} (due : s.activationDue = true) : EngineActs s s.activate := by
  have active : s.engine.active = none := by
    simp only [State.activationDue, Bool.and_eq_true, Option.isNone_iff_eq_none] at due
    exact due.1.1.1
  unfold State.activate
  split
  · exact State.activateOrHold_acts active
  · next p parked =>
    refine .ite (fun _ => State.resumeParked_acts active parked) (fun _ => .ite (fun _ => State.activateOrHold_acts active)
      (fun _ => State.resumeParked_acts active parked))

theorem State.closeWindow_acts (s : State) : EngineActs s (s.withEngine Engine.closeWindow) := by
  unfold State.withEngine
  cases opened : s.engine.window with
  | none => rw [Engine.closeWindow_closed _ opened]
  | some d =>
    rw [Engine.closeWindow_open _ d opened]
    refine EngineActs.queues { noPack := rfl, speed := rfl, transparent := rfl, live := ?_, ending := .inl, wellQueued := fun h => ?_ }
    · intro none
      simp only [Engine.liveJobs, List.append_eq_nil_iff] at none ⊢
      exact .inl ⟨none.1, by rw [none.2]; rfl⟩
    · exact h.sorted (h.batch (by simp [opened]))

theorem State.suspend_acts (suspended : Bool) (s : State) :
    EngineActs s (s.withEngine (fun e => { e with suspended := suspended })) :=
  EngineActs.queues (.of_badges rfl rfl rfl rfl rfl rfl rfl id rfl id)

theorem State.engineAtRest_acts (s : State) : EngineActs s s.engineAtRest := by
  have rests : s.Requeues
      { s.engine with
        window := none
        suspended := false
        resultsFull := false
        banks := s.engine.banks.map fun _ => [] } s.results := by
    refine .of_badges rfl rfl rfl rfl rfl rfl rfl (fun opened => absurd rfl opened) (List.length_map _) fun _ l hl => ?_
    obtain ⟨_, -, rfl⟩ := List.mem_map.1 hl
    rfl
  exact (EngineActs.queues rests).trans (EngineActs.unseen rfl)

end Sys2Proof.Machine
end

