-- ==== Sys2Proof/Proofs/Moves.lean ====
section
/-! What the rows are made of: the acts that change no setting and nothing of the pack, and the moves that do. -/

namespace Sys2Proof.Machine

/-! ## The acts -/

/-- A post entry made or merged, and the map entry of its address removed (R45, R61). -/
def State.enterPost (a : Addr) (ws : List Word) (s : State) : State :=
  (if (s.postAt a).isSome then s.withPosts (updatePost a (PostEntry.merge ws) s.posts.entries)
   else s.withPosts (s.posts.entries ++ [s.newPost a ws])).removeEntry a

/-- An act of a row: it changes no setting, no hold reason, and nothing of the pack, of the speed fault and of Format Enable. -/
inductive Act (s : State) : State → Prop
  /-- An act of the Recovery Engine. -/
  | engine (t : State) (h : EngineAct s t) : Act s t
  /-- The drive is granted or set free, its activity with it (R79, R82). -/
  | drives (t : State) (granted : Bool) (same : t.seen = { s.seen with granted := granted, working := granted }) : Act s t
  /-- The virtual position changes within the geometry (R3). -/
  | places (cyl head : Nat) (within : s.tablesWf = true → cyl < s.geom.cylinders ∧ head < s.geom.heads) :
      Act s { s with port := { s.port with virtCyl := cyl, virtHead := head } }
  /-- The earlier request is dropped (R2, R20). -/
  | drops : Act s s.dropRequest
  /-- A pending sequence is abandoned (R167). -/
  | abandons : Act s s.abandonSequence
  /-- The response selector becomes STATUS (R168, R172). -/
  | selects : Act s s.selectStatus
  /-- A granted request is answered (R10). -/
  | answers (st : Status) (data : List Word) (g : Stage) (stage : s.stage = some g) (granted : g ≠ .standing) :
      Act s (s.finishRequest st data)
  /-- Drive work is requested for a request just taken (R80). -/
  | requests (o : PortWork) (w : Work) (free : s.port.outstanding = none) (unheld : s.port.hold = none)
      (kind : ControllerRequest.wf { client := .port, work := w } = true) :
      Act s { s with port := { s.port with outstanding := some { work := o, stage := .standing } }
                     drive := { s.drive with requests := s.drive.requests ++ [{ client := .port, work := w }] } }
  /-- A READ waits on a running capture (R73). -/
  | rides (o : PortWork) (free : s.port.outstanding = none) (unheld : s.port.hold = none) :
      Act s { s with port := { s.port with outstanding := some { work := o, stage := .capturing } } }
  /-- A WRITE waits for room in the Post Queue (R17). -/
  | waits (a : Addr) (ws : List Word) (d : Nat) (serves : packServes s.pack.state = true) (free : s.port.outstanding = none)
      (ready : s.ci.sequence = .ready) :
      Act s { s with port := { s.port with
        outstanding := some { work := .write a ws, stage := .held }
        hold := some { kind := .write ws, addr := a, deadline := d } } }
  /-- A granted READ is held for recovery (R13, R17). -/
  | holds (a : Addr) (data : List Word) (d : Nat) (g : Stage) (serves : packServes s.pack.state = true) (stage : s.stage = some g)
      (granted : g ≠ .standing) :
      Act s { s with port := { s.port with
        hold := some { kind := .read data, addr := a, deadline := d }
        outstanding := s.port.outstanding.map (fun o => { o with stage := .held }) } }
  /-- A granted request waits for the end of a fault clear (R98). -/
  | clears (stage : s.stage = some .working) : Act s (s.setStage .clearing)
  /-- The Controller Port's request is granted (R82). -/
  | grantsPort (w : Work) (rest : List ControllerRequest) (g : Stage) (front : s.drive.requests = { client := .port, work := w } :: rest)
      (granted : g ≠ .standing) (unheld : g ≠ .held) :
      Act s ({ s with drive := { s.drive with requests := rest } }.setStage g)
  /-- The Command Interface's request is granted (R82, R172). -/
  | grantsRead (w : Work) (rest : List ControllerRequest)
      (front : s.drive.requests = { client := .commandInterface, work := w } :: rest) :
      Act s { s with drive := { s.drive with requests := rest } }.markDriveReply
  /-- A standing request is handed back (R80). -/
  | handsBack (r : ControllerRequest) (rest : List ControllerRequest) (front : s.drive.requests = r :: rest) :
      Act s { s.handBack r with drive := { s.drive with requests := rest } }
  /-- READ DRIVE SECTOR is requested, its reply not ready (R172). -/
  | asks (a : Addr) (unasked : s.ci.reply = none) :
      Act s { s with
        ci := { s.ci with reply := some { kind := .driveSector, result := .ok, ready := false, contents := [], parts := 2,
                                          pointer := 0, driveRead := some false } }
        drive := { s.drive with requests := s.drive.requests ++ [{ client := .commandInterface, work := .driveSector a }] } }
  /-- Map entries are removed (R42). -/
  | unmaps (keep : MapEntry → Bool) : Act s { s with map := { s.map with entries := s.map.entries.filter keep } }
  /-- Words of the controller or of the Command Interface are stored (R46, R52). -/
  | stores (a : Addr) (o : Origin) (ws : List Word) (n : Nat) (slot : s.hasSlot a n) (serves : packServes s.pack.state = true)
      (unposted : s.postAt a = none ∨ s.ci.sequence = .awaitData a) : Act s (s.putEntry a o ws n)
  /-- Post entries leave or are marked (R66 to R69). -/
  | thins (l : List PostEntry) (addresses : (l.map (·.addr)).Sublist (s.posts.entries.map (·.addr)))
      (failed : s.postsWf = true → ∀ p ∈ l, p.failed < 3) : Act s (s.withPosts l)
  /-- A post entry is made or merged (R61). -/
  | posts (a : Addr) (ws : List Word) (serves : packServes s.pack.state = true ∨ s.writeWaits = true)
      (room : s.postHasRoom a = true) (clear : s.ci.sequence = .ready ∨ s.writeWaits = true) : Act s (s.enterPost a ws)
  /-- The awaited data sector has come (R52), or a sequence is confirmed (R166). -/
  | readies : Act s { s with ci := { s.ci with sequence := .ready } }
  /-- LOAD SECTOR awaits its data sector (R51). -/
  | awaitsData (a : Addr) (unposted : s.postAt a = none) (unheld : s.port.hold = none) :
      Act s { s with ci := { s.ci with sequence := .awaitData a } }
  /-- A command waits for CONFIRM (R166). -/
  | awaitsConfirm (code : Word) (listed : code = Code.clearMap ∨ code = Code.forceUnload ∨ code = Code.enableFormat) :
      Act s { s with ci := { s.ci with sequence := .awaitConfirm code } }

/-- Acts, one after another. -/
abbrev Acts : State → State → Prop := Relation.ReflTransGen Act

/-! ## The moves -/

/-- A departure begun, once the held request is answered (R36, R116, R134). -/
def State.departed (s : State) : State :=
  { s with port := { s.port with formatEnable := false }
           engine := { s.engine with noPack := true, window := none }
           drive := { s.drive with recoveryRequest := false } }

theorem State.beginDeparture_eq (s : State) : s.beginDeparture = s.releaseHold.departed := rfl

/-- A release given (R134, R157, R158): the departure begun and Unload Release asserted, the ACTIVE job left ENDING where its grant
runs, and every other job ended. -/
structure State.Releases (s u : State) : Prop where
  loaded : s.pack.state ≠ .unloading
  unheld : s.port.hold = none
  posts : packServes s.pack.state = true → s.posts.entries = []
  ends : ∃ v w, EngineActs s.departed.assertRelease v ∧
    v.engine = s.departed.assertRelease.engine ∧
    (w = v ∨ ∃ j k, v.engine.active = some j ∧ k.berth = j.berth ∧
      w = { v with engine := { v.engine with active := none, ending := some k } }) ∧
    EngineActs w u
  live : u.engine.liveJobs = []

/-- A move of the pack, of the speed fault or of Format Enable: it changes no setting. -/
inductive Turn (s : State) : State → Prop
  /-- An act. -/
  | act (t : State) (h : Act s t) : Turn s t
  /-- Format Enable is cleared (R36, R37). -/
  | disarms : Turn s { s with port := { s.port with formatEnable := false } }
  /-- Format Enable is set (R35). -/
  | arms (serves : packServes s.pack.state = true) : Turn s { s with port := { s.port with formatEnable := true } }
  /-- A speed fault begins or clears (R96). -/
  | speeds (t : State) (b : Bool)
      (same : t.seen = { s.seen with speedFault := b, engine := { s.engine with speed := b } }) : Turn s t
  /-- A period is counted for the spin-up (R152). -/
  | spinsUp (n : Nat) (short : n < 8) : Turn s (s.withPack (fun p => { p with spinUp := n }))
  /-- The pack becomes LOADED (R152). -/
  | loads (t : State) (spinning : s.pack.state = .spinningUp)
      (same : t.seen = { s.seen with
        engine := { s.engine with noPack := false }
        pack := { s.pack with state := .loaded, spinUp := 0, epoch := s.pack.epoch + 1, firstRequest := none, permitGiven := false } }) :
      Turn s t
  /-- The pack becomes SPINNING_UP (R152). -/
  | rises (gone : s.pack.state = .empty) : Turn s (s.withPack (fun p => { p with state := .spinningUp, spinUp := 0 }))
  /-- The pack becomes UNLOAD_PENDING (R154). -/
  | pends (n : Nat) (loaded : s.pack.state = .loaded) :
      Turn s (s.withPack (fun p => { p with state := .unloadPending, firstRequest := some n }))
  /-- PERMIT UNLOAD (R156). -/
  | permits (pending : s.pack.state = .unloadPending) : Turn s (s.withPack (fun p => { p with permitGiven := true }))
  /-- A release is given (R157, R158). -/
  | releases (u : State) (h : s.Releases u) : Turn s u
  /-- The pack is lost (R160). -/
  | loses (u : State) (serves : packServes s.pack.state = true) (unheld : s.port.hold = none) (posts : s.posts.entries = [])
      (h : EngineActs s.departed u) (live : u.engine.liveJobs = []) : Turn s u.packGone
  /-- The pack leaves the drive (R152, R159). -/
  | goes (unserved : packServes s.pack.state = false) (ended : s.pack.state = .unloading → s.engine.ending = none) : Turn s s.packGone

/-- Moves that change no setting, one after another. -/
abbrev Turns : State → State → Prop := Relation.ReflTransGen Turn

/-- A move of a row. -/
inductive Move (s : State) : State → Prop
  /-- A move that changes no setting. -/
  | turn (t : State) (h : Turn s t) : Move s t
  /-- SET GEOMETRY (R178). -/
  | geometry (g : Geometry) (wf : geometryWf g = true) (unloaded : s.pack.state = .empty ∨ s.pack.state = .spinningUp) :
      Move s (s.setGeometry g)
  /-- LOAD REGION and DELETE REGION (R26, R28). -/
  | regions (l : List (Option Region)) (wf : regionsWf s.geom.cylinders s.regions = true → regionsWf s.geom.cylinders l = true) :
      Move s { s with regions := l }
  /-- LOAD LADDER STEP and CLEAR LADDER (R104 to R106). -/
  | ladders (l : List (List LadderStep)) (wf : laddersWf s.ladders = true → laddersWf l = true) : Move s { s with ladders := l }
  /-- SET GUARD (R155). -/
  | guard (g : UnloadGuard) : Move s (s.withPack (fun p => { p with unloadGuard := g }))
  /-- SET MODE (R8). -/
  | mode (m : Mode) : Move s { s with port := { s.port with mode := m }
                                      engine := { s.engine with transparent := m == Mode.transparent } }
  /-- SET TIMING (R173). -/
  | timing (t : Timing) (wf : timingWf t = true) : Move s { s with timing := t }
  /-- SET TRIM (R88). -/
  | trim (v : Int) (wf : trimWf v = true) : Move s (s.withDrive (fun d => { d with trim := v }))
  /-- SET CONTROL ADDRESS (R162). -/
  | controlAddr (a : Addr) (wf : a.within s.geom = true) : Move s { s with ci := { s.ci with controlAddr := a } }
  /-- CLEAR EVENTS (R176). -/
  | events (mask : Word) : Move s { s with events := clearEvents mask s.events }

/-- Moves, one after another. -/
abbrev Moves : State → State → Prop := Relation.ReflTransGen Move

/-! ## Sequences of moves -/

theorem EngineActs.acts {s t : State} (h : EngineActs s t) : Acts s t := h.lift id (fun _ t => .engine t)

theorem Acts.turns {s t : State} (h : Acts s t) : Turns s t := h.lift id (fun _ t => .act t)

theorem Turns.moves {s t : State} (h : Turns s t) : Moves s t := h.lift id (fun _ t => .turn t)

theorem Acts.moves {s t : State} (h : Acts s t) : Moves s t := h.turns.moves

theorem Acts.unseen {s t : State} (same : t.seen = s.seen) : Acts s t := (EngineActs.unseen same).acts

theorem Acts.ite {c : Prop} [Decidable c] {s t u : State} (ht : c → Acts s t) (hu : ¬ c → Acts s u) : Acts s (if c then t else u) := by
  split
  · next h => exact ht h
  · next h => exact hu h

end Sys2Proof.Machine
end

