-- ==== Sys2Proof/Proofs/MoveViews.lean ====
section
/-! What the moves leave of a state's parts: the settings and tables, the record of the pack, the sequence of the Command Interface. -/

namespace Sys2Proof.Machine

/-! ## Acts of the Recovery Engine -/

theorem EngineAct.frame {s t : State} (h : EngineAct s t) :
    t.seen = { s.seen with port := t.port, map := t.map, engine := t.engine, results := t.results, events := t.events } := by
  cases h with
  | unseen t same => rw [← same]; rfl
  | _ => rfl

theorem EngineActs.frame {s t : State} (h : EngineActs s t) :
    t.seen = { s.seen with port := t.port, map := t.map, engine := t.engine, results := t.results, events := t.events } := by
  induction h with
  | refl => rfl
  | tail _ act ih => rw [act.frame, ih]

/-- The engine answers a held request and no other. -/
theorem EngineAct.port {s t : State} (h : EngineAct s t) :
    t.port = s.port ∨ s.port.hold.isSome = true ∧ t.port = { s.port with outstanding := none, hold := none } := by
  cases h with
  | unseen t same => exact .inl (congrArg Seen.port same)
  | answers st data held => exact .inr ⟨held, rfl⟩
  | _ => exact .inl rfl

theorem EngineActs.port {s t : State} (h : EngineActs s t) :
    t.port = s.port ∨ s.port.hold.isSome = true ∧ t.port = { s.port with outstanding := none, hold := none } := by
  induction h with
  | refl => exact .inl rfl
  | tail _ act ih =>
    rcases ih with same | ⟨held, cleared⟩ <;> rcases act.port with same' | ⟨held', cleared'⟩
    · exact .inl (same'.trans same)
    · exact .inr ⟨same ▸ held', same ▸ cleared'⟩
    · exact .inr ⟨held, same'.trans cleared⟩
    · exact absurd held' (by simp [cleared])

/-- With nothing held the engine leaves the port as it is. -/
theorem EngineActs.port_unheld {s t : State} (h : EngineActs s t) (unheld : s.port.hold = none) : t.port = s.port :=
  h.port.resolve_right (by simp [unheld])

/-! ## A request handed back -/

theorem State.handBack_cases (r : ControllerRequest) (s : State) :
    s.handBack r = s ∨ (r.client = .port ∧ s.stage = some .standing ∧ s.handBack r = s.finishRequest .notReady []) ∨
      ∃ q q', s.ci.reply = some q ∧ q.driveRead = some false ∧ q'.driveRead = none ∧ s.handBack r = s.withReply (some q') := by
  unfold State.handBack
  split
  · unfold State.answerAt
    split
    · next standing => exact .inr (.inl ⟨‹_›, standing, rfl⟩)
    · exact .inl rfl
  · split
    · unfold State.fillDriveReplyEmpty State.fillDriveReply
      split
      · next q reply =>
        split
        · next asked => exact .inr (.inr ⟨q, _, reply, asked, rfl, rfl⟩)
        · exact .inl rfl
      · exact .inl rfl
    all_goals exact .inl rfl

theorem State.handBack_drive (r : ControllerRequest) (s : State) : (s.handBack r).drive = s.drive := by
  rcases s.handBack_cases r with same | ⟨-, -, same⟩ | ⟨_, _, -, -, -, same⟩ <;> rw [same] <;> rfl

/-! ## Settings and tables (R178, R24, R101, R151, R7, R173, R88, R162, R1) -/

/-- The settings and tables that only commands change. -/
structure Settings where
  geom : Geometry
  regions : List (Option Region)
  ladders : List (List LadderStep)
  unloadGuard : UnloadGuard
  mode : Mode
  timing : Timing
  trim : Int
  controlAddr : Addr
  unit : Fin 8

def Seen.settings (v : Seen) : Settings :=
  { geom := v.geom, regions := v.regions, ladders := v.ladders, unloadGuard := v.pack.unloadGuard, mode := v.port.mode
    timing := v.timing, trim := v.trim, controlAddr := v.controlAddr, unit := v.port.unit }

/-- The virtual position (R3). -/
def Seen.position (v : Seen) : Nat × Nat := (v.port.virtCyl, v.port.virtHead)

/-- The settings and the virtual position in range, as `State.tablesWf` says it. -/
def Settings.wf (c : Settings) (p : Nat × Nat) : Bool :=
  geometryWf c.geom && regionsWf c.geom.cylinders c.regions && laddersWf c.ladders && timingWf c.timing &&
    trimWf c.trim && p.1 < c.geom.cylinders && p.2 < c.geom.heads && c.controlAddr.within c.geom

theorem State.tablesWf_eq (s : State) : s.tablesWf = s.seen.settings.wf s.seen.position := rfl

theorem Settings.wf_iff (c : Settings) (p : Nat × Nat) : c.wf p = true ↔
    geometryWf c.geom = true ∧ regionsWf c.geom.cylinders c.regions = true ∧ laddersWf c.ladders = true ∧ timingWf c.timing = true ∧
      trimWf c.trim = true ∧ p.1 < c.geom.cylinders ∧ p.2 < c.geom.heads ∧ c.controlAddr.within c.geom = true := by
  simp only [Settings.wf, Bool.and_eq_true, decide_eq_true_eq, and_assoc]

theorem State.tablesWf_iff (s : State) : s.tablesWf = true ↔
    geometryWf s.geom = true ∧ regionsWf s.geom.cylinders s.regions = true ∧ laddersWf s.ladders = true ∧ timingWf s.timing = true ∧
      trimWf s.drive.trim = true ∧ s.port.virtCyl < s.geom.cylinders ∧ s.port.virtHead < s.geom.heads ∧
      s.ci.controlAddr.within s.geom = true := by
  rw [State.tablesWf_eq, Settings.wf_iff]
  rfl

/-- The settings stay, and the virtual position in its range. -/
structure State.KeepsTables (s t : State) : Prop where
  settings : t.seen.settings = s.seen.settings
  position : s.tablesWf = true → t.seen.position.1 < s.geom.cylinders ∧ t.seen.position.2 < s.geom.heads

theorem State.KeepsTables.of_eq {s t : State} (settings : t.seen.settings = s.seen.settings)
    (position : t.seen.position = s.seen.position) : s.KeepsTables t := by
  refine ⟨settings, fun wf => ?_⟩
  rw [position]
  rw [State.tablesWf_eq] at wf
  obtain ⟨-, -, -, -, -, cyl, head, -⟩ := (Settings.wf_iff _ _).1 wf
  exact ⟨cyl, head⟩

theorem State.KeepsTables.wf {s t : State} (h : s.KeepsTables t) (wf : s.tablesWf = true) : t.tablesWf = true := by
  obtain ⟨cyl, head⟩ := h.position wf
  rw [State.tablesWf_eq] at wf ⊢
  rw [h.settings]
  obtain ⟨geometry, regions, ladders, timing, trim, -, -, addr⟩ := (Settings.wf_iff _ _).1 wf
  exact (Settings.wf_iff _ _).2 ⟨geometry, regions, ladders, timing, trim, cyl, head, addr⟩

theorem State.KeepsTables.trans {s t u : State} (h : s.KeepsTables t) (h' : t.KeepsTables u) : s.KeepsTables u := by
  refine ⟨h'.settings.trans h.settings, fun wf => ?_⟩
  have geom : t.geom = s.geom := congrArg Settings.geom h.settings
  rw [← geom]
  exact h'.position (h.wf wf)

theorem EngineActs.keeps_tables {s t : State} (h : EngineActs s t) : s.KeepsTables t := by
  have frame := h.frame
  have port : t.port = { s.port with outstanding := t.port.outstanding, hold := t.port.hold } := by
    rcases h.port with same | ⟨-, cleared⟩
    · rw [same]
    · rw [cleared]
  refine .of_eq ?_ ?_
  · rw [frame, port]; rfl
  · rw [frame, port]; rfl

theorem Act.keeps_tables {s t : State} (h : Act s t) : s.KeepsTables t := by
  cases h with
  | engine t h => exact EngineActs.keeps_tables (.single h)
  | drives t granted same => exact .of_eq (by rw [same]; rfl) (by rw [same]; rfl)
  | places cyl head within => exact ⟨rfl, within⟩
  | drops => rw [State.dropRequest_eq]; exact .of_eq rfl rfl
  | abandons =>
    rw [State.abandonSequence]
    split
    · exact .of_eq rfl rfl
    · exact .of_eq rfl rfl
  | selects => rw [State.selectStatus_eq]; exact .of_eq rfl rfl
  | handsBack r rest front =>
    rcases s.handBack_cases r with same | ⟨-, -, same⟩ | ⟨_, _, -, -, -, same⟩ <;> rw [same] <;> exact .of_eq rfl rfl
  | posts a ws serves room clear =>
    rw [State.enterPost]
    split
    · exact .of_eq rfl rfl
    · exact .of_eq rfl rfl
  | _ => exact .of_eq rfl rfl

theorem State.KeepsTables.of_acts {s t : State} (h : Acts s t) : s.KeepsTables t := by
  induction h with
  | refl => exact .of_eq rfl rfl
  | tail _ act ih => exact ih.trans act.keeps_tables

theorem Turn.keeps_tables {s t : State} (h : Turn s t) : s.KeepsTables t := by
  cases h with
  | act t h => exact h.keeps_tables
  | speeds t b same => exact .of_eq (by rw [same]; rfl) (by rw [same]; rfl)
  | loads t spinning same => exact .of_eq (by rw [same]; rfl) (by rw [same]; rfl)
  | releases u h =>
    obtain ⟨v, w, before, -, left, after⟩ := h.ends
    have departs : s.KeepsTables s.departed.assertRelease := .of_eq rfl rfl
    have leaves : v.KeepsTables w := by
      rcases left with rfl | ⟨_, _, -, -, rfl⟩ <;> exact .of_eq rfl rfl
    exact ((departs.trans before.keeps_tables).trans leaves).trans after.keeps_tables
  | loses u serves unheld posts h live =>
    have departs : s.KeepsTables s.departed := .of_eq rfl rfl
    exact (departs.trans h.keeps_tables).trans (.of_eq rfl rfl)
  | _ => exact .of_eq rfl rfl

/-- A slot brought within a cylinder count keeps its low cylinder and its ladder, and its range shrinks (R30). -/
theorem clipRegion_some {c : Nat} {o : Option Region} {r : Region} (h : clipRegion c o = some r) :
    ∃ t, o = some t ∧ r.low = t.low ∧ r.high ≤ t.high ∧ r.high < c ∧ (t.low ≤ t.high → r.low ≤ r.high) ∧ r.ladder = t.ladder := by
  unfold clipRegion at h
  split at h
  · cases h
  · next t =>
    refine ⟨t, rfl, ?_⟩
    split at h
    · cases h
    · next above =>
      split at h
      · next cut =>
        cases h
        have below : c - 1 ≤ t.high ∧ c - 1 < c ∧ t.low ≤ c - 1 := by omega
        exact ⟨rfl, below.1, below.2.1, fun _ => below.2.2, rfl⟩
      · next inside =>
        cases h
        exact ⟨rfl, le_rfl, Nat.not_le.1 inside, id, rfl⟩

theorem apartFrom_iff (r : Region) (l : List (Option Region)) :
    apartFrom r l = true ↔ ∀ t, some t ∈ l → Region.overlaps r t = false := by
  unfold apartFrom
  rw [List.all_eq_true]
  refine ⟨fun h t mem => by simpa using h _ mem, fun h o mem => ?_⟩
  cases o with
  | none => rfl
  | some t => simpa using h t mem

theorem regionsApart_cons_some (r : Region) (l : List (Option Region)) :
    regionsApart (some r :: l) = true ↔ apartFrom r l = true ∧ regionsApart l = true := by
  rw [regionsApart, Bool.and_eq_true]

theorem regionsApart_clip (c : Nat) (l : List (Option Region)) (h : regionsApart l = true) :
    regionsApart (l.map (clipRegion c)) = true := by
  induction l with
  | nil => rfl
  | cons o l ih =>
    cases o with
    | none => exact ih h
    | some r =>
      rw [regionsApart_cons_some] at h
      obtain ⟨apart, rest⟩ := h
      rw [List.map_cons]
      cases clipped : clipRegion c (some r) with
      | none => exact ih rest
      | some r' =>
        refine (regionsApart_cons_some _ _).2 ⟨(apartFrom_iff _ _).2 fun t' mem => ?_, ih rest⟩
        obtain ⟨o, ho, clipped'⟩ := List.mem_map.1 mem
        obtain ⟨_, same, low, high, -⟩ := clipRegion_some clipped
        obtain ⟨t, rfl, low', high', -⟩ := clipRegion_some clipped'
        cases same
        have clear := (apartFrom_iff _ _).1 apart t ho
        simp only [Region.overlaps, Bool.and_eq_false_iff, decide_eq_false_iff_not] at clear ⊢
        omega

theorem regionsWf_clip (c d : Nat) (l : List (Option Region)) (h : regionsWf d l = true) :
    regionsWf c (l.map (clipRegion c)) = true := by
  simp only [regionsWf, Bool.and_eq_true, List.all_eq_true, List.length_map] at h ⊢
  obtain ⟨⟨length, within⟩, apart⟩ := h
  refine ⟨⟨length, fun o mem => ?_⟩, regionsApart_clip c l apart⟩
  obtain ⟨o', mem', clipped⟩ := List.mem_map.1 mem
  cases o with
  | none => rfl
  | some r =>
    obtain ⟨t, rfl, low, high, below, order, ladder⟩ := clipRegion_some clipped
    have wf := within _ mem'
    simp only [Option.all_some, regionWf, Bool.and_eq_true, decide_eq_true_eq] at wf ⊢
    exact ⟨⟨order wf.1.1, below⟩, ladder ▸ wf.2⟩

theorem Move.keeps_tables {s t : State} (h : Move s t) (wf : s.tablesWf = true) : t.tablesWf = true := by
  obtain ⟨geom, regions, ladders, timing, trim, cyl, head, addr⟩ := s.tablesWf_iff.1 wf
  cases h with
  | turn t h => exact h.keeps_tables.wf wf
  | geometry g gwf unloaded =>
    have sizes := gwf
    simp only [geometryWf, Bool.and_eq_true, decide_eq_true_eq, and_assoc] at sizes
    obtain ⟨cylinders, -, heads, -, sectors, -⟩ := sizes
    refine (State.tablesWf_iff _).2 ⟨gwf, regionsWf_clip _ _ _ regions, ladders, timing, trim, ?_, ?_, ?_⟩
    · exact lt_of_le_of_lt (Nat.min_le_right _ _) (Nat.sub_lt cylinders Nat.one_pos)
    · exact lt_of_le_of_lt (Nat.min_le_right _ _) (Nat.sub_lt heads Nat.one_pos)
    · simp only [Addr.within, Bool.and_eq_true, decide_eq_true_eq]
      exact ⟨⟨Nat.sub_lt cylinders Nat.one_pos, Nat.sub_lt heads Nat.one_pos⟩, Nat.sub_lt sectors Nat.one_pos⟩
  | regions l lwf => exact (State.tablesWf_iff _).2 ⟨geom, lwf regions, ladders, timing, trim, cyl, head, addr⟩
  | ladders l lwf => exact (State.tablesWf_iff _).2 ⟨geom, regions, lwf ladders, timing, trim, cyl, head, addr⟩
  | guard g => exact wf
  | mode m => exact wf
  | timing t twf => exact (State.tablesWf_iff _).2 ⟨geom, regions, ladders, twf, trim, cyl, head, addr⟩
  | trim v vwf => exact (State.tablesWf_iff _).2 ⟨geom, regions, ladders, timing, vwf, cyl, head, addr⟩
  | controlAddr a awf => exact (State.tablesWf_iff _).2 ⟨geom, regions, ladders, timing, trim, cyl, head, awf⟩
  | events mask => exact wf

end Sys2Proof.Machine
end

