-- ==== Sys2Proof/Proofs/PackRecord.lean ====
section
/-! The record of the pack with its conditions (R36, R96, R116, R151, R152, R157) and the pending record of the Command Interface (R35,
R54, R158, R166), through every move. -/

namespace Sys2Proof.Machine

/-! ## The record -/

/-- The hold reasons, the speed fault, the mode and Format Enable with the Pack Monitor's record. -/
structure PackRecord where
  noPack : Bool
  transparent : Bool
  speed : Bool
  mode : Mode
  speedFault : Bool
  formatEnable : Bool
  pack : Pack

def Seen.packRecord (v : Seen) : PackRecord :=
  { noPack := v.engine.noPack, transparent := v.engine.transparent, speed := v.engine.speed, mode := v.port.mode
    speedFault := v.speedFault, formatEnable := v.port.formatEnable, pack := v.pack }

/-- `State.packWf`, said of the record. -/
structure PackRecord.Wf (r : PackRecord) : Prop where
  noPack : r.noPack = !packServes r.pack.state
  transparent : r.transparent = (r.mode == Mode.transparent)
  speed : r.speed = r.speedFault
  formatEnable : r.formatEnable = true → packServes r.pack.state = true
  firstRequest : r.pack.firstRequest.isSome = (r.pack.state == .unloadPending)
  unloadRelease : r.pack.unloadRelease = (r.pack.state == .unloading)
  spinUp : r.pack.spinUp < 8

theorem State.packWf_iff (s : State) : s.packWf = true ↔ s.seen.packRecord.Wf := by
  have enabled : (!s.port.formatEnable || packServes s.pack.state) = true ↔
      (s.port.formatEnable = true → packServes s.pack.state = true) := by
    cases s.port.formatEnable <;> simp
  simp only [State.packWf, Bool.and_eq_true, beq_iff_eq, enabled, and_assoc, decide_eq_true_eq]
  exact ⟨fun ⟨a, b, c, d, e, f, g⟩ => ⟨a, b, c, d, e, f, g⟩, fun ⟨a, b, c, d, e, f, g⟩ => ⟨a, b, c, d, e, f, g⟩⟩

theorem EngineAct.packRecord {s t : State} (h : EngineAct s t) : t.seen.packRecord = s.seen.packRecord := by
  cases h with
  | unseen t same => exact congrArg Seen.packRecord same
  | queues e records h =>
    simp only [Seen.packRecord, State.seen, h.noPack, h.speed, h.transparent]
  | _ => rfl

theorem EngineActs.packRecord {s t : State} (h : EngineActs s t) : t.seen.packRecord = s.seen.packRecord := by
  induction h with
  | refl => rfl
  | tail _ act ih => exact act.packRecord.trans ih

theorem Act.packRecord {s t : State} (h : Act s t) : t.seen.packRecord = s.seen.packRecord := by
  cases h with
  | engine t h => exact h.packRecord
  | drives t granted same => rw [same]; rfl
  | drops => rw [State.dropRequest_eq]; rfl
  | abandons => rw [State.abandonSequence_eq]; rfl
  | selects => rw [State.selectStatus_eq]; rfl
  | handsBack r rest front =>
    rcases s.handBack_cases r with same | ⟨-, -, same⟩ | ⟨_, _, -, -, -, same⟩ <;> rw [same] <;> rfl
  | posts a ws serves room clear => rw [State.enterPost]; split <;> rfl
  | _ => rfl

theorem Acts.packRecord {s t : State} (h : Acts s t) : t.seen.packRecord = s.seen.packRecord := by
  induction h with
  | refl => rfl
  | tail _ act ih => exact act.packRecord.trans ih

/-! ## Its moves -/

theorem PackRecord.Wf.unserved {r : PackRecord} {p : Pack} (h : r.Wf) (empty : p.state = .empty ∨ p.state = .unloading)
    (request : p.firstRequest = none) (release : p.unloadRelease = (p.state == .unloading)) (spinUp : p.spinUp < 8) :
    PackRecord.Wf { r with noPack := true, formatEnable := false, pack := p } where
  noPack := by rcases empty with e | e <;> simp [e, packServes]
  transparent := h.transparent
  speed := h.speed
  formatEnable := by simp
  firstRequest := by rcases empty with e | e <;> simp [e, request]
  unloadRelease := release
  spinUp := spinUp

theorem State.Releases.packRecord {s u : State} (h : s.Releases u) :
    u.seen.packRecord = { s.seen.packRecord with
      noPack := true
      formatEnable := false
      pack := { s.pack with state := .unloading, firstRequest := none, unloadRelease := true } } := by
  obtain ⟨v, w, before, -, left, after⟩ := h.ends
  have leaves : w.seen.packRecord = v.seen.packRecord := by
    rcases left with rfl | ⟨_, _, -, -, rfl⟩ <;> rfl
  rw [after.packRecord, leaves, before.packRecord]
  rfl

/-- The Pack Monitor's record once the pack has left the drive (R152, R159, R160). -/
def Pack.gone (p : Pack) : Pack :=
  { p with
    state := .empty
    spinUp := 0
    firstRequest := none
    permitGiven := false
    unloadRelease := false }

theorem State.packGone_packRecord (s : State) :
    s.packGone.seen.packRecord = { s.seen.packRecord with speed := false, speedFault := false, pack := s.seen.packRecord.pack.gone } :=
  rfl

theorem PackRecord.Wf.gone {r : PackRecord} (h : r.Wf) :
    PackRecord.Wf { r with noPack := true, formatEnable := false, speed := false, speedFault := false, pack := r.pack.gone } :=
  { h.unserved (p := r.pack.gone) (.inl rfl) rfl rfl (Nat.succ_pos _) with speed := rfl }

theorem Turn.keeps_packRecord {s t : State} (h : Turn s t) (wf : s.seen.packRecord.Wf) : t.seen.packRecord.Wf := by
  cases h with
  | act t h => rw [h.packRecord]; exact wf
  | disarms => exact { wf with formatEnable := by simp [Seen.packRecord, State.seen] }
  | arms serves => exact { wf with formatEnable := fun _ => serves }
  | speeds t b same => rw [same]; exact { wf with speed := rfl }
  | spinsUp n short => exact { wf with spinUp := short }
  | loads t spinning same =>
    rw [same]
    have release := wf.unloadRelease
    exact { wf with noPack := rfl, formatEnable := fun _ => rfl, firstRequest := rfl, spinUp := Nat.succ_pos _
                    unloadRelease := release.trans (by rw [show s.seen.packRecord.pack.state = _ from spinning]; rfl) }
  | rises gone =>
    have state : s.seen.packRecord.pack.state = .empty := gone
    obtain ⟨noPack, transparent, speed, formatEnable, firstRequest, unloadRelease, -⟩ := wf
    rw [state] at noPack formatEnable firstRequest unloadRelease
    exact ⟨noPack, transparent, speed, formatEnable, firstRequest, unloadRelease, Nat.succ_pos _⟩
  | pends n loaded =>
    have state : s.seen.packRecord.pack.state = .loaded := loaded
    obtain ⟨noPack, transparent, speed, formatEnable, -, unloadRelease, spinUp⟩ := wf
    rw [state] at noPack formatEnable unloadRelease
    exact ⟨noPack, transparent, speed, formatEnable, rfl, unloadRelease, spinUp⟩
  | permits pending => exact { wf with }
  | releases u h => rw [h.packRecord]; exact wf.unserved (.inr rfl) rfl rfl wf.spinUp
  | loses u serves unheld posts h live =>
    rw [State.packGone_packRecord, h.packRecord]
    exact wf.gone
  | goes unserved ended =>
    have state : packServes s.seen.packRecord.pack.state = false := unserved
    rw [State.packGone_packRecord]
    refine { wf.gone with noPack := ?_, formatEnable := fun enabled => ?_ }
    · exact wf.noPack.trans (by rw [state]; rfl)
    · exact absurd (wf.formatEnable enabled) (by simp [state])

theorem Move.keeps_packWf {s t : State} (h : Move s t) (wf : s.packWf = true) : t.packWf = true := by
  rw [State.packWf_iff] at wf ⊢
  cases h with
  | turn t h => exact h.keeps_packRecord wf
  | geometry g gwf unloaded => exact { wf with spinUp := Nat.succ_pos _ }
  | mode m => exact { wf with transparent := rfl }
  | _ => exact { wf with }

/-! ## The pending record -/

/-- `State.sequenceWf`, said of the sequence. -/
def Sequence.Listed : Sequence → Prop
  | .awaitConfirm code => code = Code.clearMap ∨ code = Code.forceUnload ∨ code = Code.enableFormat
  | .ready | .awaitData _ => True

theorem State.sequenceWf_iff (s : State) : s.sequenceWf = true ↔ s.seen.sequence.Listed := by
  unfold State.sequenceWf Sequence.Listed
  show _ ↔ match s.ci.sequence with
    | .awaitConfirm code => _
    | .ready | .awaitData _ => _
  cases s.ci.sequence <;> simp [or_assoc]

theorem Act.keeps_sequence {s t : State} (h : Act s t) (wf : s.seen.sequence.Listed) : t.seen.sequence.Listed := by
  cases h with
  | engine t h => rw [h.frame]; exact wf
  | drives t granted same => rw [same]; exact wf
  | drops => rw [State.dropRequest_eq]; exact wf
  | abandons =>
    rw [State.abandonSequence]
    split
    · exact wf
    · trivial
  | selects => rw [State.selectStatus_eq]; exact wf
  | handsBack r rest front =>
    rcases s.handBack_cases r with same | ⟨-, -, same⟩ | ⟨_, _, -, -, -, same⟩ <;> rw [same] <;> exact wf
  | posts a ws serves room clear => rw [State.enterPost]; split <;> exact wf
  | readies => trivial
  | awaitsData a unposted unheld => trivial
  | awaitsConfirm code listed => exact listed
  | _ => exact wf

theorem Turn.keeps_sequence {s t : State} (h : Turn s t) (wf : s.seen.sequence.Listed) : t.seen.sequence.Listed := by
  cases h with
  | act t h => exact h.keeps_sequence wf
  | speeds t b same => rw [same]; exact wf
  | loads t spinning same => rw [same]; exact wf
  | releases u h =>
    obtain ⟨v, w, before, -, left, after⟩ := h.ends
    have leaves : w.seen.sequence = v.seen.sequence := by
      rcases left with rfl | ⟨_, _, -, -, rfl⟩ <;> rfl
    rw [after.frame]
    show w.seen.sequence.Listed
    rw [leaves, before.frame]
    exact wf
  | loses u serves unheld posts h live =>
    show u.seen.sequence.Listed
    rw [h.frame]
    exact wf
  | _ => exact wf

theorem Move.keeps_sequenceWf {s t : State} (h : Move s t) (wf : s.sequenceWf = true) : t.sequenceWf = true := by
  rw [State.sequenceWf_iff] at wf ⊢
  cases h with
  | turn t h => exact h.keeps_sequence wf
  | _ => exact wf

end Sys2Proof.Machine
end

