-- ==== Sys2Proof/Proofs/Collections.lean ====
section
/-! The form of the Substitution Map (R40, R42), of the Post Queue (R60, R66) and what stands between them (R44), through every move. -/

namespace Sys2Proof.Machine

/-! ## The Substitution Map -/

theorem numbersApart_iff (l : List Nat) : numbersApart l = true ↔ l.Nodup := by
  induction l with
  | nil => simp [numbersApart]
  | cons n l ih => simp [numbersApart, ih]

/-- `State.mapWf`, said of the map. -/
structure SubstMap.Wf (m : SubstMap) : Prop where
  order : entriesWf m.entries = true
  apart : (m.entries.map (·.slot)).Nodup
  slots : ∀ e ∈ m.entries, e.slot < Config.storeSlots
  store : tableWf m.store = true

theorem State.mapWf_iff (s : State) : s.mapWf = true ↔ s.map.Wf := by
  simp only [State.mapWf, Bool.and_eq_true, numbersApart_iff, List.all_eq_true, decide_eq_true_eq, and_assoc]
  exact ⟨fun ⟨a, b, c, d⟩ => ⟨a, b, c, d⟩, fun ⟨a, b, c, d⟩ => ⟨a, b, c, d⟩⟩

theorem Addr.before_ne {a b : Addr} (h : a.before b = true) : b ≠ a := by
  rintro rfl
  simp [Addr.before] at h

/-- An entry put in takes the place of the entry of its address, or stands beside the others (R40). -/
theorem insertEntry_entries (e : MapEntry) (l : List MapEntry) (h : entriesWf l = true) :
    (∃ f, l.find? (fun f => f.addr == e.addr) = some f ∧ (e.slot = f.slot → (insertEntry e l).map (·.slot) = l.map (·.slot))) ∨
      l.find? (fun f => f.addr == e.addr) = none ∧ (insertEntry e l).Perm (e :: l) := by
  induction l with
  | nil => exact .inr ⟨rfl, .refl _⟩
  | cons f l ih =>
    obtain ⟨after, rest⟩ := (entriesWf_cons f l).1 h
    unfold insertEntry
    split
    · next before =>
      refine .inr ⟨List.find?_eq_none.2 fun g mem => ?_, .refl _⟩
      have later : e.addr.before g.addr = true := by
        rcases List.mem_cons.1 mem with rfl | mem
        · exact before
        · exact Addr.before_trans _ _ _ before (after g mem)
      simpa using Addr.before_ne later
    · split
      · next same => exact .inl ⟨f, by simp [same], fun slot => by simp [slot]⟩
      · next other =>
        have skip : (f :: l).find? (fun f => f.addr == e.addr) = l.find? (fun f => f.addr == e.addr) :=
          List.find?_cons_of_neg (by simpa using Ne.symm other)
        rw [skip]
        rcases ih rest with ⟨g, found, slots⟩ | ⟨absent, perm⟩
        · exact .inl ⟨g, found, fun slot => by rw [List.map_cons, List.map_cons, slots slot]⟩
        · exact .inr ⟨absent, (perm.cons f).trans (.swap e f l)⟩

theorem slotBound_iff (l : List MapEntry) (n : Nat) : slotBound l n = true ↔ n ∈ l.map (·.slot) := by
  simp [slotBound]

theorem SubstMap.Wf.putEntry {s : State} {a : Addr} {n : Nat} (h : s.map.Wf) (slot : s.hasSlot a n) (o : Origin) (ws : List Word) :
    (s.putEntry a o ws n).map.Wf := by
  obtain ⟨order, store⟩ := s.putEntry_wf a o ws n h.order h.store
  obtain ⟨bound, free⟩ := slot
  rcases insertEntry_entries { addr := a, origin := o, epoch := s.pack.epoch, slot := n } s.map.entries h.order with
    ⟨f, found, slots⟩ | ⟨absent, perm⟩
  · have same := slots (bound f found)
    refine ⟨order, same ▸ h.apart, fun e mem => ?_, store⟩
    rcases insertEntry_mem _ _ _ mem with rfl | mem
    · exact bound f found ▸ h.slots f (List.mem_of_find?_eq_some found)
    · exact h.slots e mem
  · obtain ⟨-, inStore, unbound, -⟩ := freeSlotFrom_some _ _ _ _ (free absent)
    have fresh : n ∉ s.map.entries.map (·.slot) := by
      rw [← slotBound_iff, unbound]
      simp
    refine ⟨order, (perm.map _).nodup_iff.2 (List.nodup_cons.2 ⟨fresh, h.apart⟩), fun e mem => ?_, store⟩
    rcases List.mem_cons.1 (perm.subset mem) with rfl | mem
    · simpa using inStore
    · exact h.slots e mem

theorem SubstMap.Wf.filter {m : SubstMap} (h : m.Wf) (keep : MapEntry → Bool) : ({ m with entries := m.entries.filter keep } : SubstMap).Wf :=
  ⟨filter_wf keep m.entries h.order, h.apart.sublist (List.filter_sublist.map _), fun e mem => h.slots e (List.mem_of_mem_filter mem),
    h.store⟩

theorem EngineAct.keeps_map {s t : State} (h : EngineAct s t) (wf : s.map.Wf) : t.map.Wf := by
  cases h with
  | unseen t same => show t.seen.map.Wf; rw [same]; exact wf
  | stores a o ws n slot unposted works => exact wf.putEntry slot o ws
  | _ => exact wf

theorem EngineActs.keeps_map {s t : State} (h : EngineActs s t) (wf : s.map.Wf) : t.map.Wf := by
  induction h with
  | refl => exact wf
  | tail _ act ih => exact act.keeps_map ih

theorem Act.keeps_map {s t : State} (h : Act s t) (wf : s.map.Wf) : t.map.Wf := by
  cases h with
  | engine t h => exact h.keeps_map wf
  | drives t granted same => show t.seen.map.Wf; rw [same]; exact wf
  | drops => rw [State.dropRequest_eq]; exact wf
  | abandons => rw [State.abandonSequence_eq]; exact wf
  | selects => rw [State.selectStatus_eq]; exact wf
  | handsBack r rest front =>
    rcases s.handBack_cases r with same | ⟨-, -, same⟩ | ⟨_, _, -, -, -, same⟩ <;> rw [same] <;> exact wf
  | unmaps keep => exact wf.filter keep
  | stores a o ws n slot serves unposted => exact wf.putEntry slot o ws
  | posts a ws serves room clear => rw [State.enterPost]; split <;> exact wf.filter _
  | _ => exact wf

/-- A map without entries has its form where it had it before. -/
theorem SubstMap.Wf.emptied {m : SubstMap} (h : m.Wf) : ({ m with entries := [] } : SubstMap).Wf :=
  ⟨rfl, List.nodup_nil, by simp, h.store⟩

theorem Turn.keeps_map {s t : State} (h : Turn s t) (wf : s.map.Wf) : t.map.Wf := by
  cases h with
  | act t h => exact h.keeps_map wf
  | speeds t b same => show t.seen.map.Wf; rw [same]; exact wf
  | loads t spinning same => show t.seen.map.Wf; rw [same]; exact wf
  | releases u h =>
    obtain ⟨v, w, before, -, left, after⟩ := h.ends
    have departed : v.map.Wf := before.keeps_map wf
    refine after.keeps_map ?_
    rcases left with rfl | ⟨_, _, -, -, rfl⟩ <;> exact departed
  | loses u serves unheld posts h live => exact (h.keeps_map wf).emptied
  | goes unserved ended => exact wf.emptied
  | _ => exact wf

theorem Move.keeps_mapWf {s t : State} (h : Move s t) (wf : s.mapWf = true) : t.mapWf = true := by
  rw [State.mapWf_iff] at wf ⊢
  cases h with
  | turn t h => exact h.keeps_map wf
  | _ => exact wf

/-! ## The Post Queue -/

theorem addressesApart_iff (l : List Addr) : addressesApart l = true ↔ l.Nodup := by
  induction l with
  | nil => simp [addressesApart]
  | cons a l ih => simp [addressesApart, ih]

/-- `State.postsWf` and `State.postsApartFromMap`, said of what they read: the entries, the map's entries, the awaited address and
whether a WRITE waits. -/
structure State.PostsApart (s : State) : Prop where
  room : s.posts.entries.length ≤ 8
  apart : (s.posts.entries.map (·.addr)).Nodup
  failed : ∀ p ∈ s.posts.entries, p.failed < 3
  unmapped : ∀ p ∈ s.posts.entries, s.entryAt p.addr = none
  awaited : ∀ a, s.ci.sequence = .awaitData a → s.postAt a = none ∧ s.writeWaits = false

theorem State.postsWf_iff (s : State) : s.postsWf = true ↔
    s.posts.entries.length ≤ 8 ∧ (s.posts.entries.map (·.addr)).Nodup ∧ ∀ p ∈ s.posts.entries, p.failed < 3 := by
  simp only [State.postsWf, Bool.and_eq_true, addressesApart_iff, List.all_eq_true, decide_eq_true_eq, and_assoc]
  rfl

theorem State.postsApart_iff (s : State) : s.postsWf = true ∧ s.postsApartFromMap = true ↔ s.PostsApart := by
  have clear : s.loadClear = true ↔ ∀ a, s.ci.sequence = .awaitData a → s.postAt a = none ∧ s.writeWaits = false := by
    unfold State.loadClear
    cases s.ci.sequence <;> simp
  rw [State.postsWf_iff, State.postsApartFromMap, Bool.and_eq_true, List.all_eq_true, clear]
  simp only [Option.isNone_iff_eq_none]
  exact ⟨fun ⟨⟨a, b, c⟩, d, e⟩ => ⟨a, b, c, d, e⟩, fun ⟨a, b, c, d, e⟩ => ⟨⟨a, b, c⟩, d, e⟩⟩

theorem State.postAt_eq_none (a : Addr) (s : State) : s.postAt a = none ↔ a ∉ s.posts.entries.map (·.addr) := by
  simp [State.postAt]

theorem State.entryAt_eq_none (a : Addr) (s : State) : s.entryAt a = none ↔ ∀ e ∈ s.map.entries, e.addr ≠ a := by
  simp [State.entryAt]

theorem State.PostsApart.congr {s t : State} (h : s.PostsApart) (posts : t.posts.entries = s.posts.entries)
    (map : t.map.entries = s.map.entries) (sequence : t.ci.sequence = s.ci.sequence)
    (waits : t.port.hold = s.port.hold ∨ t.port.hold = none) : t.PostsApart := by
  obtain ⟨room, apart, failed, unmapped, awaited⟩ := h
  have unwaited : s.writeWaits = false → t.writeWaits = false := by
    rcases waits with e | e <;> simp [State.writeWaits, e]
  refine ⟨posts ▸ room, posts ▸ apart, posts ▸ failed, fun p mem => ?_, fun a e => ?_⟩
  · rw [State.entryAt, map]
    exact unmapped p (posts ▸ mem)
  · rw [State.postAt, posts]
    exact ⟨(awaited a (sequence ▸ e)).1, unwaited (awaited a (sequence ▸ e)).2⟩

theorem State.PostsApart.putEntry {s : State} {a : Addr} (h : s.PostsApart) (o : Origin) (ws : List Word) (n : Nat)
    (unposted : s.postAt a = none) : (s.putEntry a o ws n).PostsApart := by
  refine { h with unmapped := fun p mem => (State.entryAt_eq_none _ _).2 fun e he => ?_ }
  rcases insertEntry_mem _ _ _ he with rfl | he
  · rintro rfl
    exact (State.postAt_eq_none _ _).1 unposted (List.mem_map_of_mem mem)
  · exact (State.entryAt_eq_none _ _).1 (h.unmapped p mem) e he

theorem State.PostsApart.unmap {s : State} (h : s.PostsApart) (keep : MapEntry → Bool) :
    ({ s with map := { s.map with entries := s.map.entries.filter keep } } : State).PostsApart :=
  { h with unmapped := fun p mem => (State.entryAt_eq_none _ _).2 fun e he =>
      (State.entryAt_eq_none _ _).1 (h.unmapped p mem) e (List.mem_of_mem_filter he) }

theorem State.PostsApart.thin {s : State} {l : List PostEntry} (h : s.PostsApart)
    (addresses : (l.map (·.addr)).Sublist (s.posts.entries.map (·.addr))) (failed : ∀ p ∈ l, p.failed < 3) :
    (s.withPosts l).PostsApart := by
  refine ⟨?_, h.apart.sublist addresses, failed, fun p mem => ?_, fun a e => ⟨?_, (h.awaited a e).2⟩⟩
  · have shorter := addresses.length_le
    simp only [List.length_map] at shorter
    exact shorter.trans h.room
  · obtain ⟨q, hq, same⟩ := List.mem_map.1 (addresses.subset (List.mem_map_of_mem mem))
    exact same ▸ h.unmapped q hq
  · exact (State.postAt_eq_none _ _).2 fun mem => (State.postAt_eq_none _ _).1 (h.awaited a e).1 (addresses.subset mem)

/-- Post entries changed in place keep their addresses. -/
theorem updatePost_addresses (a : Addr) (f : PostEntry → PostEntry) (same : ∀ p, (f p).addr = p.addr) (l : List PostEntry) :
    (updatePost a f l).map (·.addr) = l.map (·.addr) := by
  unfold updatePost
  rw [List.map_map]
  refine List.map_congr_left fun p _ => ?_
  show (if p.addr = a then f p else p).addr = p.addr
  split
  · exact same p
  · rfl

theorem updatePost_sublist (a : Addr) (f : PostEntry → PostEntry) (l : List PostEntry)
    (same : ∀ p, (f p).addr = p.addr := by exact fun _ => rfl) :
    ((updatePost a f l).map (·.addr)).Sublist (l.map (·.addr)) :=
  updatePost_addresses a f same l ▸ List.Sublist.refl _

theorem updatePost_failed {a : Addr} {f : PostEntry → PostEntry} {l : List PostEntry} (h : ∀ p ∈ l, p.failed < 3)
    (kept : ∀ p ∈ l, p.addr = a → (f p).failed < 3) : ∀ p ∈ updatePost a f l, p.failed < 3 := by
  intro p mem
  obtain ⟨q, hq, rfl⟩ := List.mem_map.1 mem
  split
  · next here => exact kept q hq here
  · exact h q hq

theorem State.PostsApart.enter {s : State} {a : Addr} (h : s.PostsApart) (ws : List Word) (room : s.postHasRoom a = true)
    (clear : s.ci.sequence = .ready ∨ s.writeWaits = true) : (s.enterPost a ws).PostsApart := by
  have unawaited (b : Addr) : s.ci.sequence ≠ .awaitData b := by
    intro e
    rcases clear with ready | waits
    · simp [ready] at e
    · simp [(h.awaited b e).2] at waits
  unfold State.enterPost
  split
  · have merged := h.thin (l := updatePost a (PostEntry.merge ws) s.posts.entries)
      (updatePost_sublist a _ _)
      (updatePost_failed h.failed fun p mem _ => h.failed p mem)
    exact merged.unmap _
  · next fresh =>
    have fresh : s.postAt a = none := by simpa using fresh
    have space : s.posts.entries.length < 8 := by
      rw [State.postHasRoom, fresh] at room
      exact of_decide_eq_true room
    refine ⟨?_, ?_, ?_, ?_, fun b e => absurd e (unawaited b)⟩
    · simpa [State.removeEntry, State.withPosts] using space
    · simp only [State.removeEntry, State.withPosts, List.map_append, List.map_cons, List.map_nil]
      refine List.nodup_append.2 ⟨h.apart, List.nodup_singleton _, fun x hx y hy same => ?_⟩
      obtain rfl := List.mem_singleton.1 hy
      exact (State.postAt_eq_none _ _).1 fresh (same ▸ hx)
    · intro p mem
      rcases List.mem_append.1 mem with mem | mem
      · exact h.failed p mem
      · rw [List.mem_singleton.1 mem]
        exact Nat.succ_pos _
    · intro p mem
      refine (State.entryAt_eq_none _ _).2 fun e he => ?_
      obtain ⟨he, other⟩ := List.mem_filter.1 he
      rcases List.mem_append.1 mem with mem | mem
      · exact (State.entryAt_eq_none _ _).1 (h.unmapped p mem) e he
      · rw [List.mem_singleton.1 mem]
        have apart : e.addr ≠ a := by simpa using other
        exact apart

theorem EngineAct.keeps_posts {s t : State} (h : EngineAct s t) (wf : s.PostsApart) : t.PostsApart := by
  cases h with
  | unseen t same =>
    exact wf.congr (congrArg Seen.posts same) (congrArg (fun v => v.map.entries) same) (congrArg Seen.sequence same)
      (.inl (congrArg (fun v => v.port.hold) same))
  | answers st data held => exact wf.congr rfl rfl rfl (.inr rfl)
  | stores a o ws n slot unposted works => exact wf.putEntry o ws n unposted
  | _ => exact wf.congr rfl rfl rfl (.inl rfl)

theorem EngineActs.keeps_posts {s t : State} (h : EngineActs s t) (wf : s.PostsApart) : t.PostsApart := by
  induction h with
  | refl => exact wf
  | tail _ act ih => exact act.keeps_posts ih

theorem Act.keeps_posts {s t : State} (h : Act s t) (wf : s.PostsApart) : t.PostsApart := by
  cases h with
  | engine t h => exact h.keeps_posts wf
  | drives t granted same =>
    exact wf.congr (congrArg Seen.posts same) (congrArg (fun v => v.map.entries) same) (congrArg Seen.sequence same)
      (.inl (congrArg (fun v => v.port.hold) same))
  | drops => rw [State.dropRequest_eq]; exact wf.congr rfl rfl rfl (.inr rfl)
  | abandons =>
    rw [State.abandonSequence]
    split
    · exact wf
    · exact { wf with awaited := by simp }
  | selects => rw [State.selectStatus_eq]; exact wf.congr rfl rfl rfl (.inl rfl)
  | answers => exact wf.congr rfl rfl rfl (.inr rfl)
  | waits a ws d serves free ready => exact { wf with awaited := by simp [ready] }
  | holds a data d g serves stage granted => exact { wf with awaited := fun a e => ⟨(wf.awaited a e).1, rfl⟩ }
  | handsBack r rest front =>
    rcases s.handBack_cases r with same | ⟨-, -, same⟩ | ⟨_, _, -, -, -, same⟩ <;> rw [same]
    · exact wf.congr rfl rfl rfl (.inl rfl)
    · exact wf.congr rfl rfl rfl (.inr rfl)
    · exact wf.congr rfl rfl rfl (.inl rfl)
  | unmaps keep => exact wf.unmap keep
  | stores a o ws n slot serves unposted =>
    exact wf.putEntry o ws n (unposted.elim id fun e => (wf.awaited a e).1)
  | thins l addresses failed => exact wf.thin addresses (failed (s.postsWf_iff.2 ⟨wf.room, wf.apart, wf.failed⟩))
  | posts a ws serves room clear => exact wf.enter ws room clear
  | readies => exact { wf with awaited := by simp }
  | awaitsData a unposted unheld =>
    refine { wf with awaited := fun b e => ?_ }
    cases e
    exact ⟨unposted, by simp [State.writeWaits, unheld]⟩
  | awaitsConfirm code listed => exact { wf with awaited := by simp }
  | _ => exact wf.congr rfl rfl rfl (.inl rfl)

theorem State.PostsApart.emptied {s : State} (h : s.PostsApart) : s.packGone.PostsApart :=
  ⟨h.room, h.apart, h.failed, fun _ _ => rfl, h.awaited⟩

theorem Turn.keeps_posts {s t : State} (h : Turn s t) (wf : s.PostsApart) : t.PostsApart := by
  cases h with
  | act t h => exact h.keeps_posts wf
  | speeds t b same =>
    exact wf.congr (congrArg Seen.posts same) (congrArg (fun v => v.map.entries) same) (congrArg Seen.sequence same)
      (.inl (congrArg (fun v => v.port.hold) same))
  | loads t spinning same =>
    exact wf.congr (congrArg Seen.posts same) (congrArg (fun v => v.map.entries) same) (congrArg Seen.sequence same)
      (.inl (congrArg (fun v => v.port.hold) same))
  | releases u h =>
    obtain ⟨v, w, before, -, left, after⟩ := h.ends
    have departed : v.PostsApart := before.keeps_posts (wf.congr rfl rfl rfl (.inl rfl))
    refine after.keeps_posts ?_
    rcases left with rfl | ⟨_, _, -, -, rfl⟩
    · exact departed
    · exact departed.congr rfl rfl rfl (.inl rfl)
  | loses u serves unheld posts h live => exact (h.keeps_posts (wf.congr rfl rfl rfl (.inl rfl))).emptied
  | goes unserved ended => exact wf.emptied
  | _ => exact wf.congr rfl rfl rfl (.inl rfl)

theorem Move.keeps_postsWf {s t : State} (h : Move s t) (wf : s.postsWf = true ∧ s.postsApartFromMap = true) :
    t.postsWf = true ∧ t.postsApartFromMap = true := by
  rw [State.postsApart_iff] at wf ⊢
  cases h with
  | turn t h => exact h.keeps_posts wf
  | _ => exact wf.congr rfl rfl rfl (.inl rfl)

end Sys2Proof.Machine
end

