-- ==== Sys2Proof/Proofs/QueuesAndDrive.lean ====
section
/-! The form of the Recovery Queue and the Result Queue, the emptiness without a pack, and the sequencer with its requests, through every
move. -/

namespace Sys2Proof.Machine

/-! ## The Recovery Queue and the Result Queue (R113, R114, R119 to R122, R130, R134) -/

/-- The form of a state's queues. -/
abbrev State.WellQueued (s : State) : Prop := s.engine.WellQueued s.results.length (s.pack.state = .unloading)

section
variable {e e' : Engine} {records : Nat} {unloading unloading' : Prop}

/-- Flags and hold reasons changed, the window closed at most. -/
theorem Engine.WellQueued.flagged (h : e.WellQueued records unloading) (active : e'.active = e.active) (parked : e'.parked = e.parked)
    (ending : e'.ending = e.ending) (queued : e'.queued = e.queued) (window : e'.window = none ∨ e'.window = e.window)
    (banks : e'.banks = e.banks) : e'.WellQueued records unloading := by
  have placed : e'.placed = e.placed := by simp only [Engine.placed, active, parked, ending]
  refine h.shrunk (.inr active) (.inr parked) (.inr ending) (queued ▸ List.Sublist.refl _) window (banks ▸ rfl) (banks ▸ h.tables) ?_
  rw [placed]
  exact h.places

/-- The pack moved on, with no job left ENDING unless it is UNLOADING. -/
theorem Engine.WellQueued.movesOn (h : e.WellQueued records unloading) (ending : e.ending = none ∨ unloading') :
    e.WellQueued records unloading' :=
  ⟨h.room, h.tracks, h.placed, h.queued, h.apart, h.order, h.batch, h.places, ending, h.banks, h.tables⟩

/-- The pack moved on from a state that is not UNLOADING. -/
theorem Engine.WellQueued.leaves (h : e.WellQueued records unloading) (loaded : ¬ unloading) : e.WellQueued records unloading' :=
  h.movesOn (.inl (h.ending.resolve_right loaded))

end

theorem EngineAct.keeps_queues {s t : State} (h : EngineAct s t) (wf : s.WellQueued) : t.WellQueued := by
  cases h with
  | unseen t same =>
    have engine : t.engine = s.engine := congrArg Seen.engine same
    have results : t.results = s.results := congrArg Seen.results same
    have pack : t.pack = s.pack := congrArg Seen.pack same
    rw [State.WellQueued, engine, results, pack]
    exact wf
  | queues e records h => exact h.wellQueued wf
  | _ => exact wf

theorem EngineActs.keeps_queues {s t : State} (h : EngineActs s t) (wf : s.WellQueued) : t.WellQueued := by
  induction h with
  | refl => exact wf
  | tail _ act ih => exact act.keeps_queues ih

theorem Act.keeps_queues {s t : State} (h : Act s t) (wf : s.WellQueued) : t.WellQueued := by
  cases h with
  | engine t h => exact h.keeps_queues wf
  | drives t granted same =>
    have engine : t.engine = s.engine := congrArg Seen.engine same
    have results : t.results = s.results := congrArg Seen.results same
    have pack : t.pack = s.pack := congrArg Seen.pack same
    rw [State.WellQueued, engine, results, pack]
    exact wf
  | drops => rw [State.dropRequest_eq]; exact wf
  | abandons => rw [State.abandonSequence_eq]; exact wf
  | selects => rw [State.selectStatus_eq]; exact wf
  | handsBack r rest front =>
    rcases s.handBack_cases r with same | ⟨-, -, same⟩ | ⟨_, _, -, -, -, same⟩ <;> rw [same] <;> exact wf
  | posts a ws serves room clear => rw [State.enterPost]; split <;> exact wf
  | _ => exact wf

/-- With the pack served no job is left ENDING. -/
theorem State.WellQueued.none_ending {s : State} (h : s.WellQueued) (loaded : s.pack.state ≠ .unloading) : s.engine.ending = none :=
  h.ending.resolve_right loaded

theorem State.WellQueued.departed {s : State} (h : s.WellQueued) : s.departed.WellQueued :=
  h.flagged rfl rfl rfl rfl (.inl rfl) rfl

theorem serves_loaded {p : PackState} (h : packServes p = true) : p ≠ .unloading := by
  simpa using serves_not_unloading p h

theorem EngineActs.pack {s t : State} (h : EngineActs s t) : t.pack = s.pack := congrArg Seen.pack h.frame

theorem Turn.keeps_queues {s t : State} (h : Turn s t) (wf : s.WellQueued) : t.WellQueued := by
  cases h with
  | act t h => exact h.keeps_queues wf
  | disarms => exact wf
  | arms serves => exact wf
  | speeds t b same =>
    have engine : t.engine = { s.engine with speed := b } := congrArg Seen.engine same
    have results : t.results = s.results := congrArg Seen.results same
    have pack : t.pack = s.pack := congrArg Seen.pack same
    rw [State.WellQueued, engine, results, pack]
    exact wf.flagged rfl rfl rfl rfl (.inr rfl) rfl
  | spinsUp n short => exact wf
  | loads t spinning same =>
    have engine : t.engine = { s.engine with noPack := false } := congrArg Seen.engine same
    have results : t.results = s.results := congrArg Seen.results same
    rw [State.WellQueued, engine, results]
    exact (wf.leaves (by simp [spinning])).flagged rfl rfl rfl rfl (.inr rfl) rfl
  | rises gone => exact wf.leaves (by simp [gone])
  | pends n loaded => exact wf.leaves (by simp [loaded])
  | permits pending => exact wf
  | releases u h =>
    obtain ⟨v, w, before, unchanged, left, after⟩ := h.ends
    have departed : s.departed.assertRelease.WellQueued := wf.departed.movesOn (.inr rfl)
    have unloading : v.pack.state = .unloading := congrArg Pack.state before.pack
    refine after.keeps_queues ?_
    rcases left with rfl | ⟨j, k, active, same, rfl⟩
    · exact before.keeps_queues departed
    · refine (before.keeps_queues departed).leavesEnding active ?_ unloading same
      rw [unchanged]
      exact wf.none_ending h.loaded
  | loses u serves unheld posts h live =>
    have loaded : u.pack.state ≠ .unloading := by
      rw [h.pack]
      exact serves_loaded serves
    exact ((h.keeps_queues wf.departed).leaves loaded).flagged rfl rfl rfl rfl (.inr rfl) rfl
  | goes unserved ended =>
    have none : s.engine.ending = none := wf.ending.elim id ended
    exact (wf.movesOn (.inl none)).flagged rfl rfl rfl rfl (.inr rfl) rfl

theorem Move.keeps_queuesWf {s t : State} (h : Move s t) (wf : s.queuesWf = true) : t.queuesWf = true := by
  rw [State.queuesWf_iff] at wf ⊢
  cases h with
  | turn t h => exact h.keeps_queues wf
  | mode m => exact wf.flagged rfl rfl rfl rfl (.inr rfl) rfl
  | _ => exact wf

/-! ## Nothing kept without a pack (R22, R55, R69, R134) -/

/-- `State.emptyWithoutPack`. -/
structure State.EmptyWithoutPack (s : State) : Prop where
  unserved : packServes s.pack.state = false → s.posts.entries = [] ∧ s.port.hold = none ∧ s.engine.liveJobs = []
  gone : packServes s.pack.state = false → s.pack.state ≠ .unloading → s.map.entries = [] ∧ s.engine.ending = none

theorem State.emptyWithoutPack_iff (s : State) : s.emptyWithoutPack = true ↔ s.EmptyWithoutPack := by
  have live : s.engine.liveJobs = [] ↔ s.engine.active = none ∧ s.engine.parked = none ∧ s.engine.queued = [] := by
    simp [Engine.liveJobs]
  unfold State.emptyWithoutPack
  simp only [Bool.and_eq_true, Bool.or_eq_true, List.isEmpty_iff, Option.isNone_iff_eq_none, and_assoc, or_assoc, beq_iff_eq]
  refine ⟨fun ⟨unserved, gone⟩ => ⟨fun e => ?_, fun e loaded => ?_⟩, fun ⟨unserved, gone⟩ => ⟨?_, ?_⟩⟩
  · rw [live]
    exact unserved.resolve_left (by simp [e])
  · exact (gone.resolve_left (by simp [e])).resolve_left loaded
  · rw [live] at unserved
    rw [or_iff_not_imp_left, Bool.not_eq_true]
    exact unserved
  · rw [or_iff_not_imp_left, Bool.not_eq_true, or_iff_not_imp_left]
    exact gone

theorem State.EmptyWithoutPack.of_serves {s : State} (h : packServes s.pack.state = true) : s.EmptyWithoutPack :=
  ⟨fun e => by simp [e] at h, fun e => by simp [e] at h⟩

/-- What the emptiness reads may shrink. -/
theorem State.EmptyWithoutPack.shrunk {s t : State} (h : s.EmptyWithoutPack) (pack : t.pack.state = s.pack.state)
    (posts : s.posts.entries = [] → t.posts.entries = []) (hold : s.port.hold = none → t.port.hold = none)
    (map : s.map.entries = [] → t.map.entries = []) (live : s.engine.liveJobs = [] → t.engine.liveJobs = [])
    (ending : s.engine.ending = none → t.engine.ending = none) : t.EmptyWithoutPack := by
  refine ⟨fun e => ?_, fun e loaded => ?_⟩
  · obtain ⟨noPosts, noHold, noJobs⟩ := h.unserved (pack ▸ e)
    exact ⟨posts noPosts, hold noHold, live noJobs⟩
  · obtain ⟨noEntries, noEnding⟩ := h.gone (pack ▸ e) (pack ▸ loaded)
    exact ⟨map noEntries, ending noEnding⟩

theorem State.EmptyWithoutPack.alike {s t : State} (h : s.EmptyWithoutPack) (pack : t.pack.state = s.pack.state)
    (posts : t.posts.entries = s.posts.entries) (hold : t.port.hold = s.port.hold) (map : t.map.entries = s.map.entries)
    (live : t.engine.liveJobs = s.engine.liveJobs) (ending : t.engine.ending = s.engine.ending) : t.EmptyWithoutPack :=
  h.shrunk pack posts.trans hold.trans map.trans live.trans ending.trans

theorem EngineAct.keeps_empty {s t : State} (h : EngineAct s t) (wf : s.EmptyWithoutPack) : t.EmptyWithoutPack := by
  cases h with
  | unseen t same =>
    exact wf.alike (congrArg (fun v => v.pack.state) same) (congrArg Seen.posts same) (congrArg (fun v => v.port.hold) same)
      (congrArg (fun v => v.map.entries) same) (congrArg (fun v => v.engine.liveJobs) same) (congrArg (fun v => v.engine.ending) same)
  | sets e => exact wf.shrunk rfl id id id id id
  | answers st data held => exact wf.shrunk rfl id (fun _ => rfl) id id id
  | stores a o ws n slot unposted works =>
    refine ⟨wf.unserved, fun e loaded => absurd ?_ works⟩
    obtain ⟨-, -, live⟩ := wf.unserved e
    obtain ⟨-, ending⟩ := wf.gone e loaded
    simpa [Engine.liveJobs, Engine.jobs, Engine.placed, ending] using live
  | queues e records h =>
    refine ⟨fun u => ?_, fun u loaded => ?_⟩
    · obtain ⟨noPosts, noHold, noJobs⟩ := wf.unserved u
      exact ⟨noPosts, noHold, (h.live noJobs).resolve_right (by simpa using u)⟩
    · obtain ⟨noEntries, noEnding⟩ := wf.gone u loaded
      exact ⟨noEntries, (h.ending noEnding).resolve_right loaded⟩

theorem EngineActs.keeps_empty {s t : State} (h : EngineActs s t) (wf : s.EmptyWithoutPack) : t.EmptyWithoutPack := by
  induction h with
  | refl => exact wf
  | tail _ act ih => exact act.keeps_empty ih

theorem EngineActs.none_ending {s t : State} (h : EngineActs s t) (ended : s.engine.ending = none) (loaded : s.pack.state ≠ .unloading) :
    t.engine.ending = none := by
  induction h with
  | refl => exact ended
  | tail acts act ih =>
    cases act with
    | unseen t same => exact (congrArg (fun v => v.engine.ending) same).trans ih
    | queues e records h => exact (h.ending ih).resolve_right (by rwa [EngineActs.pack acts])
    | _ => exact ih

theorem Act.keeps_empty {s t : State} (h : Act s t) (wf : s.EmptyWithoutPack) : t.EmptyWithoutPack := by
  cases h with
  | engine t h => exact h.keeps_empty wf
  | drives t granted same =>
    exact wf.alike (congrArg (fun v => v.pack.state) same) (congrArg Seen.posts same) (congrArg (fun v => v.port.hold) same)
      (congrArg (fun v => v.map.entries) same) (congrArg (fun v => v.engine.liveJobs) same) (congrArg (fun v => v.engine.ending) same)
  | drops => rw [State.dropRequest_eq]; exact wf.shrunk rfl id (fun _ => rfl) id id id
  | abandons => rw [State.abandonSequence_eq]; exact wf.shrunk rfl id id id id id
  | selects => rw [State.selectStatus_eq]; exact wf.shrunk rfl id id id id id
  | answers => exact wf.shrunk rfl id (fun _ => rfl) id id id
  | waits a ws d serves => exact .of_serves serves
  | holds a data d g serves => exact .of_serves serves
  | handsBack r rest front =>
    rcases s.handBack_cases r with same | ⟨-, -, same⟩ | ⟨_, _, -, -, -, same⟩ <;> rw [same]
    · exact wf.shrunk rfl id id id id id
    · exact wf.shrunk rfl id (fun _ => rfl) id id id
    · exact wf.shrunk rfl id id id id id
  | unmaps keep => exact wf.shrunk rfl id id (fun none => congrArg (List.filter keep) none) id id
  | stores a o ws n slot serves => exact .of_serves serves
  | thins l addresses failed =>
    refine wf.shrunk rfl (fun none => ?_) id id id id
    rw [none] at addresses
    exact List.map_eq_nil_iff.1 (List.sublist_nil.1 addresses)
  | posts a ws serves room clear =>
    have served : packServes s.pack.state = true := by
      refine serves.elim id fun waits => Bool.of_not_eq_false fun unserved => ?_
      simp [State.writeWaits, (wf.unserved unserved).2.1] at waits
    have state : packServes (s.enterPost a ws).pack.state = true := by
      rw [State.enterPost]
      split <;> exact served
    exact .of_serves state
  | _ => exact wf.shrunk rfl id id id id id

theorem Turn.keeps_empty {s t : State} (h : Turn s t) (queues : s.WellQueued) (wf : s.EmptyWithoutPack) : t.EmptyWithoutPack := by
  cases h with
  | act t h => exact h.keeps_empty wf
  | speeds t b same =>
    exact wf.alike (congrArg (fun v => v.pack.state) same) (congrArg Seen.posts same) (congrArg (fun v => v.port.hold) same)
      (congrArg (fun v => v.map.entries) same) (congrArg (fun v => v.engine.liveJobs) same) (congrArg (fun v => v.engine.ending) same)
  | loads t spinning same =>
    have state : t.pack.state = .loaded := congrArg (fun v => v.pack.state) same
    exact .of_serves (by rw [state]; rfl)
  | rises gone =>
    have unserved : packServes s.pack.state = false := by rw [gone]; rfl
    exact ⟨fun _ => wf.unserved unserved, fun _ _ => wf.gone unserved (by simp [gone])⟩
  | pends n loaded => exact .of_serves rfl
  | releases u h =>
    obtain ⟨v, w, before, -, left, after⟩ := h.ends
    have leaves : w.seen = { v.seen with engine := w.engine } := by
      rcases left with rfl | ⟨_, _, -, -, rfl⟩ <;> rfl
    have port (x y : State) (acts : EngineActs x y) (unheld : x.port.hold = none) : y.port.hold = none := by
      rw [acts.port_unheld unheld, unheld]
    have posts : t.posts.entries = s.posts.entries := by
      calc t.posts.entries = w.posts.entries := congrArg Seen.posts after.frame
        _ = v.posts.entries := congrArg Seen.posts leaves
        _ = s.posts.entries := congrArg Seen.posts before.frame
    have pack : t.pack.state = .unloading := by
      calc t.pack.state = w.pack.state := congrArg Pack.state after.pack
        _ = v.pack.state := congrArg (fun x => x.pack.state) leaves
        _ = .unloading := congrArg Pack.state before.pack
    have hold : w.port.hold = none := (congrArg (fun x => x.port.hold) leaves).trans (port _ _ before h.unheld)
    refine ⟨fun _ => ⟨?_, port _ _ after hold, h.live⟩, fun _ loaded => absurd pack loaded⟩
    rw [posts]
    cases serves : packServes s.pack.state with
    | true => exact h.posts serves
    | false => exact (wf.unserved serves).1
  | loses u serves unheld posts h live =>
    have unheld : u.port.hold = none := by rw [h.port_unheld unheld]; exact unheld
    have noPosts : u.posts.entries = [] := (congrArg Seen.posts h.frame).trans posts
    have loaded := serves_loaded serves
    exact ⟨fun _ => ⟨noPosts, unheld, live⟩, fun _ _ => ⟨rfl, h.none_ending (queues.none_ending loaded) loaded⟩⟩
  | goes unserved ended =>
    refine ⟨fun _ => wf.unserved unserved, fun _ _ => ⟨rfl, ?_⟩⟩
    exact queues.ending.elim id ended
  | _ => exact wf.shrunk rfl id id id id id

theorem Move.keeps_emptyWithoutPack {s t : State} (h : Move s t) (queues : s.queuesWf = true) (wf : s.emptyWithoutPack = true) :
    t.emptyWithoutPack = true := by
  rw [State.emptyWithoutPack_iff] at wf ⊢
  rw [State.queuesWf_iff] at queues
  cases h with
  | turn t h => exact h.keeps_empty queues wf
  | _ => exact wf.shrunk rfl id id id id id

end Sys2Proof.Machine
end

