-- ==== Sys2Proof/Proofs/DriveForm.lean ====
section
/-! The grant with its activity, each client's request with what it serves, and a hold with its held request (R2, R17, R79, R80, R172),
through every move. -/

namespace Sys2Proof.Machine

/-- How many requests of a client stand. -/
def countOf (c : Client) (l : List ControllerRequest) : Nat := (l.filter (fun r => r.client == c)).length

theorem countOf_cons (c : Client) (r : ControllerRequest) (l : List ControllerRequest) :
    countOf c (r :: l) = (if r.client = c then 1 else 0) + countOf c l := by
  unfold countOf
  by_cases h : r.client = c
  · simp [h, Nat.add_comm]
  · simp [h]

theorem countOf_append (c : Client) (l l' : List ControllerRequest) : countOf c (l ++ l') = countOf c l + countOf c l' := by
  simp [countOf]

/-- The requests of one client withdrawn are gone, those of the other stay. -/
theorem countOf_filter (c : Client) (keep : Client → Bool) (l : List ControllerRequest) :
    countOf c (l.filter (fun r => keep r.client)) = if keep c then countOf c l else 0 := by
  induction l with
  | nil => simp [countOf]
  | cons r l ih =>
    rw [List.filter_cons]
    by_cases same : r.client = c
    · split <;> simp_all [countOf_cons]
    · split <;> simp_all [countOf_cons]

def Seen.stage (v : Seen) : Option Stage := v.port.outstanding.map (·.stage)

/-- `State.driveWf`, said of what is seen. -/
structure Seen.DriveWf (v : Seen) : Prop where
  working : v.granted = v.working
  kinds : ∀ r ∈ v.requests, r.wf = true
  port : countOf .port v.requests = if v.stage = some .standing then 1 else 0
  asks : countOf .commandInterface v.requests = if v.asksDrive then 1 else 0
  hold : v.port.hold.isSome = (v.stage == some .held)

theorem State.driveWf_iff (s : State) : s.driveWf = true ↔ s.seen.DriveWf := by
  simp only [State.driveWf, Bool.and_eq_true, List.all_eq_true, beq_iff_eq, and_assoc]
  exact ⟨fun ⟨a, b, c, d, e⟩ => ⟨a, b, c, d, e⟩, fun ⟨a, b, c, d, e⟩ => ⟨a, b, c, d, e⟩⟩

section
variable {v : Seen}

/-- With a request that has been granted, or none, the Controller Port has none standing. -/
theorem Seen.DriveWf.none_standing (h : v.DriveWf) (granted : v.stage ≠ some .standing) : countOf .port v.requests = 0 := by
  rw [h.port, if_neg granted]

/-- The outstanding request is answered: it stood at a stage past its grant. -/
theorem Seen.DriveWf.answered (h : v.DriveWf) (granted : v.stage ≠ some .standing) :
    ({ v with port := { v.port with outstanding := none, hold := none } } : Seen).DriveWf :=
  { h with port := h.none_standing granted, hold := rfl }

/-- A hold stands only with a held request. -/
theorem Seen.DriveWf.unheld (h : v.DriveWf) (g : Stage) (stage : v.stage = some g) (other : g ≠ .held) : v.port.hold = none := by
  have hold := h.hold
  rw [stage, show (some g == some Stage.held) = false by simpa using other] at hold
  exact Option.not_isSome_iff_eq_none.1 (by simp [hold])

end

theorem EngineAct.keeps_drive {s t : State} (h : EngineAct s t) (wf : s.seen.DriveWf) : t.seen.DriveWf := by
  cases h with
  | unseen t same => rw [same]; exact wf
  | answers st data held =>
    refine wf.answered fun standing => ?_
    have hold := wf.hold
    rw [standing] at hold
    exact absurd (held.symm.trans hold) (by simp)
  | _ => exact { wf with }

theorem EngineActs.keeps_drive {s t : State} (h : EngineActs s t) (wf : s.seen.DriveWf) : t.seen.DriveWf := by
  induction h with
  | refl => exact wf
  | tail _ act ih => exact act.keeps_drive ih

/-- A request taken from the front of the queue. -/
theorem Seen.DriveWf.front {v : Seen} {r : ControllerRequest} {rest : List ControllerRequest} (h : v.DriveWf) (front : v.requests = r :: rest) :
    (∀ q ∈ rest, q.wf = true) ∧
      (r.client = .port → v.stage = some .standing ∧ countOf .port rest = 0 ∧
        countOf .commandInterface rest = if v.asksDrive then 1 else 0) ∧
      (r.client = .commandInterface → v.asksDrive = true ∧ countOf .commandInterface rest = 0 ∧
        countOf .port rest = if v.stage = some .standing then 1 else 0) := by
  obtain ⟨-, kinds, port, asks, -⟩ := h
  rw [front] at kinds port asks
  rw [countOf_cons] at port asks
  refine ⟨fun q mem => kinds q (List.mem_cons_of_mem _ mem), fun client => ?_, fun client => ?_⟩
  · rw [client] at port asks
    by_cases standing : v.stage = some .standing <;> simp_all
  · rw [client] at port asks
    cases asked : v.asksDrive <;> simp_all

/-- The Controller Port's request dropped: none stands, and the Command Interface's stays (R2). -/
theorem countOf_requestsKept (s : State) (wf : s.seen.DriveWf) :
    countOf .port (s.requestsKept false) = 0 ∧
      countOf .commandInterface (s.requestsKept false) = countOf .commandInterface s.drive.requests := by
  have kept : s.requestsKept false = s.drive.requests.filter (fun r => !(r.client == .port && s.stage == some .standing)) := by
    simp [State.requestsKept]
  rw [kept, countOf_filter _ (fun c => !(c == .port && s.stage == some .standing)),
    countOf_filter _ (fun c => !(c == .port && s.stage == some .standing))]
  refine ⟨?_, by simp⟩
  by_cases standing : s.stage = some .standing
  · simp [standing]
  · have unasked : countOf .port s.drive.requests = 0 := wf.none_standing standing
    simp [standing, unasked]

/-- The Controller Port's standing request handed back is answered NOT_READY (R80). -/
theorem State.handBack_port {s : State} {r : ControllerRequest} (client : r.client = .port) (standing : s.stage = some .standing) :
    s.handBack r = s.finishRequest .notReady [] := by
  simp [State.handBack, client, State.answerAt, standing]

/-- The Command Interface's standing request handed back fills its reply (R80, R172). -/
theorem State.handBack_read {s : State} {r : ControllerRequest} (client : r.client = .commandInterface) (kind : r.wf = true)
    (asked : s.asksDrive = true) : ∃ q, q.driveRead = none ∧ s.handBack r = s.withReply (some q) := by
  obtain ⟨q, reply, unread⟩ : ∃ q, s.ci.reply = some q ∧ q.driveRead = some false := by
    unfold State.asksDrive at asked
    cases reply : s.ci.reply <;> simp_all
  obtain ⟨a, work⟩ : ∃ a, r.work = .driveSector a := by
    unfold ControllerRequest.wf at kind
    rw [client] at kind
    cases work : r.work <;> simp_all
  have filled : s.handBack r = s.withReply (some { q with
      ready := true
      contents := driveSectorContents a notReadyWord [0, 0, 0] (fitWords (s.geom.words + 1) [])
      parts := 2
      pointer := 0
      driveRead := none }) := by
    simp [State.handBack, client, work, State.fillDriveReplyEmpty, State.fillDriveReply, reply, unread]
  exact ⟨_, rfl, filled⟩

theorem Act.keeps_drive {s t : State} (h : Act s t) (wf : s.seen.DriveWf) : t.seen.DriveWf := by
  cases h with
  | engine t h => exact h.keeps_drive wf
  | drives t granted same => rw [same]; exact { wf with working := rfl }
  | drops =>
    obtain ⟨port, asks⟩ := countOf_requestsKept s wf
    rw [State.dropRequest_eq]
    exact { wf with kinds := fun r mem => wf.kinds r (List.mem_of_mem_filter mem), port := port, asks := asks.trans wf.asks, hold := rfl }
  | abandons =>
    rw [State.abandonSequence]
    split
    · exact wf
    · exact { wf with }
  | selects =>
    have keeps (c : Client) := countOf_filter c (fun c => !(c == .commandInterface && s.asksDrive)) s.drive.requests
    have port := keeps .port
    have asks := keeps .commandInterface
    rw [State.selectStatus_eq]
    refine { wf with kinds := fun r mem => wf.kinds r (List.mem_of_mem_filter mem), port := port.trans wf.port, asks := asks.trans ?_ }
    have asked : countOf .commandInterface s.drive.requests = if s.asksDrive then 1 else 0 := wf.asks
    rw [asked]
    cases s.asksDrive <;> rfl
  | answers st data g stage granted =>
    exact wf.answered fun standing => granted (Option.some.inj (stage.symm.trans standing))
  | requests o w free unheld kind =>
    have idle : s.seen.stage ≠ some .standing := by simp [Seen.stage, State.seen, free]
    have port : countOf .port s.drive.requests = 0 := wf.none_standing idle
    have asks : countOf .commandInterface s.drive.requests = _ := wf.asks
    refine { wf with kinds := fun r mem => ?_, port := ?_, asks := ?_, hold := ?_ }
    · exact (List.mem_append.1 mem).elim (wf.kinds r) (fun mem => List.mem_singleton.1 mem ▸ kind)
    · exact (countOf_append _ _ _).trans (by rw [port]; rfl)
    · exact (countOf_append _ _ _).trans asks
    · exact congrArg Option.isSome unheld
  | rides o free unheld =>
    have idle : s.seen.stage ≠ some .standing := by simp [Seen.stage, State.seen, free]
    exact { wf with port := wf.none_standing idle, hold := congrArg Option.isSome unheld }
  | waits a ws d serves free ready =>
    have idle : s.seen.stage ≠ some .standing := by simp [Seen.stage, State.seen, free]
    exact { wf with port := wf.none_standing idle, hold := rfl }
  | holds a data d g serves stage granted =>
    have past : s.seen.stage ≠ some .standing := fun standing => granted (Option.some.inj (stage.symm.trans standing))
    obtain ⟨o, outstanding, -⟩ := Option.map_eq_some_iff.1 stage
    refine { wf with port := (wf.none_standing past).trans ?_, hold := ?_ } <;> simp [Seen.stage, State.seen, outstanding]
  | clears stage =>
    have past : s.seen.stage ≠ some .standing := fun standing => by cases stage.symm.trans standing
    have unheld := wf.unheld .working stage (by decide)
    obtain ⟨o, outstanding, -⟩ := Option.map_eq_some_iff.1 stage
    refine { wf with port := (wf.none_standing past).trans ?_, hold := (congrArg Option.isSome unheld).trans ?_ } <;>
      simp [Seen.stage, State.seen, State.setStage, outstanding]
  | grantsPort w rest g front granted unheld =>
    obtain ⟨kinds, port, -⟩ := wf.front front
    obtain ⟨standing, none, asks⟩ := port rfl
    have free := wf.unheld .standing standing (by decide)
    obtain ⟨o, outstanding, -⟩ := Option.map_eq_some_iff.1 standing
    have outstanding : s.port.outstanding = some o := outstanding
    refine { wf with kinds := kinds, port := none.trans ?_, asks := asks, hold := (congrArg Option.isSome free).trans ?_ } <;>
      simp [Seen.stage, State.seen, State.setStage, outstanding, granted, unheld]
  | grantsRead w rest front =>
    obtain ⟨kinds, -, read⟩ := wf.front front
    obtain ⟨-, none, port⟩ := read rfl
    have unasked : (State.markDriveReply { s with drive := { s.drive with requests := rest } }).asksDrive = false := by
      simp only [State.asksDrive, State.markDriveReply, State.withReply]
      cases s.ci.reply with
      | none => rfl
      | some q => cases asked : q.driveRead <;> simp [asked]
    exact { wf with kinds := kinds, port := port, asks := none.trans (by rw [State.seen, unasked]; rfl) }
  | handsBack r rest front =>
    obtain ⟨kinds, port, read⟩ := wf.front front
    cases client : r.client with
    | port =>
      obtain ⟨standing, none, asks⟩ := port client
      rw [State.handBack_port client standing]
      exact { wf with kinds := kinds, port := none, asks := asks, hold := rfl }
    | commandInterface =>
      obtain ⟨asked, none, port⟩ := read client
      obtain ⟨q, unread, back⟩ := State.handBack_read client (wf.kinds r (by rw [show s.seen.requests = _ from front]; exact List.mem_cons_self)) asked
      rw [back]
      refine { wf with kinds := kinds, port := port, asks := none.trans ?_ }
      simp [State.seen, State.asksDrive, State.withReply, unread]
  | asks a unasked =>
    have idle : s.asksDrive = false := by simp [State.asksDrive, unasked]
    have none : countOf .commandInterface s.drive.requests = 0 := wf.asks.trans (by rw [State.seen, idle]; rfl)
    refine { wf with kinds := fun r mem => ?_, port := ?_, asks := ?_ }
    · exact (List.mem_append.1 mem).elim (wf.kinds r) (fun mem => List.mem_singleton.1 mem ▸ rfl)
    · exact (countOf_append _ _ _).trans wf.port
    · exact (countOf_append _ _ _).trans (by rw [none]; rfl)
  | posts a ws serves room clear => rw [State.enterPost]; split <;> exact { wf with }
  | _ => exact { wf with }

theorem State.Releases.keeps_drive {s u : State} (h : s.Releases u) (wf : s.seen.DriveWf) : u.seen.DriveWf := by
  obtain ⟨v, w, before, -, left, after⟩ := h.ends
  have departed : v.seen.DriveWf := before.keeps_drive { wf with }
  refine after.keeps_drive ?_
  rcases left with rfl | ⟨_, _, -, -, rfl⟩
  · exact departed
  · exact { departed with }

theorem Turn.keeps_drive {s t : State} (h : Turn s t) (wf : s.seen.DriveWf) : t.seen.DriveWf := by
  cases h with
  | act t h => exact h.keeps_drive wf
  | speeds t b same => rw [same]; exact { wf with }
  | loads t spinning same => rw [same]; exact { wf with }
  | releases u h => exact h.keeps_drive wf
  | loses u serves unheld posts h live =>
    have departed : u.seen.DriveWf := h.keeps_drive { wf with }
    exact { departed with }
  | _ => exact { wf with }

theorem Move.keeps_driveWf {s t : State} (h : Move s t) (wf : s.driveWf = true) : t.driveWf = true := by
  rw [State.driveWf_iff] at wf ⊢
  cases h with
  | turn t h => exact h.keeps_drive wf
  | _ => exact { wf with }

end Sys2Proof.Machine
end

