-- ==== Sys2Proof/Proofs/SequencerActs.lean ====
section
/-! The acts of the Drive Sequencer and of the writes' effects on the collections (R45 to R47, R61, R64 to R68, R80 to R87, R98 to R100). -/

namespace Sys2Proof.Machine

theorem Acts.drives {s t : State} (granted : Bool) (same : t.seen = { s.seen with granted := granted, working := granted }) : Acts s t :=
  .single (.drives t granted same)

theorem State.setEvent_acts (e : Event) (s : State) : Acts s (s.setEvent e) := .single (.engine _ (.sets e))

/-! ## The effects of writes (R45 to R47, R61, R69) -/

/-- The running grant's work changed: it runs on. -/
theorem State.mapWork_seen (f : Work → Work) (s : State) : ({ s with drive := s.drive.mapWork f } : State).seen = s.seen := by
  simp [State.seen, Drive.mapWork, State.asksDrive]

theorem State.emptyTrackBuffer_acts (t : Track) (s : State) : Acts s (s.emptyTrackBuffer t) :=
  .unseen (State.mapWork_seen (Work.loseBuffer t) s)

/-- Posts kept as they are where they are kept. -/
theorem State.filterPosts_acts (keep : PostEntry → Bool) (s : State) : Acts s (s.withPosts (s.posts.entries.filter keep)) := by
  refine .single (.thins _ (List.filter_sublist.map _) fun wf p mem => ?_)
  obtain ⟨-, -, failed⟩ := s.postsWf_iff.1 wf
  exact failed p (List.mem_of_mem_filter mem)

theorem State.dropPosts_acts (gone : Addr → Bool) (s : State) : Acts s (s.dropPosts gone) :=
  (s.filterPosts_acts (fun p => !gone p.addr)).trans
    (Acts.unseen (State.mapWork_seen (Work.markDropped gone) (s.withPosts (s.posts.entries.filter (fun p => !gone p.addr)))))

theorem State.discardPosts_acts (s : State) : Acts s s.discardPosts := by
  unfold State.discardPosts
  refine .ite (fun _ => .refl) (fun _ => .trans ?_ (State.setEvent_acts _ _))
  exact .single (.thins [] (List.nil_sublist _) (by simp))

theorem State.passEffects_acts (a : Addr) (s : State) : Acts s (s.passEffects a) := by
  have removed : Acts s (s.removeEntry a) := .single (.unmaps _)
  have invalid : Acts (s.removeEntry a) ((s.removeEntry a).invalidateSector a) := .unseen rfl
  exact (removed.trans invalid).trans (State.supersede_acts a _).acts

theorem State.takePost_acts {a : Addr} {ws : List Word} {s : State} (serves : packServes s.pack.state = true ∨ s.writeWaits = true)
    (room : s.postHasRoom a = true) (clear : s.ci.sequence = .ready ∨ s.writeWaits = true) : Acts s (s.takePost a ws) := by
  have entered : Acts s (s.enterPost a ws) := .single (.posts a ws serves room clear)
  have invalid : Acts (s.enterPost a ws) ((s.enterPost a ws).invalidateSector a) := .unseen rfl
  exact (entered.trans invalid).trans (State.supersede_acts a _).acts

theorem State.divert_acts {a : Addr} {ws : List Word} {s t : State} (serves : packServes s.pack.state = true)
    (h : s.divert a ws = some t) : Acts s t := by
  unfold State.divert at h
  obtain ⟨u, stored, rfl⟩ := Option.map_eq_some_iff.1 h
  obtain ⟨n, slot, rfl⟩ := State.storeSector_some stored
  have unposted : (s.dropPosts (fun b => b == a)).postAt a = none := by
    rw [State.postAt_eq_none]
    simp [State.dropPosts]
  have dropped := s.dropPosts_acts (fun b => b == a)
  have stores : Acts (s.dropPosts (fun b => b == a)) ((s.dropPosts (fun b => b == a)).putEntry a .diverted ws n) :=
    .single (.stores a .diverted ws n slot serves (.inl unposted))
  exact (dropped.trans stores).trans (State.supersede_acts a _).acts

theorem State.formatEffects_acts (t : Track) (s : State) : Acts s (s.formatEffects t) := by
  have removed : Acts s (s.removeTrackEntries t) := .single (.unmaps _)
  exact ((removed.trans (State.dropPosts_acts _ _)).trans (State.emptyTrackBuffer_acts t _)).trans (State.supersedeAll_acts t _ _).acts

/-! ## Requests and answers (R2, R80, R172) -/

theorem State.answerAt_acts {g : Stage} (granted : g ≠ .standing) (st : Status) (data : List Word) (s : State) :
    Acts s (s.answerAt g st data) := by
  unfold State.answerAt
  exact .ite (fun stage => .single (.answers st data g stage granted)) (fun _ => .refl)

/-- A reply filled whose request has been granted: the Command Interface asks for nothing before or after. -/
theorem State.fillDriveReply_acts (a : Addr) (completion : Word) (header field : List Word) (s : State) :
    Acts s (s.fillDriveReply true a completion header field) := by
  unfold State.fillDriveReply
  split
  · next q reply =>
    refine .ite (fun read => .unseen ?_) (fun _ => .refl)
    have before : s.asksDrive = false := by simp [State.asksDrive, reply, read]
    rw [State.seen, State.seen, before]
    rfl
  · exact .refl

/-- A request is handed back alike whatever the drive's record. -/
theorem State.handBack_withDrive (r : ControllerRequest) (d : Drive) (s : State) :
    ({ s with drive := d } : State).handBack r = { s.handBack r with drive := d } := by
  have stage : ({ s with drive := d } : State).stage = s.stage := rfl
  have filled (a : Addr) : ({ s with drive := d } : State).fillDriveReplyEmpty false a notReadyWord =
      { s.fillDriveReplyEmpty false a notReadyWord with drive := d } := by
    unfold State.fillDriveReplyEmpty State.fillDriveReply
    cases s.ci.reply with
    | none => rfl
    | some q => dsimp only; split <;> rfl
  unfold State.handBack State.answerAt
  rw [stage]
  cases r.client with
  | port => dsimp only; split <;> rfl
  | commandInterface =>
    cases r.work with
    | driveSector a => exact filled a
    | _ => rfl

theorem State.handBackList_acts (l : List ControllerRequest) (s : State) :
    Acts { s with drive := { s.drive with requests := l } } (l.foldl State.handBack { s with drive := { s.drive with requests := [] } }) := by
  induction l generalizing s with
  | nil => exact .refl
  | cons r l ih =>
    have back : Acts { s with drive := { s.drive with requests := r :: l } }
        { ({ s with drive := { s.drive with requests := r :: l } } : State).handBack r with drive := { s.drive with requests := l } } :=
      .single (.handsBack r l rfl)
    rw [State.handBack_withDrive] at back
    rw [List.foldl_cons, State.handBack_withDrive]
    have rest := ih (s.handBack r)
    rw [State.handBack_drive] at rest
    exact back.trans rest

theorem State.handBackAll_acts (s : State) : Acts s s.handBackAll := s.handBackList_acts s.drive.requests

theorem State.requestPortWork_acts {o : PortWork} {w : Work} {s : State} (free : s.port.outstanding = none) (unheld : s.port.hold = none)
    (kind : ControllerRequest.wf { client := .port, work := w } = true) : Acts s (s.requestPortWork o w) :=
  .ite (fun _ => .single (.requests o w free unheld kind)) (fun _ => .unseen rfl)

/-! ## Grants and their phases (R82 to R87) -/

/-- A state seen as another but for a grant that runs. -/
def State.Grants (b s : State) : Prop := s.seen = { b.seen with granted := true, working := s.drive.activity.working }

theorem State.Grants.of_running {s : State} {g : Grant} (h : s.drive.grant = some g) : s.Grants s := by
  simp [State.Grants, State.seen, h]

section
variable {b s : State}

theorem State.Grants.activity (h : b.Grants s) (a : Activity) (working : a.working = true) : Acts b (s.setActivity a) := by
  refine .drives true ?_
  have same : (s.setActivity a).seen = { s.seen with working := true } := by rw [← working]; rfl
  rw [same, h]

theorem State.Grants.ends (h : b.Grants s) : Acts b s.endGrant := by
  refine .drives false ?_
  have same : s.endGrant.seen = { s.seen with granted := false, working := false } := rfl
  rw [same, h]

theorem State.Grants.beginFlushWrite_acts (h : b.Grants s) (g : Grant) (a : Addr) (writing : Option (List Word)) (dropped : Bool) :
    Acts b (s.beginFlushWrite g a writing dropped) := by
  unfold State.beginFlushWrite
  refine .ite (fun _ => .ite (fun _ => h.activity .writing rfl) (fun _ => h.ends)) (fun _ => ?_)
  split
  · have posts : b.posts.entries = s.posts.entries := (congrArg Seen.posts h).symm
    have thins (l : List PostEntry) (addresses : (l.map (·.addr)).Sublist (b.posts.entries.map (·.addr)))
        (failed : b.postsWf = true → ∀ p ∈ l, p.failed < 3) (g : Grant) :
        Acts b (((s.withPosts l).setGrant g).setActivity .writing) := by
      refine .trans (.single (.thins l addresses failed)) (State.Grants.activity ?_ .writing rfl)
      have same : ((s.withPosts l).setGrant g).seen = { s.seen with posts := l, granted := true } := rfl
      rw [State.Grants, same, h]
      rfl
    refine thins _ (posts ▸ updatePost_sublist a _ _) (fun wf => ?_) _
    obtain ⟨-, -, failed⟩ := b.postsWf_iff.1 wf
    rw [posts] at failed
    exact updatePost_failed failed fun p mem _ => failed p mem
  · exact h.ends

/-- The work of a grant begins; a positioning work has nothing to begin. -/
theorem State.Grants.beginWork_acts (h : b.Grants s) (g : Grant)
    (positioning : (∃ t, g.work = .seek t) ∨ g.work = .recalibrate → Acts b s) : Acts b (s.beginWork g) := by
  unfold State.beginWork
  split
  case h_7 work => exact h.beginFlushWrite_acts g _ _ _
  case h_8 t work => exact positioning (.inl ⟨t, work⟩)
  case h_9 work => exact positioning (.inr work)
  case h_5 => exact h.activity .writing rfl
  case h_6 => exact h.activity .writing rfl
  all_goals exact h.activity .reading rfl

theorem State.Grants.applyConditions_acts (h : b.Grants s) (g : Grant)
    (working : ¬ ((∃ t, g.work = .seek t) ∨ g.work = .recalibrate)) : Acts b (s.applyConditions g) := by
  have conditions (f : Drive → Drive) (same : ∀ d, (f d).grant = d.grant ∧ (f d).requests = d.requests ∧ (f d).trim = d.trim ∧
      (f d).activity = d.activity) : b.Grants (s.withDrive f) := by
    obtain ⟨grant, requests, trim, activity⟩ := same s.drive
    have kept : (s.withDrive f).seen = s.seen := by
      simp only [State.seen, State.withDrive, State.asksDrive, grant, requests, trim, activity]
    rw [State.Grants, kept, h]
    simp only [State.withDrive, activity]
  unfold State.applyConditions
  refine .ite (fun _ => ?_) (fun _ => ?_)
  · exact (conditions (fun d => { d with strobe := g.strobe, threshold := g.threshold }) fun _ => ⟨rfl, rfl, rfl, rfl⟩).beginWork_acts g
      (fun positions => absurd positions working)
  · exact (conditions (fun d => { d with strobe := g.strobe, threshold := g.threshold, offsetCode := g.code, settled := false })
      fun _ => ⟨rfl, rfl, rfl, rfl⟩).activity .settling rfl

theorem State.Grants.positioned_acts (h : b.Grants s) (g : Grant) : Acts b (s.positioned g) := by
  unfold State.positioned
  split
  case h_1 => exact h.ends.trans (State.answerAt_acts (by decide) _ _ _)
  case h_2 => exact h.ends.trans (State.answerAt_acts (by decide) _ _ _)
  all_goals
    next work => exact h.applyConditions_acts g (by simp [work])

theorem State.Grants.seekPhase_acts (h : b.Grants s) (g : Grant) : Acts b (s.seekPhase g) := by
  unfold State.seekPhase
  split
  · exact h.positioned_acts g
  · exact .ite (fun _ => h.positioned_acts g) (fun _ => State.Grants.activity (s := s.command _) h _ rfl)

theorem State.Grants.beginPositioning_acts (h : b.Grants s) (recalFirst : Bool) (g : Grant) :
    Acts b (s.beginPositioning recalFirst g) :=
  .ite (fun _ => State.Grants.activity (s := s.command .recalibrate) h _ rfl) (fun _ => h.seekPhase_acts g)

theorem State.startGrant_acts (recalFirst : Bool) (g : Grant) (s : State) : Acts s (s.startGrant recalFirst g) := by
  have grants : s.Grants ((s.withDrive (fun d => { d with physHead := g.work.head.getD d.physHead })).setGrant g) := rfl
  exact grants.beginPositioning_acts recalFirst g

theorem State.endGrant_acts (s : State) : Acts s s.endGrant := .drives false rfl

end

/-! ## The end of a READ's drive work (R10, R12, R13, R17) -/

/-- A job that ends with nothing pending leaves the held request alone. -/
theorem State.endJob_decided {j : Job} (decided : j.pending = []) (ending : Ending) (s : State) :
    s.endJob ending j = s.closeJob ending j := by
  have untouched : s.answerHeldAtEnd j = s := by
    unfold State.answerHeldAtEnd
    split
    · split
      · simp [decided]
      · rfl
    · rfl
  simp [State.endJob, State.closeSectors, decided, untouched]

theorem State.closeJob_port (ending : Ending) (j : Job) (s : State) : (s.closeJob ending j).port = s.port := by
  unfold State.closeJob
  rw [State.afterQueueChange_frame, State.placeRecord_frame]
  rfl

theorem State.poke_port (s : State) : s.poke.port = s.port := by rw [State.poke_frame]

theorem State.automaticRequest_port {a : Addr} {ladder : Nat} {keepBest urgent : Bool} {s t : State}
    (h : s.automaticRequest a ladder keepBest urgent = some t) : t.port = s.port := by
  unfold State.automaticRequest at h
  dsimp only at h
  split at h
  · cases h; exact State.poke_port _
  · cases h; exact State.poke_port _
  · split at h <;> cases h <;> exact State.poke_port _
  · split at h
    · cases h
    · split at h
      · next empty =>
        cases h
        rw [State.endJob_decided (List.isEmpty_iff.1 empty), State.closeJob_port]
      · cases h; exact State.poke_port _

theorem EngineActs.serves {s t : State} (h : EngineActs s t) (serves : packServes s.pack.state = true) :
    packServes t.pack.state = true := by
  rwa [h.pack]

theorem State.sendToRecovery_acts {s : State} {g : Stage} (a : Addr) (r : Region) (data : List Word)
    (serves : packServes s.pack.state = true) (stage : s.stage = some g) (granted : g ≠ .standing) :
    Acts s (s.sendToRecovery a r data) := by
  unfold State.sendToRecovery
  split
  · exact .single (.answers _ _ g stage granted)
  · next t h =>
    have taken := State.automaticRequest_acts serves h
    have stage' : t.stage = some g := by rw [State.stage, State.automaticRequest_port h]; exact stage
    refine taken.acts.trans (Acts.ite (fun _ => ?_) (fun _ => .single (.answers _ _ g stage' granted)))
    exact .single (.holds a data _ g (taken.serves serves) stage' granted)

theorem State.mayRecover_serves {r : Region} {interpose : Bool} {s : State} (h : s.mayRecover r interpose = true) :
    packServes s.pack.state = true :=
  (Bool.and_eq_true_iff.1 h).2

theorem State.finishRead_acts {s : State} {g : Stage} (o : PassOutcome) (stage : s.stage = some g) (granted : g ≠ .standing) :
    Acts s (s.finishRead o) := by
  have answers (st : Status) (data : List Word) : Acts s (s.finishRequest st data) := .single (.answers st data g stage granted)
  unfold State.finishRead
  split
  · exact .refl
  · split
    · dsimp only
      split
      · exact answers _ _
      · exact answers _ _
      · exact .ite (fun may => s.sendToRecovery_acts _ _ _ (s.mayRecover_serves may) stage granted) (fun _ => answers _ _)
      · exact .ite (fun may => s.sendToRecovery_acts _ _ _ (s.mayRecover_serves may) stage granted) (fun _ => answers _ _)
      · exact .ite (fun may => s.sendToRecovery_acts _ _ _ (s.mayRecover_serves may) stage granted) (fun _ => answers _ _)
    all_goals exact .refl

/-! ## The end of a flush write (R66 to R68) -/

theorem State.updatePosts_acts {a : Addr} {f : PostEntry → PostEntry} (s : State) (same : ∀ p, (f p).addr = p.addr)
    (failed : s.postsWf = true → ∀ p ∈ s.posts.entries, p.addr = a → (f p).failed < 3) :
    Acts s (s.withPosts (updatePost a f s.posts.entries)) := by
  refine .single (.thins _ (updatePost_sublist a f _ same) fun wf => ?_)
  obtain ⟨-, -, few⟩ := s.postsWf_iff.1 wf
  exact updatePost_failed few (failed wf)

theorem State.countFlushFailure_acts (a : Addr) (s : State) : Acts s (s.countFlushFailure a) := by
  unfold State.countFlushFailure
  split
  · exact .refl
  · next p found =>
    refine .ite (fun _ => (s.filterPosts_acts _).trans (State.setEvent_acts _ _)) (fun more => ?_)
    refine s.updatePosts_acts (fun _ => rfl) fun wf q mem here => ?_
    obtain ⟨-, apart, -⟩ := s.postsWf_iff.1 wf
    have foundAddr : p.addr = a := by simpa using List.find?_some found
    have same : q = p := List.inj_on_of_nodup_map apart mem (List.mem_of_find?_eq_some found) (here.trans foundAddr.symm)
    rw [same]
    exact Nat.not_le.1 more

theorem State.flushFailed_acts {g g' : Grant} {s : State} (running : s.drive.grant = some g') (a : Addr) (dropped : Bool) :
    Acts s (s.flushFailed g a dropped) := by
  unfold State.flushFailed
  refine .ite (fun _ => s.endGrant_acts) (fun _ => ?_)
  have counted := s.countFlushFailure_acts a
  dsimp only
  split
  · exact counted.trans (State.endGrant_acts _)
  · split
    · exact (counted.trans (State.endGrant_acts _)).trans (Acts.unseen rfl)
    · split
      · exact counted.trans (State.endGrant_acts _)
      · refine counted.trans (State.Grants.beginPositioning_acts ?_ _ _)
        have still : (s.countFlushFailure a).drive.grant = some g' := by rw [State.countFlushFailure_frame]; exact running
        simp [State.Grants, State.seen, State.setGrant, State.withDrive, State.asksDrive, still]

theorem State.flushWritten_acts (a : Addr) (s : State) : Acts s (s.flushWritten a) := by
  unfold State.flushWritten
  split
  · exact .refl
  · exact .ite (fun _ => s.updatePosts_acts (fun _ => rfl) (fun _ _ _ _ => Nat.succ_pos _)) (fun _ => s.filterPosts_acts _)

theorem State.flushProtected_acts (a : Addr) (s : State) : Acts s (s.flushProtected a) := by
  unfold State.flushProtected
  exact .ite (fun _ => (s.filterPosts_acts _).trans (State.setEvent_acts _ _)) (fun _ => .refl)

theorem State.flushLost_acts (a : Addr) (dropped : Bool) (s : State) : Acts s (s.flushLost a dropped) := by
  have ended : Acts s (s.endGrant.invalidateSector a) := .drives false rfl
  unfold State.flushLost
  exact .ite (fun _ => ended) (fun _ => ended.trans (State.countFlushFailure_acts a _))

/-! ## Positioning failures (R83, R84) -/

theorem State.positioningLost_acts {g g' : Grant} {s : State} (running : s.drive.grant = some g') (header field : List Word) :
    Acts s (s.positioningLost g header field) := by
  have ended := s.endGrant_acts
  unfold State.positioningLost
  split
  case h_5 a => exact ended.trans (State.fillDriveReply_acts _ _ _ _ _)
  case h_7 t _ _ => exact (ended.trans (State.emptyTrackBuffer_acts t _)).trans (State.answerAt_acts (by decide) _ _ _)
  case h_8 a _ dropped _ =>
    have invalid : Acts s (s.invalidateSector a) := .unseen rfl
    exact invalid.trans (State.flushFailed_acts (s := s.invalidateSector a) running a dropped)
  case h_9 => exact ended.trans (State.recoveryEnded_acts (State.takeSeekFailed_acts g _)).acts
  all_goals exact ended.trans (State.answerAt_acts (by decide) _ _ _)

theorem State.recalibrateLost_acts {g g' : Grant} {s : State} (running : s.drive.grant = some g') (header field : List Word) :
    Acts s (s.recalibrateLost g header field) := by
  unfold State.recalibrateLost
  split
  · exact s.flushLost_acts _ _
  all_goals exact s.positioningLost_acts running header field

theorem State.positioningFailure_acts {g g' : Grant} {s : State} (running : s.drive.grant = some g') (header field : List Word) :
    Acts s (s.positioningFailure g header field) :=
  .ite (fun _ => s.positioningLost_acts running header field) (fun _ => .drives true rfl)

/-! ## Grants ended by a loss (R98 to R100) -/

theorem State.writeLost_acts (why : Loss) (s : State) :
    Acts s (if why = .fault then (if s.stage = some .working then s.setStage .clearing else s) else s.answerAt .working .notReady []) :=
  .ite (fun _ => .ite (fun stage => .single (.clears stage)) (fun _ => .refl)) (fun _ => State.answerAt_acts (by decide) _ _ _)

theorem State.loseGrant_acts (why : Loss) (s : State) : Acts s (s.loseGrant why) := by
  have ended := s.endGrant_acts
  unfold State.loseGrant
  split
  · exact .refl
  · next g running =>
    dsimp only
    split
    case h_5 a _ => exact ended.trans (State.fillDriveReply_acts _ _ _ _ _)
    case h_6 => exact ended.trans (State.writeLost_acts why _)
    case h_7 t _ _ => exact (ended.trans (State.emptyTrackBuffer_acts t _)).trans (State.writeLost_acts why _)
    case h_8 a _ dropped _ =>
      refine .ite (fun _ => s.flushLost_acts a dropped) (fun _ => ?_)
      have invalid : Acts s (s.endGrant.invalidateSector a) := .drives false rfl
      refine invalid.trans (State.updatePosts_acts _ (fun _ => rfl) fun wf p mem _ => ?_)
      obtain ⟨-, -, few⟩ := (State.postsWf_iff _).1 wf
      exact few p mem
    case h_9 => exact ended.trans (State.recoveryEnded_acts (State.takeAborted_acts g _)).acts
    all_goals exact ended.trans (State.answerAt_acts (by decide) _ _ _)

end Sys2Proof.Machine
end

