-- ==== Sys2Proof/Proofs/PackTurns.lean ====
section
/-! The moves of the pack and of the speed check: faults and aborts, the release, the loss and the loading of a pack (R96 to R100, R134,
R152 to R160). -/

namespace Sys2Proof.Machine

theorem Turns.unseen {s t : State} (same : t.seen = s.seen) : Turns s t := (Acts.unseen same).turns

theorem Turns.ite {c : Prop} [Decidable c] {s t u : State} (ht : c → Turns s t) (hu : ¬ c → Turns s u) :
    Turns s (if c then t else u) := by
  split
  · next h => exact ht h
  · next h => exact hu h

/-! ## Faults and aborts (R98, R100) -/

theorem State.granted_eq (s : State) : s.seen.granted = s.drive.grant.isSome := rfl

theorem EngineActs.granted {s t : State} (h : EngineActs s t) : t.seen.granted = s.seen.granted := by
  rw [h.frame]

/-- An answer, a stage or a reply changes nothing of the grant. -/
theorem State.answerAt_drive (g : Stage) (st : Status) (data : List Word) (s : State) : (s.answerAt g st data).drive = s.drive := by
  unfold State.answerAt
  split <;> rfl

theorem State.fillDriveReply_drive (granted : Bool) (a : Addr) (completion : Word) (header field : List Word) (s : State) :
    (s.fillDriveReply granted a completion header field).drive = s.drive := by
  unfold State.fillDriveReply
  split
  · split <;> rfl
  · rfl

/-- After a loss no grant runs. -/
theorem State.loseGrant_free (why : Loss) (s : State) : (s.loseGrant why).seen.granted = false := by
  have write (t : State) : (if why = .fault then (if t.stage = some .working then t.setStage .clearing else t)
      else t.answerAt .working .notReady []).drive = t.drive := by
    split
    · split <;> rfl
    · exact State.answerAt_drive _ _ _ _
  unfold State.loseGrant
  split
  · next none => rw [State.granted_eq, none]; rfl
  · next g running =>
    dsimp only
    split
    case h_5 => rw [State.granted_eq, State.fillDriveReplyEmpty, State.fillDriveReply_drive]; rfl
    case h_6 => rw [State.granted_eq, write]; rfl
    case h_7 => rw [State.granted_eq, write]; rfl
    case h_8 a _ dropped _ =>
      split
      · rw [State.granted_eq, State.flushLost_frame]; rfl
      · rfl
    case h_9 => exact (State.recoveryEnded_acts (State.takeAborted_acts g _)).granted
    all_goals rw [State.granted_eq, State.answerAt_drive]; rfl

/-- With no grant running the activity may be set to one without a grant. -/
theorem Acts.freed {s t : State} (free : s.seen.granted = false) (same : t.seen = { s.seen with working := false }) : Acts s t :=
  .drives false (by rw [same, ← free])

theorem State.beginFault_acts (s : State) : Acts s s.beginFault := by
  have lost := (State.setEvent_acts .driveFault s).trans (State.loseGrant_acts .fault _)
  exact lost.trans (Acts.freed (State.loseGrant_free .fault _) rfl)

theorem State.abortRecovery_acts (s : State) : Acts s s.abortRecovery := by
  unfold State.abortRecovery
  split
  · exact .refl
  · next g running =>
    refine .ite (fun _ => ?_) (fun _ => .refl)
    split
    · refine .unseen ?_
      simp [State.seen, State.setGrant, State.withDrive, State.asksDrive, running]
    all_goals exact s.endGrant_acts

theorem State.abortRecovery_engine (s : State) : s.abortRecovery.engine = s.engine := by
  unfold State.abortRecovery
  split
  · rfl
  · split
    · split <;> rfl
    · rfl

theorem State.cutActive_acts (ending : Ending) {j : Job} {s : State} (active : s.engine.active = some j) :
    Acts s (s.cutActive ending j) :=
  s.abortRecovery_acts.trans (State.endActive_acts ending _ j _ (by rw [State.abortRecovery_engine, active])).acts

theorem State.abortGrant_acts (s : State) : Acts s s.abortGrant := by
  unfold State.abortGrant
  split
  · exact .refl
  · exact (s.loseGrant_acts .forced).trans (Acts.unseen rfl)

/-! ## The speed check (R96) -/

theorem State.beginSpeedFault_turns (s : State) : Turns s s.beginSpeedFault :=
  (State.setEvent_acts .speedFault s).turns.trans (.single (.speeds _ true rfl))

theorem State.endSpeedFault_turns (s : State) : Turns s s.endSpeedFault := by
  have clears : Turn s (({ s with timer := { s.timer with speedFault := false, outside := 0 } } : State).withEngine
      (fun e => { e with speed := false })) := .speeds _ false rfl
  exact .trans (.single clears) (State.poke_acts _).acts.turns

theorem State.checkSpeed_turns (period : Nat) (s : State) : Turns s (s.checkSpeed period) := by
  unfold State.checkSpeed
  refine Turns.ite (fun _ => Turns.ite (fun _ => ?_) (fun _ => Turns.unseen rfl)) (fun _ => Turns.ite (fun _ => ?_) (fun _ => Turns.unseen rfl))
  · refine .trans ?_ (State.endSpeedFault_turns _)
    exact Turns.unseen rfl
  · refine .trans ?_ (State.beginSpeedFault_turns _)
    exact Turns.unseen rfl

theorem State.speedAtLoss_turns (s : State) : Turns s s.speedAtLoss := by
  unfold State.speedAtLoss
  split
  · exact Turns.unseen rfl
  · exact s.beginSpeedFault_turns

/-! ## Loading (R152) -/

theorem State.loadPack_turns {s : State} (spinning : s.pack.state = .spinningUp) : Turns s s.loadPack := by
  unfold State.loadPack
  exact .trans (.single (.loads _ spinning rfl)) (State.poke_acts _).acts.turns

theorem State.checkSpinUp_turns (period : Nat) {s : State} (spinning : s.pack.state = .spinningUp) : Turns s (s.checkSpinUp period) := by
  unfold State.checkSpinUp
  refine Turns.ite (fun _ => State.loadPack_turns spinning) (fun few => ?_)
  exact .single (.spinsUp _ (Nat.not_le.1 few))

theorem State.takePeriod_turns (period : Nat) (s : State) : Turns s (s.takePeriod period) := by
  unfold State.takePeriod
  split
  · next spinning => exact State.checkSpinUp_turns period spinning
  · exact s.checkSpeed_turns period
  · exact s.checkSpeed_turns period
  all_goals exact .refl

/-! ## Every job ended (R133, R134) -/

/-- The jobs of the engine by their places (R113). -/
def Engine.seats (e : Engine) : Option Job × Option Job × List Job × Option Job := (e.active, e.parked, e.queued, e.ending)

theorem State.preempt_idle {s : State} (idle : s.engine.active = none) : s.preempt = s := by
  unfold State.preempt
  rw [idle]

theorem State.poke_idle_seats {s : State} (idle : s.engine.active = none) : s.poke.engine.seats = s.engine.seats := by
  rw [s.poke_stays (State.preempt_idle idle)]

theorem State.afterQueueChange_idle_seats {s : State} (idle : s.engine.active = none) :
    s.afterQueueChange.engine.seats = s.engine.seats := by
  have window (e : Engine) : (if e.length = 0 then { e with window := none } else e).seats = e.seats := by split <;> rfl
  have lifts (t : State) : t.liftResultsFull.engine.seats = t.engine.seats := by rw [t.liftResultsFull_frame]; rfl
  have same : ((s.withEngine (fun e => if e.length = 0 then { e with window := none } else e)).liftResultsFull).engine.seats =
      s.engine.seats := by rw [lifts]; exact window _
  have none' : ((s.withEngine (fun e => if e.length = 0 then { e with window := none } else e)).liftResultsFull).engine.active = none :=
    (congrArg Prod.fst same).trans idle
  exact (State.poke_idle_seats none').trans same

theorem Engine.freeBank_seats (b : Option Nat) (e : Engine) : (e.freeBank b).seats = e.seats := by rw [e.freeBank_eq]; rfl

theorem State.closeJob_idle_seats (ending : Ending) (j : Job) {s : State} (idle : s.engine.active = none) :
    (s.closeJob ending j).engine.seats = s.engine.seats := by
  have same : ((s.withEngine (Engine.freeBank j.bank)).placeRecord ending j).engine.seats = s.engine.seats := by
    rw [State.placeRecord_frame]
    exact Engine.freeBank_seats _ _
  exact (State.afterQueueChange_idle_seats ((congrArg Prod.fst same).trans idle)).trans same

/-- With no job ACTIVE the ending of a job taken from its place moves no other job (R129). -/
theorem State.endJob_idle_seats (ending : Ending) (j : Job) {s : State} (idle : s.engine.active = none) :
    (s.endJob ending j).engine.seats = s.engine.seats := by
  have same := s.closeSectors_engine j
  exact (State.closeJob_idle_seats ending _ ((congrArg Engine.active same).trans idle)).trans (congrArg Engine.seats same)

theorem State.endActive_seats (ending : Ending) (j : Job) (s : State) :
    (s.endActive ending j).engine.seats = (none, s.engine.parked, s.engine.queued, s.engine.ending) :=
  State.endJob_idle_seats ending j rfl

theorem State.endParked_seats (ending : Ending) {s : State} (idle : s.engine.active = none) :
    (s.endParked ending).engine.seats = (none, none, s.engine.queued, s.engine.ending) := by
  unfold State.endParked
  split
  · next empty => rw [Engine.seats, idle, empty]
  · refine (State.endJob_idle_seats ending _ (s := s.withEngine (fun e => { e with parked := none })) idle).trans ?_
    show (s.engine.active, none, s.engine.queued, s.engine.ending) = _
    rw [idle]

theorem State.endQueued_seats (ending : Ending) (fuel : Nat) {s : State} (idle : s.engine.active = none)
    (enough : s.engine.queued.length ≤ fuel) :
    (s.endQueued ending fuel).engine.seats = (none, s.engine.parked, [], s.engine.ending) := by
  induction fuel generalizing s with
  | zero => rw [State.endQueued, Engine.seats, idle, List.length_eq_zero_iff.1 (Nat.le_zero.1 enough)]
  | succ fuel ih =>
    unfold State.endQueued
    split
    · next empty => rw [Engine.seats, idle, empty]
    · next j rest queue =>
      have same := State.endJob_idle_seats ending j (s := s.withEngine (fun e => { e with queued := rest })) idle
      obtain ⟨active, parked, queued, left⟩ : _ ∧ _ ∧ _ ∧ _ := by simpa [Engine.seats] using same
      rw [queue] at enough
      rw [ih (active.trans idle) (by rw [queued]; exact Nat.le_of_succ_le_succ enough), parked, left]

/-- The PARKED job and the queued jobs ended, none being ACTIVE. -/
theorem State.endRest_seats (ending : Ending) {s : State} (idle : s.engine.active = none) :
    ((s.endParked ending).endQueued ending (s.endParked ending).engine.queued.length).engine.seats =
      (none, none, [], s.engine.ending) := by
  obtain ⟨active, parked, -, left⟩ : _ ∧ _ ∧ _ ∧ _ := by simpa [Engine.seats] using State.endParked_seats ending idle
  rw [State.endQueued_seats ending _ active le_rfl, parked, left]

theorem Engine.seats_liveJobs {e : Engine} {left : Option Job} (h : e.seats = (none, none, [], left)) : e.liveJobs = [] := by
  obtain ⟨active, parked, queued, -⟩ : _ ∧ _ ∧ _ ∧ _ := by simpa [Engine.seats] using h
  simp [Engine.liveJobs, active, parked, queued]

theorem State.abandonJobs_seats (s : State) : s.abandonJobs.engine.seats = (none, none, [], s.engine.ending) := by
  unfold State.abandonJobs
  split
  · next idle => exact State.endRest_seats .abandoned idle
  · next j _ =>
    obtain ⟨active, -, -, left⟩ : _ ∧ _ ∧ _ ∧ _ := by simpa [Engine.seats] using s.endActive_seats .abandoned j
    rw [← left]
    exact State.endRest_seats .abandoned active

theorem State.releaseJobs_liveJobs (s : State) : s.releaseJobs.engine.liveJobs = [] := by
  have idle : s.releaseActive.engine.active = none := by
    unfold State.releaseActive
    split
    · next idle => exact idle
    · next j _ =>
      split
      · rfl
      · exact congrArg Prod.fst (s.endActive_seats .abandoned j)
  exact Engine.seats_liveJobs (State.endRest_seats .abandoned idle)

end Sys2Proof.Machine
end

