-- ==== Sys2Proof/Proofs/PackDeparture.lean ====
section
/-! The release, the forced release and the loss of a pack as moves, and the drive's ready and fault lines (R98, R99, R152 to R160). -/

namespace Sys2Proof.Machine

/-! ## What a departure finds -/

theorem Acts.pack {s t : State} (h : Acts s t) : t.pack = s.pack := congrArg PackRecord.pack h.packRecord

theorem State.releaseHold_acts (s : State) : Acts s s.releaseHold := by
  unfold State.releaseHold
  split
  · next h held => exact (EngineActs.acts (.single (.answers .notReady [] (by rw [held]; rfl))))
  · exact .refl

theorem State.releaseHold_unheld (s : State) : s.releaseHold.port.hold = none := by
  unfold State.releaseHold
  split
  · rfl
  · next unheld => exact unheld

theorem State.releaseHold_posts (s : State) : s.releaseHold.posts = s.posts := by
  unfold State.releaseHold
  split <;> rfl

theorem State.discardPosts_posts (s : State) : s.discardPosts.posts.entries = [] := by
  unfold State.discardPosts
  split
  · next empty => exact List.isEmpty_iff.1 empty
  · rfl

theorem jobs_ne_nil_of_active {e : Engine} {j : Job} (h : e.active = some j) : e.jobs ≠ [] := by
  simp [Engine.jobs, Engine.placed, h]

/-! ## The release (R134, R157, R158) -/

/-- The jobs ended at a release that is not forced, the ACTIVE job left ENDING while its grant runs. -/
theorem State.releaseJobs_ends (x : State) : ∃ v w, EngineActs x v ∧ v.engine = x.engine ∧
    (w = v ∨ ∃ j k, v.engine.active = some j ∧ k.berth = j.berth ∧
      w = { v with engine := { v.engine with active := none, ending := some k } }) ∧ EngineActs w x.releaseJobs := by
  have rest (w : State) (h : EngineActs w x.releaseActive) : EngineActs w x.releaseJobs :=
    (h.trans (State.endParked_acts .abandoned _)).trans (State.endQueued_acts .abandoned _ _)
  cases active : x.engine.active with
  | none =>
    refine ⟨x, x, .refl, rfl, .inl rfl, rest x ?_⟩
    rw [State.releaseActive, active]
  | some j =>
    cases running : x.drive.recoveryRunning with
    | false =>
      refine ⟨x, x, .refl, rfl, .inl rfl, rest x ?_⟩
      simp only [State.releaseActive, active, running]
      exact State.endActive_acts .abandoned j j x active
    | true =>
      have same := x.closeSectors_engine j
      refine ⟨(x.closeSectors j).1, x.releaseActive, x.closeSectors_acts j (.inr (jobs_ne_nil_of_active active)), same,
        .inr ⟨j, (x.closeSectors j).2, by rw [same, active], x.closeSectors_berth j, ?_⟩, rest _ .refl⟩
      simp only [State.releaseActive, active, running]
      rfl

theorem State.releaseJobs_releases {s : State} (loaded : s.pack.state ≠ .unloading) (unheld : s.port.hold = none)
    (posts : packServes s.pack.state = true → s.posts.entries = []) : s.Releases s.departed.assertRelease.releaseJobs where
  loaded := loaded
  unheld := unheld
  posts := posts
  ends := State.releaseJobs_ends _
  live := State.releaseJobs_liveJobs _

/-- Unload Release, not forced (R157). -/
theorem State.giveRelease_turns {s : State} (loaded : s.pack.state ≠ .unloading)
    (posts : packServes s.pack.state = true → s.posts.entries = []) : Turns s s.giveRelease := by
  have held := s.releaseHold_acts
  have releases : Turns s.releaseHold (s.beginDeparture.assertRelease.releaseJobs) :=
    .single (.releases _ (State.releaseJobs_releases (by rwa [held.pack]) s.releaseHold_unheld
      (by rwa [held.pack, s.releaseHold_posts])))
  exact (held.turns.trans releases).trans (State.handBackAll_acts _).turns

theorem State.abandonJobs_releases {s : State} (loaded : s.pack.state ≠ .unloading) (unheld : s.port.hold = none)
    (posts : packServes s.pack.state = true → s.posts.entries = []) : s.Releases s.departed.assertRelease.abandonJobs where
  loaded := loaded
  unheld := unheld
  posts := posts
  ends := ⟨_, _, .refl, rfl, .inl rfl, State.abandonJobs_acts _⟩
  live := Engine.seats_liveJobs (State.abandonJobs_seats _)

/-- A forced release (R158). -/
theorem State.forceRelease_turns {s : State} (loaded : s.pack.state ≠ .unloading) : Turns s s.forceRelease := by
  have before : Acts s s.abortGrant.discardPosts.releaseHold :=
    (s.abortGrant_acts.trans (State.discardPosts_acts _)).trans (State.releaseHold_acts _)
  have empty : s.abortGrant.discardPosts.releaseHold.posts.entries = [] := by
    rw [State.releaseHold_posts, State.discardPosts_posts]
  have releases : Turns s.abortGrant.discardPosts.releaseHold (s.abortGrant.discardPosts.beginDeparture.assertRelease.abandonJobs) :=
    .single (.releases _ (State.abandonJobs_releases (by rwa [before.pack]) (State.releaseHold_unheld _) (fun _ => empty)))
  exact (before.turns.trans releases).trans (State.handBackAll_acts _).turns

/-! ## The loss (R152, R159, R160) -/

theorem State.losePack_turns {s : State} (serves : packServes s.pack.state = true) : Turns s s.losePack := by
  have before : Acts s ((s.setEvent .packLost).discardPosts.releaseHold) :=
    ((State.setEvent_acts .packLost s).trans (State.discardPosts_acts _)).trans (State.releaseHold_acts _)
  have empty : ((s.setEvent .packLost).discardPosts.releaseHold).posts.entries = [] := by
    rw [State.releaseHold_posts, State.discardPosts_posts]
  exact before.turns.trans (.single (.loses _ (by rwa [before.pack]) (State.releaseHold_unheld _) empty (State.abandonJobs_acts _)
    (Engine.seats_liveJobs (State.abandonJobs_seats _))))

theorem State.closeJob_ending (ending : Ending) (j : Job) (s : State) : (s.closeJob ending j).engine.ending = s.engine.ending := by
  unfold State.closeJob
  rw [State.afterQueueChange_frame, State.placeRecord_frame]
  exact congrArg (fun q => q.2.2.2) (Engine.freeBank_seats j.bank s.engine)

theorem State.finishEnding_ending (s : State) : s.finishEnding.engine.ending = none := by
  unfold State.finishEnding
  split
  · next empty => exact empty
  · exact State.closeJob_ending _ _ _

theorem State.packFall_turns (s : State) : Turns s s.packFall := by
  unfold State.packFall
  split
  · exact .refl
  · next spinning => exact .single (.goes (by rw [spinning]; rfl) (by rw [spinning]; simp))
  · next loaded => exact State.losePack_turns (by rw [loaded]; rfl)
  · next pending => exact State.losePack_turns (by rw [pending]; rfl)
  · next unloading =>
    have ends := s.finishEnding_acts
    exact ends.acts.turns.trans (.single (.goes (by rw [ends.pack, unloading]; rfl) (fun _ => s.finishEnding_ending)))

/-! ## The drive's lines (R77, R98, R99) -/

theorem State.sequencerFall_acts (s : State) : Acts s s.sequencerFall := by
  have free := (s.loseGrant_acts .ready).trans (Acts.freed (State.loseGrant_free .ready s)
    (t := (s.loseGrant .ready).withDrive (fun d => { d with cond := .off, physCyl := none, activity := .idle })) rfl)
  exact (free.trans (State.answerAt_acts (by simp) .notReady [] _)).trans (State.handBackAll_acts _)

theorem State.packRise_turns (s : State) : Turns s s.packRise := by
  unfold State.packRise
  exact Turns.ite (fun gone => .single (.rises gone)) (fun _ => .refl)

theorem State.takeReadyRise_turns (s : State) : Turns s s.takeReadyRise := by
  have risen : Turns s (((s.setReady true).setCond .ready).packRise) := by
    refine .trans ?_ (State.packRise_turns _)
    exact Turns.unseen rfl
  have counted : Turns s { ((s.setReady true).setCond .ready).packRise with
      timer := { (((s.setReady true).setCond .ready).packRise).timer with counting := false } } := risen.trans (Turns.unseen rfl)
  unfold State.takeReadyRise
  exact Turns.ite (fun _ => counted.trans (State.beginFault_acts _).turns) (fun _ => counted)

theorem State.takeFaultRise_acts (s : State) : Acts s s.takeFaultRise := by
  unfold State.takeFaultRise
  refine Acts.ite (fun _ => ?_) (fun _ => Acts.unseen rfl)
  refine .trans ?_ (State.beginFault_acts _)
  exact Acts.unseen rfl

/-- The end of a fault clear frees no grant: none runs in it. -/
theorem State.clearingIdle_seen {s : State} {n : Nat} (clearing : s.drive.activity = .clearing n) : (s.setActivity .idle).seen = s.seen := by
  simp [State.seen, State.setActivity, State.withDrive, clearing, Activity.working, State.asksDrive]

theorem State.faultRemoved_acts {s : State} {n : Nat} (clearing : s.drive.activity = .clearing n) : Acts s s.faultRemoved :=
  .trans (Acts.unseen (State.clearingIdle_seen clearing)) (State.answerAt_acts (by simp) .writeFault [] _)

theorem State.faultPersists_acts {s : State} {n : Nat} (clearing : s.drive.activity = .clearing n) : Acts s s.faultPersists := by
  have idle : Acts s ((s.setActivity .idle).setCond .fault) :=
    (Acts.unseen (State.clearingIdle_seen clearing)).trans (Acts.unseen rfl)
  exact (idle.trans (State.answerAt_acts (by simp) .notReady [] _)).trans (State.handBackAll_acts _)

/-! ## The panel's Unload Request (R154, R158) -/

theorem State.takeUnloadRequest_turns (s : State) : Turns s s.takeUnloadRequest := by
  have asked (f : State → State) (h : Turns (s.setEvent .unloadRequested) (f (s.setEvent .unloadRequested))) :
      Turns s (f (s.setEvent .unloadRequested)) := (State.setEvent_acts .unloadRequested s).turns.trans h
  unfold State.takeUnloadRequest
  split
  · exact .refl
  · exact .refl
  · next spinning =>
    exact asked State.giveRelease (State.giveRelease_turns (by simp [spinning]) (by simp [spinning, packServes]))
  · next loaded =>
    exact asked (fun u => u.withPack (fun p => { p with state := .unloadPending, firstRequest := some s.now }))
      (.single (.pends _ loaded))
  · next pending =>
    unfold State.secondRequest
    split
    · exact Turns.ite (fun _ => asked State.forceRelease (State.forceRelease_turns (by simp [pending]))) (fun _ => .refl)
    · exact .refl

theorem State.releaseTest_posts {s : State} (h : s.releaseTest = true) : s.posts.entries = [] := by
  unfold State.releaseTest at h
  exact List.isEmpty_iff.1 (Bool.and_eq_true_iff.1 h).1

end Sys2Proof.Machine
end

