-- ==== Sys2Proof/Proofs/RequestActs.lean ====
section
/-! The requests of the controller's cable as acts: what each does after the earlier request has been dropped (R1 to R17, R20, R37, R52,
R167 to R171). -/

namespace Sys2Proof.Machine

/-! ## What taking a request leaves -/

/-- Nothing is outstanding, held, or awaited by the Command Interface (R2, R167). -/
structure State.Free (s : State) : Prop where
  outstanding : s.port.outstanding = none
  hold : s.port.hold = none
  sequence : s.ci.sequence = .ready

theorem State.afterRequest_free (s : State) : s.afterRequest.Free where
  outstanding := rfl
  hold := rfl
  sequence := by
    show (if s.ci.sequence = .ready then s.ci else _).sequence = _
    split
    · next ready => exact ready
    · rfl

theorem State.Free.placed {s : State} (free : s.Free) (cyl head : Nat) :
    ({ s with port := { s.port with virtCyl := cyl, virtHead := head } } : State).Free :=
  ⟨free.outstanding, free.hold, free.sequence⟩

theorem State.afterDataRequest_free (head : Nat) (s : State) : (s.afterDataRequest head).Free := s.afterRequest_free.placed _ head

theorem State.afterRequest_acts (s : State) : Acts s s.afterRequest := by
  rw [← State.newRequest_eq_afterRequest]
  exact .tail (.single .drops) .abandons

theorem State.tablesWf_position {s : State} (wf : s.tablesWf = true) :
    s.port.virtCyl < s.geom.cylinders ∧ s.port.virtHead < s.geom.heads := by
  simp only [State.tablesWf, Bool.and_eq_true, decide_eq_true_eq] at wf
  tauto

theorem State.setVirtHead_acts {head : Nat} {s : State} (within : s.tablesWf = true → head < s.geom.heads) :
    Acts s (s.setVirtHead head) :=
  .single (.places s.port.virtCyl head (fun wf => ⟨(State.tablesWf_position wf).1, within wf⟩))

theorem State.afterDataRequest_acts {head : Nat} {s : State} (within : head < s.geom.heads) : Acts s (s.afterDataRequest head) :=
  s.afterRequest_acts.trans (State.setVirtHead_acts (fun _ => within))

theorem State.answer_acts (st : Status) (data : List Word) (s : State) : Acts s (s.answer st data) := Acts.unseen rfl

/-! ## SELECT, SEEK and RECALIBRATE (R1, R3, R16) -/

theorem State.takeSelect_acts (s : State) : Acts s s.takeSelect := by
  rw [State.takeSelect, State.newRequest_eq_afterRequest]
  exact s.afterRequest_acts.trans (State.answer_acts _ _ _)

theorem State.Free.positioning_acts {s : State} (free : s.Free) (o : PortWork) (w : Work)
    (kind : ControllerRequest.wf { client := .port, work := w } = true) :
    Acts s (if s.positionsDrive then s.requestPortWork o w else s.answer .done []) :=
  Acts.ite (fun _ => State.requestPortWork_acts free.outstanding free.hold kind) (fun _ => State.answer_acts _ _ _)

theorem State.takeSeek_acts (c : Nat) (s : State) : Acts s (s.takeSeek c) := by
  unfold State.takeSeek
  rw [State.newRequest_eq_afterRequest]
  refine s.afterRequest_acts.trans (Acts.ite (fun _ => State.answer_acts _ _ _) (fun within => ?_))
  have placed : Acts s.afterRequest { s.afterRequest with port := { s.afterRequest.port with virtCyl := c } } :=
    .single (.places c s.afterRequest.port.virtHead (fun wf => ⟨Nat.not_le.1 within, (State.tablesWf_position wf).2⟩))
  exact placed.trans ((s.afterRequest_free.placed c _).positioning_acts _ _ rfl)

theorem State.tablesWf_cylinders {s : State} (wf : s.tablesWf = true) : 0 < s.geom.cylinders :=
  Nat.zero_lt_of_lt (State.tablesWf_position wf).1

theorem State.takeRecalibrate_acts (s : State) : Acts s s.takeRecalibrate := by
  unfold State.takeRecalibrate
  rw [State.newRequest_eq_afterRequest]
  have placed : Acts s.afterRequest { s.afterRequest with port := { s.afterRequest.port with virtCyl := 0 } } :=
    .single (.places 0 s.afterRequest.port.virtHead (fun wf => ⟨State.tablesWf_cylinders wf, (State.tablesWf_position wf).2⟩))
  exact (s.afterRequest_acts.trans placed).trans ((s.afterRequest_free.placed 0 _).positioning_acts _ _ rfl)

/-! ## READ (R5, R11, R12, R16, R73, R168 to R171) -/

theorem State.Free.driveRead_acts {s : State} (free : s.Free) (a : Addr) : Acts s (s.driveRead a) := by
  unfold State.driveRead
  exact Acts.ite (fun _ => .single (.rides _ free.outstanding free.hold))
    (fun _ => State.requestPortWork_acts free.outstanding free.hold rfl)

theorem State.Free.dataRead_acts {s : State} (free : s.Free) (a : Addr) : Acts s (s.dataRead a) := by
  unfold State.dataRead
  refine Acts.ite (fun _ => State.answer_acts _ _ _) (fun _ => ?_)
  split
  · unfold State.lookupRead
    split
    · exact State.answer_acts _ _ _
    · split
      · exact State.answer_acts _ _ _
      · split
        · exact Acts.unseen rfl
        · exact free.driveRead_acts a
  · exact State.requestPortWork_acts free.outstanding free.hold rfl

theorem State.controlData_seen (s : State) : s.controlData.2.seen = s.seen := by
  unfold State.controlData
  split
  · unfold State.buildStatus
    dsimp only
    split <;> rfl
  · next r reply =>
    split
    · simp [State.seen, State.asksDrive, State.withReply, reply]
    · rfl

theorem State.readControl_acts (s : State) : Acts s s.readControl := Acts.unseen s.controlData_seen

theorem State.takeRead_acts (head sector : Nat) (s : State) : Acts s (s.takeRead head sector) := by
  rw [State.takeRead_eq]
  refine Acts.ite (fun _ => s.afterRequest_acts.trans (State.answer_acts _ _ _)) (fun within => ?_)
  have taken := State.afterDataRequest_acts (Nat.not_le.1 within)
  refine Acts.ite (fun _ => taken.trans (State.answer_acts _ _ _)) (fun _ => Acts.ite (fun _ => ?_) (fun _ => ?_))
  · have dropped : Acts s s.dropRequest := .single .drops
    exact (dropped.trans (State.setVirtHead_acts (fun _ => by rw [State.dropRequest_eq]; exact Nat.not_le.1 within))).trans
      (State.readControl_acts _)
  · exact taken.trans ((s.afterDataRequest_free head).dataRead_acts _)

/-! ## WRITE (R14, R16, R17, R46) -/

theorem State.Free.waitForRoom_acts {s : State} (free : s.Free) (serves : packServes s.pack.state = true) (a : Addr) (ws : List Word) :
    Acts s (s.waitForRoom a ws) := by
  unfold State.waitForRoom
  exact Acts.ite (fun _ => State.answer_acts _ _ _) (fun _ => .single (.waits a ws _ serves free.outstanding free.sequence))

theorem State.Free.interposeWrite_acts {s : State} (free : s.Free) (serves : packServes s.pack.state = true) (a : Addr)
    (ws : List Word) : Acts s (s.interposeWrite a ws) := by
  unfold State.interposeWrite
  split
  · exact State.answer_acts _ _ _
  · split
    · next t diverted => exact (State.divert_acts serves diverted).trans (State.answer_acts _ _ _)
    · exact (State.setEvent_acts .storeFull s).trans (State.answer_acts _ _ _)
  · refine Acts.ite (fun _ => State.answer_acts _ _ _) (fun _ => Acts.ite (fun room => ?_) (fun _ => free.waitForRoom_acts serves a ws))
    exact (State.takePost_acts (.inl serves) room (.inl free.sequence)).trans (State.answer_acts _ _ _)

theorem State.Free.dataWrite_acts {s : State} (free : s.Free) (a : Addr) (ws : List Word) : Acts s (s.dataWrite a ws) := by
  unfold State.dataWrite
  refine Acts.ite (fun _ => State.answer_acts _ _ _) (fun served => ?_)
  split
  · exact free.interposeWrite_acts (by simpa using served) a ws
  · unfold State.transparentWrite
    exact Acts.ite (fun _ => State.requestPortWork_acts free.outstanding free.hold rfl) (fun _ => State.answer_acts _ _ _)

/-! ## The data sector of LOAD SECTOR (R52) -/

theorem State.takeDataSector_acts {a : Addr} {s : State} (awaited : s.ci.sequence = .awaitData a) (ws : List Word) :
    Acts s (s.takeDataSector a ws) := by
  have loaded : Acts s (s.loadData a ws).2 := by
    unfold State.loadData
    split
    · exact .refl
    · next served =>
      split
      · next t stored =>
        obtain ⟨n, slot, rfl⟩ := State.storeSector_some stored
        exact .single (.stores a .loaded ws n slot (by simpa using served) (.inr awaited))
      · exact .refl
  have readied : Acts (s.loadData a ws).2 { (s.loadData a ws).2 with ci := { (s.loadData a ws).2.ci with sequence := .ready } } :=
    .single .readies
  exact (loaded.trans readied).trans (Acts.unseen rfl)

/-! ## SENSE (R9) -/

theorem State.takeSense_acts (s : State) : Acts s s.takeSense := .trans (.single .abandons) (Acts.unseen rfl)

/-! ## FORMAT (R15, R37) -/

/-- Format Enable cleared (R36, R37). -/
def State.disarmed (s : State) : State := { s with port := { s.port with formatEnable := false } }

theorem State.formatEffects_port (t : Track) {s : State} (unheld : s.port.hold = none) : (s.formatEffects t).port = s.port := by
  have before : (((s.removeTrackEntries t).dropPosts (fun b => b.track == t)).emptyTrackBuffer t).port = s.port := rfl
  rw [← before]
  exact (State.supersedeAll_acts t _ _).port_unheld (by rw [before, unheld])

/-- A FORMAT is turned away, or its taking clears Format Enable before anything else (R6, R37). -/
theorem State.Free.dataFormat_acts {s : State} (free : s.Free) (t : Track) :
    Acts s (s.dataFormat t) ∨ Acts s.disarmed (s.dataFormat t) := by
  unfold State.dataFormat
  split
  · exact .inl (State.answer_acts _ _ _)
  · refine .inr (Acts.ite (fun _ => ?_) (fun _ => State.answer_acts _ _ _))
    have port := State.formatEffects_port t (s := s.disarmed) free.hold
    exact (State.formatEffects_acts t s.disarmed).trans
      (State.requestPortWork_acts (by rw [port]; exact free.outstanding) (by rw [port]; exact free.hold) rfl)

theorem State.takeFormat_acts (head : Nat) (s : State) :
    ∃ u, Acts s u ∧ (Acts u (s.takeFormat head) ∨ Acts u.disarmed (s.takeFormat head)) := by
  rw [State.takeFormat_eq]
  split
  · exact ⟨_, s.afterRequest_acts, .inl (State.answer_acts _ _ _)⟩
  · next within =>
    exact ⟨_, State.afterDataRequest_acts (Nat.not_le.1 within), (s.afterDataRequest_free head).dataFormat_acts _⟩

/-! ## Controller Clear (R23) -/

theorem State.controllerClear_acts (s : State) : ∃ u, Acts s u ∧ s.controllerClear = u.disarmed := by
  refine ⟨{ s.dropRequest.abandonSequence.selectStatus with
    port := { s.dropRequest.abandonSequence.selectStatus.port with virtCyl := 0, virtHead := 0 } }, ?_, rfl⟩
  have selected : Acts s s.dropRequest.abandonSequence.selectStatus := .tail (.tail (.single .drops) .abandons) .selects
  exact selected.tail (.places 0 0 (fun wf => ⟨State.tablesWf_cylinders wf, Nat.zero_lt_of_lt (State.tablesWf_position wf).2⟩))

end Sys2Proof.Machine
end

