-- ==== Sys2Proof/Proofs/CommandEffects.lean ====
section
/-! What each command of the Command Interface does: acts, one of the moves of its own setting, or a confirmed command (R8, R26 to R30,
R35, R51 to R58, R88, R104 to R107, R117, R131 to R133, R155 to R158, R162 to R178). -/

namespace Sys2Proof.Machine

/-! ## The values the commands set -/

theorem geometryOf_wf {ps : List Word} {g : Geometry} (h : geometryOf ps = some g) : geometryWf g = true := by
  unfold geometryOf at h
  split at h
  · split at h
    · next limits =>
      cases h
      simp only [geometryWf, Bool.and_eq_true, Bool.or_eq_true, decide_eq_true_eq, beq_iff_eq]
      tauto
    · cases h
  · cases h

theorem addrOf_within {g : Geometry} {ps : List Word} {a : Addr} (h : addrOf g ps = some a) : a.within g = true := by
  unfold addrOf at h
  split at h
  · dsimp only at h
    split at h
    · next within => cases h; exact within
    · cases h
  · cases h

theorem clampNat_within {low high : Nat} (x : Nat) (h : low ≤ high) : low ≤ clampNat low high x ∧ clampNat low high x ≤ high := by
  rw [clampNat_eq low high x h]
  omega

theorem clampInt_within {low high : Int} (x : Int) (h : low ≤ high) : low ≤ clampInt low high x ∧ clampInt low high x ≤ high := by
  rw [clampInt_eq low high x h]
  omega

theorem stepOf_wf {ps : List Word} {t : LadderStep} {clamped : Bool} (h : stepOf ps = some (t, clamped)) : stepWf t = true := by
  unfold stepOf at h
  split at h
  · next strobe off thr passes vm fl fc inf _ =>
    split at h
    · cases h
      have h1 := clampInt_within (low := -6) (high := 6) strobe.toInt (by omega)
      have h2 := clampInt_within (low := -50) (high := 50) off.toInt (by omega)
      have h3 := clampNat_within (low := 0) (high := 15) thr.toNat (by omega)
      have h4 := clampNat_within (low := 1) (high := 8) passes.toNat (by omega)
      have h5 := clampNat_within (low := 0) (high := 4) fl.toNat (by omega)
      have h6 := clampNat_within (low := 0) (high := 127) fc.toNat (by omega)
      simp only [stepWf, Bool.and_eq_true, decide_eq_true_eq]
      exact ⟨⟨⟨⟨⟨⟨⟨⟨h1.1, h1.2⟩, h2.1⟩, h2.2⟩, h3.2⟩, h4.1⟩, h4.2⟩, h5.2⟩, h6.2⟩
    · cases h
  · cases h

theorem regionOf_wf {g : Geometry} {ps : List Word} {slot : Nat} {r : Region} (h : regionOf g ps = some (slot, r)) :
    slot < 16 ∧ regionWf g.cylinders r = true := by
  unfold regionOf at h
  split at h
  · split at h
    · split at h
      · next limits =>
        cases h
        obtain ⟨inTable, order, below, ladder⟩ := limits
        simp only [regionWf, Bool.and_eq_true, decide_eq_true_eq]
        exact ⟨inTable, ⟨order, below⟩, ladder⟩
      · cases h
    · cases h
  · cases h

/-! ## A region loaded or deleted (R24, R27, R28) -/

/-- Two slots share no cylinder where both are occupied. -/
def slotsApart (o p : Option Region) : Prop := ∀ r t, o = some r → p = some t → Region.overlaps r t = false

theorem regionsApart_iff (l : List (Option Region)) : regionsApart l = true ↔ l.Pairwise slotsApart := by
  induction l with
  | nil => simp [regionsApart]
  | cons o l ih =>
    cases o with
    | none => simp [regionsApart, ih, slotsApart]
    | some r =>
      rw [regionsApart_cons_some, apartFrom_iff, ih, List.pairwise_cons]
      refine and_congr_left fun _ => ⟨?_, fun h t mem => h _ mem r t rfl rfl⟩
      rintro h p mem _ t ⟨⟩ rfl
      exact h t mem

theorem overlaps_symm (r t : Region) : Region.overlaps r t = Region.overlaps t r := Bool.and_comm _ _

/-- A region that overlaps no other slot shares no cylinder with the region of one. -/
theorem overlapsOther_apart {slot k : Nat} {r t : Region} {l : List (Option Region)} (apart : overlapsOther slot r 0 l = false)
    (found : l[k]? = some (some t)) (ne : k ≠ slot) : Region.overlaps r t = false := by
  refine Bool.eq_false_iff.2 fun shares => ?_
  simp only [Region.overlaps, Bool.and_eq_true, decide_eq_true_eq] at shares
  exact Bool.false_ne_true (apart.symm.trans ((overlapsOther_iff slot r 0 l).2 ⟨k, t, by omega, found, shares⟩))

/-- A slot replaced keeps the table's form when the new region lies in range and apart from the other slots. -/
theorem regionsWf_set {c slot : Nat} {o : Option Region} {l : List (Option Region)} (h : regionsWf c l = true)
    (within : ∀ r, o = some r → regionWf c r = true) (apart : ∀ r, o = some r → overlapsOther slot r 0 l = false) :
    regionsWf c (l.set slot o) = true := by
  simp only [regionsWf, Bool.and_eq_true, List.all_eq_true, regionsApart_iff, List.length_set] at h ⊢
  obtain ⟨⟨length, each⟩, pairs⟩ := h
  refine ⟨⟨length, fun p mem => ?_⟩, List.pairwise_iff_getElem.2 fun i j hi hj lt r t hr ht => ?_⟩
  · rcases List.mem_or_eq_of_mem_set mem with old | new
    · exact each p old
    · subst new
      cases p with
      | none => rfl
      | some r => exact within r rfl
  · have others (k : Nat) (hk : k < l.length) (u v : Region) (hu : o = some u) (hv : l[k] = some v) (ne : k ≠ slot) :
        Region.overlaps u v = false :=
      overlapsOther_apart (apart u hu) (by rw [List.getElem?_eq_getElem hk, hv]) ne
    rw [List.length_set] at hi hj
    rw [List.getElem_set] at hr ht
    split at hr
    · next same =>
      rw [if_neg (by omega)] at ht
      exact others j hj r t hr ht (by omega)
    · split at ht
      · rw [overlaps_symm]
        exact others i hi t r ht hr (by omega)
      · exact List.pairwise_iff_getElem.1 pairs i j hi hj lt r t hr ht

/-- A ladder replaced keeps the table's form. -/
theorem laddersWf_set {n : Nat} {ts : List LadderStep} {l : List (List LadderStep)} (h : laddersWf l = true) (length : ts.length ≤ 12)
    (steps : ∀ t ∈ ts, stepWf t = true) : laddersWf (l.set n ts) = true := by
  simp only [laddersWf, Bool.and_eq_true, List.all_eq_true, List.length_set, decide_eq_true_eq] at h ⊢
  refine ⟨h.1, fun us mem => ?_⟩
  rcases List.mem_or_eq_of_mem_set mem with old | rfl
  · exact h.2 us old
  · exact ⟨length, steps⟩

theorem laddersWf_getD {n : Nat} {l : List (List LadderStep)} (h : laddersWf l = true) :
    (l.getD n []).length ≤ 12 ∧ ∀ t ∈ l.getD n [], stepWf t = true := by
  simp only [laddersWf, Bool.and_eq_true, List.all_eq_true, decide_eq_true_eq] at h
  rw [List.getD_eq_getElem?_getD]
  cases found : l[n]? with
  | none => simp
  | some ts => exact h.2 ts (List.mem_of_getElem? found)

/-! ## The effect of a command -/

/-- What a command does with its code: acts, the one permission of PERMIT UNLOAD, or the move of its own setting. -/
inductive CommandEffect (code : Word) (s : State) : ResultCode × State → Prop
  | acts (r : ResultCode) (t : State) (h : Acts s t) : CommandEffect code s (r, t)
  | permits (pending : s.pack.state = .unloadPending) :
      CommandEffect code s (.ok, s.withPack (fun p => { p with permitGiven := true }))
  | geometry (g : Geometry) (wf : geometryWf g = true) (unloaded : s.pack.state = .empty ∨ s.pack.state = .spinningUp)
      (own : code = Code.setGeometry) : CommandEffect code s (.ok, s.setGeometry g)
  | regions (l : List (Option Region)) (wf : regionsWf s.geom.cylinders s.regions = true → regionsWf s.geom.cylinders l = true)
      (own : code = Code.loadRegion ∨ code = Code.deleteRegion) : CommandEffect code s (.ok, { s with regions := l })
  | ladders (r : ResultCode) (l : List (List LadderStep)) (wf : laddersWf s.ladders = true → laddersWf l = true)
      (result : r = .ok ∨ r = .clamped) (own : code = Code.loadLadderStep ∨ code = Code.clearLadder) :
      CommandEffect code s (r, { s with ladders := l })
  | guard (g : UnloadGuard) (own : code = Code.setGuard) :
      CommandEffect code s (.ok, s.withPack (fun p => { p with unloadGuard := g }))
  | mode (m : Mode) (own : code = Code.setMode) :
      CommandEffect code s (.ok, ({ s with port := { s.port with mode := m }
                                           engine := { s.engine with transparent := m == Mode.transparent } } : State).poke)
  | timing (r : ResultCode) (t : Timing) (wf : timingWf t = true) (result : r = .ok ∨ r = .clamped) (own : code = Code.setTiming) :
      CommandEffect code s (r, { s with timing := t })
  | trim (r : ResultCode) (v : Int) (wf : trimWf v = true) (result : r = .ok ∨ r = .clamped) (own : code = Code.setTrim) :
      CommandEffect code s (r, s.withDrive (fun d => { d with trim := v }))
  | controlAddr (a : Addr) (wf : a.within s.geom = true) (own : code = Code.setControlAddress) :
      CommandEffect code s (.ok, { s with ci := { s.ci with controlAddr := a } })
  | events (mask : Word) (own : code = Code.clearEvents) :
      CommandEffect code s (.ok, { s with events := clearEvents mask s.events })

theorem CommandEffect.moves {code : Word} {s : State} {p : ResultCode × State} (h : CommandEffect code s p) : Moves s p.2 := by
  cases h with
  | acts r t h => exact h.moves
  | permits pending => exact Turns.moves (.single (.permits pending))
  | geometry g wf unloaded own => exact .single (.geometry g wf unloaded)
  | regions l wf own => exact .single (.regions l wf)
  | ladders r l wf result own => exact .single (.ladders l wf)
  | guard g own => exact .single (.guard g)
  | mode m own => exact .trans (.single (.mode m)) (State.poke_acts _).acts.moves
  | timing r t wf result own => exact .single (.timing t wf)
  | trim r v wf result own => exact .single (.trim v wf)
  | controlAddr a wf own => exact .single (.controlAddr a wf)
  | events mask own => exact .single (.events mask)

theorem CommandEffect.refused {code : Word} {s : State} (r : ResultCode) : CommandEffect code s (r, s) := .acts r s .refl

/-! ## The queries (R29, R56 to R58, R107, R168, R172, R175) -/

/-- A reply formed asks nothing of the drive. -/
theorem State.replyWith_acts {s : State} (unasked : s.ci.reply = none) (kind : ReplyKind) (r : ResultCode) (contents : List Word) :
    Acts s (s.replyWith kind r contents).2 := by
  refine Acts.unseen ?_
  simp [State.replyWith, State.withReply, State.seen, State.asksDrive, unasked, formReply]

section
variable {code : Word} {s : State}

theorem State.replyWith_effect (unasked : s.ci.reply = none) (kind : ReplyKind) (r : ResultCode) (contents : List Word) :
    CommandEffect code s (s.replyWith kind r contents) := .acts _ _ (State.replyWith_acts unasked kind r contents)

theorem Engine.WellQueued.withRecords {e : Engine} {m n : Nat} {unloading : Prop} (h : e.WellQueued m unloading) (fewer : n ≤ m) :
    e.WellQueued n unloading := { h with places := by have := h.places; omega }

theorem cmdReadResult_effect (unasked : s.ci.reply = none) (ps : List Word) : CommandEffect code s (cmdReadResult ps s) := by
  unfold cmdReadResult
  split
  · exact State.replyWith_effect unasked _ _ _
  · next r rest records =>
    have taken : EngineActs s { s with results := rest } :=
      EngineActs.queues { noPack := rfl, speed := rfl, transparent := rfl, live := .inl, ending := .inl
                          wellQueued := fun h => h.withRecords (by simp [records]) }
    have shown : Acts { s with results := rest } (({ s with results := rest } : State).replyWith .result .ok (r.contents rest.length)).2 :=
      State.replyWith_acts (s := { s with results := rest }) unasked _ _ _
    exact .acts _ _ (((taken.acts.trans shown).trans (State.liftResultsFull_acts _).acts).trans (State.poke_acts _).acts)

theorem cmdReadMapEntry_effect (unasked : s.ci.reply = none) (ps : List Word) : CommandEffect code s (cmdReadMapEntry ps s) := by
  unfold cmdReadMapEntry
  split
  · exact .refused _
  · exact State.replyWith_effect unasked _ _ _

theorem cmdReadStoreData_effect (unasked : s.ci.reply = none) (ps : List Word) : CommandEffect code s (cmdReadStoreData ps s) := by
  unfold cmdReadStoreData
  split
  · exact .refused _
  · split
    · exact State.replyWith_effect unasked _ _ _
    · exact State.replyWith_effect unasked _ _ _

theorem cmdListMap_effect (unasked : s.ci.reply = none) (ps : List Word) : CommandEffect code s (cmdListMap ps s) := by
  unfold cmdListMap
  split
  · exact .refused _
  · exact State.replyWith_effect unasked _ _ _

theorem cmdReadRegion_effect (unasked : s.ci.reply = none) (ps : List Word) : CommandEffect code s (cmdReadRegion ps s) := by
  unfold cmdReadRegion
  split
  · exact .refused _
  · split
    · exact State.replyWith_effect unasked _ _ _
    · exact .refused _

theorem cmdReadLadder_effect (unasked : s.ci.reply = none) (ps : List Word) : CommandEffect code s (cmdReadLadder ps s) := by
  unfold cmdReadLadder
  split
  · exact .refused _
  · split
    · exact State.replyWith_effect unasked _ _ _
    · exact .refused _

theorem cmdReadDriveSector_effect (unasked : s.ci.reply = none) (ps : List Word) :
    CommandEffect code s (cmdReadDriveSector ps s) := by
  unfold cmdReadDriveSector
  split
  · exact .refused _
  · next a _ =>
    split
    · exact .refused _
    · refine .acts _ _ (Acts.ite (fun _ => .single (.asks a unasked)) (fun _ => Acts.unseen ?_))
      simp [State.fillDriveReplyEmpty, State.fillDriveReply, State.withReply, State.seen, State.asksDrive, unasked]

/-! ## The tables and the other values (R8, R26 to R28, R88, R104 to R106, R155, R162, R173, R176, R178) -/

theorem cmdLoadRegion_effect (ps : List Word) : CommandEffect Code.loadRegion s (cmdLoadRegion ps s) := by
  unfold cmdLoadRegion
  split
  · exact .refused _
  · next slot r named =>
    split
    · exact .refused _
    · next apart =>
      refine .regions _ (fun wf => regionsWf_set wf ?_ ?_) (.inl rfl)
      · rintro _ ⟨⟩; exact (regionOf_wf named).2
      · rintro _ ⟨⟩; simpa using apart

theorem cmdDeleteRegion_effect (ps : List Word) : CommandEffect Code.deleteRegion s (cmdDeleteRegion ps s) := by
  unfold cmdDeleteRegion
  split
  · exact .refused _
  · split
    · split
      · exact .refused _
      · exact .regions _ (fun wf => regionsWf_set wf (by simp) (by simp)) (.inr rfl)
    · exact .refused _

theorem cmdLoadLadderStep_effect (ps : List Word) : CommandEffect Code.loadLadderStep s (cmdLoadLadderStep ps s) := by
  unfold cmdLoadLadderStep
  split
  · next ladder index fields =>
    split
    · exact .refused _
    · next t clamped step =>
      dsimp only
      split
      · exact .refused _
      · next room =>
        have room : index.toNat < 12 := Nat.not_le.1 fun full => room (.inr (.inr full))
        refine .ladders _ _ (fun wf => laddersWf_set wf ?_ ?_) (by split <;> simp) (.inl rfl)
        · split
          · next last => rw [List.length_append, ← last]; exact room
          · rw [List.length_set]; exact (laddersWf_getD wf).1
        · intro u mem
          split at mem
          · rcases List.mem_append.1 mem with old | new
            · exact (laddersWf_getD wf).2 u old
            · rw [List.mem_singleton.1 new]; exact stepOf_wf step
          · rcases List.mem_or_eq_of_mem_set mem with old | rfl
            · exact (laddersWf_getD wf).2 u old
            · exact stepOf_wf step
  · exact .refused _

theorem cmdClearLadder_effect (ps : List Word) : CommandEffect Code.clearLadder s (cmdClearLadder ps s) := by
  unfold cmdClearLadder
  split
  · exact .refused _
  · split
    · exact .refused _
    · split
      · exact .refused _
      · exact .ladders _ _ (fun wf => laddersWf_set wf (by simp) (by simp)) (.inl rfl) (.inr rfl)

theorem cmdSetMode_effect (ps : List Word) : CommandEffect Code.setMode s (cmdSetMode ps s) := by
  unfold cmdSetMode
  split
  · exact .refused _
  · next m _ =>
    split
    · exact .refused _
    · split
      · exact .refused _
      · exact .mode m rfl

theorem cmdSetGeometry_effect (ps : List Word) : CommandEffect Code.setGeometry s (cmdSetGeometry ps s) := by
  unfold cmdSetGeometry
  split
  · exact .refused _
  · next g named =>
    split
    case h_4 empty => exact .geometry g (geometryOf_wf named) (.inl empty) rfl
    case h_5 spinning => exact .geometry g (geometryOf_wf named) (.inr spinning) rfl
    all_goals exact .refused _

theorem cmdSetTiming_effect (ps : List Word) : CommandEffect Code.setTiming s (cmdSetTiming ps s) := by
  unfold cmdSetTiming
  split
  · next hold window latency _ =>
    refine .timing _ _ ?_ (by split <;> simp) rfl
    have h1 := clampNat_within (low := 0) (high := 2000) hold.toNat (by omega)
    have h2 := clampNat_within (low := 0) (high := 1000) window.toNat (by omega)
    have h3 := clampNat_within (low := 10) (high := 2000) latency.toNat (by omega)
    simp only [timingWf, Bool.and_eq_true, decide_eq_true_eq]
    exact ⟨⟨⟨h1.2, h2.2⟩, h3.1⟩, h3.2⟩
  · exact .refused _

theorem cmdSetTrim_effect (ps : List Word) : CommandEffect Code.setTrim s (cmdSetTrim ps s) := by
  unfold cmdSetTrim
  split
  · exact .refused _
  · next t _ =>
    refine .trim _ _ ?_ (by split <;> simp) rfl
    have within := clampInt_within (low := -512) (high := 511) t.toInt (by omega)
    simp only [trimWf, Bool.and_eq_true, decide_eq_true_eq]
    exact within

theorem cmdSetControlAddress_effect (ps : List Word) : CommandEffect Code.setControlAddress s (cmdSetControlAddress ps s) := by
  unfold cmdSetControlAddress
  split
  · exact .refused _
  · next a named => exact .controlAddr a (addrOf_within named) rfl

theorem cmdClearEvents_effect (ps : List Word) : CommandEffect Code.clearEvents s (cmdClearEvents ps s) := by
  unfold cmdClearEvents
  split
  · exact .refused _
  · exact .events _ rfl

theorem cmdSetGuard_effect (ps : List Word) : CommandEffect Code.setGuard s (cmdSetGuard ps s) := by
  unfold cmdSetGuard
  split
  · exact .refused _
  · next g _ => exact .guard g rfl

/-! ## The Recovery Engine (R117, R131 to R133) -/

theorem cmdRecoverTrack_effect (ps : List Word) : CommandEffect code s (cmdRecoverTrack ps s) := by
  unfold cmdRecoverTrack
  split
  · exact .refused _
  · split
    · exact .refused _
    · next serves =>
      split
      · exact .refused _
      · next t taken => exact .acts _ _ (State.commandedRequest_acts (by simpa using serves) taken).acts

theorem cmdCancelTrack_effect (ps : List Word) : CommandEffect code s (cmdCancelTrack ps s) := by
  unfold cmdCancelTrack
  split
  · dsimp only
    split
    · exact .refused _
    · split
      · exact .refused _
      · next j place => exact .acts _ _ (State.cutActive_acts .cancelled (Engine.place_active place).1)
      · next j place =>
        have parked := (Engine.place_parked place).1
        exact .acts _ _ (State.endJob_acts _ _ _ _ (.of_parked parked) (.inr (jobs_ne_nil_of_parked parked))).acts
      · next before j after place =>
        have queued := (Engine.place_queued place).1
        exact .acts _ _ (State.endJob_acts _ _ _ _ (.of_queued queued rfl) (.inr (by simp [Engine.jobs, queued]))).acts
  · exact .refused _

theorem cmdSuspendEngine_effect (ps : List Word) : CommandEffect code s (cmdSuspendEngine ps s) :=
  .acts _ _ ((s.suspend_acts true).acts.trans (Acts.unseen rfl))

theorem cmdResumeEngine_effect (ps : List Word) : CommandEffect code s (cmdResumeEngine ps s) :=
  .acts _ _ ((s.suspend_acts false).acts.trans (State.poke_acts _).acts)

theorem cmdResetEngine_effect (ps : List Word) : CommandEffect code s (cmdResetEngine ps s) := by
  unfold cmdResetEngine
  refine .acts _ _ (.trans (.trans ?_ (State.abandonJobs_acts _).acts) (State.engineAtRest_acts _).acts)
  split
  · exact s.abortRecovery_acts.trans (State.finishEnding_acts _).acts
  · next j active => exact (State.cutActive_acts .abandoned active).trans (State.finishEnding_acts _).acts

/-! ## The map, FORMAT and the pack (R35, R51 to R54, R156, R158) -/

theorem cmdLoadSector_effect (unheld : s.port.hold = none) (ps : List Word) : CommandEffect code s (cmdLoadSector ps s) := by
  unfold cmdLoadSector
  split
  · exact .refused _
  · next a _ =>
    split
    · exact .refused _
    · split
      · exact .refused _
      · next unposted =>
        split
        · exact .refused _
        · exact .acts _ _ (.single (.awaitsData a (by simpa using unposted) unheld))

theorem cmdDropSector_effect (ps : List Word) : CommandEffect code s (cmdDropSector ps s) := by
  unfold cmdDropSector
  split
  · exact .refused _
  · split
    · exact .acts _ _ (.single (.unmaps _))
    · exact .refused _

theorem cmdPermitUnload_effect (ps : List Word) : CommandEffect code s (cmdPermitUnload ps s) := by
  unfold cmdPermitUnload
  split
  case h_4 pending => exact .permits pending
  all_goals exact .refused _

theorem awaitConfirm_effect {pending : Word} (listed : pending = Code.clearMap ∨ pending = Code.forceUnload ∨ pending = Code.enableFormat) :
    CommandEffect code s (s.awaitConfirm pending) := .acts _ _ (.single (.awaitsConfirm pending listed))

/-- Every command by its code. -/
theorem commandBody_effect (unasked : s.ci.reply = none) (unheld : s.port.hold = none) (ps : List Word) :
    CommandEffect code s (commandBody code ps s) := by
  unfold commandBody
  refine iteInduction (fun _ => .refused _) (fun _ => ?_)
  refine iteInduction (fun _ => cmdReadResult_effect unasked ps) (fun _ => ?_)
  refine iteInduction (fun _ => cmdReadMapEntry_effect unasked ps) (fun _ => ?_)
  refine iteInduction (fun _ => cmdReadStoreData_effect unasked ps) (fun _ => ?_)
  refine iteInduction (fun _ => cmdListMap_effect unasked ps) (fun _ => ?_)
  refine iteInduction (fun _ => cmdReadRegion_effect unasked ps) (fun _ => ?_)
  refine iteInduction (fun _ => cmdReadLadder_effect unasked ps) (fun _ => ?_)
  refine iteInduction (fun _ => cmdReadDriveSector_effect unasked ps) (fun _ => ?_)
  refine iteInduction (fun own => own ▸ cmdLoadRegion_effect ps) (fun _ => ?_)
  refine iteInduction (fun own => own ▸ cmdDeleteRegion_effect ps) (fun _ => ?_)
  refine iteInduction (fun own => own ▸ cmdLoadLadderStep_effect ps) (fun _ => ?_)
  refine iteInduction (fun own => own ▸ cmdClearLadder_effect ps) (fun _ => ?_)
  refine iteInduction (fun _ => cmdRecoverTrack_effect ps) (fun _ => ?_)
  refine iteInduction (fun _ => cmdCancelTrack_effect ps) (fun _ => ?_)
  refine iteInduction (fun _ => cmdSuspendEngine_effect ps) (fun _ => ?_)
  refine iteInduction (fun _ => cmdResumeEngine_effect ps) (fun _ => ?_)
  refine iteInduction (fun _ => cmdResetEngine_effect ps) (fun _ => ?_)
  refine iteInduction (fun _ => cmdLoadSector_effect unheld ps) (fun _ => ?_)
  refine iteInduction (fun _ => cmdDropSector_effect ps) (fun _ => ?_)
  refine iteInduction (fun _ => awaitConfirm_effect (.inl rfl)) (fun _ => ?_)
  refine iteInduction (fun _ => cmdPermitUnload_effect ps) (fun _ => ?_)
  refine iteInduction (fun _ => awaitConfirm_effect (.inr (.inl rfl))) (fun _ => ?_)
  refine iteInduction (fun own => own ▸ cmdSetGuard_effect ps) (fun _ => ?_)
  refine iteInduction (fun own => own ▸ cmdSetMode_effect ps) (fun _ => ?_)
  refine iteInduction (fun own => own ▸ cmdSetGeometry_effect ps) (fun _ => ?_)
  refine iteInduction (fun own => own ▸ cmdSetTiming_effect ps) (fun _ => ?_)
  refine iteInduction (fun own => own ▸ cmdSetTrim_effect ps) (fun _ => ?_)
  refine iteInduction (fun own => own ▸ cmdSetControlAddress_effect ps) (fun _ => ?_)
  refine iteInduction (fun _ => awaitConfirm_effect (.inr (.inr rfl))) (fun _ => ?_)
  refine iteInduction (fun own => own ▸ cmdClearEvents_effect ps) (fun _ => ?_)
  exact iteInduction (fun _ => .refused _) (fun _ => .refused _)

theorem runBody_effect (unasked : s.ci.reply = none) (unheld : s.port.hold = none) (count : Nat) (ps : List Word) :
    CommandEffect code s (runBody count (commandBody code ps) s) := by
  unfold runBody
  split
  · exact .refused _
  · exact commandBody_effect unasked unheld ps

end

/-! ## The confirmed commands (R35, R54, R158, R166) -/

theorem confirmed_turns (code : Word) (s : State) : Turns s (confirmed code s).2 := by
  unfold confirmed
  split
  · have cleared : Act s { s with map := { s.map with entries := s.map.entries.filter (fun _ => false) } } := .unmaps _
    rw [List.filter_false] at cleared
    exact .single (.act _ cleared)
  · split
    · unfold confirmedForceUnload
      split
      · exact .refl
      · next spinning => exact State.giveRelease_turns (by simp [spinning]) (by simp [spinning, packServes])
      · next loaded => exact State.forceRelease_turns (by simp [loaded])
      · next pending => exact State.forceRelease_turns (by simp [pending])
      · exact .refl
    · unfold confirmedEnableFormat
      split
      · next serves => exact .single (.arms serves)
      · exact .refl

end Sys2Proof.Machine
end

