-- ==== Sys2Proof/Proofs/RowActs.lean ====
section
/-! The rows of the Drive Arbiter, of the drive's positioning, rotation, reading and writing, and of the part's own moments as moves (R19,
R21, R62, R64, R71 to R76, R81 to R97, R119, R121, R122, R125). -/

namespace Sys2Proof.Machine

/-! ## Grants (R64, R71, R81, R82, R109, R124) -/

theorem State.grantFlush_acts (s : State) : Acts s s.grantFlush := by
  unfold State.grantFlush
  refine Acts.ite (fun _ => ?_) (fun _ => Acts.unseen rfl)
  split
  · exact .refl
  · exact s.startGrant_acts _ _

theorem State.giveBuffer_seen (i : Nat) (t : Track) (g : Stage) (s : State) : ((s.giveBuffer i t).setStage g).seen = (s.setStage g).seen := by
  unfold State.giveBuffer
  split <;> rfl

/-- A granted request of the Controller Port begins its work. -/
theorem State.grantPortWork_acts {w : Work} {rest : List ControllerRequest} {s : State}
    (front : s.drive.requests = { client := .port, work := w } :: rest) :
    Acts s ((s.withDrive (fun d => { d with requests := rest })).grantPortWork w) := by
  have granted (g : Stage) (past : g ≠ .standing) (unheld : g ≠ .held) :
      Acts s ((s.withDrive (fun d => { d with requests := rest })).setStage g) := .single (.grantsPort w rest g front past unheld)
  have works : Acts s ((s.withDrive (fun d => { d with requests := rest })).setStage .working) := granted .working (by simp) (by simp)
  unfold State.grantPortWork
  split
  · next a prefetch =>
    refine Acts.ite (fun _ => ?_) (fun _ => works.trans (State.startGrant_acts _ _ _))
    exact ((granted .capturing (by simp) (by simp)).trans (Acts.unseen (State.giveBuffer_seen _ a.track .capturing _))).trans
      (State.startGrant_acts _ _ _)
  all_goals exact works.trans (State.startGrant_acts _ _ _)

theorem State.grantController_acts {r : ControllerRequest} {rest : List ControllerRequest} {s : State}
    (front : s.drive.requests = r :: rest) : Acts s (s.grantController r rest) := by
  obtain ⟨client, w⟩ := r
  cases client with
  | port => exact State.grantPortWork_acts front
  | commandInterface =>
    have granted : Acts s (s.withDrive (fun d => { d with requests := rest })).markDriveReply := .single (.grantsRead w rest front)
    exact granted.trans (State.startGrant_acts _ _ _)

theorem State.grantRecovery_acts (s : State) : Acts s s.grantRecovery := by
  unfold State.grantRecovery
  split
  · exact .refl
  · split
    · exact .refl
    · have withdrawn : Acts s (s.setRecoveryRequest false) := Acts.unseen rfl
      have recalibrates := (State.updateActive_acts (fun j => { j with recalFirst := false }) (fun _ => rfl) (s.setRecoveryRequest false)).acts
      exact (withdrawn.trans recalibrates).trans (State.startGrant_acts _ _ _)

theorem State.giveGrant_acts (s : State) : Acts s s.giveGrant := by
  unfold State.giveGrant
  split
  · exact s.grantFlush_acts
  · next r rest wins => exact State.grantController_acts (State.winner_controller wins)
  · exact s.grantRecovery_acts
  · exact .refl

/-! ## The running grant (R83, R84, R86, R100) -/

theorem State.grantIn_eq {a : Activity} {g : Grant} {s : State} (h : s.grantIn a = some g) :
    s.drive.activity = a ∧ s.drive.grant = some g := by
  unfold State.grantIn at h
  split at h
  · next same => exact ⟨same, h⟩
  · cases h

section
variable {s : State} {g : Grant}

/-- A running grant's record replaced: a grant runs still. -/
theorem State.setGrant_seen {g' : Grant} (running : s.drive.grant = some g) : (s.setGrant g').seen = s.seen := by
  simp [State.seen, State.setGrant, State.withDrive, State.asksDrive, running]

theorem State.positioningDone_acts (running : s.drive.grant = some g) (recalibrating : Bool) :
    Acts s (s.positioningDone recalibrating g) := by
  have moved (c : Option Nat) : Acts s (s.setPhysCyl c) := Acts.unseen rfl
  have runs (c : Option Nat) : (s.setPhysCyl c).Grants (s.setPhysCyl c) := State.Grants.of_running running
  unfold State.positioningDone
  split
  · exact (moved (some 0)).trans (Acts.ite (fun _ => State.endGrant_acts _) (fun _ => (runs (some 0)).seekPhase_acts g))
  · exact (moved g.work.cylinder).trans (Acts.ite (fun _ => State.endGrant_acts _) (fun _ => (runs g.work.cylinder).positioned_acts g))

theorem State.positioningExpired_acts (running : s.drive.grant = some g) (recalibrating : Bool) :
    Acts s (s.positioningExpired recalibrating g) := by
  have lost : Acts s (s.setPhysCyl none) := Acts.unseen rfl
  have runs : (s.setPhysCyl none).drive.grant = some g := running
  unfold State.positioningExpired
  refine lost.trans (Acts.ite (fun _ => State.endGrant_acts _) (fun _ => Acts.ite (fun _ => ?_) (fun _ => ?_)))
  · exact State.recalibrateLost_acts runs _ _
  · split
    · exact State.positioningLost_acts runs _ _
    all_goals exact State.positioningFailure_acts runs _ _

theorem State.settled_acts (running : s.drive.grant = some g) (g' : Grant)
    (f : Drive → Drive)
    (same : ∀ d, (f d).grant = d.grant ∧ (f d).requests = d.requests ∧ (f d).trim = d.trim ∧ (f d).activity = d.activity) :
    Acts s (((s.withDrive f).setGrant g').beginWork g') := by
  obtain ⟨grant, requests, trim, activity⟩ := same s.drive
  have alike : ((s.withDrive f).setGrant g').seen = s.seen := by
    simp [State.seen, State.setGrant, State.withDrive, State.asksDrive, requests, trim, activity, running]
  have runs : s.Grants ((s.withDrive f).setGrant g') := by
    simp [State.Grants, State.seen, State.setGrant, State.withDrive, State.asksDrive, requests, trim, activity]
  exact runs.beginWork_acts g' (fun _ => Acts.unseen alike)

/-! ## FORMAT (R94) -/

theorem State.formatEnds_acts (t : Track) (st : Status) (s : State) : Acts s (s.formatEnds t st) :=
  (s.endGrant_acts.trans (State.emptyTrackBuffer_acts t _)).trans (State.answerAt_acts (by simp) st [] _)

theorem State.formatIndex_acts (running : s.drive.grant = some g) (writing : s.drive.activity = .writing) :
    Acts s (s.formatIndex g) := by
  unfold State.formatIndex
  split
  · refine Acts.ite (fun _ => s.formatEnds_acts _ _) (fun _ => Acts.unseen ?_)
    exact State.setGrant_seen (s := s.command _) running
  · refine Acts.unseen ?_
    simp [State.seen, State.setGrant, State.setActivity, State.withDrive, State.asksDrive, running, writing, Activity.working]
  all_goals exact .refl

theorem State.advanceFormat_acts (s : State) : Acts s s.advanceFormat := by
  unfold State.advanceFormat
  split
  · exact .refl
  · next g runs =>
    obtain ⟨writing, running⟩ := State.grantIn_eq runs
    exact State.formatIndex_acts running writing

/-! ## The index pulse and its loss (R95 to R97) -/

theorem State.latchPeriod_turns (s : State) : Turns s s.latchPeriod := by
  unfold State.latchPeriod
  refine Turns.ite (fun _ => ?_) (fun _ => Turns.unseen rfl)
  refine .trans ?_ (State.takePeriod_turns _ _)
  exact Turns.unseen rfl

theorem State.readLost_acts {stage : Stage} (granted : stage ≠ .standing) (s : State) : Acts s (s.readLost stage) :=
  State.answerAt_acts granted _ _ _

theorem State.rotationLost_acts (running : s.drive.grant = some g) (gateRaised : Bool) : Acts s (s.rotationLost gateRaised g) := by
  have ends := s.endGrant_acts
  unfold State.rotationLost
  split
  · exact ends.trans (State.readLost_acts (by simp) _)
  · exact ends.trans (State.readLost_acts (by simp) _)
  · exact ends.trans (State.fillDriveReply_acts _ _ _ _ _)
  · exact Acts.ite (fun _ => .refl) (fun _ => ends.trans (State.answerAt_acts (by simp) _ _ _))
  · exact s.formatEnds_acts _ _
  · next a _ dropped _ =>
    have invalid : Acts s (s.invalidateSector a) := Acts.unseen rfl
    exact Acts.ite (fun _ => .refl) (fun _ => invalid.trans (State.flushFailed_acts (s := s.invalidateSector a) running a dropped))
  · exact ends.trans (State.recoveryEnded_acts (State.takeAborted_acts g _)).acts
  · exact .refl
  · exact .refl

end

theorem State.takeIndexLoss_turns (gateRaised : Bool) (s : State) : Turns s (s.takeIndexLoss gateRaised) := by
  have elapsed : Acts s (s.advance (2 * nominalTicks s.geom - s.timer.count)) := Acts.unseen rfl
  have lost : Acts s ((s.advance (2 * nominalTicks s.geom - s.timer.count)).setEvent .indexLost) :=
    elapsed.trans (State.setEvent_acts .indexLost _)
  have faulted : Turns s (({ (s.advance (2 * nominalTicks s.geom - s.timer.count)).setEvent .indexLost with
      timer := { ((s.advance (2 * nominalTicks s.geom - s.timer.count)).setEvent .indexLost).timer with
        watching := false } } : State).speedAtLoss) := by
    refine .trans ?_ (State.speedAtLoss_turns _)
    exact lost.turns.trans (Turns.unseen rfl)
  unfold State.takeIndexLoss
  refine faulted.trans ?_
  dsimp only
  split
  · next g running => exact Turns.ite (fun _ => (State.rotationLost_acts running _).turns) (fun _ => .refl)
  · exact .refl

/-! ## Reads (R10, R72, R73, R92, R172) -/

section
variable {s : State} {g : Grant}

theorem State.sectorRead_acts (running : s.drive.grant = some g) (a : Addr) (o : PassOutcome) : Acts s (s.sectorRead g a o) := by
  have finishes : Acts s (if s.stage = some .working then s.endGrant.finishRead o else s.endGrant) :=
    Acts.ite (fun stage => s.endGrant_acts.trans (State.finishRead_acts (g := .working) o stage (by simp))) (fun _ => s.endGrant_acts)
  unfold State.sectorRead
  refine Acts.ite (fun _ => State.positioningFailure_acts running _ _) (fun _ => ?_)
  split
  · exact s.endGrant_acts.trans (State.fillDriveReply_acts _ _ _ _ _)
  all_goals exact finishes

theorem State.awaitsCapture_stage {a : Addr} (awaited : s.awaitsCapture a = true) : s.stage = some .capturing := by
  unfold State.awaitsCapture at awaited
  unfold State.stage
  split at awaited
  · next q outstanding =>
    rw [outstanding]
    exact congrArg some (eq_of_beq (Bool.and_eq_true_iff.1 awaited).1)
  · cases awaited

theorem State.storeCaptured_seen (buffer : Option Nat) (n : Nat) (o : PassOutcome) : (s.storeCaptured buffer n o).seen = s.seen := by
  unfold State.storeCaptured
  split
  · rfl
  · split <;> rfl

theorem State.captureDecoded_acts (running : s.drive.grant = some g) (t : Track) (want : Nat) (buffer : Option Nat) (decoded : List Nat)
    (n : Nat) (o : PassOutcome) : Acts s (s.captureDecoded g t want buffer decoded n o) := by
  have drive : (s.storeCaptured buffer n o).drive = s.drive := by
    unfold State.storeCaptured
    split
    · rfl
    · split <;> rfl
  have port : (s.storeCaptured buffer n o).port = s.port := congrArg Seen.port (State.storeCaptured_seen buffer n o)
  have stored : Acts s ((s.storeCaptured buffer n o).setGrant { g with work := .capture t want buffer (insertSector n decoded) }) :=
    Acts.unseen ((State.setGrant_seen (by rw [drive, running])).trans (State.storeCaptured_seen buffer n o))
  unfold State.captureDecoded
  refine Acts.ite (fun _ => State.positioningFailure_acts running _ _) (fun _ => Acts.ite (fun awaited => ?_) (fun _ => stored))
  refine stored.trans (State.finishRead_acts (g := .capturing) o ?_ (by simp))
  rw [← State.awaitsCapture_stage awaited]
  exact congrArg (fun p : Port => p.outstanding.map (·.stage)) port

/-! ## Writes (R66, R67, R93) -/

theorem State.directWriteEnds_acts (a : Addr) (ws : List Word) (e : WriteEnd) (s : State) : Acts s (s.directWriteEnds a ws e) := by
  have written : Acts s (s.writeSector a ws) := Acts.unseen rfl
  have failed : Acts s (s.endGrant.answerAt .working .writeFault []) := s.endGrant_acts.trans (State.answerAt_acts (by simp) _ _ _)
  cases e with
  | written =>
    exact ((written.trans (State.endGrant_acts _)).trans (State.passEffects_acts a _)).trans (State.answerAt_acts (by simp) _ _ _)
  | headerNotFound => exact failed
  | writeProtected => exact failed

theorem State.flushWriteEnds_acts (running : s.drive.grant = some g) (a : Addr) (ws : List Word) (dropped : Bool) (e : WriteEnd) :
    Acts s (s.flushWriteEnds g a ws dropped e) := by
  have invalid : Acts s (s.invalidateSector a) := Acts.unseen rfl
  have written : Acts s ((s.writeSector a ws).invalidateSector a) := Acts.unseen rfl
  cases e with
  | written =>
    exact (written.trans (State.endGrant_acts _)).trans (Acts.ite (fun _ => .refl) (fun _ => State.flushWritten_acts a _))
  | writeProtected =>
    exact (invalid.trans (State.endGrant_acts _)).trans (Acts.ite (fun _ => .refl) (fun _ => State.flushProtected_acts a _))
  | headerNotFound => exact invalid.trans (State.flushFailed_acts (s := s.invalidateSector a) running a dropped)

end

/-! ## Holds (R19, R21) -/

theorem State.expireHold_acts {s : State} {h : Hold} (held : s.port.hold = some h) : Acts s (s.expireHold h) := by
  have answers (st : Status) (data : List Word) : Acts s ((s.setEvent .holdExpired).finishRequest st data) :=
    (State.setEvent_acts .holdExpired s).trans
      (EngineActs.acts (.single (.answers (s := s.setEvent .holdExpired) st data (by simp [held]))))
  unfold State.expireHold
  split
  · exact answers _ _
  · exact answers _ _

/-- A request answered whether it stands held or has been answered already. -/
theorem State.finishHeld_acts {s t : State} {h : Hold} (held : s.port.hold = some h)
    (port : t.port = s.port ∨ t.port = { s.port with outstanding := none, hold := none }) (st : Status) (data : List Word) :
    Acts t (t.finishRequest st data) := by
  rcases port with same | cleared
  · exact EngineActs.acts (.single (.answers st data (by rw [same, held]; rfl)))
  · refine Acts.unseen ?_
    have alike : (t.finishRequest st data).port = t.port := by
      show ({ t.port with outstanding := none, hold := none } : Port) = t.port
      rw [cleared]
    simp only [State.seen, alike]
    rfl

/-- The waiting WRITE that has a place enters the Post Queue and is answered, or is refused (R21, R31). -/
theorem State.enterWaiting_acts {s : State} {h : Hold} {ws : List Word} (held : s.port.hold = some h) (write : h.kind = .write ws)
    (room : s.postHasRoom h.addr = true) : Acts s (s.enterWaiting h.addr ws) := by
  have waits : s.writeWaits = true := by simp [State.writeWaits, held, write]
  have port : ((s.enterPost h.addr ws).invalidateSector h.addr).port = s.port := by
    unfold State.enterPost
    split <;> rfl
  unfold State.enterWaiting
  refine Acts.ite (fun _ => ?_) (fun _ => State.finishHeld_acts held (.inl rfl) _ _)
  refine (State.takePost_acts (.inr waits) room (.inr waits)).trans (State.finishHeld_acts held ?_ _ _)
  have answered := (State.supersede_acts h.addr ((s.enterPost h.addr ws).invalidateSector h.addr)).port
  rw [port] at answered
  exact answered.imp id (fun ⟨_, cleared⟩ => cleared)

end Sys2Proof.Machine
end

