-- ==== Sys2Proof/Proofs/StepEffects.lean ====
section
/-! The effect of every command but power-on, by its kind: acts; the pack's own moments; the clearing of Format Enable; a command of the
Command Interface or a confirmed one (R163 to R168, R176). -/

namespace Sys2Proof.Machine

/-- A command may bring a command sector with this code (R163). -/
def Instr.brings (code : Word) (i : Instr) : Prop :=
  i.code? = some code ∨ (∃ head sector words permit, i = .write head sector words permit) ∨
    (∃ unit r, i = .otherUnitRequest unit r) ∨ (∃ words, i = .loadSectorData words)

/-- A moment of the pack: an index pulse or its loss, the ready line, the panel's request and its release. -/
def Instr.movesPack (i : Instr) : Prop :=
  (∃ elapsed protect, i = .indexPulse elapsed protect) ∨ (∃ gateRaised, i = .indexLoss gateRaised) ∨ i = .driveReadyRise ∨
    i = .driveReadyFall ∨ (∃ elapsed, i = .unloadRequest elapsed) ∨ i = .unloadRelease

/-- A command that clears Format Enable (R23, R37). -/
def Instr.clearsEnable (i : Instr) : Prop :=
  (∃ head permit, i = .format head permit) ∨ i = .controllerClear ∨ (∃ unit r, i = .otherUnitRequest unit r)

/-- The effect of a command other than POWER_ON. -/
inductive Effect (i : Instr) (s : State) : State → Prop
  | acts (t : State) (h : Acts s t) : Effect i s t
  | turns (t : State) (h : Turns s t) (row : Instr.movesPack i) : Effect i s t
  | disarms (u t : State) (before : Acts s u) (after : Acts u.disarmed t) (row : Instr.clearsEnable i) : Effect i s t
  | command (code : Word) (u : State) (p : ResultCode × State) (before : Acts s u) (row : Instr.brings code i)
      (recorded : u.ci.lastCommand = code) (effect : CommandEffect code u p) : Effect i s (concludeCommand p)
  | confirms (pending : Word) (u : State) (before : Acts s u) (waits : s.ci.sequence = .awaitConfirm pending)
      (recorded : u.ci.lastCommand = Code.confirm) : Effect i s (concludeCommand (confirmed pending u))

theorem concludeCommand_acts (p : ResultCode × State) : Acts p.2 (concludeCommand p) := Acts.unseen rfl

theorem Effect.moves {i : Instr} {s t : State} (h : Effect i s t) : Moves s t := by
  cases h with
  | acts t h => exact h.moves
  | turns t h row => exact h.moves
  | disarms u t before after row =>
    have cleared : Turns u u.disarmed := .single .disarms
    exact Turns.moves (before.turns.trans (cleared.trans after.turns))
  | command code u p before row recorded effect => exact (before.moves.trans effect.moves).trans (concludeCommand_acts p).moves
  | confirms pending u before waits recorded =>
    exact Turns.moves ((before.turns.trans (confirmed_turns pending u)).trans (concludeCommand_acts _).turns)

theorem Effect.ite {i : Instr} {c : Prop} [Decidable c] {s t u : State} (ht : c → Effect i s t) (hu : ¬ c → Effect i s u) :
    Effect i s (if c then t else u) := by
  split
  · next h => exact ht h
  · next h => exact hu h

/-- What follows acts that leave the sequence as it was. -/
theorem Effect.after {i : Instr} {s u t : State} (before : Acts s u) (sequence : u.ci.sequence = s.ci.sequence) (h : Effect i u t) :
    Effect i s t := by
  cases h with
  | acts t h => exact .acts t (before.trans h)
  | turns t h row => exact .turns t (before.turns.trans h) row
  | disarms v t first after row => exact .disarms v t (before.trans first) after row
  | command code v p first row recorded effect => exact .command code v p (before.trans first) row recorded effect
  | confirms pending v first waits recorded => exact .confirms pending v (before.trans first) (sequence ▸ waits) recorded

/-! ## The Command Interface (R52, R163 to R168) -/

/-- A command sector taken with nothing held. -/
theorem State.takeCommand_effect {i : Instr} {code : Word} (row : Instr.brings code i) {s : State} (unheld : s.port.hold = none)
    (count : Nat) (ps : List Word) : Effect i s (s.takeCommand code count ps (commandBody code ps)) := by
  have selected : Acts s s.selectStatus := .single .selects
  have recorded : Acts s { s.selectStatus with ci := { s.selectStatus.ci with lastCommand := code } } := selected.trans (Acts.unseen rfl)
  have abandoned : Acts s ({ s.selectStatus with ci := { s.selectStatus.ci with lastCommand := code } } : State).abandonSequence :=
    recorded.tail .abandons
  have readied : Acts s { s.selectStatus with
      ci := { s.selectStatus.ci with
        lastCommand := code
        sequence := .ready } } := recorded.tail .readies
  have sequence : s.selectStatus.ci.sequence = s.ci.sequence := by rw [State.selectStatus_eq]
  have unasked : s.selectStatus.ci.reply = none := by rw [State.selectStatus_eq]
  have unheld' : s.selectStatus.port.hold = none := by rw [State.selectStatus_eq, unheld]
  unfold State.takeCommand
  dsimp only
  split
  · next pending waits =>
    rw [sequence] at waits
    split
    · next matching =>
      simp only [matchingConfirm, Bool.and_eq_true, beq_iff_eq] at matching
      exact .confirms pending _ readied waits matching.1.1
    · refine .command code _ _ abandoned row ?_ (runBody_effect ?_ ?_ count ps)
      · rw [State.abandonSequence_eq]; dsimp only; split <;> rfl
      · rw [State.abandonSequence_eq]; dsimp only; split <;> exact unasked
      · rw [State.abandonSequence_eq]; exact unheld'
  · exact .command code _ _ recorded row rfl (runBody_effect (s := { s.selectStatus with
      ci := { s.selectStatus.ci with lastCommand := code } }) unasked unheld' count ps)
  · exact .command code _ _ recorded row rfl (runBody_effect (s := { s.selectStatus with
      ci := { s.selectStatus.ci with lastCommand := code } }) unasked unheld' count ps)

theorem State.abandonSequence_sequence (s : State) : s.abandonSequence.ci.sequence = .ready := by
  unfold State.abandonSequence
  split
  · assumption
  · rfl

/-- A WRITE of the control sector address, the earlier request dropped. -/
theorem State.controlWrite_effect {i : Instr} (row : ∀ code, Instr.brings code i) {s : State} (free : s.port.outstanding = none)
    (unheld : s.port.hold = none) (ws : List Word) : Effect i s (s.controlWrite ws) := by
  unfold State.controlWrite
  split
  · next a awaited => exact .acts _ (State.takeDataSector_acts awaited ws)
  all_goals
    refine Effect.ite (fun _ => State.takeCommand_effect (row _) unheld _ _) (fun _ => ?_)
    have selected : Acts s s.selectStatus.abandonSequence := .tail (.single .selects) .abandons
    have cleared : s.selectStatus.abandonSequence.Free := by
      refine ⟨?_, ?_, State.abandonSequence_sequence _⟩ <;> rw [State.abandonSequence_eq, State.selectStatus_eq]
      · exact free
      · exact unheld
    exact .acts _ (selected.trans (cleared.dataWrite_acts _ ws))

theorem State.commandTaking_acts (s : State) : Acts s (s.dropRequest.setVirtHead s.ci.controlAddr.head) := by
  have dropped : Acts s s.dropRequest := .single .drops
  refine dropped.trans (State.setVirtHead_acts fun wf => ?_)
  rw [State.dropRequest_eq] at wf ⊢
  obtain ⟨-, -, -, -, -, -, -, within⟩ := (State.tablesWf_iff _).1 wf
  simp only [Addr.within, Bool.and_eq_true, decide_eq_true_eq] at within
  exact within.1.2

theorem State.dropRequest_hold (s : State) : s.dropRequest.port.hold = none := rfl

theorem State.dropRequest_ci (s : State) : s.dropRequest.ci = s.ci := by rw [State.dropRequest_eq]

theorem State.commandStep_effect {i : Instr} {code : Word} (row : i.code? = some code) (ps : List Word) (s : State) :
    Effect i s (s.commandStep code ps (commandBody code ps)) := by
  have taking : (s.dropRequest.setVirtHead s.ci.controlAddr.head).ci.sequence = s.ci.sequence := by
    show s.dropRequest.ci.sequence = _
    rw [State.dropRequest_ci]
  refine .after s.commandTaking_acts taking ?_
  unfold State.commandStep
  dsimp only
  split
  · next a awaited => exact .acts _ (State.takeDataSector_acts awaited _)
  · exact State.takeCommand_effect (.inl row) rfl _ _
  · exact State.takeCommand_effect (.inl row) rfl _ _

theorem State.takeControlWrite_effect {i : Instr} (row : ∀ code, Instr.brings code i) (words : List Word) (s : State) :
    Effect i s (s.takeControlWrite words) :=
  .after s.commandTaking_acts (congrArg CommandInterface.sequence s.dropRequest_ci) (State.controlWrite_effect row rfl rfl _)

/-! ## The requests of the cable (R1 to R9, R23) -/

theorem State.takeWrite_effect {i : Instr} (row : ∀ code, Instr.brings code i) (head sector : Nat) (words : List Word) (s : State) :
    Effect i s (s.takeWrite head sector words) := by
  rw [State.takeWrite_eq]
  refine Effect.ite (fun _ => .acts _ (s.afterRequest_acts.trans (State.answer_acts _ _ _))) (fun within => ?_)
  have taken := State.afterDataRequest_acts (Nat.not_le.1 within)
  refine Effect.ite (fun _ => .acts _ (taken.trans (State.answer_acts _ _ _))) (fun _ => Effect.ite (fun _ => ?_) (fun _ => ?_))
  · have dropped : Acts s s.dropRequest := .single .drops
    have placed : Acts s (s.dropRequest.setVirtHead head) :=
      dropped.trans (State.setVirtHead_acts (fun _ => by rw [State.dropRequest_eq]; exact Nat.not_le.1 within))
    exact .after placed (congrArg CommandInterface.sequence s.dropRequest_ci) (State.controlWrite_effect row rfl rfl _)
  · exact .acts _ (taken.trans ((s.afterDataRequest_free head).dataWrite_acts _ _))

theorem State.takeFormat_effect {i : Instr} (row : Instr.clearsEnable i) (head : Nat) (s : State) :
    Effect i s (s.takeFormat head) := by
  obtain ⟨u, before, after | after⟩ := s.takeFormat_acts head
  · exact .acts _ (before.trans after)
  · exact .disarms u _ before after row

theorem State.takeRequest_effect {i : Instr} (row : ∀ code, Instr.brings code i) (clears : Instr.clearsEnable i) (r : Request)
    (s : State) : Effect i s (s.takeRequest r) := by
  cases r with
  | select => exact .acts _ s.takeSelect_acts
  | seek c => exact .acts _ (s.takeSeek_acts c)
  | recalibrate => exact .acts _ s.takeRecalibrate_acts
  | read head sector => exact .acts _ (s.takeRead_acts head sector)
  | write head sector words => exact s.takeWrite_effect row head sector words
  | format head => exact s.takeFormat_effect clears head
  | sense => exact .acts _ s.takeSense_acts

theorem State.setPermit_acts (level : Bool) (s : State) : Acts s (s.setPermit level) := Acts.unseen rfl

theorem State.setProtect_acts (level : Bool) (s : State) : Acts s (s.setProtect level) := Acts.unseen rfl

theorem State.advance_acts (n : Nat) (s : State) : Acts s (s.advance n) := Acts.unseen rfl

theorem State.advanceTo_acts (n : Nat) (s : State) : Acts s (s.advanceTo n) := Acts.unseen rfl

/-! ## The rows of the drive -/

theorem execPositioningLimitExpiry_acts {permit : Bool} {s t : State} (h : execPositioningLimitExpiry permit s = .next t) : Acts s t := by
  cases h
  split
  · next recalibrating deadline g _ running =>
    exact ((s.setPermit_acts permit).trans (State.advanceTo_acts deadline _)).trans (State.positioningExpired_acts
      (s := (s.setPermit permit).advanceTo deadline) running recalibrating)
  all_goals exact .refl

theorem execSettleEnd_acts {s t : State} (h : execSettleEnd s = .next t) : Acts s t := by
  cases h
  split
  · exact .refl
  · next g runs =>
    exact State.settled_acts (State.grantIn_eq runs).2 _ _ (fun _ => ⟨rfl, rfl, rfl, rfl⟩)

theorem execIndexPulse_turns {elapsed : Nat} {protect : Bool} {s t : State} (h : execIndexPulse elapsed protect s = .next t) : Turns s t := by
  cases h
  have sampled : Acts s ((s.advance elapsed).setProtect protect) := Acts.unseen rfl
  have renewed : Acts ((s.advance elapsed).setProtect protect).latchPeriod ((s.advance elapsed).setProtect protect).latchPeriod.renewFlush :=
    Acts.unseen rfl
  exact ((sampled.turns.trans (State.latchPeriod_turns _)).trans renewed.turns).trans (State.advanceFormat_acts _).turns

theorem execReadSectorEnd_acts {signal : SectorSignal} {s t : State} (h : execReadSectorEnd signal s = .next t) : Acts s t := by
  cases h
  split
  · exact .refl
  · next g runs =>
    split
    · exact .refl
    · exact State.sectorRead_acts (State.grantIn_eq runs).2 _ _

theorem execCaptureSectorDecoded_acts {n : Nat} {signal : SectorSignal} {s t : State}
    (h : execCaptureSectorDecoded n signal s = .next t) : Acts s t := by
  cases h
  split
  · exact .refl
  · next g runs =>
    split
    · exact Acts.ite (fun _ => State.captureDecoded_acts (State.grantIn_eq runs).2 _ _ _ _ _ _) (fun _ => .refl)
    all_goals exact .refl

theorem execCaptureEnd_acts {s t : State} (h : execCaptureEnd s = .next t) : Acts s t := by
  cases h
  split
  · exact .refl
  · split
    · exact Acts.ite (fun stage => s.endGrant_acts.trans (State.finishRead_acts (g := .capturing) _ stage (by simp)))
        (fun _ => s.endGrant_acts)
    all_goals exact .refl

theorem execSectorWriteEnd_acts {header : Option (List BitCell)} {protect permit : Bool} {s t : State}
    (h : execSectorWriteEnd header protect permit s = .next t) : Acts s t := by
  cases h
  refine ((s.setProtect_acts protect).trans (State.setPermit_acts permit _)).trans ?_
  generalize (s.setProtect protect).setPermit permit = s
  split
  · exact .refl
  · next g runs =>
    have running := (State.grantIn_eq runs).2
    split
    · exact Acts.ite (fun _ => State.positioningFailure_acts running _ _) (fun _ => s.directWriteEnds_acts _ _ _)
    · exact Acts.ite (fun _ => State.positioningFailure_acts running _ _) (fun _ => State.flushWriteEnds_acts running _ _ _ _)
    all_goals exact .refl

theorem execFormatWorkEnd_acts {headers : List (Option (List BitCell))} {s t : State} (h : execFormatWorkEnd headers s = .next t) :
    Acts s t := by
  cases h
  split
  · exact .refl
  · split
    · exact s.formatEnds_acts _ _
    all_goals exact .refl

theorem execRecoveryPassEnd_acts {signals : List (Nat × SectorSignal)} {s t : State} (h : execRecoveryPassEnd signals s = .next t) :
    Acts s t := by
  cases h
  split
  · exact .refl
  · split
    · exact s.endGrant_acts.trans (State.recoveryEnded_acts (State.takeReport_acts _ _ _ _ _)).acts
    all_goals exact .refl

theorem execWaitingWriteEntry_acts {permit : Bool} {s t : State} (h : execWaitingWriteEntry permit s = .next t) : Acts s t := by
  cases h
  refine (s.setPermit_acts permit).trans ?_
  generalize s.setPermit permit = s
  split
  · exact .refl
  · next h held =>
    split
    · exact .refl
    · next ws write => exact Acts.ite (fun room => State.enterWaiting_acts held write room) (fun _ => .refl)

theorem execHoldDeadline_acts {s t : State} (h : execHoldDeadline s = .next t) : Acts s t := by
  cases h
  split
  · exact .refl
  · next h held => exact (s.advanceTo_acts h.deadline).trans (State.expireHold_acts (s := s.advanceTo h.deadline) held)

theorem execFaultClearEnd_acts {s t : State} (h : execFaultClearEnd s = .next t) : Acts s t := by
  cases h
  split
  · next deadline clearing =>
    exact (s.advanceTo_acts deadline).trans (Acts.ite (fun _ => State.faultPersists_acts (s := s.advanceTo deadline) clearing)
      (fun _ => State.faultRemoved_acts (s := s.advanceTo deadline) clearing))
  all_goals exact .refl

theorem execSeekComplete_acts {s t : State} (h : execSeekComplete s = .next t) : Acts s t := by
  cases h
  split
  · next recalibrating deadline g _ running => exact State.positioningDone_acts running recalibrating
  all_goals exact .refl

/-! ## Every command (R163, R176) -/

theorem exec_effect {i : Instr} {s t : State} (h : exec i s = .next t) (on : ∀ straps ready fault, i ≠ .powerOn straps ready fault) :
    Effect i s t := by
  cases listed : i.code? with
  | some code =>
    rw [exec_command i code s listed] at h
    cases h
    exact State.commandStep_effect listed _ s
  | none =>
    cases i with
    | powerOn straps ready fault => exact absurd rfl (on straps ready fault)
    | controllerClear =>
      cases h
      obtain ⟨u, before, same⟩ := s.controllerClear_acts
      exact .disarms u _ before (same ▸ .refl) (.inr (.inl rfl))
    | otherUnitRequest unit request =>
      cases h
      exact Effect.ite (fun _ => State.takeRequest_effect (fun _ => .inr (.inr (.inl ⟨_, _, rfl⟩))) (.inr (.inr ⟨_, _, rfl⟩)) request s)
        (fun _ => .acts _ .refl)
    | select => cases h; exact .acts _ s.takeSelect_acts
    | seek cylinder => cases h; exact .acts _ (s.takeSeek_acts cylinder)
    | recalibrate => cases h; exact .acts _ s.takeRecalibrate_acts
    | read head sector => cases h; exact .acts _ (s.takeRead_acts head sector)
    | write head sector words permit =>
      cases h
      exact .after (s.setPermit_acts permit) rfl (State.takeWrite_effect (fun _ => .inr (.inl ⟨_, _, _, _, rfl⟩)) _ _ _ _)
    | format head permit =>
      cases h
      exact .after (s.setPermit_acts permit) rfl (State.takeFormat_effect (.inl ⟨_, _, rfl⟩) _ _)
    | sense permit => cases h; exact .acts _ ((s.setPermit_acts permit).trans (State.takeSense_acts _))
    | loadSectorData words => cases h; exact State.takeControlWrite_effect (fun _ => .inr (.inr (.inr ⟨_, rfl⟩))) words s
    | driveGrant permit =>
      cases h
      exact .acts _ ((s.setPermit_acts permit).trans (Acts.ite (fun _ => State.giveGrant_acts _) (fun _ => .refl)))
    | seekComplete => exact .acts _ (execSeekComplete_acts h)
    | positioningLimitExpiry permit => exact .acts _ (execPositioningLimitExpiry_acts h)
    | settleEnd => exact .acts _ (execSettleEnd_acts h)
    | indexPulse elapsed protect => exact .turns _ (execIndexPulse_turns h) (.inl ⟨_, _, rfl⟩)
    | indexLoss gateRaised =>
      cases h
      exact .turns _ (Turns.ite (fun _ => s.takeIndexLoss_turns gateRaised) (fun _ => .refl)) (.inr (.inl ⟨_, rfl⟩))
    | readSectorEnd signal => exact .acts _ (execReadSectorEnd_acts h)
    | captureSectorDecoded sector signal => exact .acts _ (execCaptureSectorDecoded_acts h)
    | captureEnd => exact .acts _ (execCaptureEnd_acts h)
    | sectorWriteEnd header protect permit => exact .acts _ (execSectorWriteEnd_acts h)
    | formatWorkEnd headers => exact .acts _ (execFormatWorkEnd_acts h)
    | recoveryPassEnd signals => exact .acts _ (execRecoveryPassEnd_acts h)
    | jobActivation =>
      cases h
      exact .acts _ (Acts.ite (fun due => (State.activate_acts due).acts) (fun _ => .refl))
    | batchWindowExpiry =>
      cases h
      refine .acts _ ?_
      split
      · exact .refl
      · next deadline _ => exact (s.advanceTo_acts deadline).trans (State.closeWindow_acts _).acts
    | holdDeadline => exact .acts _ (execHoldDeadline_acts h)
    | waitingWriteEntry permit => exact .acts _ (execWaitingWriteEntry_acts h)
    | flushLatencyExpiry =>
      cases h
      refine .acts _ ?_
      split
      · exact .refl
      · exact s.advanceTo_acts _
    | driveReadyRise =>
      cases h
      exact .turns _ (Turns.ite (fun _ => .refl) (fun _ => s.takeReadyRise_turns)) (.inr (.inr (.inl rfl)))
    | driveReadyFall =>
      cases h
      refine .turns _ (Turns.ite (fun _ => ?_) (fun _ => .refl)) (.inr (.inr (.inr (.inl rfl))))
      have fallen : Acts s ((s.setReady false).sequencerFall) := by
        refine .trans ?_ (State.sequencerFall_acts _)
        exact Acts.unseen rfl
      exact fallen.turns.trans (State.packFall_turns _)
    | driveFault =>
      cases h
      exact .acts _ (Acts.ite (fun _ => .refl) (fun _ => s.takeFaultRise_acts))
    | faultClearEnd => exact .acts _ (execFaultClearEnd_acts h)
    | faultLineFall =>
      cases h
      exact .acts _ (Acts.ite (fun _ => Acts.unseen rfl) (fun _ => Acts.unseen rfl))
    | unloadRequest elapsed =>
      cases h
      exact .turns _ ((s.advance_acts elapsed).turns.trans (State.takeUnloadRequest_turns _)) (.inr (.inr (.inr (.inr (.inl ⟨_, rfl⟩)))))
    | unloadRelease =>
      cases h
      refine .turns _ (Turns.ite (fun due => ?_) (fun _ => .refl)) (.inr (.inr (.inr (.inr (.inr rfl)))))
      obtain ⟨pending, test⟩ := due
      exact State.giveRelease_turns (by simp [pending]) (fun _ => State.releaseTest_posts test)
    | _ => simp [Instr.code?] at listed

theorem exec_moves {i : Instr} {s t : State} (h : exec i s = .next t) (on : ∀ straps ready fault, i ≠ .powerOn straps ready fault) :
    Moves s t := (exec_effect h on).moves

end Sys2Proof.Machine
end

