-- ==== Sys2Proof/Proofs/StepLaws.lean ====
section
/-! The laws that every step keeps: each holds of the state at power-on and through every move, hence through every step (O51 to O57). -/

namespace Sys2Proof.Machine

/-! ## Power-on (R151, R177) -/

theorem State.powerOn_moves {straps : Straps} {ready fault : Bool} {s t : State} (h : exec (.powerOn straps ready fault) s = .next t) :
    Moves (s.poweredOn straps) t := by
  cases h
  refine iteInduction (fun _ => ?_) (fun _ => Acts.moves (Acts.unseen rfl))
  have risen : Turns (s.poweredOn straps)
      { s.poweredOn straps with
        lines := { (s.poweredOn straps).lines with ready := true, fault := fault }
        drive := { (s.poweredOn straps).drive with cond := .ready }
        pack := { (s.poweredOn straps).pack with state := .spinningUp } } := by
    have ready : Turns (s.poweredOn straps)
        { s.poweredOn straps with
          lines := { (s.poweredOn straps).lines with ready := true, fault := fault }
          drive := { (s.poweredOn straps).drive with cond := .ready } } := Turns.unseen rfl
    exact ready.tail (.rises rfl)
  exact Turns.moves (Turns.ite (fun _ => risen.trans (State.beginFault_acts _).turns) (fun _ => risen))

theorem Moves.induct {P : State → Prop} (keeps : ∀ {s t}, Move s t → P s → P t) {s t : State} (h : Moves s t) (holds : P s) : P t := by
  induction h with
  | refl => exact holds
  | tail _ move ih => exact keeps move ih

/-- A law of the state at power-on that every move keeps is kept by every step. -/
theorem step_induct {P : State → Prop} (start : ∀ straps s, P (State.poweredOn straps s)) (keeps : ∀ {s t}, Move s t → P s → P t)
    {s t : State} (h : step s = .next t) (holds : P s) : P t := by
  unfold step at h
  split at h
  · cases h
    exact Moves.induct keeps (s.advance_acts 1).moves holds
  · next c rest _ =>
    have waiting : Acts s (s.withPending rest) := Acts.unseen rfl
    have queued : P (s.withPending rest) := Moves.induct keeps waiting.moves holds
    by_cases on : ∃ straps ready fault, c = .powerOn straps ready fault
    · obtain ⟨straps, ready, fault, rfl⟩ := on
      exact Moves.induct keeps (State.powerOn_moves h) (start straps _)
    · exact Moves.induct keeps (exec_moves h (fun straps ready fault same => on ⟨straps, ready, fault, same⟩)) queued

theorem State.poweredOn_tablesWf (straps : Straps) (s : State) : (s.poweredOn straps).tablesWf = true := by
  obtain ⟨unit, profile, mode⟩ := straps
  cases profile <;> rfl

theorem State.poweredOn_mapWf (straps : Straps) (s : State) : (s.poweredOn straps).mapWf = true := rfl

theorem State.poweredOn_postsWf (straps : Straps) (s : State) : (s.poweredOn straps).postsWf = true := rfl

theorem State.poweredOn_postsApart (straps : Straps) (s : State) : (s.poweredOn straps).postsApartFromMap = true := rfl

theorem State.poweredOn_queuesWf (straps : Straps) (s : State) : (s.poweredOn straps).queuesWf = true := rfl

theorem State.poweredOn_packWf (straps : Straps) (s : State) : (s.poweredOn straps).packWf = true := by
  obtain ⟨unit, profile, mode⟩ := straps
  cases mode <;> rfl

theorem State.poweredOn_sequenceWf (straps : Straps) (s : State) : (s.poweredOn straps).sequenceWf = true := rfl

theorem State.poweredOn_emptyWithoutPack (straps : Straps) (s : State) : (s.poweredOn straps).emptyWithoutPack = true := rfl

theorem State.poweredOn_driveWf (straps : Straps) (s : State) : (s.poweredOn straps).driveWf = true := rfl

/-! ## The laws -/

/-- Settles O51, by induction over the moves of the step. -/
theorem everyStepKeepsTables : Obligations.EveryStepKeepsTables := by
  unfold Obligations.EveryStepKeepsTables
  exact fun s t wf h => step_induct State.poweredOn_tablesWf (fun move => move.keeps_tables) h wf

/-- Settles O52, by induction over the moves of the step. -/
theorem everyStepKeepsMap : Obligations.EveryStepKeepsMap := by
  unfold Obligations.EveryStepKeepsMap
  exact fun s t wf h => step_induct State.poweredOn_mapWf (fun move => move.keeps_mapWf) h wf

/-- Settles O53, by induction over the moves of the step. -/
theorem everyStepKeepsPosts : Obligations.EveryStepKeepsPosts := by
  unfold Obligations.EveryStepKeepsPosts
  exact fun s t wf apart h => step_induct (P := fun s => s.postsWf = true ∧ s.postsApartFromMap = true)
    (fun straps s => ⟨s.poweredOn_postsWf straps, s.poweredOn_postsApart straps⟩) (fun move => move.keeps_postsWf) h ⟨wf, apart⟩

/-- Settles O54, by induction over the moves of the step. -/
theorem everyStepKeepsQueues : Obligations.EveryStepKeepsQueues := by
  unfold Obligations.EveryStepKeepsQueues
  exact fun s t wf h => step_induct State.poweredOn_queuesWf (fun move => move.keeps_queuesWf) h wf

/-- Settles O55, by induction over the moves of the step. -/
theorem everyStepKeepsPackRecord : Obligations.EveryStepKeepsPackRecord := by
  unfold Obligations.EveryStepKeepsPackRecord
  exact fun s t h => ⟨step_induct State.poweredOn_packWf (fun move => move.keeps_packWf) h,
    step_induct State.poweredOn_sequenceWf (fun move => move.keeps_sequenceWf) h⟩

/-- Settles O56, by induction over the moves of the step, the form of the queues carried along. -/
theorem everyStepEmptiesWithoutPack : Obligations.EveryStepEmptiesWithoutPack := by
  unfold Obligations.EveryStepEmptiesWithoutPack
  exact fun s t queues wf h => (step_induct (P := fun s => s.queuesWf = true ∧ s.emptyWithoutPack = true)
    (fun straps s => ⟨s.poweredOn_queuesWf straps, s.poweredOn_emptyWithoutPack straps⟩)
    (fun move laws => ⟨move.keeps_queuesWf laws.1, move.keeps_emptyWithoutPack laws.1 laws.2⟩) h ⟨queues, wf⟩).2

/-- Settles O57, by induction over the moves of the step. -/
theorem everyStepKeepsDrive : Obligations.EveryStepKeepsDrive := by
  unfold Obligations.EveryStepKeepsDrive
  exact fun s t wf h => step_induct State.poweredOn_driveWf (fun move => move.keeps_driveWf) h wf

end Sys2Proof.Machine
end

