-- ==== Sys2Proof/Proofs/SettingsChange.lean ====
section
/-! The settings and tables change by their own commands alone (O59). -/

namespace Sys2Proof.Machine

theorem Turns.settings {s t : State} (h : Turns s t) : t.seen.settings = s.seen.settings := by
  induction h with
  | refl => rfl
  | tail _ turn ih => exact turn.keeps_tables.settings.trans ih

theorem Acts.settings {s t : State} (h : Acts s t) : t.seen.settings = s.seen.settings := (State.KeepsTables.of_acts h).settings

/-- The settings `d` differ from `c` only where a command that sets them has been taken (R8, R26, R28, R30, R88, R101, R105, R106, R155,
R162, R173, R178). -/
structure Settings.ChangedBy (taken : Word → Prop) (c d : Settings) : Prop where
  geom : d.geom = c.geom ∨ taken Code.setGeometry
  regions : d.regions = c.regions ∨ taken Code.loadRegion ∨ taken Code.deleteRegion ∨ taken Code.setGeometry
  ladders : d.ladders = c.ladders ∨ taken Code.loadLadderStep ∨ taken Code.clearLadder
  unloadGuard : d.unloadGuard = c.unloadGuard ∨ taken Code.setGuard
  mode : d.mode = c.mode ∨ taken Code.setMode
  timing : d.timing = c.timing ∨ taken Code.setTiming
  trim : d.trim = c.trim ∨ taken Code.setTrim
  controlAddr : d.controlAddr = c.controlAddr ∨ taken Code.setControlAddress ∨ taken Code.setGeometry
  unit : d.unit = c.unit

theorem Settings.ChangedBy.of_eq {taken : Word → Prop} {c d : Settings} (same : d = c) : c.ChangedBy taken d := by
  subst same
  exact ⟨.inl rfl, .inl rfl, .inl rfl, .inl rfl, .inl rfl, .inl rfl, .inl rfl, .inl rfl, rfl⟩

/-- A command changes only its own setting, and records its code and its result. -/
theorem CommandEffect.settings {code : Word} {s : State} {p : ResultCode × State} (h : CommandEffect code s p)
    (recorded : s.ci.lastCommand = code) (taken : Word → Prop)
    (own : p.2.ci.lastCommand = code → p.1 = .ok ∨ p.1 = .clamped → taken code) :
    s.seen.settings.ChangedBy taken p.2.seen.settings := by
  have refl := Settings.ChangedBy.of_eq (taken := taken) (rfl : s.seen.settings = s.seen.settings)
  cases h with
  | acts r t h => exact .of_eq h.settings
  | permits pending => exact .of_eq rfl
  | geometry g wf unloaded set =>
    have took : taken Code.setGeometry := set ▸ own recorded (.inl rfl)
    exact { refl with geom := .inr took, regions := .inr (.inr (.inr took)), controlAddr := .inr (.inr took) }
  | regions l wf set =>
    have took := own recorded (.inl rfl)
    exact { refl with regions := set.elim (fun e => .inr (.inl (e ▸ took))) (fun e => .inr (.inr (.inl (e ▸ took)))) }
  | ladders r l wf result set =>
    have took := own recorded result
    exact { refl with ladders := set.elim (fun e => .inr (.inl (e ▸ took))) (fun e => .inr (.inr (e ▸ took))) }
  | guard g set =>
    have took : taken Code.setGuard := set ▸ own recorded (.inl rfl)
    exact { refl with unloadGuard := .inr took }
  | mode m set =>
    have took : taken Code.setMode := by
      refine set ▸ own ?_ (.inl rfl)
      subst set
      rw [State.poke_frame]
      exact recorded
    rw [(State.poke_acts _).acts.settings]
    exact { refl with mode := .inr took }
  | timing r t wf result set =>
    have took : taken Code.setTiming := set ▸ own recorded result
    exact { refl with timing := .inr took }
  | trim r v wf result set =>
    have took : taken Code.setTrim := set ▸ own recorded result
    exact { refl with trim := .inr took }
  | controlAddr a wf set =>
    have took : taken Code.setControlAddress := set ▸ own recorded (.inl rfl)
    exact { refl with controlAddr := .inr (.inl took) }
  | events mask set => exact .of_eq rfl

/-- Settles O59, by the kinds of effect of a command. -/
theorem settingsChangeOnlyByCommand : Obligations.SettingsChangeOnlyByCommand := by
  unfold Obligations.SettingsChangeOnlyByCommand
  intro s t i h on
  dsimp only
  generalize keyed : (fun code : Word =>
    (i.code? = some code ∨ (∃ head sector words permit, i = .write head sector words permit) ∨
      (∃ unit r, i = .otherUnitRequest unit r) ∨ (∃ words, i = .loadSectorData words)) ∧
    t.ci.lastCommand = code ∧ (t.ci.lastResult = .ok ∨ t.ci.lastResult = .clamped)) = taken
  have changed : s.seen.settings.ChangedBy taken t.seen.settings := by
    cases exec_effect h on with
    | acts t h => exact .of_eq h.settings
    | turns t h row => exact .of_eq h.settings
    | disarms u t before after row => exact .of_eq (after.settings.trans before.settings)
    | command code u p before row recorded effect =>
      rw [← before.settings]
      refine effect.settings recorded taken fun last result => ?_
      rw [← keyed]
      exact ⟨row, last, result⟩
    | confirms pending u before waits recorded => exact .of_eq ((confirmed_turns pending u).settings.trans before.settings)
  obtain ⟨geom, regions, ladders, guard, mode, timing, trim, addr, unit⟩ := changed
  rw [← keyed] at geom regions ladders guard mode timing trim addr
  exact ⟨geom, regions, ladders, guard, mode, timing, trim, addr, unit⟩

end Sys2Proof.Machine
end

