-- ==== Sys2Proof/Proofs/LatchMoves.lean ====
section
/-! The events, the load epoch, Format Enable and the pack state move only as their rules say (O60). -/

namespace Sys2Proof.Machine

/-! ## Events stay set (R176) -/

theorem hasEvent_withEvent (e f : Event) (events : BitVec 10) (h : hasEvent e events = true) : hasEvent e (withEvent f events) = true := by
  simp only [hasEvent, withEvent, BitVec.getLsbD_or, Bool.or_eq_true] at h ⊢
  exact .inl h

/-- Every event set in one word is set in the other. -/
def EventsStay (v w : BitVec 10) : Prop := ∀ e : Event, hasEvent e v = true → hasEvent e w = true

theorem EventsStay.refl (v : BitVec 10) : EventsStay v v := fun _ h => h

theorem EventsStay.of_eq {v w : BitVec 10} (same : w = v) : EventsStay v w := same ▸ .refl v

theorem EventsStay.trans {u v w : BitVec 10} (h : EventsStay u v) (h' : EventsStay v w) : EventsStay u w := fun e set => h' e (h e set)

theorem EngineAct.events {s t : State} (h : EngineAct s t) : EventsStay s.events t.events := by
  cases h with
  | unseen t same => exact .of_eq (congrArg Seen.events same)
  | sets f => exact fun e set => hasEvent_withEvent e f _ set
  | _ => exact .refl _

theorem EngineActs.events {s t : State} (h : EngineActs s t) : EventsStay s.events t.events := by
  induction h with
  | refl => exact .refl _
  | tail _ act ih => exact ih.trans act.events

theorem Act.events {s t : State} (h : Act s t) : EventsStay s.events t.events := by
  cases h with
  | engine t h => exact h.events
  | drives t granted same => exact .of_eq (congrArg Seen.events same)
  | drops => rw [State.dropRequest_eq]; exact .refl _
  | abandons =>
    rw [State.abandonSequence]
    split
    · exact .refl _
    · exact fun e set => hasEvent_withEvent e .sequenceLost _ set
  | selects => rw [State.selectStatus_eq]; exact .refl _
  | handsBack r rest front =>
    rcases s.handBack_cases r with same | ⟨-, -, same⟩ | ⟨_, _, -, -, -, same⟩ <;> rw [same] <;> exact .refl _
  | posts a ws serves room clear =>
    rw [State.enterPost]
    split <;> exact .refl _
  | _ => exact .refl _

theorem Acts.events {s t : State} (h : Acts s t) : EventsStay s.events t.events := by
  induction h with
  | refl => exact .refl _
  | tail _ act ih => exact ih.trans act.events

theorem Turn.events {s t : State} (h : Turn s t) : EventsStay s.events t.events := by
  cases h with
  | act t h => exact h.events
  | speeds t b same => exact .of_eq (congrArg Seen.events same)
  | loads t spinning same => exact .of_eq (congrArg Seen.events same)
  | releases u h =>
    obtain ⟨v, w, before, -, left, after⟩ := h.ends
    have leaves : w.events = v.events := by rcases left with rfl | ⟨_, _, -, -, rfl⟩ <;> rfl
    exact (before.events.trans (.of_eq leaves)).trans after.events
  | loses u serves unheld posts h live => exact h.events
  | _ => exact .refl _

theorem Turns.events {s t : State} (h : Turns s t) : EventsStay s.events t.events := by
  induction h with
  | refl => exact .refl _
  | tail _ turn ih => exact ih.trans turn.events

/-! ## The latches (R35, R36, R151, R152) -/

/-- The load epoch, Format Enable and the pack state. -/
structure Latches where
  epoch : BitVec 32
  enabled : Bool
  state : PackState

def PackRecord.latches (r : PackRecord) : Latches := { epoch := r.pack.epoch, enabled := r.formatEnable, state := r.pack.state }

def State.latches (s : State) : Latches := s.seen.packRecord.latches

theorem State.latches_state (s : State) : s.latches.state = s.pack.state := rfl

theorem Acts.latches {s t : State} (h : Acts s t) : t.latches = s.latches := congrArg PackRecord.latches h.packRecord

/-- The latches move from `l` to `m` as the rules allow a command: `arms` is what has set Format Enable where it is set. -/
structure Latches.MoveBy (i : Instr) (arms : Prop) (l m : Latches) : Prop where
  epoch : m.epoch = l.epoch ∨
    (m.epoch = l.epoch + 1 ∧ l.state = .spinningUp ∧ m.state = .loaded ∧ ∃ elapsed protect, i = .indexPulse elapsed protect)
  armed : l.enabled = false → m.enabled = true → arms
  lost : l.enabled = true → m.enabled = false →
    (∃ head permit, i = .format head permit) ∨ i = .controllerClear ∨ (∃ unit r, i = .otherUnitRequest unit r) ∨
      packServes m.state = false
  edge : m.state ≠ l.state →
    (l.state = .empty ∧ m.state = .spinningUp ∧ i = .driveReadyRise) ∨
    (l.state = .spinningUp ∧ m.state = .loaded ∧ ∃ elapsed protect, i = .indexPulse elapsed protect) ∨
    (l.state = .loaded ∧ m.state = .unloadPending ∧ ∃ elapsed, i = .unloadRequest elapsed) ∨
    (l.state ≠ .empty ∧ m.state = .unloading) ∨
    (l.state ≠ .empty ∧ m.state = .empty ∧ i = .driveReadyFall)

section
variable {i : Instr} {arms : Prop} {l m : Latches}

theorem Latches.MoveBy.of_eq (same : m = l) : l.MoveBy i arms m := by
  subst same
  exact ⟨.inl rfl, fun off on => absurd (off.symm.trans on) (by simp), fun on off => absurd (on.symm.trans off) (by simp),
    fun moved => absurd rfl moved⟩

/-- The release of a pack. -/
theorem Latches.MoveBy.releases (present : l.state ≠ .empty) (same : m = { l with enabled := false, state := .unloading }) :
    l.MoveBy i arms m := by
  subst same
  exact ⟨.inl rfl, by simp, fun _ _ => .inr (.inr (.inr rfl)), fun _ => .inr (.inr (.inr (.inl ⟨present, rfl⟩)))⟩

/-- The departure of a pack from the drive. -/
theorem Latches.MoveBy.goes {b : Bool} (present : l.state ≠ .empty) (same : m = { l with enabled := b, state := .empty })
    (enabled : b = true → l.enabled = true) : l.MoveBy .driveReadyFall arms m := by
  subst same
  exact ⟨.inl rfl, fun off on => absurd (off.symm.trans (enabled on)) (by simp), fun _ _ => .inr (.inr (.inr rfl)),
    fun _ => .inr (.inr (.inr (.inr ⟨present, rfl, rfl⟩)))⟩

/-- Format Enable cleared by its own row. -/
theorem Latches.MoveBy.disarms (row : Instr.clearsEnable i) (same : m = { l with enabled := false }) : l.MoveBy i arms m := by
  subst same
  refine ⟨.inl rfl, by simp, fun _ _ => ?_, fun moved => absurd rfl moved⟩
  rcases row with format | clear | other
  · exact .inl format
  · exact .inr (.inl clear)
  · exact .inr (.inr (.inl other))

end

/-! ## The moments of the pack -/

theorem State.endSpeedFault_latches (s : State) : s.endSpeedFault.latches = s.latches := (State.poke_acts _).acts.latches

theorem State.checkSpeed_latches (period : Nat) (s : State) : (s.checkSpeed period).latches = s.latches := by
  unfold State.checkSpeed
  by_cases faulted : s.timer.speedFault = true
  · rw [if_pos faulted]
    exact iteInduction (motive := fun t : State => t.latches = s.latches) (fun _ => State.endSpeedFault_latches _) (fun _ => rfl)
  · rw [if_neg faulted]
    exact iteInduction (motive := fun t : State => t.latches = s.latches) (fun _ => rfl) (fun _ => rfl)

theorem State.takePeriod_latches (period : Nat) (s : State) :
    (s.takePeriod period).latches = s.latches ∨
      (s.pack.state = .spinningUp ∧ (s.takePeriod period).latches = { s.latches with epoch := s.pack.epoch + 1, state := .loaded }) := by
  unfold State.takePeriod
  split
  · next spinning =>
    exact iteInduction (motive := fun t : State => t.latches = s.latches ∨ s.pack.state = .spinningUp ∧
        t.latches = { s.latches with epoch := s.pack.epoch + 1, state := .loaded })
      (fun _ => .inr ⟨spinning, (State.poke_acts _).acts.latches⟩) (fun _ => .inl rfl)
  · exact .inl (s.checkSpeed_latches period)
  · exact .inl (s.checkSpeed_latches period)
  all_goals exact .inl rfl

theorem State.indexPulse_latches {elapsed : Nat} {protect : Bool} {s t : State} (h : execIndexPulse elapsed protect s = .next t) :
    t.latches = s.latches ∨ (s.pack.state = .spinningUp ∧ t.latches = { s.latches with epoch := s.pack.epoch + 1, state := .loaded }) := by
  cases h
  rw [(State.advanceFormat_acts _).latches]
  show State.latches (State.latchPeriod _) = _ ∨ _ ∧ State.latches (State.latchPeriod _) = _
  unfold State.latchPeriod
  dsimp only
  split
  · exact State.takePeriod_latches _ _
  · exact .inl rfl

theorem State.takeIndexLoss_latches (gateRaised : Bool) (s : State) : (s.takeIndexLoss gateRaised).latches = s.latches := by
  have faulted (u : State) : u.speedAtLoss.latches = u.latches := by
    unfold State.speedAtLoss
    split <;> rfl
  unfold State.takeIndexLoss
  dsimp only
  split
  · next g running =>
    split
    · exact (State.rotationLost_acts running _).latches.trans (faulted _)
    · exact faulted _
  · exact faulted _

theorem State.takeReadyRise_latches (s : State) :
    s.takeReadyRise.latches = if s.pack.state = .empty then { s.latches with state := .spinningUp } else s.latches := by
  have risen : (((s.setReady true).setCond .ready).packRise).latches =
      if s.pack.state = .empty then { s.latches with state := .spinningUp } else s.latches := by
    unfold State.packRise
    show State.latches (if s.pack.state = .empty then _ else _) = _
    split <;> rfl
  rw [← risen]
  unfold State.takeReadyRise
  dsimp only
  split
  · exact (State.beginFault_acts _).latches
  · rfl

theorem State.giveRelease_latches {s : State} (loaded : s.pack.state ≠ .unloading)
    (posts : packServes s.pack.state = true → s.posts.entries = []) :
    s.giveRelease.latches = { s.latches with enabled := false, state := .unloading } := by
  have held := s.releaseHold_acts
  have released := (State.releaseJobs_releases (s := s.releaseHold) (by rwa [held.pack]) s.releaseHold_unheld
    (by rwa [held.pack, s.releaseHold_posts])).packRecord
  rw [held.packRecord, held.pack] at released
  exact (State.handBackAll_acts _).latches.trans (congrArg PackRecord.latches released)

theorem State.forceRelease_latches {s : State} (loaded : s.pack.state ≠ .unloading) :
    s.forceRelease.latches = { s.latches with enabled := false, state := .unloading } := by
  have before : Acts s s.abortGrant.discardPosts.releaseHold :=
    (s.abortGrant_acts.trans (State.discardPosts_acts _)).trans (State.releaseHold_acts _)
  have empty : s.abortGrant.discardPosts.releaseHold.posts.entries = [] := by
    rw [State.releaseHold_posts, State.discardPosts_posts]
  have released := (State.abandonJobs_releases (s := s.abortGrant.discardPosts.releaseHold) (by rwa [before.pack])
    (State.releaseHold_unheld _) (fun _ => empty)).packRecord
  rw [before.packRecord, before.pack] at released
  exact (State.handBackAll_acts _).latches.trans (congrArg PackRecord.latches released)

theorem State.losePack_latches (s : State) : s.losePack.latches = { s.latches with enabled := false, state := .empty } := by
  have before : Acts s ((s.setEvent .packLost).discardPosts.releaseHold) :=
    ((State.setEvent_acts .packLost s).trans (State.discardPosts_acts _)).trans (State.releaseHold_acts _)
  have abandoned : ((s.setEvent .packLost).discardPosts.beginDeparture).abandonJobs.latches = { s.latches with enabled := false } := by
    rw [(State.abandonJobs_acts _).acts.latches, ← before.latches]
    rfl
  show ({ (((s.setEvent .packLost).discardPosts.beginDeparture).abandonJobs).latches with state := .empty } : Latches) = _
  rw [abandoned]

theorem State.packFall_latches {s : State} {arms : Prop} : s.latches.MoveBy .driveReadyFall arms s.packFall.latches := by
  unfold State.packFall
  split
  · exact .of_eq rfl
  · next spinning => exact .goes (by rw [State.latches_state]; simp [spinning]) rfl id
  · next loaded => exact .goes (by rw [State.latches_state]; simp [loaded]) s.losePack_latches (by simp)
  · next pending => exact .goes (by rw [State.latches_state]; simp [pending]) s.losePack_latches (by simp)
  · next unloading =>
    have gone : s.finishEnding.packGone.latches = { s.latches with state := .empty } := by
      rw [← s.finishEnding_acts.acts.latches]
      rfl
    exact .goes (by rw [State.latches_state]; simp [unloading]) gone id

theorem State.takeUnloadRequest_latches {s : State} {elapsed : Nat} {arms : Prop} :
    s.latches.MoveBy (.unloadRequest elapsed) arms s.takeUnloadRequest.latches := by
  have released (present : s.pack.state ≠ .empty) (t : State)
      (same : t.latches = { (s.setEvent .unloadRequested).latches with enabled := false, state := .unloading }) :
      s.latches.MoveBy (.unloadRequest elapsed) arms t.latches := .releases present same
  unfold State.takeUnloadRequest
  split
  · exact .of_eq rfl
  · exact .of_eq rfl
  · next spinning =>
    exact released (by simp [spinning]) _ (State.giveRelease_latches (by simp [spinning]) (by simp [spinning, packServes]))
  · next loaded =>
    have before : s.latches.state = .loaded := loaded
    exact ⟨.inl rfl, fun off on => absurd (off.symm.trans on) (by simp), fun on off => absurd (on.symm.trans off) (by simp),
      fun _ => .inr (.inr (.inl ⟨before, rfl, ⟨_, rfl⟩⟩))⟩
  · next pending =>
    unfold State.secondRequest
    split
    · exact iteInduction (motive := fun t : State => s.latches.MoveBy (.unloadRequest elapsed) arms t.latches)
        (fun _ => released (by simp [pending]) _ (State.forceRelease_latches (by simp [pending]))) (fun _ => .of_eq rfl)
    · exact .of_eq rfl

/-- The moments of the pack move the latches as the rules say. -/
theorem exec_packLatches {i : Instr} {s t : State} {arms : Prop} (row : Instr.movesPack i) (h : exec i s = .next t) :
    s.latches.MoveBy i arms t.latches := by
  rcases row with ⟨elapsed, protect, rfl⟩ | ⟨gateRaised, rfl⟩ | rfl | rfl | ⟨elapsed, rfl⟩ | rfl
  · rcases State.indexPulse_latches h with same | ⟨spinning, loads⟩
    · exact .of_eq same
    · rw [loads]
      exact ⟨.inr ⟨rfl, spinning, rfl, _, _, rfl⟩, fun off on => absurd (off.symm.trans on) (by simp),
        fun on off => absurd (on.symm.trans off) (by simp), fun _ => .inr (.inl ⟨spinning, rfl, _, _, rfl⟩)⟩
  · cases h
    exact iteInduction (motive := fun t : State => s.latches.MoveBy _ arms t.latches)
      (fun _ => .of_eq (s.takeIndexLoss_latches gateRaised)) (fun _ => .of_eq rfl)
  · cases h
    refine iteInduction (motive := fun t : State => s.latches.MoveBy _ arms t.latches) (fun _ => .of_eq rfl) (fun _ => ?_)
    rw [State.takeReadyRise_latches]
    split
    · next gone =>
      exact ⟨.inl rfl, fun off on => absurd (off.symm.trans on) (by simp), fun on off => absurd (on.symm.trans off) (by simp),
        fun _ => .inl ⟨gone, rfl, rfl⟩⟩
    · exact .of_eq rfl
  · cases h
    refine iteInduction (motive := fun t : State => s.latches.MoveBy _ arms t.latches) (fun _ => ?_) (fun _ => .of_eq rfl)
    have fallen : ((s.setReady false).sequencerFall).latches = s.latches := (State.sequencerFall_acts _).latches
    rw [← fallen]
    exact State.packFall_latches
  · cases h
    exact State.takeUnloadRequest_latches (s := s.advance elapsed)
  · cases h
    refine iteInduction (motive := fun t : State => s.latches.MoveBy _ arms t.latches) (fun due => ?_) (fun _ => .of_eq rfl)
    obtain ⟨pending, test⟩ := due
    have present : s.latches.state ≠ .empty := by rw [State.latches_state]; simp [pending]
    exact .releases present (State.giveRelease_latches (by simp [pending]) (fun _ => State.releaseTest_posts test))

/-! ## The commands of the Command Interface -/

theorem CommandEffect.latches {code : Word} {s : State} {p : ResultCode × State} (h : CommandEffect code s p) :
    p.2.latches = s.latches := by
  cases h with
  | acts r t h => exact h.latches
  | mode m own => exact (State.poke_acts _).acts.latches
  | _ => rfl

theorem CommandEffect.events_stay {code : Word} {s : State} {p : ResultCode × State} (h : CommandEffect code s p) :
    EventsStay s.events p.2.events ∨ (code = Code.clearEvents ∧ p.1 = .ok ∧ p.2.ci = s.ci) := by
  cases h with
  | acts r t h => exact .inl h.events
  | mode m own =>
    have kept := (State.poke_acts { s with port := { s.port with mode := m }
                                           engine := { s.engine with transparent := m == Mode.transparent } }).events
    exact .inl kept
  | events mask own => exact .inr ⟨own, rfl, rfl⟩
  | _ => exact .inl (.refl _)

/-- A confirmed command moves the latches by what it is. -/
theorem confirmed_latches {i : Instr} {arms : Prop} {pending : Word} {s : State}
    (listed : pending = Code.clearMap ∨ pending = Code.forceUnload ∨ pending = Code.enableFormat)
    (arming : pending = Code.enableFormat → packServes s.pack.state = true → arms) :
    s.latches.MoveBy i arms (confirmed pending s).2.latches := by
  rcases listed with rfl | rfl | rfl
  · exact .of_eq rfl
  · show s.latches.MoveBy i arms (confirmedForceUnload s).2.latches
    unfold confirmedForceUnload
    split
    · exact .of_eq rfl
    · next spinning =>
      exact .releases (by rw [State.latches_state]; simp [spinning])
        (State.giveRelease_latches (by simp [spinning]) (by simp [spinning, packServes]))
    · next loaded => exact .releases (by rw [State.latches_state]; simp [loaded]) (State.forceRelease_latches (by simp [loaded]))
    · next waiting => exact .releases (by rw [State.latches_state]; simp [waiting]) (State.forceRelease_latches (by simp [waiting]))
    · exact .of_eq rfl
  · show s.latches.MoveBy i arms (confirmedEnableFormat s).2.latches
    unfold confirmedEnableFormat
    split
    · next serves =>
      have armed : arms := arming rfl serves
      exact ⟨.inl rfl, fun _ _ => armed, fun _ off => absurd off (by simp [State.latches, PackRecord.latches, Seen.packRecord, State.seen]),
        fun moved => absurd rfl moved⟩
    · exact .of_eq rfl

theorem confirmed_enable {s : State} (serves : packServes s.pack.state = true) :
    confirmed Code.enableFormat s = (.ok, { s with port := { s.port with formatEnable := true } }) := by
  simp [confirmed, confirmedEnableFormat, serves, Code.enableFormat, Code.clearMap, Code.forceUnload]

/-- Settles O60, by the kinds of effect of a command. -/
theorem latchesMoveOnlyAsRuled : Obligations.LatchesMoveOnlyAsRuled := by
  unfold Obligations.LatchesMoveOnlyAsRuled
  intro s t i listed h on
  have moved (arms : Prop) (l : s.latches.MoveBy i arms t.latches)
      (armed : arms → s.ci.sequence = .awaitConfirm 0o125 ∧ t.ci.lastCommand = 0o141 ∧ t.ci.lastResult = .ok ∧
        packServes t.pack.state = true)
      (events : ∀ e : Event, hasEvent e s.events = true → hasEvent e t.events = true ∨
        (Instr.brings Code.clearEvents i ∧ t.ci.lastCommand = 0o140 ∧ t.ci.lastResult = .ok)) :=
    And.intro events (And.intro l.epoch (And.intro (fun off on => armed (l.armed off on)) (And.intro l.lost l.edge)))
  cases exec_effect h on with
  | acts t h => exact moved False (.of_eq h.latches) False.elim (fun e set => .inl (h.events e set))
  | turns t h' row => exact moved False (exec_packLatches row h) False.elim (fun e set => .inl (h'.events e set))
  | disarms u t before after row =>
    refine moved False (.disarms row ?_) False.elim (fun e set => .inl (after.events e (before.events e set)))
    rw [after.latches, ← before.latches]
    rfl
  | command code u p before row recorded effect =>
    refine moved False (.of_eq (effect.latches.trans before.latches)) False.elim (fun e set => ?_)
    rcases effect.events_stay with stay | ⟨rfl, result, ci⟩
    · exact .inl (stay e (before.events e set))
    · refine .inr ⟨row, ?_, result⟩
      show p.2.ci.lastCommand = _
      rw [ci, recorded]
      rfl
  | confirms pending u before waits recorded =>
    have named : pending = Code.clearMap ∨ pending = Code.forceUnload ∨ pending = Code.enableFormat := by
      simpa [State.sequenceWf, waits, or_assoc] using listed
    refine moved (pending = Code.enableFormat ∧ packServes u.pack.state = true) ?_ ?_ ?_
    · rw [← before.latches]
      exact confirmed_latches named (fun enable serves => ⟨enable, serves⟩)
    · rintro ⟨rfl, serves⟩
      rw [confirmed_enable serves]
      exact ⟨waits, recorded, rfl, serves⟩
    · exact fun e set => .inl ((confirmed_turns pending u).events e (before.events e set))

end Sys2Proof.Machine
end

