-- ==== Sys2Proof/Proofs/CableRequests.lean ====
section
/-! The requests of the cable, case by case (O4 to O8, O10): each row's equation from the laws of taking a request. -/

namespace Sys2Proof.Machine

/-! ## SELECT, SEEK, RECALIBRATE and SENSE (R1, R3, R7, R9, R16) -/

/-- An answer after the virtual cylinder has been set. -/
theorem State.answer_placed (c : Nat) (st : Status) (s : State) :
    ({ s with port := { s.port with virtCyl := c } } : State).answer st [] =
      { s with port := { s.port with virtCyl := c }
               completions := s.completions ++ [.status st []] } := rfl

/-- A SEEK in range: the virtual cylinder is set, and the drive positions or the answer is DONE (R3, R7, R16). -/
theorem State.takeSeek_within {c : Nat} {s : State} (within : c < s.geom.cylinders) :
    s.takeSeek c =
      if s.positionsDrive then
        ({ s.afterRequest with port := { s.afterRequest.port with virtCyl := c } } : State).requestPortWork .seek
          (.seek { cyl := c, head := s.port.virtHead })
      else ({ s.afterRequest with port := { s.afterRequest.port with virtCyl := c } } : State).answer .done [] := by
  unfold State.takeSeek
  rw [State.newRequest_eq_afterRequest]
  exact if_neg (Nat.not_le.2 within)

theorem State.takeRecalibrate_eq (s : State) :
    s.takeRecalibrate =
      if s.positionsDrive then
        ({ s.afterRequest with port := { s.afterRequest.port with virtCyl := 0 } } : State).requestPortWork .recalibrate .recalibrate
      else ({ s.afterRequest with port := { s.afterRequest.port with virtCyl := 0 } } : State).answer .done [] := by
  unfold State.takeRecalibrate
  rw [State.newRequest_eq_afterRequest]
  rfl

theorem State.positionsDrive_iff (s : State) :
    s.positionsDrive = true ↔ s.port.mode = .transparent ∧ packServes s.pack.state = true := by
  unfold State.positionsDrive
  rw [Bool.and_eq_true, beq_iff_eq]

/-- Settles O4, by the range of the cylinder and by whether the drive positions. -/
theorem positioningRequestsOfTheCable : Obligations.PositioningRequestsOfTheCable := by
  unfold Obligations.PositioningRequestsOfTheCable
  refine ⟨fun s c => ⟨?_, fun beyond => ?_, fun virtual => ?_⟩, fun s c mode serves within => ?_⟩
  · exact congrArg (fun u : State => Host.Outcome.next (u.answer .done [])) s.newRequest_eq_afterRequest
  · show Host.Outcome.next (s.takeSeek c) = _
    unfold State.takeSeek
    rw [State.newRequest_eq_afterRequest]
    exact congrArg _ (if_pos beyond)
  · have still : ¬ s.positionsDrive = true := by
      rw [State.positionsDrive_iff]
      rintro ⟨mode, serves⟩
      rcases virtual with interpose | unserved
      · simp [mode] at interpose
      · simp [serves] at unserved
    refine ⟨fun within => ?_, ?_⟩
    · show Host.Outcome.next (s.takeSeek c) = _
      rw [State.takeSeek_within within, if_neg still]
      rfl
    · show Host.Outcome.next s.takeRecalibrate = _
      rw [State.takeRecalibrate_eq, if_neg still]
      rfl
  · have positions := s.positionsDrive_iff.2 ⟨mode, serves⟩
    have seek : exec (.seek c) s = .next (({ s.afterRequest with port := { s.afterRequest.port with virtCyl := c } } : State).requestPortWork
        .seek (.seek { cyl := c, head := s.port.virtHead })) := by
      show Host.Outcome.next (s.takeSeek c) = _
      rw [State.takeSeek_within within, if_pos positions]
    have recalibrate : exec .recalibrate s = .next
        (({ s.afterRequest with port := { s.afterRequest.port with virtCyl := 0 } } : State).requestPortWork .recalibrate .recalibrate) := by
      show Host.Outcome.next s.takeRecalibrate = _
      rw [State.takeRecalibrate_eq, if_pos positions]
    rw [seek, recalibrate]
    refine ⟨fun ready => ⟨?_, ?_⟩, fun notReady => ⟨?_, ?_⟩⟩
    · exact congrArg _ (State.requestPortWork_taken _ _ _ serves ready)
    · exact congrArg _ (State.requestPortWork_taken _ _ _ serves ready)
    · exact congrArg _ (State.requestPortWork_handedBack _ _ _ notReady)
    · exact congrArg _ (State.requestPortWork_handedBack _ _ _ notReady)

/-- Settles O10, by the region's policy and the outstanding request. -/
theorem senseShowsVirtualDrive : Obligations.SenseShowsVirtualDrive := by
  unfold Obligations.SenseShowsVirtualDrive
  intro s permit
  dsimp only
  have answer (u : State) (region : u.regionAt u.port.virtCyl = s.regionAt s.port.virtCyl) (line : u.lines.permit = permit)
      (port : u.port = s.port) (drive : u.drive = s.drive) : u.senseAnswer =
      .sense true
        (match s.port.outstanding with
          | some ⟨.seek, _⟩ | some ⟨.recalibrate, _⟩ => false
          | some ⟨.read _ _ _, _⟩ | some ⟨.write _ _, _⟩ | some ⟨.format _, _⟩ | none => true)
        ((s.regionAt s.port.virtCyl).write == .refuse || ((s.regionAt s.port.virtCyl).write == .pass && !permit) ||
          ((s.regionAt s.port.virtCyl).write == .divert && s.port.mode == Mode.transparent))
        (s.drive.cond == .fault) := by
    have positioning : (!u.positioningOutstanding) =
        match s.port.outstanding with
          | some ⟨.seek, _⟩ | some ⟨.recalibrate, _⟩ => false
          | some ⟨.read _ _ _, _⟩ | some ⟨.write _ _, _⟩ | some ⟨.format _, _⟩ | none => true := by
      unfold State.positioningOutstanding
      rw [port]
      rcases s.port.outstanding with _ | ⟨work, stage⟩
      · rfl
      · cases work <;> rfl
    have shielded : u.senseProtected = ((s.regionAt s.port.virtCyl).write == .refuse ||
        ((s.regionAt s.port.virtCyl).write == .pass && !permit) ||
        ((s.regionAt s.port.virtCyl).write == .divert && s.port.mode == Mode.transparent)) := by
      unfold State.senseProtected
      rw [region, line, port]
      cases (s.regionAt s.port.virtCyl).write with
      | refuse => rfl
      | pass => cases permit <;> rfl
      | divert => rfl
    rw [State.senseAnswer, positioning, shielded, drive]
  have abandon := (s.setPermit permit).abandonSequence_eq
  show Host.Outcome.next (State.takeSense (s.setPermit permit)) = _
  unfold State.takeSense
  dsimp only
  rw [answer _ (by rw [abandon]; rfl) (by rw [abandon]; rfl) (by rw [abandon]; rfl) (by rw [abandon]; rfl), abandon]
  rfl

/-! ## READ (R11, R12, R16, R73) -/

/-- A READ data request with a pack served, by the mode (R7). -/
theorem exec_read_served {s : State} {head sector : Nat} (data : s.isDataRequest head sector) (serves : packServes s.pack.state = true) :
    exec (.read head sector) s = .next (match s.port.mode with
      | .interpose => (s.afterDataRequest head).lookupRead (s.requestAddr head sector)
      | .transparent => (s.afterDataRequest head).requestPortWork
          (.read (s.requestAddr head sector) (s.regionAt s.port.virtCyl) false) (.read (s.requestAddr head sector) false)) := by
  show Host.Outcome.next (s.takeRead head sector) = _
  rw [State.takeRead_data head sector s data]
  unfold State.dataRead
  refine congrArg _ ((if_neg (fun unserved => ?_)).trans rfl)
  simp [State.afterDataRequest, State.setVirtHead, State.afterRequest, serves] at unserved

section
variable {a : Addr} {s : State}

theorem State.lookupRead_post {p : PostEntry} (posted : s.postAt a = some p) : s.lookupRead a = s.answer .done p.data := by
  unfold State.lookupRead
  rw [posted]

theorem State.lookupRead_entry {e : MapEntry} (unposted : s.postAt a = none) (mapped : s.entryAt a = some e) :
    s.lookupRead a = s.answer (if e.origin.serving then .done else .dataCheck) (s.slotWords e.slot) := by
  unfold State.lookupRead
  rw [unposted, mapped]

theorem State.lookupRead_buffer {i : Nat} {ws : List Word} (unposted : s.postAt a = none) (unmapped : s.entryAt a = none)
    (buffered : s.bufferedSector a = some (i, ws)) : s.lookupRead a = (s.useBuffer i).answer .done ws := by
  unfold State.lookupRead
  rw [unposted, unmapped, buffered]

theorem State.lookupRead_drive (unposted : s.postAt a = none) (unmapped : s.entryAt a = none) (unbuffered : s.bufferedSector a = none) :
    s.lookupRead a = s.driveRead a := by
  unfold State.lookupRead
  rw [unposted, unmapped, unbuffered]

theorem Origin.serving_answer (o : Origin) : (if o.serving then Status.done else .dataCheck) =
    if o = .bestEffort then .dataCheck else .done := by
  cases o <;> rfl

theorem State.driveRead_waits (capturing : s.drive.capturePending a = true) : s.driveRead a =
    { s with port := { s.port with outstanding := some { work := .read a (s.regionAt a.cyl) true, stage := .capturing } } } := by
  unfold State.driveRead
  exact if_pos capturing

theorem State.driveRead_requests (idle : s.drive.capturePending a = false) : s.driveRead a =
    s.requestPortWork (.read a (s.regionAt a.cyl) true) (.read a (s.regionAt a.cyl).prefetch) := by
  unfold State.driveRead
  exact if_neg (by rw [idle]; simp)

end

theorem exec_read_interpose {s : State} {head sector : Nat} (data : s.isDataRequest head sector)
    (serves : packServes s.pack.state = true) (mode : s.port.mode = .interpose) :
    exec (.read head sector) s = .next ((s.afterDataRequest head).lookupRead (s.requestAddr head sector)) := by
  rw [exec_read_served data serves, mode]

/-- Settles O5, along the lookup order. -/
theorem readRequestDisposition : Obligations.ReadRequestDisposition := by
  unfold Obligations.ReadRequestDisposition
  refine ⟨fun s head sector data serves mode => ?_, fun s head sector data serves => ?_⟩
  · rw [exec_read_interpose data serves mode]
    refine ⟨fun p posted => congrArg _ (State.lookupRead_post (s := s.afterDataRequest head) posted),
      fun e unposted mapped => congrArg _ ?_,
      fun i ws unposted unmapped buffered =>
        congrArg _ (State.lookupRead_buffer (s := s.afterDataRequest head) unposted unmapped buffered)⟩
    rw [State.lookupRead_entry (s := s.afterDataRequest head) unposted mapped, Origin.serving_answer]
    rfl
  · refine ⟨fun mode unposted unmapped unbuffered => ?_, fun mode => ?_⟩
    · rw [exec_read_interpose data serves mode,
        State.lookupRead_drive (s := s.afterDataRequest head) unposted unmapped unbuffered]
      refine ⟨fun capturing => congrArg _ ?_, fun idle ready => congrArg _ ?_, fun idle notReady => congrArg _ ?_⟩
      · exact State.driveRead_waits (s := s.afterDataRequest head) capturing
      · exact (State.driveRead_requests (s := s.afterDataRequest head) idle).trans (State.requestPortWork_taken _ _ _ serves ready)
      · exact (State.driveRead_requests (s := s.afterDataRequest head) idle).trans (State.requestPortWork_handedBack _ _ _ notReady)
    · rw [exec_read_served data serves, mode]
      exact ⟨fun ready => congrArg _ (State.requestPortWork_taken _ _ _ serves ready),
        fun notReady => congrArg _ (State.requestPortWork_handedBack _ _ _ notReady)⟩

/-! ## Requests turned away (R1, R4, R6) -/

/-- Settles O6, along the tests in their order. -/
theorem requestsTurnedAway : Obligations.RequestsTurnedAway := by
  unfold Obligations.RequestsTurnedAway
  intro s unit r head sector words permit
  have write : exec (.write head sector words permit) s = .next ((s.setPermit permit).takeWrite head sector words) := rfl
  have read : exec (.read head sector) s = .next (s.takeRead head sector) := rfl
  have format : exec (.format head permit) s = .next ((s.setPermit permit).takeFormat head) := rfl
  rw [write, read, format]
  refine ⟨fun other => congrArg _ (if_neg other), fun beyond => ?_, fun within beyond => ?_, fun unserved => ⟨fun data => ?_, fun within => ?_⟩⟩
  · rw [State.takeRead_eq, State.takeWrite_eq, State.takeFormat_eq]
    exact ⟨congrArg _ (if_pos beyond), congrArg _ (if_pos beyond), congrArg _ (if_pos beyond)⟩
  · have inRange : ¬ s.geom.heads ≤ head := Nat.not_le.2 within
    rw [State.takeRead_eq, State.takeWrite_eq]
    exact ⟨congrArg _ ((if_neg inRange).trans (if_pos beyond)), congrArg _ ((if_neg inRange).trans (if_pos beyond))⟩
  · rw [State.takeRead_data head sector s data, State.takeWrite_data head sector words (s.setPermit permit) data]
    unfold State.dataRead State.dataWrite
    have none : (!packServes s.pack.state) = true := by rw [unserved]; rfl
    exact ⟨congrArg _ (if_pos none), congrArg _ (if_pos none)⟩
  · rw [State.takeFormat_eq]
    have none : (!packServes s.pack.state) = true := by rw [unserved]; rfl
    exact congrArg _ ((if_neg (Nat.not_le.2 within)).trans (if_pos none))

end Sys2Proof.Machine
end

