-- ==== Sys2Proof/Proofs/JobRecords.lean ====
section
/-! What the ending of a job with nothing pending does: its record, its bank, the jobs left standing (R116, R123, R129, R130); and what a
supersession leaves alone (R128). -/

namespace Sys2Proof.Machine

/-! ## The engine's tests move no job out of the queue (R123) -/

theorem State.preempt_liveJobs (s : State) : s.preempt.engine.liveJobs = s.engine.liveJobs := by
  rcases s.preempt_cases with same | ⟨j, active, -, parked, -, -, -, -, parks⟩
  · rw [same]
  · rw [parks]
    simp [Engine.liveJobs, active, parked]

theorem State.poke_liveJobs (s : State) : s.poke.engine.liveJobs = s.engine.liveJobs := s.preempt_liveJobs

/-- The window closed where the queue is empty (R119). -/
def Engine.windowed (e : Engine) : Engine := if e.length = 0 then { e with window := none } else e

theorem Engine.windowed_eq (e : Engine) : e.windowed = { e with window := if e.jobs = [] then none else e.window } := by
  unfold Engine.windowed Engine.length
  by_cases empty : e.jobs = []
  · rw [if_pos (by rw [empty]; rfl), if_pos empty]
  · rw [if_neg (by rwa [List.length_eq_zero_iff]), if_neg empty]

theorem State.afterQueueChange_eq (s : State) : s.afterQueueChange = ((s.withEngine Engine.windowed).liftResultsFull).poke := rfl

theorem State.afterQueueChange_liveJobs (s : State) : s.afterQueueChange.engine.liveJobs = s.engine.liveJobs := by
  rw [State.afterQueueChange_eq, State.poke_liveJobs, State.liftResultsFull_frame]
  show (s.engine.windowed).liveJobs = _
  rw [Engine.windowed_eq]
  rfl

/-- After a job has left the queue: the window by whether a job is left, the places and RESULTS_FULL by the tests, nothing else (R116,
R119, R123, R124). -/
theorem State.afterQueueChange_engine (s : State) :
    s.afterQueueChange = { s with
      engine := { s.engine with
        active := s.afterQueueChange.engine.active
        parked := s.afterQueueChange.engine.parked
        window := if s.engine.jobs = [] then none else s.engine.window
        resultsFull := s.afterQueueChange.engine.resultsFull }
      drive := { s.drive with recoveryRequest := s.afterQueueChange.drive.recoveryRequest } } := by
  have window : s.afterQueueChange.engine.window = if s.engine.jobs = [] then none else s.engine.window := by
    rw [State.afterQueueChange_eq, State.poke_frame, State.liftResultsFull_frame]
    show (s.engine.windowed).window = _
    rw [Engine.windowed_eq]
  rw [← window]
  exact s.afterQueueChange_frame

/-! ## Steps 4 to 6 of an ending (R129, R130) -/

theorem Engine.freeBank_reservations (b : Option Nat) (e : Engine) : (e.freeBank b).reservations = e.reservations := by
  rw [e.freeBank_eq]
  rfl

theorem State.canReserve_freeBank (b : Option Nat) (s : State) : (s.withEngine (Engine.freeBank b)).canReserve = s.canReserve := by
  show decide (s.results.length + (s.engine.freeBank b).reservations < _) = _
  rw [Engine.freeBank_reservations]
  rfl

/-- The record of an ending has a place (R130). -/
def State.keepsRecord (j : Job) (s : State) : Bool := j.reservation || s.canReserve

/-- Steps 4 to 6 of an ending change the Result Queue, the events, the job's bank, the window, the places and the standing request by
the tests, and nothing else. -/
theorem State.closeJob_eq (ending : Ending) (j : Job) (s : State) :
    s.closeJob ending j = { s with
      results := if s.keepsRecord j then s.results ++ [j.record ending] else s.results
      events := if s.keepsRecord j then s.events else withEvent .resultsFull s.events
      engine := { s.engine with
        banks := (s.engine.freeBank j.bank).banks
        active := (s.closeJob ending j).engine.active
        parked := (s.closeJob ending j).engine.parked
        window := if s.engine.jobs = [] then none else s.engine.window
        resultsFull := (s.closeJob ending j).engine.resultsFull }
      drive := { s.drive with recoveryRequest := (s.closeJob ending j).drive.recoveryRequest } } := by
  have placed : (s.withEngine (Engine.freeBank j.bank)).placeRecord ending j = { s with
      results := if s.keepsRecord j then s.results ++ [j.record ending] else s.results
      events := if s.keepsRecord j then s.events else withEvent .resultsFull s.events
      engine := { s.engine with banks := (s.engine.freeBank j.bank).banks } } := by
    rw [← Engine.freeBank_eq]
    unfold State.placeRecord
    rw [State.canReserve_freeBank]
    unfold State.keepsRecord
    split <;> rfl
  unfold State.closeJob
  rw [State.afterQueueChange_engine, placed]
  rfl

theorem State.closeJob_liveJobs (ending : Ending) (j : Job) (s : State) : (s.closeJob ending j).engine.liveJobs = s.engine.liveJobs := by
  unfold State.closeJob
  rw [State.afterQueueChange_liveJobs, State.placeRecord_frame]
  show (s.engine.freeBank j.bank).liveJobs = _
  rw [Engine.freeBank_eq]
  rfl

/-! ## What a supersession leaves alone (R128) -/

/-- Nothing differs but the Recovery Engine, the Result Queue, the events, the standing RECOVERY request and the running grant. -/
def State.EngineOnly (s t : State) : Prop :=
  t = { s with
    engine := t.engine
    results := t.results
    events := t.events
    drive := { s.drive with
      recoveryRequest := t.drive.recoveryRequest
      grant := t.drive.grant } }

theorem State.EngineOnly.trans {s t u : State} (h : s.EngineOnly t) (h' : t.EngineOnly u) : s.EngineOnly u := by
  unfold State.EngineOnly at *
  rw [h] at h'
  exact h'

theorem State.EngineOnly.refl (s : State) : s.EngineOnly s := rfl

theorem State.withEngine_engineOnly (f : Engine → Engine) (s : State) : s.EngineOnly (s.withEngine f) := rfl

theorem State.closeJob_engineOnly (ending : Ending) (j : Job) (s : State) : s.EngineOnly (s.closeJob ending j) := by
  unfold State.EngineOnly
  rw [State.closeJob_eq]

theorem State.passOver_engineOnly (n : Nat) (s : State) : s.EngineOnly (s.passOver n) := by
  unfold State.EngineOnly
  rw [State.passOver_frame]

theorem Job.decide_pending (n : Nat) (o : SectorOutcome) (j : Job) : (j.decide n o).pending = j.pending.filter (fun m => m != n) := rfl

theorem State.endJob_engineOnly {j : Job} (decided : j.pending = []) (ending : Ending) (s : State) :
    s.EngineOnly (s.endJob ending j) := by
  rw [State.endJob_decided decided]
  exact s.closeJob_engineOnly ending j

theorem State.endActive_engineOnly {j : Job} (decided : j.pending = []) (ending : Ending) (s : State) :
    s.EngineOnly (s.endActive ending j) := by
  have taken : s.EngineOnly ((s.withEngine (fun e => { e with active := none })).setRecoveryRequest false) := rfl
  exact taken.trans (State.endJob_engineOnly decided ending _)

theorem State.supersedeActive_engineOnly (n : Nat) (j : Job) (s : State) : s.EngineOnly (s.supersedeActive n j) := by
  have passed : s.EngineOnly ((s.withEngine (Engine.dropAccumulator j.bank n)).passOver n) :=
    (s.withEngine_engineOnly _).trans (State.passOver_engineOnly n _)
  unfold State.supersedeActive
  refine iteInduction (motive := s.EngineOnly) (fun ends => ?_) (fun _ => passed.trans (State.withEngine_engineOnly _ _))
  exact passed.trans (State.endActive_engineOnly (List.isEmpty_iff.1 (Bool.and_eq_true_iff.1 ends).1) _ _)

theorem State.supersedeParked_engineOnly (n : Nat) (j : Job) (s : State) : s.EngineOnly (s.supersedeParked n j) := by
  have dropped : s.EngineOnly (s.withEngine (Engine.dropAccumulator j.bank n)) := rfl
  unfold State.supersedeParked
  refine iteInduction (motive := s.EngineOnly) (fun ends => ?_) (fun _ => dropped.trans (State.withEngine_engineOnly _ _))
  exact (dropped.trans (State.withEngine_engineOnly _ _)).trans (State.endJob_engineOnly (List.isEmpty_iff.1 ends) _ _)

theorem State.supersedeQueued_engineOnly (n : Nat) (before : List Job) (j : Job) (after : List Job) (s : State) :
    s.EngineOnly (s.supersedeQueued n before j after) := by
  unfold State.supersedeQueued
  refine iteInduction (motive := s.EngineOnly) (fun ends => ?_) (fun _ => s.withEngine_engineOnly _)
  exact (s.withEngine_engineOnly _).trans (State.endJob_engineOnly (List.isEmpty_iff.1 ends) _ _)

theorem State.supersede_engineOnly (a : Addr) (s : State) : s.EngineOnly (s.supersede a) := by
  unfold State.supersede
  split
  · exact iteInduction (motive := s.EngineOnly) (fun _ => s.supersedeActive_engineOnly _ _) (fun _ => .refl s)
  · split
    · exact iteInduction (motive := s.EngineOnly) (fun _ => s.supersedeParked_engineOnly _ _) (fun _ => .refl s)
    · split
      · exact iteInduction (motive := s.EngineOnly) (fun _ => s.supersedeQueued_engineOnly _ _ _ _) (fun _ => .refl s)
      · exact .refl s

theorem State.supersedeAll_engineOnly (t : Track) (ns : List Nat) (s : State) :
    s.EngineOnly (ns.foldl (fun s n => s.supersede (t.at n)) s) := by
  induction ns generalizing s with
  | nil => exact .refl s
  | cons n ns ih => exact (s.supersede_engineOnly _).trans (ih _)

end Sys2Proof.Machine
end

