-- ==== Sys2Proof/Proofs/CableWrites.lean ====
section
/-! WRITE in both modes, the data sector of LOAD SECTOR, and what a WRITE answered DONE lets a READ find (O7, O8, O12, O13). -/

namespace Sys2Proof.Machine

/-- A WRITE data request with a pack served, by the mode (R7). -/
theorem exec_write_served {s : State} {head sector : Nat} {words : List Word} {permit : Bool} (data : s.isDataRequest head sector)
    (serves : packServes s.pack.state = true) :
    exec (.write head sector words permit) s = .next (match s.port.mode with
      | .interpose => ((s.setPermit permit).afterDataRequest head).interposeWrite (s.requestAddr head sector)
          (fitWords s.geom.words words)
      | .transparent => ((s.setPermit permit).afterDataRequest head).transparentWrite (s.requestAddr head sector)
          (fitWords s.geom.words words)) := by
  show Host.Outcome.next ((s.setPermit permit).takeWrite head sector words) = _
  rw [State.takeWrite_data head sector words (s.setPermit permit) data]
  unfold State.dataWrite
  refine congrArg _ ((if_neg (fun unserved => ?_)).trans rfl)
  simp [State.afterDataRequest, State.setVirtHead, State.afterRequest, serves] at unserved

theorem exec_write_interpose {s : State} {head sector : Nat} {words : List Word} {permit : Bool} (data : s.isDataRequest head sector)
    (serves : packServes s.pack.state = true) (mode : s.port.mode = .interpose) :
    exec (.write head sector words permit) s = .next (((s.setPermit permit).afterDataRequest head).interposeWrite
      (s.requestAddr head sector) (fitWords s.geom.words words)) := by
  rw [exec_write_served data serves, mode]

/-! ## WRITE in INTERPOSE mode by the region's policy (R14) -/

section
variable {a : Addr} {ws : List Word} {s : State}

theorem State.interposeWrite_refuse (policy : (s.regionAt a.cyl).write = .refuse) :
    s.interposeWrite a ws = s.answer .writeProtected [] := by
  unfold State.interposeWrite
  rw [policy]

theorem State.interposeWrite_unpermitted (policy : (s.regionAt a.cyl).write = .pass) (permit : s.lines.permit = false) :
    s.interposeWrite a ws = s.answer .writeProtected [] := by
  unfold State.interposeWrite
  rw [policy]
  exact if_pos (by rw [permit]; rfl)

theorem State.interposeWrite_posts (policy : (s.regionAt a.cyl).write = .pass) (permit : s.lines.permit = true)
    (room : s.postHasRoom a = true) : s.interposeWrite a ws = (s.takePost a ws).answer .done [] := by
  unfold State.interposeWrite
  rw [policy]
  exact (if_neg (by rw [permit]; simp)).trans (if_pos room)

theorem State.interposeWrite_waits (policy : (s.regionAt a.cyl).write = .pass) (permit : s.lines.permit = true)
    (full : s.postHasRoom a = false) : s.interposeWrite a ws = s.waitForRoom a ws := by
  unfold State.interposeWrite
  rw [policy]
  exact (if_neg (by rw [permit]; simp)).trans (if_neg (by rw [full]; simp))

theorem State.interposeWrite_divert (policy : (s.regionAt a.cyl).write = .divert) :
    s.interposeWrite a ws = match s.divert a ws with
      | some t => t.answer .done []
      | none => (s.setEvent .storeFull).answer .writeFault [] := by
  unfold State.interposeWrite
  rw [policy] <;> rfl

theorem State.postHasRoom_new (unposted : s.postAt a = none) : s.postHasRoom a = decide (s.posts.entries.length < 8) := by
  unfold State.postHasRoom
  rw [unposted]
  rfl

theorem State.takePost_new (unposted : s.postAt a = none) :
    s.takePost a ws = (s.withPosts (s.posts.entries ++ [s.newPost a ws])).passEffects a := by
  unfold State.takePost
  rw [unposted]
  rfl

theorem State.takePost_merge {p : PostEntry} (posted : s.postAt a = some p) :
    s.takePost a ws = (s.withPosts (updatePost a (PostEntry.merge ws) s.posts.entries)).passEffects a := by
  unfold State.takePost
  rw [posted]
  rfl

theorem State.divert_stored {n : Nat} (held : ∀ e, s.entryAt a = some e → n = e.slot)
    (free : s.entryAt a = none → s.freeSlot = some n) :
    s.divert a ws = some (((s.putEntry a .diverted ws n).dropPosts (fun b => b == a)).supersede a) := by
  unfold State.divert
  rw [State.storeSector_slot a .diverted ws s n held free]
  rfl

theorem State.divert_full (unmapped : s.entryAt a = none) (full : s.freeSlot = none) : s.divert a ws = none := by
  unfold State.divert
  rw [State.storeSector_full a .diverted ws s unmapped full]
  rfl

end

/-- Settles O7, by the region's policy. -/
theorem interposeWriteDisposition : Obligations.InterposeWriteDisposition := by
  unfold Obligations.InterposeWriteDisposition
  refine ⟨fun s head sector words permit data serves mode => ?_, fun s head sector words permit data serves mode policy => ?_,
    fun s head sector words data serves mode policy => ?_⟩
  · dsimp only
    rw [exec_write_interpose data serves mode]
    refine ⟨fun turned => congrArg _ ?_, fun policy permitted unposted full => ⟨fun zero => congrArg _ ?_, fun hold => congrArg _ ?_⟩⟩
    · rcases turned with refuse | ⟨pass, unpermitted⟩
      · exact State.interposeWrite_refuse refuse
      · exact State.interposeWrite_unpermitted pass unpermitted
    · have noRoom : ((s.setPermit permit).afterDataRequest head).postHasRoom (s.requestAddr head sector) = false :=
        (State.postHasRoom_new (s := (s.setPermit permit).afterDataRequest head) unposted).trans
          (decide_eq_false (Nat.not_lt.2 full))
      rw [State.interposeWrite_waits policy permitted noRoom]
      exact if_pos zero
    · have noRoom : ((s.setPermit permit).afterDataRequest head).postHasRoom (s.requestAddr head sector) = false :=
        (State.postHasRoom_new (s := (s.setPermit permit).afterDataRequest head) unposted).trans
          (decide_eq_false (Nat.not_lt.2 full))
      rw [State.interposeWrite_waits policy permitted noRoom]
      refine (if_neg (Nat.pos_iff_ne_zero.1 hold)).trans ?_
      rw [Nat.mul_comm]
      rfl
  · dsimp only
    rw [exec_write_interpose data serves mode]
    refine ⟨fun n held free => congrArg _ ?_, fun unmapped full => congrArg _ ?_⟩
    · rw [State.interposeWrite_divert policy,
        State.divert_stored (s := (s.setPermit permit).afterDataRequest head) (n := n) held free]
      rfl
    · rw [State.interposeWrite_divert policy,
        State.divert_full (s := (s.setPermit permit).afterDataRequest head) unmapped full]
  · dsimp only
    rw [exec_write_interpose data serves mode]
    refine ⟨fun unposted room => congrArg _ ?_, fun p posted => congrArg _ ?_⟩
    · have hasRoom : ((s.setPermit true).afterDataRequest head).postHasRoom (s.requestAddr head sector) = true :=
        (State.postHasRoom_new (s := (s.setPermit true).afterDataRequest head) unposted).trans (decide_eq_true room)
      rw [State.interposeWrite_posts policy rfl hasRoom, State.takePost_new (s := (s.setPermit true).afterDataRequest head) unposted]
      rfl
    · have hasRoom : ((s.setPermit true).afterDataRequest head).postHasRoom (s.requestAddr head sector) = true := by
        show ((s.postAt _).isSome || _) = true
        rw [posted]
        rfl
      rw [State.interposeWrite_posts policy rfl hasRoom, State.takePost_merge (s := (s.setPermit true).afterDataRequest head) posted]
      rfl

/-- Settles O8, by the region's policy and Media Write Permit. -/
theorem transparentWriteGoesToDrive : Obligations.TransparentWriteGoesToDrive := by
  unfold Obligations.TransparentWriteGoesToDrive
  intro s head sector words permit data serves mode
  dsimp only
  rw [exec_write_served data serves, mode]
  dsimp only
  unfold State.transparentWrite
  refine ⟨fun policy permitted => ⟨fun ready => congrArg _ ?_, fun notReady => congrArg _ ?_⟩, fun turned => congrArg _ (if_neg ?_)⟩
  · exact (if_pos ⟨policy, permitted⟩).trans (State.requestPortWork_taken _ _ _ serves ready)
  · exact (if_pos ⟨policy, permitted⟩).trans (State.requestPortWork_handedBack _ _ _ notReady)
  · rintro ⟨policy, permitted⟩
    rcases turned with other | unpermitted
    · exact other policy
    · exact absurd (permitted.symm.trans unpermitted) (by simp)

/-! ## The data sector of LOAD SECTOR (R52) -/

theorem State.takeDataSector_of {a : Addr} {ws : List Word} {r : ResultCode} {s t : State} (h : s.loadData a ws = (r, t)) :
    s.takeDataSector a ws =
      ({ t with ci := { t.ci with sequence := .ready, lastResult := r } } : State).answer .done [] := by
  unfold State.takeDataSector
  rw [h]

theorem State.loadData_unserved {a : Addr} {ws : List Word} {s : State} (unserved : packServes s.pack.state = false) :
    s.loadData a ws = (.noPack, s) := if_pos (by rw [unserved]; rfl)

theorem State.loadData_full {a : Addr} {ws : List Word} {s : State} (serves : packServes s.pack.state = true)
    (unmapped : s.entryAt a = none) (full : s.freeSlot = none) : s.loadData a ws = (.full, s) := by
  unfold State.loadData
  rw [if_neg (by rw [serves]; simp), State.storeSector_full a .loaded ws s unmapped full]

theorem State.loadData_stored {a : Addr} {ws : List Word} {s : State} {n : Nat} (serves : packServes s.pack.state = true)
    (held : ∀ e, s.entryAt a = some e → n = e.slot) (free : s.entryAt a = none → s.freeSlot = some n) :
    s.loadData a ws = (.ok, s.putEntry a .loaded ws n) := by
  unfold State.loadData
  rw [if_neg (by rw [serves]; simp), State.storeSector_slot a .loaded ws s n held free]

/-- Settles O12, by whether a pack is served and a slot found. -/
theorem loadSectorDataTaken : Obligations.LoadSectorDataTaken := by
  unfold Obligations.LoadSectorDataTaken
  intro s words a awaited
  dsimp only
  have row : exec (.loadSectorData words) s =
      .next ((s.dropRequest.setVirtHead s.ci.controlAddr.head).takeDataSector a (fitWords s.geom.words words)) := by
    show Host.Outcome.next (s.takeControlWrite words) = _
    unfold State.takeControlWrite State.controlWrite
    rw [State.dropRequest_eq]
    dsimp only [State.setVirtHead]
    rw [awaited]
  rw [row, State.dropRequest_eq]
  refine ⟨fun unserved => congrArg _ ?_, fun serves => ⟨fun unmapped full => congrArg _ ?_, fun n held free => congrArg _ ?_⟩⟩
  · refine (State.takeDataSector_of (State.loadData_unserved ?_)).trans rfl
    exact unserved
  · refine (State.takeDataSector_of (State.loadData_full ?_ ?_ ?_)).trans rfl
    · exact serves
    · exact unmapped
    · exact full
  · refine (State.takeDataSector_of (State.loadData_stored (n := n) ?_ ?_ ?_)).trans rfl
    · exact serves
    · exact held
    · exact free

/-! ## What a READ finds of a WRITE answered DONE (R11, R44 to R46, R61) -/

/-- A READ of an address finds the words: in its post entry, or, with none, in its map entry. -/
def State.Finds (a : Addr) (ws : List Word) (s : State) : Prop :=
  (∃ p, s.postAt a = some p ∧ p.data = ws) ∨
    (s.postAt a = none ∧ ∃ e, s.entryAt a = some e ∧ e.origin.serving = true ∧ s.slotWords e.slot = ws)

theorem State.Finds.lookup {a : Addr} {ws : List Word} {s : State} (h : s.Finds a ws) : s.lookupRead a = s.answer .done ws := by
  rcases h with ⟨p, posted, rfl⟩ | ⟨unposted, e, mapped, serving, rfl⟩
  · exact State.lookupRead_post posted
  · rw [State.lookupRead_entry unposted mapped, serving]
    rfl

theorem State.Finds.congr {a : Addr} {ws : List Word} {s t : State} (h : s.Finds a ws) (posts : t.posts = s.posts) (map : t.map = s.map)
    (geom : t.geom = s.geom) : t.Finds a ws := by
  unfold State.Finds State.postAt State.entryAt State.slotWords State.slotContents at *
  rwa [posts, map, geom]

theorem State.takePost_finds (a : Addr) (ws : List Word) (s : State) : (s.takePost a ws).Finds a ws := by
  have effects (u : State) : (u.passEffects a).posts = u.posts := by
    show (State.supersede a _).posts = _
    rw [State.supersede_engineOnly]
    rfl
  left
  unfold State.postAt
  cases posted : s.postAt a with
  | none =>
    rw [State.takePost_new posted, effects]
    refine ⟨s.newPost a ws, ?_, rfl⟩
    show (s.posts.entries ++ _).find? _ = _
    rw [List.find?_append, show s.posts.entries.find? _ = none from posted]
    simp [State.newPost]
  | some p =>
    rw [State.takePost_merge posted, effects]
    refine ⟨PostEntry.merge ws p, ?_, rfl⟩
    show (List.map _ s.posts.entries).find? _ = _
    have found : s.posts.entries.find? (fun q => q.addr == a) = some p := posted
    have here : p.addr = a := by simpa using List.find?_some found
    have unmoved : (fun q : PostEntry => (if q.addr = a then PostEntry.merge ws q else q).addr == a) = fun q => q.addr == a := by
      funext q
      split <;> rfl
    rw [List.find?_map]
    show (s.posts.entries.find? (fun q : PostEntry => (if q.addr = a then PostEntry.merge ws q else q).addr == a)).map _ = _
    rw [unmoved, found, Option.map_some, if_pos here]

theorem State.diverted_finds {a : Addr} {ws : List Word} (s : State) (n : Nat) (exact : fitWords s.geom.words ws = ws) :
    (((s.putEntry a .diverted ws n).dropPosts (fun b => b == a)).supersede a).Finds a ws := by
  right
  have unposted : ((s.putEntry a .diverted ws n).dropPosts (fun b => b == a)).postAt a = none := by
    rw [State.postAt_eq_none]
    simp [State.dropPosts]
  rw [State.supersede_engineOnly]
  refine ⟨unposted, _, s.putEntry_entryAt a .diverted ws n, rfl, ?_⟩
  exact (s.putEntry_slotWords a .diverted ws n).trans exact

/-- Where a WRITE in INTERPOSE mode is answered DONE, a READ finds its words. -/
theorem State.interposeWrite_done {a : Addr} {ws : List Word} {s : State} (exact : fitWords s.geom.words ws = ws)
    (done : (s.interposeWrite a ws).completions = s.completions ++ [.status .done []]) : (s.interposeWrite a ws).Finds a ws := by
  have other {st : Status} (u : State) (same : u.completions = s.completions) (h : s.interposeWrite a ws = u.answer st [])
      (not : st ≠ .done) : (s.interposeWrite a ws).Finds a ws := by
    rw [h] at done
    simp [State.answer, same, not] at done
  cases policy : (s.regionAt a.cyl).write with
  | refuse => exact other s rfl (State.interposeWrite_refuse policy) (by simp)
  | divert =>
    have diverted := State.interposeWrite_divert (ws := ws) policy
    cases stored : s.divert a ws with
    | none =>
      rw [stored] at diverted
      exact other (s.setEvent .storeFull) rfl diverted (by simp)
    | some t =>
      rw [stored] at diverted
      unfold State.divert at stored
      obtain ⟨u, put, rfl⟩ := Option.map_eq_some_iff.1 stored
      obtain ⟨n, -, rfl⟩ := State.storeSector_some put
      rw [diverted]
      exact (s.diverted_finds n exact).congr rfl rfl rfl
  | pass =>
    cases permit : s.lines.permit with
    | false => exact other s rfl (State.interposeWrite_unpermitted policy permit) (by simp)
    | true =>
      cases room : s.postHasRoom a with
      | true =>
        rw [State.interposeWrite_posts policy permit room]
        exact (s.takePost_finds a ws).congr rfl rfl rfl
      | false =>
        have waits := State.interposeWrite_waits (ws := ws) policy permit room
        by_cases zero : s.timing.holdLimit = 0
        · exact other s rfl (waits.trans (if_pos zero)) (by simp)
        · rw [waits, State.waitForRoom, if_neg zero] at done
          simp [State.beginHold] at done

theorem State.interposeWrite_virtCyl (a : Addr) (ws : List Word) (s : State) :
    (s.interposeWrite a ws).port.virtCyl = s.port.virtCyl := by
  have supersede (b : Addr) (u : State) : (u.supersede b).port = u.port := by
    rw [State.supersede_engineOnly]
  have posts : (s.takePost a ws).port = s.port := by
    unfold State.takePost
    refine (supersede a _).trans ?_
    split <;> rfl
  unfold State.interposeWrite
  split
  · rfl
  · split
    · next t diverted =>
      unfold State.divert at diverted
      obtain ⟨u, put, rfl⟩ := Option.map_eq_some_iff.1 diverted
      obtain ⟨n, -, rfl⟩ := State.storeSector_some put
      exact congrArg Port.virtCyl (supersede a _)
    · rfl
  · split
    · rfl
    · split
      · exact congrArg Port.virtCyl posts
      · unfold State.waitForRoom
        split <;> rfl

/-- A request that stays one of the data requests of the same unit, pack and mode after acts that leave the virtual cylinder. -/
theorem Acts.keeps_request {s t : State} {head sector : Nat} (h : Acts s t) (data : s.isDataRequest head sector)
    (cyl : t.port.virtCyl = s.port.virtCyl) :
    t.isDataRequest head sector ∧ t.port.mode = s.port.mode ∧ t.requestAddr head sector = s.requestAddr head sector ∧ t.geom = s.geom := by
  have settings := h.settings
  have geom : t.geom = s.geom := congrArg Settings.geom settings
  have addr : t.ci.controlAddr = s.ci.controlAddr := congrArg Settings.controlAddr settings
  have same : t.requestAddr head sector = s.requestAddr head sector := by
    unfold State.requestAddr
    rw [cyl]
  refine ⟨?_, congrArg Settings.mode settings, same, geom⟩
  unfold State.isDataRequest
  rw [geom, addr, same]
  exact data

/-- Settles O13, by where the words of the WRITE were put. -/
theorem writtenWordsReadBack : Obligations.WrittenWordsReadBack := by
  unfold Obligations.WrittenWordsReadBack
  intro s t head sector words permit _ data serves mode h done
  rw [exec_write_interpose data serves mode] at h
  cases h
  have free := (s.setPermit permit).afterDataRequest_free head
  have acts := free.interposeWrite_acts serves (s.requestAddr head sector) (fitWords s.geom.words words)
  have exact := fitWords_exact (fitWords s.geom.words words)
  rw [fitWords_length] at exact
  have finds := State.interposeWrite_done (s := (s.setPermit permit).afterDataRequest head) exact done
  have asked := ((State.afterDataRequest_acts (s := s.setPermit permit) data.1).keeps_request (by exact data) rfl).1
  obtain ⟨data', mode', addr, -⟩ := acts.keeps_request asked (State.interposeWrite_virtCyl _ _ _)
  have same : ((s.setPermit permit).afterDataRequest head).requestAddr head sector = s.requestAddr head sector := rfl
  refine ⟨_, exec_read_interpose data' (by rw [acts.pack]; exact serves) (mode'.trans mode), ?_⟩
  rw [addr, same, (finds.congr (t := (State.interposeWrite _ _ _).afterDataRequest head) rfl rfl rfl).lookup]
  rfl

end Sys2Proof.Machine
end

