-- ==== Sys2Proof/Proofs/PowerOn.lean ====
section
/-! The step, the state after reset and the power-on row. -/

namespace Sys2Proof.Machine

/-- Settles O1, by the two cases of the queue. -/
theorem stepRunsFrontCommand : Obligations.StepRunsFrontCommand := by
  unfold Obligations.StepRunsFrontCommand
  intro s c rest
  refine ⟨fun front => ?_, fun empty => ?_⟩ <;> unfold step
  · rw [front]
    rfl
  · rw [empty]

/-- Settles O2: each conjunct is a field of the literal reset state. -/
theorem resetHoldsPowerOnValues : Obligations.ResetHoldsPowerOnValues := by
  unfold Obligations.ResetHoldsPowerOnValues
  decide

/-- The fault handling on a state in which no grant runs: DRIVE_FAULT, the clear and its wait. -/
theorem State.beginFault_idle {s : State} (idle : s.drive.grant = none) :
    s.beginFault =
      { s with events := withEvent .driveFault s.events
               driveLog := s.driveLog ++ [.faultClear]
               drive := { s.drive with activity := .clearing (s.now + nominalTicks s.geom), physCyl := none } } := by
  have lost : (s.setEvent .driveFault).loseGrant .fault = s.setEvent .driveFault := by
    unfold State.loseGrant
    rw [show (s.setEvent .driveFault).drive.grant = none from idle]
  unfold State.beginFault
  rw [lost]
  rfl

/-- Settles O3, by the two levels of each line. -/
theorem powerOnReadsStraps : Obligations.PowerOnReadsStraps := by
  unfold Obligations.PowerOnReadsStraps
  intro straps ready fault s
  cases ready with
  | false => exact ⟨_, rfl, by and_intros <;> rfl⟩
  | true =>
    cases fault with
    | false => exact ⟨_, rfl, by and_intros <;> rfl⟩
    | true =>
      refine ⟨_, congrArg Host.Outcome.next (State.beginFault_idle rfl), ?_⟩
      and_intros <;> rfl

end Sys2Proof.Machine
end

