-- ==== Sys2Proof/Proofs/ReadChannel.lean ====
section
/-! The check word, the Offset DAC code and the pass outcome of a sector window (R85, R89 to R92). -/

namespace Sys2Proof.Machine

/-! ## The check word and the Offset DAC (R85, R90) -/

theorem wordBits_eq (w : Word) : wordBits w = (List.range 16).map (fun k => w.getLsbD (15 - k)) := rfl

/-- One word goes into the register bit by bit, most significant first. -/
theorem crcWord_eq (reg w : Word) :
    crcWord reg w = (List.range 16).foldl (fun (reg : Word) k =>
      (reg <<< 1) ^^^ (if reg.getLsbD 15 = w.getLsbD (15 - k) then 0 else 0o010041)) reg := by
  unfold crcWord
  rw [wordBits_eq, List.foldl_map]
  simp only [crcBit_eq]

theorem crc_zero : crc [0] = 0o016417 := by
  simp [crc, crcWord, wordBits, crcBit]

theorem crc_zero_zero : crc [0, 0] = 0o102300 := by
  rw [show ([0, 0] : List Word) = [0] ++ [0] from rfl, crc_append, crc_zero]
  simp [crcWord, wordBits, crcBit]

theorem rawCode_eq (trim p : Int) : rawCode trim p = (p * 8192).tdiv 50 + 8192 + trim := rfl

/-- The clamp brings a number into 0 to 16383 and leaves one that lies there. -/
theorem clampInt_code (x : Int) :
    0 ≤ clampInt 0 Config.maxCode x ∧ clampInt 0 Config.maxCode x ≤ 16383 ∧
      (clampInt 0 Config.maxCode x ≠ x ↔ x < 0 ∨ 16383 < x) := by
  unfold clampInt
  rw [show Config.maxCode = 16383 from rfl]
  split
  · omega
  · split <;> omega

theorem offsetClamped_iff (trim p : Int) :
    offsetClamped trim p = true ↔ rawCode trim p < 0 ∨ 16383 < rawCode trim p := by
  unfold offsetClamped
  rw [bne_iff_ne]
  exact (clampInt_code _).2.2

theorem offsetCode_le (trim p : Int) : offsetCode trim p ≤ 16383 := by
  have bounds := clampInt_code (rawCode trim p)
  unfold offsetCode
  omega

theorem offsetCode_of_unclamped {trim p : Int} (free : offsetClamped trim p = false) :
    (offsetCode trim p : Int) = rawCode trim p := by
  obtain ⟨low, -, moved⟩ := clampInt_code (rawCode trim p)
  have inside := (offsetClamped_iff trim p).not.mp (by rw [free]; simp)
  have same : clampInt 0 Config.maxCode (rawCode trim p) = rawCode trim p := not_not.mp (moved.not.mpr inside)
  unfold offsetCode
  omega

/-- A trim in its range leaves the centre code unclamped. -/
theorem offsetClamped_centre {trim : Int} (low : -512 ≤ trim) (high : trim ≤ 511) : offsetClamped trim 0 = false := by
  rw [Bool.eq_false_iff, ne_eq, offsetClamped_iff, rawCode_eq]
  norm_num
  omega

theorem inBand_iff (g : Geometry) (n : Nat) :
    inBand g n = true ↔ nominalTicks g - 3 * nominalTicks g / 100 ≤ n ∧ n ≤ nominalTicks g + 3 * nominalTicks g / 100 := by
  unfold inBand
  rw [Bool.and_eq_true, decide_eq_true_iff, decide_eq_true_iff]

/-- Settles O14: the worked values evaluate; the general laws are `crcWord_eq` and the clamp's. -/
theorem offsetCodeAndWorkedValues : Obligations.OffsetCodeAndWorkedValues := by
  unfold Obligations.OffsetCodeAndWorkedValues
  refine ⟨?_, ⟨rfl, fun ws w => ?_⟩, fun trim p => ⟨offsetCode_le trim p, ?_, offsetCode_of_unclamped, fun low high => ?_⟩⟩
  · refine ⟨crc_zero, crc_zero_zero, by decide, by decide, by decide, by decide, by decide, by decide, by decide, by decide,
      by decide, by decide, by decide, fun p n => ?_⟩
    rw [inBand_iff]
    cases p <;> rfl
  · rw [crc_append]
    exact crcWord_eq _ w
  · exact offsetClamped_iff trim p
  · have free := offsetClamped_centre low high
    have code : (centreCode trim : Int) = 8192 + trim := by
      unfold centreCode
      rw [offsetCode_of_unclamped free, rawCode_eq]
      norm_num
    refine ⟨code, ?_, ?_, free⟩ <;> omega

/-! ## Sector windows (R89, R91, R92) -/

theorem headerValid_iff (threshold : Nat) (c : Option (List BitCell)) :
    headerValid threshold c = true ↔ c ≠ none ∧
      (decodeHeader threshold c).getD 2 0 =
        crc [(decodeHeader threshold c).getD 0 0, (decodeHeader threshold c).getD 1 0] := by
  unfold headerValid
  rw [Bool.and_eq_true, beq_iff_eq, decodeHeader_take, Option.isSome_iff_ne_none]

theorem headerMatching_iff (threshold : Nat) (a : Addr) (c : Option (List BitCell)) :
    headerMatching threshold a c = true ↔ headerValid threshold c = true ∧
      (decodeHeader threshold c).getD 0 0 = word a.cyl ∧
      (decodeHeader threshold c).getD 1 0 = word (a.head * 256 + a.sector) := by
  unfold headerMatching
  rw [Bool.and_eq_true, Bool.and_eq_true, beq_iff_eq, beq_iff_eq, and_assoc]
  rfl

theorem headerOfOtherCylinder_iff (threshold cyl : Nat) (c : Option (List BitCell)) :
    headerOfOtherCylinder threshold cyl c = true ↔
      headerValid threshold c = true ∧ (decodeHeader threshold c).getD 0 0 ≠ word cyl := by
  unfold headerOfOtherCylinder
  rw [Bool.and_eq_true, bne_iff_ne]

theorem dataPasses_iff (w : Nat) (ws : List Word) : dataPasses w ws = true ↔ crc (ws.take w) = ws.getD w 0 := by
  unfold dataPasses
  rw [beq_iff_eq]

theorem PassOutcome.otherCylinder_iff (o : PassOutcome) (cyl : Nat) :
    o.otherCylinder cyl = true ↔ o.kind = .wrongAddress ∧ o.header.getD 0 0 ≠ word cyl := by
  unfold PassOutcome.otherCylinder
  rw [Bool.and_eq_true, beq_iff_eq, bne_iff_ne]

variable {threshold w : Nat} {a : Addr} {g : SectorSignal}

theorem passOutcome_matching (m : headerMatching threshold a g.header = true) :
    (passOutcome threshold w a g).kind =
      if ∃ b, (passOutcome threshold w a g).bits = some b ∧
        crc ((bitsWords (w + 1) b).take w) = (bitsWords (w + 1) b).getD w 0 then .good else .dataCheck := by
  have bits : (passOutcome threshold w a g).bits = g.data.map (decodeCells threshold (16 * w + 16)) := rfl
  rw [bits]
  unfold passOutcome
  dsimp only
  rw [if_pos m]
  cases g.data with
  | none => simp
  | some l => simp [dataPasses_iff]

theorem passOutcome_valid (v : headerValid threshold g.header = true) (m : ¬ headerMatching threshold a g.header = true) :
    (passOutcome threshold w a g).kind = .wrongAddress :=
  (if_neg m).trans (if_pos v)

theorem passOutcome_invalid (v : ¬ headerValid threshold g.header = true) :
    (passOutcome threshold w a g).kind = if g.header = none ∧ g.data = none then .noData else .headerCheck := by
  have m : ¬ headerMatching threshold a g.header = true := fun m => v ((headerMatching_iff _ _ _).mp m).1
  refine ((if_neg m).trans (if_neg v)).trans ?_
  cases g.header <;> cases g.data <;> rfl

theorem decodeHeader_bit {l : List BitCell} {i k : Nat} (hi : i < 3) (hk : k < 16) :
    ((decodeHeader threshold (some l)).getD i 0).getLsbD (15 - k) =
      (decodeCell threshold (l.getD (16 * i + k) .outOfLock)).1 :=
  (bitsToWords_bit 3 _ i hi k hk).trans (decodeCells_value threshold 48 l _ (by omega))

theorem decodeCell_amplitude (threshold : Nat) (x : Fin 16) :
    (threshold + 2 ≤ x.val → decodeCell threshold (.amplitude x) = (true, .strong)) ∧
    (threshold ≤ x.val → x.val < threshold + 2 → decodeCell threshold (.amplitude x) = (true, .weak)) ∧
    (x.val < threshold → threshold < x.val + 2 → decodeCell threshold (.amplitude x) = (false, .weak)) ∧
    (x.val + 2 ≤ threshold → decodeCell threshold (.amplitude x) = (false, .strong)) := by
  unfold decodeCell
  refine ⟨fun strong => if_pos strong, fun weak under => ?_, fun under weak => ?_, fun strong => ?_⟩
  · exact (if_neg (by omega)).trans (if_pos weak)
  · exact (if_neg (by omega)).trans ((if_neg (by omega)).trans (if_pos weak))
  · exact (if_neg (by omega)).trans ((if_neg (by omega)).trans (if_neg (by omega)))

/-- A window without a data sync has no bits, and zeros for its words. -/
theorem passOutcome_withoutData (bare : g.data = none) :
    (passOutcome threshold w a g).bits = none ∧ (passOutcome threshold w a g).field w = List.replicate (w + 1) 0 ∧
      (passOutcome threshold w a g).answerData w = List.replicate w 0 := by
  have bits : (passOutcome threshold w a g).bits = none := congrArg (Option.map _) bare
  have field : (passOutcome threshold w a g).field w = List.replicate (w + 1) 0 := by
    unfold PassOutcome.field
    rw [bits]
    exact fitWords_nil _
  refine ⟨bits, field, ?_⟩
  unfold PassOutcome.answerData
  rw [field, List.take_replicate, min_eq_left (Nat.le_succ w)]

/-- A window with a data sync has one decoded bit per cell of the field and its check word. -/
theorem passOutcome_withData {l : List BitCell} (data : g.data = some l) :
    (passOutcome threshold w a g).bits = some (decodeCells threshold (16 * w + 16) l) ∧
      (passOutcome threshold w a g).field w = bitsWords (w + 1) (decodeCells threshold (16 * w + 16) l) := by
  have bits : (passOutcome threshold w a g).bits = some (decodeCells threshold (16 * w + 16) l) :=
    congrArg (Option.map _) data
  refine ⟨bits, ?_⟩
  unfold PassOutcome.field
  rw [bits]

/-- Settles O15: the header's tests as equivalences, the kind by them, the words bit by bit. -/
theorem passOutcomeKinds : Obligations.PassOutcomeKinds := by
  unfold Obligations.PassOutcomeKinds
  refine ⟨fun threshold w a g => ?_, fun n bits => ⟨bitsToWords_length n bits, bitsToWords_bit n bits⟩,
    fun threshold => ⟨rfl, decodeCell_amplitude threshold⟩⟩
  intro o h valid matching
  have hv : headerValid threshold g.header = true ↔ valid := headerValid_iff threshold g.header
  have hm : headerMatching threshold a g.header = true ↔ matching :=
    (headerMatching_iff threshold a g.header).trans (and_congr_left fun _ => hv)
  refine ⟨hv, hm, fun c => (headerOfOtherCylinder_iff threshold c g.header).trans (and_congr_left fun _ => hv), fun m => ?_,
    fun v m => ?_, fun v => ?_, fun c => PassOutcome.otherCylinder_iff o c, decodeHeader_length threshold g.header,
    fun lost => ?_, fun l found i hi k hk => ?_, fun bare => passOutcome_withoutData bare, fun l found => ?_⟩
  · exact passOutcome_matching (hm.mpr m)
  · exact passOutcome_valid (hv.mpr v) (hm.not.mpr m)
  · exact passOutcome_invalid (hv.not.mpr v)
  · exact congrArg (decodeHeader threshold) lost
  · have header : o.header = decodeHeader threshold (some l) := congrArg (decodeHeader threshold) found
    exact (congrArg (fun ws : List Word => (ws.getD i 0).getLsbD (15 - k)) header).trans (decodeHeader_bit hi hk)
  · obtain ⟨bits, field⟩ := passOutcome_withData (threshold := threshold) (w := w) (a := a) found
    refine ⟨_, bits, decodeCells_length threshold _ l, decodeCells_get threshold _ l, field, congrArg (List.take w) field,
      bitsToWords_length _ _, fun i hi k hk => ?_⟩
    exact (bitsToWords_bit (w + 1) _ i (by omega) k hk).trans (decodeCells_value threshold _ l _ (by omega))

end Sys2Proof.Machine
end

