-- ==== Sys2Proof/Proofs/GrantPhases.lean ====
section
/-! The phases of a grant (R82, R83, R85 to R87): positioning, conditions, the beginning of its work, and what SEEK_COMPLETE and
SETTLE_END do to it. -/

namespace Sys2Proof.Machine

variable {s : State} {g : Grant}

/-- The drive's grant is a read: a single sector, a capture or a recovery pass. -/
def Work.Reads (w : Work) : Prop :=
  w.readAddr.isSome ∨ (∃ t n b l, w = .capture t n b l) ∨ (∃ t x f l, w = .recovery t x f l)

/-- The drive's grant is a write of the Controller Port. -/
def Work.Writes (w : Work) : Prop := (∃ a ws, w = .write a ws) ∨ (∃ t p, w = .format t p)

/-- A TRANSPARENT SEEK or RECALIBRATE: its work is the positioning itself. -/
def Work.isPositioning : Work → Bool
  | .seek _ | .recalibrate => true
  | .read _ _ | .capture _ _ _ _ | .driveSector _ | .write _ _ | .format _ _ | .flush _ _ _ | .recovery _ _ _ _ => false

/-! ## The beginning of the work -/

theorem State.beginWork_reads (reads : g.work.Reads) :
    s.beginWork g = { s with drive := { s.drive with activity := .reading } } := by
  unfold State.beginWork
  obtain single | ⟨t, n, b, l, work⟩ | ⟨t, x, f, l, work⟩ := reads
  · cases work : g.work with
    | read a p => rfl
    | driveSector a => rfl
    | _ => rw [work] at single; cases single
  · rw [work]
    rfl
  · rw [work]
    rfl

theorem State.beginWork_writes (writes : g.work.Writes) :
    s.beginWork g = { s with drive := { s.drive with activity := .writing } } := by
  unfold State.beginWork
  obtain ⟨a, ws, work⟩ | ⟨t, p, work⟩ := writes <;> rw [work] <;> rfl

theorem State.beginWork_flush {a : Addr} {begun : Option (List Word)} {dropped : Bool} (work : g.work = .flush a begun dropped) :
    s.beginWork g = s.beginFlushWrite g a begun dropped := by
  unfold State.beginWork
  rw [work]

/-- A flush of an entry that stands begins with the entry's data, or with what it began with. -/
theorem State.beginFlushWrite_entry {a : Addr} {p : PostEntry} (g : Grant) (begun : Option (List Word))
    (posted : s.postAt a = some p) :
    s.beginFlushWrite g a begun false =
      { s with
        posts := { s.posts with entries := s.posts.entries.map (fun q =>
          if q.addr = a then { q with inFlight := true } else q) }
        drive := { s.drive with grant := some { g with work := .flush a (some (begun.getD p.data)) false }
                                activity := .writing } } := by
  unfold State.beginFlushWrite
  rw [posted]
  rfl

/-! ## The conditions -/

theorem State.applyConditions_settle (g : Grant) (unready : s.drive.settled = false ∨ s.drive.offsetCode ≠ g.code) :
    s.applyConditions g =
      { s with drive := { s.drive with strobe := g.strobe, threshold := g.threshold, offsetCode := g.code,
                                       settled := false, activity := .settling } } := by
  refine if_neg ?_
  obtain flag | code := unready
  · rw [flag]
    exact Bool.false_ne_true
  · rw [beq_false_of_ne code, Bool.and_false]
    exact Bool.false_ne_true

theorem State.applyConditions_ready (g : Grant) (settled : s.drive.settled = true) (code : s.drive.offsetCode = g.code) :
    s.applyConditions g =
      ({ s with drive := { s.drive with strobe := g.strobe, threshold := g.threshold } } : State).beginWork g :=
  if_pos (by rw [settled, code, beq_self_eq_true]; rfl)

/-! ## Positioning -/

theorem State.positioned_work (work : g.work.isPositioning = false) : s.positioned g = s.applyConditions g := by
  unfold State.positioned
  cases kind : g.work with
  | seek t => rw [kind] at work; cases work
  | recalibrate => rw [kind] at work; cases work
  | _ => rfl

theorem State.positioned_done (work : g.work.isPositioning = true) :
    s.positioned g = s.endGrant.answerAt .working .done [] := by
  unfold State.positioned
  cases kind : g.work with
  | seek t => rfl
  | recalibrate => rfl
  | _ => rw [kind] at work; cases work

theorem State.seekPhase_away {c : Nat} (target : g.work.cylinder = some c) (away : s.drive.physCyl ≠ some c) :
    s.seekPhase g =
      { s with drive := { s.drive with activity := .positioning false (s.now + 25000) }
               driveLog := s.driveLog ++ [.seek c] } := by
  unfold State.seekPhase
  rw [target]
  exact if_neg away

theorem State.seekPhase_there {c : Nat} (target : g.work.cylinder = some c) (there : s.drive.physCyl = some c) :
    s.seekPhase g = s.positioned g := by
  unfold State.seekPhase
  rw [target]
  exact if_pos there

/-- A work with a target cylinder is no recalibrate. -/
theorem Work.ne_recalibrate {w : Work} {c : Nat} (target : w.cylinder = some c) : w ≠ .recalibrate := by
  rintro rfl
  cases target

/-- A work with a target cylinder that is not the SEEK to it is work beyond positioning. -/
theorem Work.isPositioning_eq_false {w : Work} {c : Nat} (target : w.cylinder = some c) (other : ∀ head, w ≠ .seek ⟨c, head⟩) :
    w.isPositioning = false := by
  cases w with
  | seek t =>
    cases target
    exact absurd rfl (other t.head)
  | recalibrate => cases target
  | _ => rfl

theorem State.beginPositioning_recalibrates {recalFirst : Bool}
    (lost : recalFirst = true ∨ s.drive.physCyl = none ∨ g.work = .recalibrate) :
    s.beginPositioning recalFirst g =
      { s with drive := { s.drive with activity := .positioning true (s.now + 25000) }
               driveLog := s.driveLog ++ [.recalibrate] } := by
  refine if_pos ?_
  simpa [or_assoc] using lost

theorem State.beginPositioning_seeks {c at' : Nat} (known : s.drive.physCyl = some at') (target : g.work.cylinder = some c) :
    s.beginPositioning false g = s.seekPhase g := by
  refine if_neg ?_
  simpa [known] using Work.ne_recalibrate target

/-- Settles O16, by the equations of the three phases. -/
theorem grantPositionsThenWorks : Obligations.GrantPositionsThenWorks := by
  unfold Obligations.GrantPositionsThenWorks
  refine ⟨fun s recalFirst g => ⟨rfl, State.beginPositioning_recalibrates, ?_, ?_, ?_⟩,
    fun s g => ⟨State.applyConditions_settle g, State.applyConditions_ready g, State.beginWork_reads, State.beginWork_writes,
      ?_, ?_, ?_⟩⟩
  · rintro c at' rfl known target away
    rw [State.beginPositioning_seeks known target]
    exact State.seekPhase_away target (by rw [known]; simpa using away)
  · rintro c rfl known target other
    have work : g.work.isPositioning = false := by
      refine Work.isPositioning_eq_false target fun head seek => other ?_
      rw [seek]
      rfl
    rw [State.beginPositioning_seeks known target, State.seekPhase_there target known, State.positioned_work work]
  · rintro c head rfl known work
    have target : g.work.cylinder = some c := by rw [work]; rfl
    rw [State.beginPositioning_seeks known target, State.seekPhase_there target known]
    exact State.positioned_done (by rw [work]; rfl)
  · intro a begun p work posted
    rw [State.beginWork_flush work]
    exact State.beginFlushWrite_entry g begun posted
  · intro a ws work
    rw [State.beginWork_flush work]
    rfl
  · intro a work
    rw [State.beginWork_flush work]
    rfl

/-! ## SEEK_COMPLETE and SETTLE_END -/

theorem exec_seekComplete_positioning {recal : Bool} {deadline : Nat} (busy : s.drive.activity = .positioning recal deadline)
    (running : s.drive.grant = some g) : exec .seekComplete s = .next (s.positioningDone recal g) := by
  change execSeekComplete s = _
  unfold execSeekComplete
  rw [busy, running]

theorem exec_seekComplete_idle
    (idle : s.drive.grant = none ∨ ∀ recal deadline, s.drive.activity ≠ .positioning recal deadline) :
    exec .seekComplete s = .next s := by
  change execSeekComplete s = _
  unfold execSeekComplete
  obtain free | other := idle
  · rw [free]
    cases s.drive.activity <;> rfl
  · cases activity : s.drive.activity with
    | positioning recal deadline => exact absurd activity (other recal deadline)
    | _ => rfl

theorem State.positioningDone_aborted (recal : Bool) (aborted : g.aborted = true) :
    s.positioningDone recal g = (s.setPhysCyl (if recal then some 0 else g.work.cylinder)).endGrant := by
  cases recal <;> exact if_pos aborted

theorem State.positioningDone_recalibrate (live : g.aborted = false) :
    s.positioningDone true g = (s.setPhysCyl (some 0)).seekPhase g :=
  (if_pos rfl).trans <| if_neg (by rw [live]; exact Bool.false_ne_true)

theorem State.positioningDone_seek (live : g.aborted = false) :
    s.positioningDone false g = (s.setPhysCyl g.work.cylinder).positioned g :=
  (if_neg Bool.false_ne_true).trans <| if_neg (by rw [live]; exact Bool.false_ne_true)

theorem exec_settleEnd_settling (busy : s.drive.activity = .settling) (running : s.drive.grant = some g) :
    exec .settleEnd s = .next (({ s with drive := { s.drive with
      settled := true, grant := some { g with settleSpent := true } } } : State).beginWork { g with settleSpent := true }) := by
  have settling : s.grantIn .settling = some g := (if_pos busy).trans running
  change execSettleEnd s = _
  unfold execSettleEnd
  rw [settling]
  rfl

theorem exec_settleEnd_idle (idle : s.drive.grant = none ∨ s.drive.activity ≠ .settling) : exec .settleEnd s = .next s := by
  have quiet : s.grantIn .settling = none := by
    obtain free | other := idle
    · unfold State.grantIn
      rw [free, ite_self]
    · exact if_neg other
  change execSettleEnd s = _
  unfold execSettleEnd
  rw [quiet]

/-- The recalibrate of a grant done: it ends, is answered, or is followed by the seek. -/
theorem exec_seekComplete_recalibrated {deadline : Nat} (busy : s.drive.activity = .positioning true deadline)
    (running : s.drive.grant = some g) :
    let u : State := { s with drive := { s.drive with physCyl := some 0 } }
    (g.aborted = true → exec .seekComplete s = .next u.endGrant) ∧
    (g.aborted = false → g.work = .recalibrate → exec .seekComplete s = .next (u.endGrant.answerAt .working .done [])) ∧
    (∀ c, g.aborted = false → g.work.cylinder = some c → c ≠ 0 →
      exec .seekComplete s = .next
        { u with drive := { u.drive with activity := .positioning false (s.now + 25000) }
                 driveLog := s.driveLog ++ [.seek c] }) ∧
    (∀ head, g.aborted = false → g.work = .seek ⟨0, head⟩ →
      exec .seekComplete s = .next (u.endGrant.answerAt .working .done [])) ∧
    (g.aborted = false → g.work.cylinder = some 0 → (∀ head, g.work ≠ .seek ⟨0, head⟩) →
      exec .seekComplete s = .next (u.applyConditions g)) := by
  intro u
  have done := exec_seekComplete_positioning busy running
  refine ⟨fun aborted => ?_, fun live work => ?_, fun c live target away => ?_, fun head live work => ?_,
    fun live target other => ?_⟩
  · rw [done, State.positioningDone_aborted true aborted]
    rfl
  · have here : u.seekPhase g = u.positioned g := by
      unfold State.seekPhase
      rw [work]
      rfl
    rw [done, State.positioningDone_recalibrate live]
    exact congrArg _ (here.trans (State.positioned_done (by rw [work]; rfl)))
  · rw [done, State.positioningDone_recalibrate live]
    exact congrArg _ (State.seekPhase_away target fun there => away (Option.some.inj there).symm)
  · have target : g.work.cylinder = some 0 := by rw [work]; rfl
    rw [done, State.positioningDone_recalibrate live]
    exact congrArg _ ((State.seekPhase_there target rfl).trans (State.positioned_done (by rw [work]; rfl)))
  · rw [done, State.positioningDone_recalibrate live]
    exact congrArg _ ((State.seekPhase_there target rfl).trans
      (State.positioned_work (Work.isPositioning_eq_false target other)))

/-- The seek of a grant done: it ends, is answered, or goes on to its conditions. -/
theorem exec_seekComplete_sought {deadline c : Nat} (busy : s.drive.activity = .positioning false deadline)
    (running : s.drive.grant = some g) (target : g.work.cylinder = some c) :
    let u : State := { s with drive := { s.drive with physCyl := some c } }
    (g.aborted = true → exec .seekComplete s = .next u.endGrant) ∧
    (∀ head, g.aborted = false → g.work = .seek ⟨c, head⟩ →
      exec .seekComplete s = .next (u.endGrant.answerAt .working .done [])) ∧
    (g.aborted = false → (∀ head, g.work ≠ .seek ⟨c, head⟩) → exec .seekComplete s = .next (u.applyConditions g)) := by
  intro u
  have done := exec_seekComplete_positioning busy running
  refine ⟨fun aborted => ?_, fun head live work => ?_, fun live other => ?_⟩
  · rw [done, State.positioningDone_aborted false aborted, if_neg Bool.false_ne_true, target]
    rfl
  · rw [done, State.positioningDone_seek live, target]
    exact congrArg _ (State.positioned_done (by rw [work]; rfl))
  · rw [done, State.positioningDone_seek live, target]
    exact congrArg _ (State.positioned_work (Work.isPositioning_eq_false target other))

/-- Settles O19, by the two rows' equations. -/
theorem seekAndSettleAdvanceGrant : Obligations.SeekAndSettleAdvanceGrant := by
  unfold Obligations.SeekAndSettleAdvanceGrant
  refine ⟨fun s => ⟨fun deadline g busy running => exec_seekComplete_recalibrated busy running,
    fun deadline g c busy running target => exec_seekComplete_sought busy running target, exec_seekComplete_idle,
    exec_settleEnd_idle⟩, fun s g busy running => ?_⟩
  have settled := exec_settleEnd_settling busy running
  refine ⟨settled, fun reads => ?_, fun writes => ?_, fun a p work posted => ?_⟩
  · rw [settled]
    exact congrArg _ (State.beginWork_reads reads)
  · rw [settled]
    exact congrArg _ (State.beginWork_writes writes)
  · rw [settled]
    refine congrArg _ ((State.beginWork_flush ?_).trans (State.beginFlushWrite_entry _ none ?_))
    · exact work
    · exact posted

end Sys2Proof.Machine
end

