-- ==== Sys2Proof/Proofs/DriveArbiter.lean ====
section
/-! The arbiter's choice and the beginning of each client's grant (R64, R71, R80, R81). -/

namespace Sys2Proof.Machine

variable {s : State}

/-! ## The choice (R81) -/

theorem State.grantsDrive_iff :
    s.grantsDrive = true ↔ s.drive.activity = .idle ∧ s.drive.cond = .ready ∧ s.pack.state ≠ .unloading := by
  unfold State.grantsDrive
  rw [Bool.and_eq_true, Bool.and_eq_true, beq_iff_eq, beq_iff_eq, bne_iff_ne, and_assoc]

theorem State.flushRequested_of_overdue (overdue : s.flushOverdue = true) : s.flushRequested = true := by
  unfold State.flushOverdue at overdue
  exact (Bool.and_eq_true_iff.mp overdue).1

/-- FLUSH wins when it is overdue, or when it asks and no CONTROLLER request stands. -/
theorem State.winner_flush (flushes : s.flushOverdue = true ∨ (s.drive.requests = [] ∧ s.flushRequested = true)) :
    s.winner = .flush := by
  unfold State.winner
  by_cases overdue : s.flushOverdue = true
  · exact if_pos overdue
  · obtain ⟨free, requested⟩ := flushes.resolve_left overdue
    rw [if_neg overdue, free, requested]
    rfl

theorem State.winner_earlierController {r : ControllerRequest} {rest : List ControllerRequest} (punctual : s.flushOverdue = false)
    (stands : s.drive.requests = r :: rest) : s.winner = .controller r rest := by
  unfold State.winner
  rw [punctual, stands]
  rfl

/-- With neither a flush asked for nor a CONTROLLER request standing, RECOVERY wins if it asks. -/
theorem State.winner_rest (unasked : s.flushRequested = false) (free : s.drive.requests = []) :
    s.winner = if s.drive.recoveryRequest then .recovery else .nobody := by
  have punctual : s.flushOverdue = false :=
    Bool.eq_false_iff.mpr fun overdue => by rw [State.flushRequested_of_overdue overdue] at unasked; cases unasked
  unfold State.winner
  rw [punctual, free, unasked]
  rfl

theorem exec_driveGrant_busy {permit : Bool}
    (busy : ¬ (s.drive.activity = .idle ∧ s.drive.cond = .ready ∧ s.pack.state ≠ .unloading)) :
    exec (.driveGrant permit) s = .next (s.setPermit permit) :=
  congrArg Host.Outcome.next (if_neg fun grants => busy (State.grantsDrive_iff.mp grants))

theorem exec_driveGrant_free {permit : Bool}
    (free : s.drive.activity = .idle ∧ s.drive.cond = .ready ∧ s.pack.state ≠ .unloading) :
    exec (.driveGrant permit) s = .next (s.setPermit permit).giveGrant :=
  congrArg Host.Outcome.next (if_pos (State.grantsDrive_iff.mpr free))

theorem State.giveGrant_flush (wins : s.winner = .flush) : s.giveGrant = s.grantFlush := by
  unfold State.giveGrant
  rw [wins]

theorem State.giveGrant_controller {r : ControllerRequest} {rest : List ControllerRequest} (wins : s.winner = .controller r rest) :
    s.giveGrant = s.grantController r rest := by
  unfold State.giveGrant
  rw [wins]

theorem State.giveGrant_recovery (wins : s.winner = .recovery) : s.giveGrant = s.grantRecovery := by
  unfold State.giveGrant
  rw [wins]

theorem State.giveGrant_nobody (wins : s.winner = .nobody) : s.giveGrant = s := by
  unfold State.giveGrant
  rw [wins]

theorem State.grantFlush_unpermitted (deasserted : s.lines.permit = false) :
    s.grantFlush = { s with posts := { s.posts with heldForPermit := true } } :=
  if_neg (by rw [deasserted]; exact Bool.false_ne_true)

theorem State.grantFlush_oldest {p : PostEntry} {rest : List PostEntry} (permit : s.lines.permit = true)
    (posted : s.posts.entries = p :: rest) : s.grantFlush = s.startGrant false (s.centreGrant (.flush p.addr none false)) := by
  unfold State.grantFlush
  rw [permit, posted]
  rfl

theorem State.grantRecovery_step {j : Job} {step : LadderStep} (active : s.engine.active = some j)
    (found : (s.ladderOf j)[j.step]? = some step) :
    s.grantRecovery =
      (({ s with drive := { s.drive with recoveryRequest := false }
                 engine := { s.engine with active := some { j with recalFirst := false } } } : State).startGrant j.recalFirst
        (s.recoveryGrant j step)) := by
  have engine : Engine.updateActive (fun j : Job => { j with recalFirst := false }) s.engine =
      { s.engine with active := some { j with recalFirst := false } } := by
    unfold Engine.updateActive
    rw [active]
    rfl
  unfold State.grantRecovery
  rw [active]
  dsimp only
  rw [found]
  exact congrArg (fun e : Engine => State.startGrant j.recalFirst (s.recoveryGrant j step)
    { s with drive := { s.drive with recoveryRequest := false }, engine := e }) engine

/-- Settles O17, by who wins the choice. -/
theorem arbiterOrder : Obligations.ArbiterOrder := by
  unfold Obligations.ArbiterOrder
  intro s permit u free flushes
  refine ⟨exec_driveGrant_busy, fun idle asks deasserted => ?_, fun p rest idle asks asserted posted => ?_,
    fun r rest idle punctual stands => ?_, fun j step idle unasked clear wanted active found => ?_,
    fun idle unasked clear unwanted => ?_⟩ <;> rw [exec_driveGrant_free idle]
  · exact congrArg _ ((State.giveGrant_flush (s := u) (State.winner_flush asks)).trans (State.grantFlush_unpermitted deasserted))
  · exact congrArg _ ((State.giveGrant_flush (s := u) (State.winner_flush asks)).trans
      (State.grantFlush_oldest asserted posted))
  · exact congrArg _ (State.giveGrant_controller (s := u) (State.winner_earlierController punctual stands))
  · have wins : u.winner = .recovery := (State.winner_rest unasked clear).trans (if_pos wanted)
    exact congrArg _ ((State.giveGrant_recovery wins).trans (State.grantRecovery_step active found))
  · have idles : u.winner = .nobody :=
      (State.winner_rest unasked clear).trans (if_neg (Bool.eq_false_iff.mp unwanted))
    exact congrArg _ (State.giveGrant_nobody idles)

/-! ## The buffer of a capture (R71) -/

theorem findBuffer_some {t : Track} {first i : Nat} {slots : List TrackBuffer} (found : findBuffer t first slots = some i) :
    ∃ k b, i = first + k ∧ slots[k]? = some b ∧ b.track = some t := by
  induction slots generalizing first with
  | nil => cases found
  | cons b rest ih =>
    unfold findBuffer at found
    split at found
    next holds => exact ⟨0, b, (Option.some.inj found).symm, rfl, holds⟩
    next => obtain ⟨k, c, place, stands, holds⟩ := ih found
            exact ⟨k + 1, c, by omega, stands, holds⟩

theorem findBuffer_none {t : Track} {first : Nat} {slots : List TrackBuffer} :
    findBuffer t first slots = none ↔ ∀ b ∈ slots, b.track ≠ some t := by
  induction slots generalizing first with
  | nil => simp [findBuffer]
  | cons b rest ih =>
    unfold findBuffer
    by_cases holds : b.track = some t <;> simp [holds, ih]

/-- The buffer that a track's own search finds holds the track. -/
theorem State.buffer_of_findBuffer {t : Track} {i : Nat} (found : findBuffer t 0 s.buffers.slots = some i) :
    (s.buffer i).track = some t := by
  obtain ⟨k, b, place, stands, holds⟩ := findBuffer_some found
  rw [Nat.zero_add] at place
  subst place
  unfold State.buffer
  rw [List.getD_eq_getElem?_getD, stands]
  exact holds

/-- Where a buffer holds the track, that one is chosen. -/
theorem State.chooseBuffer_held {t : Track} (held : ∃ b ∈ s.buffers.slots, b.track = some t) :
    (s.buffer (s.chooseBuffer t)).track = some t := by
  unfold State.chooseBuffer
  cases found : findBuffer t 0 s.buffers.slots with
  | some i => exact State.buffer_of_findBuffer found
  | none =>
    obtain ⟨b, member, holds⟩ := held
    exact absurd holds (findBuffer_none.mp found b member)

/-- Where none holds it, the latest in the last-use order that holds no track is chosen. -/
theorem State.chooseBuffer_unused {t : Track} (unheld : ∀ b ∈ s.buffers.slots, b.track ≠ some t)
    (unused : ∃ k ∈ s.buffers.order, (s.buffer k).track = none) :
    ∃ before after, s.buffers.order = before ++ s.chooseBuffer t :: after ∧ (s.buffer (s.chooseBuffer t)).track = none ∧
      ∀ k ∈ after, (s.buffer k).track ≠ none := by
  unfold State.chooseBuffer
  rw [findBuffer_none.mpr unheld]
  cases latest : s.buffers.order.reverse.find? (fun i => (s.buffer i).track == none) with
  | none =>
    obtain ⟨k, member, bare⟩ := unused
    exact absurd (beq_iff_eq.mpr bare) (List.find?_eq_none.mp latest k (List.mem_reverse.mpr member))
  | some i =>
    obtain ⟨bare, after, before, order, later⟩ := List.find?_eq_some_iff_append.mp latest
    refine ⟨before.reverse, after.reverse, ?_, beq_iff_eq.mp bare, fun k member => ?_⟩
    · rw [← List.reverse_reverse s.buffers.order, order, List.reverse_append, List.reverse_cons, List.append_assoc]
      rfl
    · simpa [Option.isSome_iff_ne_none] using later k (List.mem_reverse.mp member)

/-- Where every buffer holds a track, the least recently used is chosen. -/
theorem State.chooseBuffer_last {t : Track} (unheld : ∀ b ∈ s.buffers.slots, b.track ≠ some t)
    (used : ∀ k ∈ s.buffers.order, (s.buffer k).track ≠ none) : s.chooseBuffer t = s.buffers.order.getLastD 0 := by
  have latest : s.buffers.order.reverse.find? (fun i => (s.buffer i).track == none) = none :=
    List.find?_eq_none.mpr fun k member => by simpa using used k (List.mem_reverse.mp member)
  unfold State.chooseBuffer
  rw [findBuffer_none.mpr unheld]
  dsimp only
  rw [latest]

theorem State.giveBuffer_eq (i : Nat) (t : Track) (s : State) :
    s.giveBuffer i t =
      { s with buffers :=
        { slots := if (s.buffer i).track = some t then s.buffers.slots else s.buffers.slots.set i ⟨some t, []⟩
          order := i :: s.buffers.order.filter (fun j => j != i) } } := by
  unfold State.giveBuffer
  split <;> rfl

/-- A granted READ that is not to be a capture is a centre read. -/
theorem State.grantPortWork_read {a : Addr} {prefetch : Bool} (single : prefetch = false ∨ s.timer.speedFault = true) :
    s.grantPortWork (.read a prefetch) =
      (s.setStage .working).startGrant false ((s.setStage .working).centreGrant (.read a prefetch)) := by
  refine if_neg ?_
  obtain rfl | fault := single
  · exact Bool.false_ne_true
  · rw [fault, Bool.not_true, Bool.and_false]
    exact Bool.false_ne_true

theorem State.grantPortWork_capture {a : Addr} (steady : s.timer.speedFault = false) :
    s.grantPortWork (.read a true) = s.grantCapture a :=
  if_pos (by rw [steady]; rfl)

theorem State.grantPortWork_other {w : Work} (other : ∀ a p, w ≠ .read a p) :
    s.grantPortWork w = (s.setStage .working).startGrant false ((s.setStage .working).centreGrant w) := by
  unfold State.grantPortWork
  cases w with
  | read a p => exact absurd rfl (other a p)
  | _ => rfl

/-- The capture's start, its buffer chosen in a state with other requests standing. -/
theorem State.grantCapture_eq (a : Addr) (rest : List ControllerRequest) (s : State) :
    let i := s.chooseBuffer a.track
    ({ s with drive := { s.drive with requests := rest } } : State).grantCapture a =
      State.startGrant false
        ⟨.capture a.track a.sector (some i) [], false, centreCode s.drive.trim, 0, 8, false, false, false, []⟩
        { s with
          drive := { s.drive with requests := rest }
          port := { s.port with outstanding := s.port.outstanding.map (fun o => { o with stage := .capturing }) }
          buffers := { slots := if (s.buffer i).track = some a.track then s.buffers.slots
                                else s.buffers.slots.set i ⟨some a.track, []⟩
                       order := i :: s.buffers.order.filter (fun j => j != i) } } := by
  intro i
  unfold State.grantCapture
  dsimp only
  rw [State.giveBuffer_eq]
  rfl

/-- Settles O18: the capture's buffer by the three cases of the choice; every other grant by its equation. -/
theorem controllerGrantsStart : Obligations.ControllerGrantsStart := by
  unfold Obligations.ControllerGrantsStart
  intro s r rest u working centre
  refine ⟨?_, ?_, ?_⟩
  · rintro a rfl
    rfl
  · rintro a prefetch rfl
    refine ⟨fun single => State.grantPortWork_read (s := u) single, ?_⟩
    rintro rfl steady
    refine ⟨s.chooseBuffer a.track, ?_, State.chooseBuffer_held,
      fun unheld => ⟨State.chooseBuffer_unused unheld, State.chooseBuffer_last unheld⟩⟩
    exact (State.grantPortWork_capture (s := u) steady).trans (State.grantCapture_eq a rest s)
  · rintro w rfl other
    exact State.grantPortWork_other (s := u) other

end Sys2Proof.Machine
end

