-- ==== Sys2Proof/Proofs/PositioningFailures.lean ====
section
/-! Positioning failures and failed flush attempts (R64 to R68, R83, R84, R126). -/

namespace Sys2Proof.Machine

variable {s : State} {g : Grant} {a : Addr}

/-! ## A failed flush attempt (R66, R67) -/

/-- An attempt counted in the entry of an address. -/
def PostEntry.countFailure (a : Addr) (q : PostEntry) : PostEntry :=
  if q.addr = a then { q with failed := q.failed + 1, inFlight := false } else q

theorem State.countFlushFailure_gone (gone : s.postAt a = none) : s.countFlushFailure a = s := by
  unfold State.countFlushFailure
  rw [gone]

theorem State.countFlushFailure_third {p : PostEntry} (posted : s.postAt a = some p) (third : 2 ≤ p.failed) :
    s.countFlushFailure a =
      { s with posts := { s.posts with entries := s.posts.entries.filter (fun q => q.addr != a) }
               events := withEvent .postDiscard s.events } := by
  unfold State.countFlushFailure
  rw [posted]
  exact if_pos (Nat.succ_le_succ third)

theorem State.countFlushFailure_early {p : PostEntry} (posted : s.postAt a = some p) (early : p.failed < 2) :
    s.countFlushFailure a = { s with posts := { s.posts with entries := s.posts.entries.map (PostEntry.countFailure a) } } := by
  unfold State.countFlushFailure
  rw [posted]
  exact if_neg (by rw [show Config.flushFailures = 3 from rfl]; omega)

/-- An entry discarded is no longer found. -/
theorem State.postAt_filtered (a : Addr) (s : State) :
    (s.withPosts (s.posts.entries.filter (fun q => q.addr != a))).postAt a = none := by
  rw [State.postAt_eq_none]
  simp [State.withPosts]

/-- An entry whose attempt is counted is still found. -/
theorem State.postAt_counted {p : PostEntry} (posted : s.postAt a = some p) :
    (s.withPosts (s.posts.entries.map (PostEntry.countFailure a))).postAt a =
      some { p with failed := p.failed + 1, inFlight := false } := by
  refine (updatePost_find a (fun q => { q with failed := q.failed + 1, inFlight := false }) (fun _ => rfl) _).trans ?_
  rw [show s.posts.entries.find? (fun q => q.addr == a) = some p from posted]
  rfl

theorem State.flushFailed_over {dropped : Bool} (g : Grant) (closing : dropped = true ∨ s.postAt a = none) :
    s.flushFailed g a dropped = { s with drive := { s.drive with grant := none, activity := .idle } } := by
  cases dropped with
  | true => rfl
  | false =>
    have gone := closing.resolve_left Bool.false_ne_true
    refine (if_neg Bool.false_ne_true).trans ?_
    dsimp only
    rw [State.countFlushFailure_gone gone, gone]
    rfl

/-- The third failed attempt of an entry discards it and ends the grant. -/
theorem State.flushFailed_third {p : PostEntry} (g : Grant) (posted : s.postAt a = some p) (third : 2 ≤ p.failed) :
    s.flushFailed g a false =
      { s with drive := { s.drive with grant := none, activity := .idle }
               posts := { s.posts with entries := s.posts.entries.filter (fun q => q.addr != a) }
               events := withEvent .postDiscard s.events } := by
  have gone : (s.countFlushFailure a).postAt a = none := by
    rw [State.countFlushFailure_third posted third]
    exact State.postAt_filtered a s
  refine (if_neg Bool.false_ne_true).trans ?_
  dsimp only
  rw [gone, State.countFlushFailure_third posted third]
  rfl

/-- An earlier one is counted, and the retry begins or waits as the line and the speed say. -/
theorem State.flushFailed_early {p : PostEntry} (g : Grant) (posted : s.postAt a = some p) (early : p.failed < 2) :
    let counted : State := { s with posts := { s.posts with entries := s.posts.entries.map (PostEntry.countFailure a) } }
    let retry : Grant := { g with allowanceUsed := false, work := .flush a none false }
    s.flushFailed g a false =
      if !s.lines.permit then
        { counted.endGrant with posts := { counted.endGrant.posts with heldForPermit := true } }
      else if s.timer.speedFault then counted.endGrant
      else (counted.setGrant retry).beginPositioning false retry := by
  intro counted retry
  have found : (s.countFlushFailure a).postAt a = some { p with failed := p.failed + 1, inFlight := false } := by
    rw [State.countFlushFailure_early posted early]
    exact State.postAt_counted posted
  refine (if_neg Bool.false_ne_true).trans ?_
  dsimp only
  rw [found, State.countFlushFailure_early posted early]

/-- A failed attempt that ends its grant: nothing more of an entry that has left, else counted. -/
theorem State.flushLost_over {dropped : Bool} (closing : dropped = true ∨ s.postAt a = none) :
    s.flushLost a dropped = s.endGrant.invalidateSector a := by
  cases dropped with
  | true => rfl
  | false => exact State.countFlushFailure_gone (closing.resolve_left Bool.false_ne_true)

theorem State.flushLost_counted (a : Addr) (s : State) :
    s.flushLost a false = (s.endGrant.invalidateSector a).countFlushFailure a := rfl

/-! ## The positioning limit (R83, R84) -/

theorem exec_positioningLimitExpiry_busy {permit recal : Bool} {deadline : Nat}
    (busy : s.drive.activity = .positioning recal deadline) (running : s.drive.grant = some g) :
    exec (.positioningLimitExpiry permit) s =
      .next (((s.setPermit permit).advanceTo deadline).positioningExpired recal g) := by
  change execPositioningLimitExpiry permit s = _
  unfold execPositioningLimitExpiry
  rw [busy, running]

theorem State.positioningExpired_aborted (recal : Bool) (aborted : g.aborted = true) :
    s.positioningExpired recal g = (s.setPhysCyl none).endGrant :=
  if_pos aborted

/-- A failed recalibrate ends the grant. -/
theorem State.positioningExpired_recalibrate (live : g.aborted = false) :
    s.positioningExpired true g =
      (s.setPhysCyl none).recalibrateLost g [0, 0, 0] (fitWords (s.geom.words + 1) []) :=
  (if_neg (Bool.eq_false_iff.mp live)).trans (if_pos rfl)

/-- A failed seek of a grant with no pass in it is a positioning failure. -/
theorem State.positioningExpired_seek (live : g.aborted = false) (other : ∀ t x f l, g.work ≠ .recovery t x f l) :
    s.positioningExpired false g =
      (s.setPhysCyl none).positioningFailure g [0, 0, 0] (fitWords (s.geom.words + 1) []) := by
  refine (if_neg (Bool.eq_false_iff.mp live)).trans ((if_neg Bool.false_ne_true).trans ?_)
  cases work : g.work with
  | recovery t x f l => exact absurd work (other t x f l)
  | _ => rfl

theorem State.positioningFailure_first (header field : List Word) (unused : g.allowanceUsed = false) :
    s.positioningFailure g header field =
      { s with
        drive := { s.drive with
          grant := some { g with allowanceUsed := true, work := g.work.restart }
          activity := .positioning true (s.now + 25000) }
        driveLog := s.driveLog ++ [.recalibrate] } :=
  if_neg (Bool.eq_false_iff.mp unused)

theorem State.positioningFailure_second (header field : List Word) (used : g.allowanceUsed = true) :
    s.positioningFailure g header field = s.positioningLost g header field :=
  if_pos used

/-- A failed recalibrate, or a second failed seek, of a grant that flushes nothing ends its work. -/
theorem State.positioningExpired_ends {recal : Bool} (live : g.aborted = false) (ended : recal = true ∨ g.allowanceUsed = true)
    (other : ∀ t x f l, g.work ≠ .recovery t x f l) (dry : ∀ a w d, g.work ≠ .flush a w d) :
    s.positioningExpired recal g =
      (s.setPhysCyl none).positioningLost g [0, 0, 0] (fitWords (s.geom.words + 1) []) := by
  cases recal with
  | true => rw [State.positioningExpired_recalibrate live, State.recalibrateLost_eq _ _ _ _ dry]
  | false =>
    rw [State.positioningExpired_seek live other,
      State.positioningFailure_second _ _ (ended.resolve_left Bool.false_ne_true)]

/-- Any failure of a recovery pass ends its work. -/
theorem State.positioningExpired_recovery {recal first : Bool} {t : Track} {x : LadderStep} {l : List Nat}
    (live : g.aborted = false) (work : g.work = .recovery t x first l) :
    s.positioningExpired recal g = (s.setPhysCyl none).endGrant.recoveryEnded g (State.takeSeekFailed g) := by
  have lost : ∀ header field, (s.setPhysCyl none).positioningLost g header field =
      (s.setPhysCyl none).endGrant.recoveryEnded g (State.takeSeekFailed g) := by
    intro header field
    unfold State.positioningLost
    rw [work]
  cases recal with
  | true =>
    rw [State.positioningExpired_recalibrate live, State.recalibrateLost_eq _ _ _ _ (by rw [work]; simp)]
    exact lost _ _
  | false =>
    refine (if_neg (Bool.eq_false_iff.mp live)).trans ((if_neg Bool.false_ne_true).trans ?_)
    rw [work]
    exact lost _ _

theorem State.recoveryEnded_ending {report : State → State} (live : g.aborted = false) (ending : s.engine.ending ≠ none) :
    s.recoveryEnded g report = s.finishEnding :=
  (if_neg (Bool.eq_false_iff.mp live)).trans (if_pos (Option.isSome_iff_ne_none.mpr ending))

theorem State.recoveryEnded_reports {report : State → State} (live : g.aborted = false) (settled : s.engine.ending = none) :
    s.recoveryEnded g report = report s :=
  (if_neg (Bool.eq_false_iff.mp live)).trans (if_neg (by rw [settled]; exact Bool.false_ne_true))

/-- The ACTIVE job charged with what a grant's report brings. -/
theorem Engine.updateActive_charge {e : Engine} {j : Job} (g : Grant) (active : e.active = some j) :
    Engine.updateActive (Job.charge g) e = { e with active := some (j.charge g) } := by
  unfold Engine.updateActive
  rw [active]
  rfl

/-- A mis-seek below the third is counted, and the pass is asked for again. -/
theorem State.misSeek_early {j : Job} (read : Bool) (active : s.engine.active = some j) (early : j.misSeeks < 2) :
    s.misSeek read =
      (s.withEngine (fun e => { e with active := some { j with
        passes := if read then countUp j.passes else j.passes, misSeeks := j.misSeeks + 1, recalFirst := true } })).poke := by
  unfold State.misSeek
  rw [active]
  exact if_neg (by rw [show Config.misSeeks = 3 from rfl]; simp only; omega)

/-- The third ends the job. -/
theorem State.misSeek_third {j : Job} (read : Bool) (active : s.engine.active = some j) (third : 2 ≤ j.misSeeks) :
    s.misSeek read =
      s.endActive .seekFailed { j with
        passes := if read then countUp j.passes else j.passes, misSeeks := j.misSeeks + 1, recalFirst := true } := by
  unfold State.misSeek
  rw [active]
  exact if_pos (Nat.succ_le_succ third)

theorem State.takeSeekFailed_eq {j : Job} (g : Grant) (active : s.engine.active = some j) :
    s.takeSeekFailed g = (s.withEngine (fun e => { e with active := some (j.charge g) })).misSeek false := by
  unfold State.takeSeekFailed State.withEngine
  rw [Engine.updateActive_charge g active]

/-- Settles the row's clauses in a state in which the limit has just passed. -/
theorem State.positioningExpired_cases (recal : Bool) (g : Grant) (s : State) (live : g.aborted = false) :
    let u : State := s.setPhysCyl none
    let ended := recal = true ∨ g.allowanceUsed = true
    (recal = false → g.allowanceUsed = false → (∀ t x f l, g.work ≠ .recovery t x f l) →
      s.positioningExpired recal g =
        { u with
          drive := { u.drive with
            grant := some { g with allowanceUsed := true, work := g.work.restart }
            activity := .positioning true (u.now + 25000) }
          driveLog := s.driveLog ++ [.recalibrate] }) ∧
    (ended → ((∃ a p, g.work = .read a p) ∨ (∃ t, g.work = .seek t) ∨ g.work = .recalibrate) →
      s.positioningExpired recal g = u.endGrant.answerAt .working .seekError []) ∧
    (∀ t w b l, ended → g.work = .capture t w b l →
      s.positioningExpired recal g = u.endGrant.answerAt .capturing .seekError []) ∧
    (∀ a ws, ended → g.work = .write a ws →
      s.positioningExpired recal g = u.endGrant.answerAt .working .writeFault []) ∧
    (∀ t p, ended → g.work = .format t p →
      s.positioningExpired recal g = (u.endGrant.emptyTrackBuffer t).answerAt .working .writeFault []) ∧
    (∀ a, ended → g.work = .driveSector a →
      s.positioningExpired recal g = u.endGrant.fillDriveReply true a seekErrorWord [0, 0, 0]
        (List.replicate (s.geom.words + 1) 0)) := by
  intro u ended
  have ends : ∀ w, g.work = w → ended → (∀ t x f l, w ≠ .recovery t x f l) → (∀ a v d, w ≠ .flush a v d) →
      s.positioningExpired recal g = u.positioningLost g [0, 0, 0] (fitWords (s.geom.words + 1) []) := by
    rintro w rfl closing other dry
    exact State.positioningExpired_ends live closing other dry
  refine ⟨?_, fun closing kind => ?_, fun t w b l closing work => ?_, fun a ws closing work => ?_, fun t p closing work => ?_,
    fun a closing work => ?_⟩
  · rintro rfl unused other
    exact (State.positioningExpired_seek live other).trans (State.positioningFailure_first _ _ unused)
  · obtain ⟨a, p, work⟩ | ⟨t, work⟩ | work := kind <;> rw [ends _ work closing (by simp) (by simp)] <;>
      unfold State.positioningLost <;> rw [work]
  all_goals
    rw [ends _ work closing (by simp) (by simp)]
    unfold State.positioningLost
    rw [work]
  rw [fitWords_nil]

/-- The end of a recovery pass whose positioning failed, in a state in which the limit has just passed. -/
theorem State.positioningExpired_pass (recal : Bool) (s : State) (live : g.aborted = false) {t : Track} {x : LadderStep}
    {f : Bool} {l : List Nat} (work : g.work = .recovery t x f l) :
    let u : State := s.setPhysCyl none
    (∀ j, s.engine.ending = none → s.engine.active = some j →
      let charged : Job := { j with
        settles := if g.settleSpent then min 65535 (j.settles + 1) else j.settles
        clamped := j.clamped || g.clamped }
      let missed : Job := { charged with misSeeks := j.misSeeks + 1, recalFirst := true }
      let v (k : Job) : State := { u.endGrant with engine := { s.engine with active := some k } }
      (j.misSeeks < 2 → s.positioningExpired recal g = (v missed).poke) ∧
      (2 ≤ j.misSeeks → s.positioningExpired recal g = (v charged).endActive .seekFailed missed)) ∧
    (s.engine.ending ≠ none → s.positioningExpired recal g = u.endGrant.finishEnding) := by
  intro u
  rw [State.positioningExpired_recovery live work]
  refine ⟨fun j settled active => ?_, fun ending => State.recoveryEnded_ending live ending⟩
  intro charged missed v
  have charge : j.charge g = charged := rfl
  have report : u.endGrant.recoveryEnded g (State.takeSeekFailed g) = (v charged).misSeek false := by
    rw [State.recoveryEnded_reports (s := u.endGrant) live settled, State.takeSeekFailed_eq (s := u.endGrant) g active, charge]
    rfl
  refine ⟨fun early => ?_, fun third => ?_⟩ <;> rw [report]
  · exact State.misSeek_early (s := v charged) false rfl early
  · exact State.misSeek_third (s := v charged) false rfl third

/-- A failed recalibrate of a flush, in a state in which the limit has just passed. -/
theorem State.positioningExpired_flush (s : State) (live : g.aborted = false) {w : Option (List Word)} {dropped : Bool}
    (work : g.work = .flush a w dropped) :
    let v : State := { (s.setPhysCyl none).endGrant with
      buffers := { s.buffers with slots := s.buffers.slots.map (TrackBuffer.invalidate a) } }
    (dropped = true ∨ s.postAt a = none → s.positioningExpired true g = v) ∧
    (∀ p, dropped = false → s.postAt a = some p →
      (2 ≤ p.failed → s.positioningExpired true g =
        { v with posts := { s.posts with entries := s.posts.entries.filter (fun q => q.addr != a) }
                 events := withEvent .postDiscard s.events }) ∧
      (p.failed < 2 → s.positioningExpired true g =
        { v with posts := { s.posts with entries := s.posts.entries.map (PostEntry.countFailure a) } })) := by
  intro v
  have lost : s.positioningExpired true g = (s.setPhysCyl none).flushLost a dropped := by
    rw [State.positioningExpired_recalibrate live]
    unfold State.recalibrateLost
    rw [work]
  rw [lost]
  refine ⟨fun closing => State.flushLost_over closing, ?_⟩
  rintro p rfl posted
  exact ⟨fun third => State.countFlushFailure_third (s := v) posted third,
    fun early => State.countFlushFailure_early (s := v) posted early⟩

/-- Settles O20, by the equations of the failed positioning and of the failed attempt. -/
theorem positioningLimitFails : Obligations.PositioningLimitFails := by
  unfold Obligations.PositioningLimitFails
  refine ⟨fun s permit recal deadline g busy running => ?_, fun s g a dropped => ?_⟩
  · have row := exec_positioningLimitExpiry_busy (permit := permit) busy running
    intro u ended
    refine ⟨fun aborted => row.trans (congrArg _ (State.positioningExpired_aborted recal aborted)), fun live => ?_⟩
    rw [row]
    obtain ⟨first, read, capture, write, format, sector⟩ :=
      State.positioningExpired_cases recal g ((s.setPermit permit).advanceTo deadline) live
    refine ⟨fun seek unused other => congrArg _ (first seek unused other), fun closing kind => congrArg _ (read closing kind),
      fun t w b l closing work => congrArg _ (capture t w b l closing work), fun a ws closing work => congrArg _ (write a ws closing work),
      fun t p closing work => congrArg _ (format t p closing work), fun a closing work => congrArg _ (sector a closing work), ?_, ?_,
      fun t x f l work => ?_⟩
    · rintro a w dropped rfl used work
      have lost := State.positioningExpired_seek (s := (s.setPermit permit).advanceTo deadline) live (by rw [work]; simp)
      rw [lost, State.positioningFailure_second _ _ used]
      unfold State.positioningLost
      rw [work]
    · rintro a w dropped rfl work
      obtain ⟨closing, counted⟩ :=
        State.positioningExpired_flush ((s.setPermit permit).advanceTo deadline) live work
      exact ⟨fun gone => congrArg _ (closing gone), fun p stands posted =>
        ⟨fun third => congrArg _ ((counted p stands posted).1 third),
          fun early => congrArg _ ((counted p stands posted).2 early)⟩⟩
    · obtain ⟨reported, ending⟩ := State.positioningExpired_pass recal ((s.setPermit permit).advanceTo deadline) live work
      exact ⟨fun j settled active => ⟨fun early => congrArg _ ((reported j settled active).1 early),
        fun third => congrArg _ ((reported j settled active).2 third)⟩, fun left => congrArg _ (ending left)⟩
  · refine ⟨State.flushFailed_over g, ?_⟩
    rintro p rfl posted
    have early := State.flushFailed_early (a := a) g posted
    refine ⟨State.flushFailed_third g posted, fun few deasserted => ?_, fun few permit fault => ?_,
      fun few permit steady => ?_⟩
    · exact (early few).trans (if_pos (by rw [deasserted]; rfl))
    · exact (early few).trans ((if_neg (by rw [permit]; exact Bool.false_ne_true)).trans (if_pos fault))
    · exact (early few).trans
        ((if_neg (by rw [permit]; exact Bool.false_ne_true)).trans (if_neg (Bool.eq_false_iff.mp steady)))

end Sys2Proof.Machine
end

