-- ==== Sys2Proof/Proofs/IndexPulse.lean ====
section
/-! The index pulse (R94 to R96, R152): the latched period, the speed check and spin-up, and a FORMAT's revolutions. -/

namespace Sys2Proof.Machine

variable {s : State}

/-! ## What a period can touch -/

/-- Two states that differ at most in the speed check's values, the pack record, the engine, the events and the standing RECOVERY
request. -/
def State.PeriodFrame (s t : State) : Prop :=
  t = { s with timer := { s.timer with speedFault := t.timer.speedFault, outside := t.timer.outside, inside := t.timer.inside }
               engine := t.engine
               events := t.events
               pack := t.pack
               drive := { s.drive with recoveryRequest := t.drive.recoveryRequest } }

theorem State.PeriodFrame.poke {s t : State} (h : s.PeriodFrame t) : s.PeriodFrame t.poke := by
  unfold State.PeriodFrame at h ⊢
  rw [State.poke_frame, h]

theorem State.loadPack_periodFrame (s : State) : s.PeriodFrame s.loadPack := .poke (t := { s with
  pack := { s.pack with state := .loaded, spinUp := 0, epoch := s.pack.epoch + 1, firstRequest := none, permitGiven := false }
  timer := { s.timer with outside := 0, inside := 0 }
  engine := { s.engine with noPack := false } }) rfl

theorem State.checkSpeed_periodFrame (period : Nat) (s : State) : s.PeriodFrame (s.checkSpeed period) := by
  refine iteInduction (motive := s.PeriodFrame) (fun _ => ?_) (fun _ => ?_)
  · exact iteInduction (motive := s.PeriodFrame) (fun _ => .poke rfl) (fun _ => rfl)
  · exact iteInduction (motive := s.PeriodFrame) (fun _ => rfl) (fun _ => rfl)

theorem State.takePeriod_frame (period : Nat) (s : State) : s.PeriodFrame (s.takePeriod period) := by
  unfold State.takePeriod
  cases s.pack.state with
  | empty => rfl
  | unloading => rfl
  | spinningUp => exact iteInduction (motive := s.PeriodFrame) (fun _ => s.loadPack_periodFrame) (fun _ => rfl)
  | loaded => exact s.checkSpeed_periodFrame period
  | unloadPending => exact s.checkSpeed_periodFrame period

/-- An index pulse takes a FORMAT on: the drive's own records, the buffers and the answer may change, nothing else. -/
theorem State.advanceFormat_frame (s : State) :
    s.advanceFormat =
      { s with drive := { s.advanceFormat.drive with recoveryRequest := s.drive.recoveryRequest }
               driveLog := s.advanceFormat.driveLog, buffers := s.advanceFormat.buffers
               completions := s.advanceFormat.completions, port := s.advanceFormat.port } := by
  unfold State.advanceFormat
  split
  · rfl
  next g _ =>
    unfold State.formatIndex
    cases g.work with
    | format t phase =>
      cases phase with
      | awaitIndex =>
        dsimp only
        split
        · unfold State.formatEnds State.answerAt
          split <;> rfl
        · rfl
      | writing => rfl
      | verifying => rfl
    | _ => rfl

/-! ## The pulse -/

/-- The state that an index pulse hands its period on in: the clock, the line's level, the count started again. -/
def State.pulsed (elapsed : Nat) (protect : Bool) (s : State) : State :=
  { s with now := s.now + elapsed
           lines := { s.lines with writeProtect := protect }
           timer := { s.timer with count := 0, counting := true, watching := true
                                   lastPeriod := min 65535 (s.timer.count + elapsed) } }

theorem exec_indexPulse_first {elapsed : Nat} {protect : Bool} (first : s.timer.counting = false) :
    exec (.indexPulse elapsed protect) s =
      .next (({ s.pulsed elapsed protect with timer := { s.timer with count := 0, counting := true, watching := true } } :
        State).renewFlush.advanceFormat) := by
  refine congrArg (fun t : State => Host.Outcome.next t.renewFlush.advanceFormat) ?_
  unfold State.latchPeriod
  simp only [State.setProtect, State.advance, first]
  rfl

theorem exec_indexPulse_counted {elapsed : Nat} {protect : Bool} (counting : s.timer.counting = true) :
    exec (.indexPulse elapsed protect) s =
      .next (((s.pulsed elapsed protect).takePeriod (min 65535 (s.timer.count + elapsed))).renewFlush.advanceFormat) := by
  refine congrArg (fun t : State => Host.Outcome.next t.renewFlush.advanceFormat) ?_
  unfold State.latchPeriod
  simp only [State.setProtect, State.advance, counting]
  rfl

/-! ## The speed check (R96) -/

theorem State.takePeriod_served {period : Nat} (served : packServes s.pack.state = true) :
    s.takePeriod period = s.checkSpeed period := by
  unfold State.takePeriod
  cases state : s.pack.state with
  | loaded => rfl
  | unloadPending => rfl
  | _ => rw [state] at served; cases served

theorem State.checkSpeed_good {period : Nat} (steady : s.timer.speedFault = false) (good : inBand s.geom period = true) :
    s.checkSpeed period = { s with timer := { s.timer with outside := 0 } } := by
  unfold State.checkSpeed
  simp only [steady, good]
  rfl

theorem State.checkSpeed_outside {period : Nat} (steady : s.timer.speedFault = false) (bad : inBand s.geom period = false)
    (first : s.timer.outside = 0) : s.checkSpeed period = { s with timer := { s.timer with outside := 1 } } := by
  unfold State.checkSpeed
  simp only [steady, bad, first]
  rfl

theorem State.checkSpeed_begins {period : Nat} (steady : s.timer.speedFault = false) (bad : inBand s.geom period = false)
    (again : 1 ≤ s.timer.outside) :
    s.checkSpeed period =
      ({ s with timer := { s.timer with outside := s.timer.outside + 1 } } : State).beginSpeedFault := by
  unfold State.checkSpeed
  simp only [steady, bad]
  exact if_pos (Nat.succ_le_succ again)

theorem State.checkSpeed_bad {period : Nat} (fault : s.timer.speedFault = true) (bad : inBand s.geom period = false) :
    s.checkSpeed period = { s with timer := { s.timer with inside := 0 } } := by
  unfold State.checkSpeed
  simp only [fault, bad]
  rfl

theorem State.checkSpeed_inside {period : Nat} (fault : s.timer.speedFault = true) (good : inBand s.geom period = true)
    (few : s.timer.inside < 7) : s.checkSpeed period = { s with timer := { s.timer with inside := s.timer.inside + 1 } } := by
  unfold State.checkSpeed
  simp only [fault, good]
  exact if_neg (show ¬ 8 ≤ s.timer.inside + 1 by omega)

theorem State.checkSpeed_clears {period : Nat} (fault : s.timer.speedFault = true) (good : inBand s.geom period = true)
    (enough : 7 ≤ s.timer.inside) :
    s.checkSpeed period = ({ s with timer := { s.timer with inside := s.timer.inside + 1 } } : State).endSpeedFault := by
  unfold State.checkSpeed
  simp only [fault, good]
  exact if_pos (Nat.succ_le_succ enough)

/-- The end of a speed fault: its flag, its hold reason and the outside count go. -/
theorem State.endSpeedFault_frame (s : State) :
    s.endSpeedFault.timer = { s.timer with speedFault := false, outside := 0 } ∧ s.endSpeedFault.engine.speed = false ∧
      s.endSpeedFault.events = s.events ∧ s.endSpeedFault.pack = s.pack := by
  unfold State.endSpeedFault
  rw [State.poke_frame]
  exact ⟨rfl, rfl, rfl, rfl⟩

/-! ## Spin-up (R152) -/

theorem State.takePeriod_spinning {period : Nat} (spinning : s.pack.state = .spinningUp) :
    s.takePeriod period = s.checkSpinUp period := by
  unfold State.takePeriod
  rw [spinning]

theorem State.takePeriod_away {period : Nat} (away : s.pack.state = .empty ∨ s.pack.state = .unloading) :
    s.takePeriod period = s := by
  unfold State.takePeriod
  obtain state | state := away <;> rw [state]

theorem State.checkSpinUp_bad {period : Nat} (bad : inBand s.geom period = false) :
    s.checkSpinUp period = { s with pack := { s.pack with spinUp := 0 } } := by
  unfold State.checkSpinUp
  simp only [bad]
  rfl

theorem State.checkSpinUp_counts {period : Nat} (good : inBand s.geom period = true) (few : s.pack.spinUp < 7) :
    s.checkSpinUp period = { s with pack := { s.pack with spinUp := s.pack.spinUp + 1 } } := by
  unfold State.checkSpinUp
  simp only [good]
  exact if_neg (show ¬ 8 ≤ s.pack.spinUp + 1 by omega)

theorem State.checkSpinUp_loads {period : Nat} (good : inBand s.geom period = true) (enough : 7 ≤ s.pack.spinUp) :
    s.checkSpinUp period = s.loadPack := by
  unfold State.checkSpinUp
  simp only [good]
  exact if_pos (Nat.succ_le_succ enough)

/-- A pack loaded: its record, NO_PACK and the speed check's counts; the speed fault and the events stay. -/
theorem State.loadPack_frame (s : State) :
    s.loadPack.pack = { s.pack with state := .loaded, spinUp := 0, epoch := s.pack.epoch + 1, firstRequest := none,
                                    permitGiven := false } ∧
      s.loadPack.engine.noPack = false ∧ s.loadPack.timer = { s.timer with outside := 0, inside := 0 } ∧
      s.loadPack.events = s.events := by
  unfold State.loadPack
  dsimp only
  rw [State.poke_frame]
  exact ⟨rfl, rfl, rfl, rfl⟩

/-- With no pack served a period leaves the speed fault and the events as they were. -/
theorem State.takePeriod_unserved {period : Nat} (unserved : packServes s.pack.state = false) :
    (s.takePeriod period).timer.speedFault = s.timer.speedFault ∧ (s.takePeriod period).events = s.events := by
  cases state : s.pack.state with
  | empty => rw [State.takePeriod_away (.inl state)]; exact ⟨rfl, rfl⟩
  | unloading => rw [State.takePeriod_away (.inr state)]; exact ⟨rfl, rfl⟩
  | spinningUp =>
    obtain ⟨-, -, timer, events⟩ := s.loadPack_frame
    rw [State.takePeriod_spinning state]
    cases good : inBand s.geom period with
    | false => rw [State.checkSpinUp_bad good]; exact ⟨rfl, rfl⟩
    | true =>
      by_cases few : s.pack.spinUp < 7
      · rw [State.checkSpinUp_counts good few]
        exact ⟨rfl, rfl⟩
      · rw [State.checkSpinUp_loads good (Nat.le_of_not_lt few), timer, events]
        exact ⟨rfl, rfl⟩
  | _ => rw [state] at unserved; cases unserved

/-! ## The pulse's outcome, field by field -/

/-- What the pulse leaves of a state whose period has been taken: its hold of flushing goes, a FORMAT is taken on. -/
theorem State.pulseEnd_frame (v : State) :
    let t := v.renewFlush.advanceFormat
    t.now = v.now ∧ t.lines = v.lines ∧ t.posts = { v.posts with heldForPermit := false } ∧ t.timer = v.timer ∧
      t.engine = v.engine ∧ t.events = v.events ∧ t.pack = v.pack ∧ t.drive.recoveryRequest = v.drive.recoveryRequest := by
  intro t
  have frame : t = _ := State.advanceFormat_frame v.renewFlush
  rw [frame]
  exact ⟨rfl, rfl, rfl, rfl, rfl, rfl, rfl, rfl⟩

/-- What taking the period leaves of the pulse's own record. -/
theorem State.takePeriod_pulse (period : Nat) (s : State) :
    (s.takePeriod period).now = s.now ∧ (s.takePeriod period).lines = s.lines ∧ (s.takePeriod period).posts = s.posts ∧
      (s.takePeriod period).timer.count = s.timer.count ∧ (s.takePeriod period).timer.counting = s.timer.counting ∧
      (s.takePeriod period).timer.watching = s.timer.watching ∧
      (s.takePeriod period).timer.lastPeriod = s.timer.lastPeriod := by
  have frame : s.takePeriod period = _ := s.takePeriod_frame period
  rw [frame]
  exact ⟨rfl, rfl, rfl, rfl, rfl, rfl, rfl⟩

/-- The speed check's six cases on a latched period. -/
theorem State.checkSpeed_cases (period : Nat) (s : State) :
    let t := s.checkSpeed period
    let good := inBand s.geom period
    t.pack = s.pack ∧
    (s.timer.speedFault = false → good = true →
      t.timer.speedFault = false ∧ t.timer.outside = 0 ∧ t.timer.inside = s.timer.inside ∧ t.events = s.events) ∧
    (s.timer.speedFault = false → good = false → s.timer.outside = 0 →
      t.timer.speedFault = false ∧ t.timer.outside = 1 ∧ t.timer.inside = s.timer.inside ∧ t.events = s.events) ∧
    (s.timer.speedFault = false → good = false → 1 ≤ s.timer.outside →
      t.timer.speedFault = true ∧ t.timer.inside = 0 ∧ t.engine.speed = true ∧ t.drive.recoveryRequest = false ∧
        t.events = withEvent .speedFault s.events) ∧
    (s.timer.speedFault = true → good = false → t.timer.speedFault = true ∧ t.timer.inside = 0 ∧ t.events = s.events) ∧
    (s.timer.speedFault = true → good = true → s.timer.inside < 7 →
      t.timer.speedFault = true ∧ t.timer.inside = s.timer.inside + 1 ∧ t.events = s.events) ∧
    (s.timer.speedFault = true → good = true → 7 ≤ s.timer.inside →
      t.timer.speedFault = false ∧ t.timer.outside = 0 ∧ t.engine.speed = false ∧ t.events = s.events) := by
  intro t good
  refine ⟨?_, fun steady inside => ?_, fun steady bad first => ?_, fun steady bad again => ?_, fun fault bad => ?_,
    fun fault inside few => ?_, fun fault inside enough => ?_⟩
  · refine iteInduction (motive := fun t : State => t.pack = s.pack) (fun _ => ?_) (fun _ => ?_)
    · exact iteInduction (motive := fun t : State => t.pack = s.pack) (fun _ => (State.endSpeedFault_frame _).2.2.2) (fun _ => rfl)
    · exact iteInduction (motive := fun t : State => t.pack = s.pack) (fun _ => rfl) (fun _ => rfl)
  · have e : t = _ := State.checkSpeed_good steady inside
    rw [e]
    exact ⟨steady, rfl, rfl, rfl⟩
  · have e : t = _ := State.checkSpeed_outside steady bad first
    rw [e]
    exact ⟨steady, rfl, rfl, rfl⟩
  · have e : t = _ := State.checkSpeed_begins steady bad again
    rw [e]
    exact ⟨rfl, rfl, rfl, rfl, rfl⟩
  · have e : t = _ := State.checkSpeed_bad fault bad
    rw [e]
    exact ⟨fault, rfl, rfl⟩
  · have e : t = _ := State.checkSpeed_inside fault inside few
    rw [e]
    exact ⟨fault, rfl, rfl⟩
  · have e : t = _ := State.checkSpeed_clears fault inside enough
    obtain ⟨timer, speed, events, -⟩ :=
      State.endSpeedFault_frame { s with timer := { s.timer with inside := s.timer.inside + 1 } }
    rw [e, timer, speed, events]
    exact ⟨rfl, rfl, rfl, rfl⟩

/-- Settles O21: the period is latched and handed on by the pack state; the rest of the pulse leaves what it did. -/
theorem indexPulseMeasuresPeriods : Obligations.IndexPulseMeasuresPeriods := by
  unfold Obligations.IndexPulseMeasuresPeriods
  refine ⟨fun s elapsed protect => ?_, fun s elapsed protect counting => ?_⟩
  · cases counting : s.timer.counting with
    | false =>
      refine ⟨_, exec_indexPulse_first counting, ?_⟩
      obtain ⟨now, lines, posts, timer, engine, events, pack, -⟩ := State.pulseEnd_frame
        { s.pulsed elapsed protect with timer := { s.timer with count := 0, counting := true, watching := true } }
      rw [now, lines, posts, timer, engine, events, pack]
      exact ⟨rfl, rfl, rfl, rfl, rfl, rfl, rfl, fun _ => ⟨rfl, rfl, rfl, rfl, rfl, rfl, rfl⟩, nofun⟩
    | true =>
      refine ⟨_, exec_indexPulse_counted counting, ?_⟩
      obtain ⟨now, lines, posts, timer, engine, events, pack, request⟩ :=
        State.pulseEnd_frame ((s.pulsed elapsed protect).takePeriod (min 65535 (s.timer.count + elapsed)))
      obtain ⟨now', lines', posts', count, began, watching, last⟩ :=
        State.takePeriod_pulse (min 65535 (s.timer.count + elapsed)) (s.pulsed elapsed protect)
      rw [now, lines, posts, timer, engine, events, pack, request, now', lines', posts', count, began, watching, last]
      refine ⟨rfl, rfl, rfl, rfl, rfl, rfl, rfl, nofun, fun _ => ⟨rfl, fun served => ?_,
        State.takePeriod_unserved (s := s.pulsed elapsed protect)⟩⟩
      rw [State.takePeriod_served (s := s.pulsed elapsed protect) served]
      exact State.checkSpeed_cases _ (s.pulsed elapsed protect)
  · refine ⟨_, exec_indexPulse_counted counting, ?_⟩
    obtain ⟨-, -, -, timer, engine, -, pack, -⟩ :=
      State.pulseEnd_frame ((s.pulsed elapsed protect).takePeriod (min 65535 (s.timer.count + elapsed)))
    rw [timer, engine, pack]
    intro good
    refine ⟨fun spinning bad => ?_, fun spinning inside few => ?_, fun spinning inside enough => ?_, fun away => ?_⟩
    · rw [State.takePeriod_spinning (s := s.pulsed elapsed protect) spinning,
        State.checkSpinUp_bad (s := s.pulsed elapsed protect) bad]
      exact ⟨rfl, rfl⟩
    · rw [State.takePeriod_spinning (s := s.pulsed elapsed protect) spinning,
        State.checkSpinUp_counts (s := s.pulsed elapsed protect) inside few]
      exact ⟨rfl, rfl⟩
    · obtain ⟨pack', served, timer', -⟩ := (s.pulsed elapsed protect).loadPack_frame
      rw [State.takePeriod_spinning (s := s.pulsed elapsed protect) spinning,
        State.checkSpinUp_loads (s := s.pulsed elapsed protect) inside enough, pack', served, timer']
      exact ⟨rfl, rfl, rfl, rfl⟩
    · rw [State.takePeriod_away (s := s.pulsed elapsed protect) away]
      exact ⟨rfl, rfl⟩

end Sys2Proof.Machine
end

