-- ==== Sys2Proof/Proofs/RotationLost.lean ====
section
/-! FORMAT's revolutions and their end (R76, R94), and the loss of the index (R97). -/

namespace Sys2Proof.Machine

variable {s : State} {g : Grant}

/-! ## FORMAT at an index pulse (R94) -/

/-- Whatever an index pulse latches, the drive's work goes on from the state as it was, with the line's level noted. -/
theorem exec_indexPulse_frame (elapsed : Nat) (protect : Bool) (s : State) :
    ∃ v : State, exec (.indexPulse elapsed protect) s = .next v.advanceFormat ∧ v.lines.writeProtect = protect ∧
      v.geom = s.geom ∧ v.port = s.port ∧ v.buffers = s.buffers ∧ v.completions = s.completions ∧ v.driveLog = s.driveLog ∧
      v.drive.activity = s.drive.activity ∧ v.drive.grant = s.drive.grant := by
  cases counting : s.timer.counting with
  | false => exact ⟨_, exec_indexPulse_first counting, rfl, rfl, rfl, rfl, rfl, rfl, rfl, rfl⟩
  | true =>
    refine ⟨_, exec_indexPulse_counted counting, ?_⟩
    have frame : (s.pulsed elapsed protect).takePeriod (min 65535 (s.timer.count + elapsed)) = _ :=
      State.takePeriod_frame _ _
    rw [frame]
    exact ⟨rfl, rfl, rfl, rfl, rfl, rfl, rfl, rfl⟩

theorem State.advanceFormat_writing (busy : s.drive.activity = .writing) (running : s.drive.grant = some g) :
    s.advanceFormat = s.formatIndex g := by
  have writing : s.grantIn .writing = some g := (if_pos busy).trans running
  unfold State.advanceFormat
  rw [writing]

theorem State.formatIndex_protected {t : Track} (work : g.work = .format t .awaitIndex) (protect : s.lines.writeProtect = true) :
    s.formatIndex g = s.formatEnds t .writeFault := by
  unfold State.formatIndex
  rw [work]
  exact if_pos protect

theorem State.formatIndex_begins {t : Track} (work : g.work = .format t .awaitIndex) (free : s.lines.writeProtect = false) :
    s.formatIndex g =
      { s with drive := { s.drive with grant := some { g with work := .format t .writing } }
               driveLog := s.driveLog ++ [.formatTrack t (formattedTrack s.geom t)] } := by
  unfold State.formatIndex
  rw [work]
  exact if_neg (Bool.eq_false_iff.mp free)

theorem State.formatIndex_verifies {t : Track} (work : g.work = .format t .writing) :
    s.formatIndex g =
      { s with drive := { s.drive with grant := some { g with work := .format t .verifying }, activity := .verifying } } := by
  unfold State.formatIndex
  rw [work]
  rfl

/-- A FORMAT's work ends: answered only where its request still waits for it. -/
theorem State.formatEnds_cases (t : Track) (st : Status) (s : State) :
    let u : State :=
      { s with drive := { s.drive with grant := none, activity := .idle }
               buffers := { s.buffers with
                 slots := s.buffers.slots.map (fun b => if b.track = some t then ⟨none, []⟩ else b) } }
    (s.stage ≠ some .working → s.formatEnds t st = u) ∧
    (s.stage = some .working → s.formatEnds t st = u.finishRequest st []) :=
  ⟨fun dropped => if_neg dropped, fun waits => if_pos waits⟩

/-- The end of a FORMAT's work, whether answered or not. -/
theorem State.formatEnds_frame (t : Track) (st : Status) (s : State) :
    (s.formatEnds t st).drive.grant = none ∧ (s.formatEnds t st).drive.activity = .idle ∧
      (s.formatEnds t st).driveLog = s.driveLog ∧
      (s.formatEnds t st).buffers.slots = s.buffers.slots.map (fun b => if b.track = some t then ⟨none, []⟩ else b) := by
  obtain ⟨dropped, answered⟩ := s.formatEnds_cases t st
  by_cases waits : s.stage = some .working
  · rw [answered waits]
    exact ⟨rfl, rfl, rfl, rfl⟩
  · rw [dropped waits]
    exact ⟨rfl, rfl, rfl, rfl⟩

theorem formattedTrack_length (geom : Geometry) (t : Track) : (formattedTrack geom t).length = geom.sectors := by
  unfold formattedTrack
  rw [List.length_map, List.length_range]

theorem formattedTrack_get {geom : Geometry} {n : Nat} (t : Track) (inside : n < geom.sectors) :
    (formattedTrack geom t)[n]? = some
      ⟨[word t.cyl, word (t.head * 256 + n), crc [word t.cyl, word (t.head * 256 + n)]],
        List.replicate geom.words 0, crc (List.replicate geom.words 0)⟩ := by
  unfold formattedTrack
  rw [List.getElem?_map, List.getElem?_range inside, Option.map_some]
  unfold formattedSector
  dsimp only
  rw [fitWords_nil]
  rfl

theorem headersMatch_iff (threshold sectors : Nat) (t : Track) (headers : List (Option (List BitCell))) :
    headersMatch threshold sectors t headers = true ↔
      ∀ n < sectors, headerMatching threshold (t.at n) (headers.getD n none) = true := by
  unfold headersMatch
  simp only [List.all_eq_true, List.mem_range]

theorem exec_formatWorkEnd {headers : List (Option (List BitCell))} {t : Track} {phase : FormatPhase}
    (busy : s.drive.activity = .verifying) (running : s.drive.grant = some g) (work : g.work = .format t phase) :
    exec (.formatWorkEnd headers) s =
      .next (s.formatEnds t (if headersMatch g.threshold s.geom.sectors t headers then .done else .writeFault)) := by
  have verifying : s.grantIn .verifying = some g := (if_pos busy).trans running
  change execFormatWorkEnd headers s = _
  unfold execFormatWorkEnd
  rw [verifying]
  dsimp only
  rw [work]

/-- Settles O22, by the phase of the FORMAT that the pulse finds. -/
theorem formatWrittenAndVerified : Obligations.FormatWrittenAndVerified := by
  unfold Obligations.FormatWrittenAndVerified
  refine ⟨fun s elapsed protect g t phase busy running work => ?_, fun s headers g t phase busy running work => ?_⟩
  · obtain ⟨v, row, level, geom, port, buffers, completions, log, activity, grant⟩ := exec_indexPulse_frame elapsed protect s
    have step : v.advanceFormat = v.formatIndex g :=
      State.advanceFormat_writing (activity.trans busy) (grant.trans running)
    refine ⟨_, row, ?_, ?_, ?_⟩ <;> rw [step]
    · rintro rfl rfl
      obtain ⟨ended, idle, silent, slots⟩ := v.formatEnds_frame t .writeFault
      rw [State.formatIndex_protected work level, ended, idle, silent, slots, buffers, log]
      refine ⟨rfl, rfl, rfl, rfl, fun waits => ?_⟩
      have waits' : v.stage = some .working := by rw [← waits]; exact congrArg (fun p : Port => p.outstanding.map (·.stage)) port
      rw [(v.formatEnds_cases t .writeFault).2 waits', ← completions]
      exact ⟨rfl, rfl⟩
    · rintro rfl rfl
      rw [State.formatIndex_begins work level]
      refine ⟨rfl, activity.trans busy, completions, _, congrArg (· ++ _) log, ?_, fun n inside => ?_⟩
      · rw [formattedTrack_length, geom]
      · rw [geom]
        exact formattedTrack_get t inside
    · rintro rfl
      rw [State.formatIndex_verifies work]
      exact ⟨rfl, rfl, log, completions⟩
  · intro u good
    obtain ⟨dropped, answered⟩ :=
      s.formatEnds_cases t (if headersMatch g.threshold s.geom.sectors t headers then .done else .writeFault)
    have row := exec_formatWorkEnd (headers := headers) busy running work
    refine ⟨fun gone => row.trans (congrArg _ (dropped gone)), fun waits all => ?_, fun waits some => ?_⟩
    · rw [row, answered waits, if_pos ((headersMatch_iff _ _ _ _).mpr all)]
    · rw [row, answered waits, if_neg ((headersMatch_iff _ _ _ _).not.mpr some)]

/-! ## The loss of the index (R97) -/

/-- The state in which an index loss has been noted, before the grant that waits on the rotation ends. -/
def State.indexLost (s : State) : State :=
  let moment := s.advance (2 * nominalTicks s.geom - s.timer.count)
  { moment with
    events := if s.timer.speedFault then withEvent .indexLost s.events
              else withEvent .speedFault (withEvent .indexLost s.events)
    timer := { moment.timer with watching := false, speedFault := true, inside := 0 }
    engine := if s.timer.speedFault then s.engine else { s.engine with speed := true }
    drive := if s.timer.speedFault then s.drive else { s.drive with recoveryRequest := false } }

theorem exec_indexLoss_unwatched {gateRaised : Bool}
    (unwatched : packServes s.pack.state = false ∨ s.timer.watching = false) : exec (.indexLoss gateRaised) s = .next s := by
  refine congrArg Host.Outcome.next (if_neg ?_)
  obtain pack | watch := unwatched
  · rw [pack]
    exact Bool.false_ne_true
  · rw [watch, Bool.and_false]
    exact Bool.false_ne_true

/-- The speed status at the loss: a fault begins, or goes on with its inside count 0. -/
theorem State.speedAtLoss_eq (s : State) :
    ({ (s.advance (2 * nominalTicks s.geom - s.timer.count)).setEvent .indexLost with
        timer := { (s.advance (2 * nominalTicks s.geom - s.timer.count)).timer with watching := false } } : State).speedAtLoss =
      s.indexLost := by
  unfold State.indexLost
  cases fault : s.timer.speedFault with
  | false => exact if_neg (Bool.eq_false_iff.mp fault)
  | true =>
    refine (if_pos fault).trans ?_
    simp only [State.advance, State.setEvent, fault]
    rfl

theorem State.indexLost_drive (s : State) : s.indexLost.drive.grant = s.drive.grant ∧
    s.indexLost.drive.activity = s.drive.activity := by
  unfold State.indexLost
  cases s.timer.speedFault <;> exact ⟨rfl, rfl⟩

/-- The grant that waits on the rotation ended, once the loss has been noted. -/
def State.endRotating (gateRaised : Bool) (s : State) : State :=
  match s.drive.grant with
  | some g =>
      if s.drive.activity.rotating then s.rotationLost (gateRaised && s.drive.activity == .writing) g else s
  | none => s

theorem exec_indexLoss_taken {gateRaised : Bool} (served : packServes s.pack.state = true) (watched : s.timer.watching = true) :
    exec (.indexLoss gateRaised) s = .next (s.indexLost.endRotating gateRaised) := by
  refine congrArg Host.Outcome.next ((if_pos (by rw [served, watched]; rfl)).trans ?_)
  exact (congrArg (State.endRotating gateRaised) s.speedAtLoss_eq :)

theorem State.endRotating_still {gateRaised : Bool} (still : s.drive.grant = none ∨ s.drive.activity.rotating = false) :
    s.endRotating gateRaised = s := by
  unfold State.endRotating
  obtain free | still := still
  · rw [free]
  · cases s.drive.grant with
    | none => rfl
    | some g => exact if_neg (Bool.eq_false_iff.mp still)

theorem State.endRotating_waits {gateRaised : Bool} (running : s.drive.grant = some g)
    (rotating : s.drive.activity.rotating = true) :
    s.endRotating gateRaised = s.rotationLost (gateRaised && s.drive.activity == .writing) g := by
  unfold State.endRotating
  rw [running]
  exact if_pos rotating

/-- The loss of the rotation for each kind of work that waits on it. -/
theorem State.rotationLost_cases (gateRaised : Bool) (g : Grant) (s : State) :
    (∀ a p, g.work = .read a p →
      s.rotationLost gateRaised g = s.endGrant.answerAt .working .dataCheck (List.replicate s.geom.words 0)) ∧
    (∀ t w b l, g.work = .capture t w b l →
      s.rotationLost gateRaised g = s.endGrant.answerAt .capturing .dataCheck (List.replicate s.geom.words 0)) ∧
    (∀ a ws, g.work = .write a ws →
      s.rotationLost gateRaised g = if gateRaised then s else s.endGrant.answerAt .working .writeFault []) ∧
    (∀ t p, g.work = .format t p →
      s.rotationLost gateRaised g = (s.endGrant.emptyTrackBuffer t).answerAt .working .writeFault []) ∧
    (∀ a w dropped, g.work = .flush a w dropped →
      s.rotationLost gateRaised g = if gateRaised then s else (s.invalidateSector a).flushFailed g a dropped) ∧
    (∀ a, g.work = .driveSector a →
      s.rotationLost gateRaised g =
        s.endGrant.fillDriveReply true a 5 [0, 0, 0] (List.replicate (s.geom.words + 1) 0)) ∧
    (∀ t x f l, g.work = .recovery t x f l →
      s.rotationLost gateRaised g = s.endGrant.recoveryEnded g (State.takeAborted g)) := by
  have zeros := fitWords_nil s.geom.words
  have field := fitWords_nil (s.geom.words + 1)
  refine ⟨fun a p work => ?_, fun t w b l work => ?_, fun a ws work => ?_, fun t p work => ?_, fun a w dropped work => ?_,
    fun a work => ?_, fun t x f l work => ?_⟩ <;> unfold State.rotationLost <;> rw [work]
  · rw [← zeros]
    rfl
  · rw [← zeros]
    rfl
  · rfl
  · rw [← field]
    rfl

/-- An ACTIVE job charged with an aborted pass's report. -/
theorem State.takeAborted_eq (g : Grant) (s : State) :
    s.takeAborted g = ({ s with engine := { s.engine with active := s.engine.active.map (fun j => { j with
      settles := if g.settleSpent then min 65535 (j.settles + 1) else j.settles
      clamped := j.clamped || g.clamped }) } } : State).poke := rfl

/-- Settles O23, by the work that the loss finds running. -/
theorem indexLossTaken : Obligations.IndexLossTaken := by
  unfold Obligations.IndexLossTaken
  intro s gateRaised
  refine ⟨exec_indexLoss_unwatched, fun served watched => ?_⟩
  intro moment u
  have row := exec_indexLoss_taken (gateRaised := gateRaised) served watched
  obtain ⟨grant, activity⟩ := s.indexLost_drive
  refine ⟨fun still => ?_, fun g running rotating => ?_⟩
  · refine row.trans (congrArg _ (State.endRotating_still ?_))
    rw [grant, activity]
    exact still
  · have lost : s.indexLost.endRotating gateRaised = u.rotationLost (gateRaised && s.drive.activity == .writing) g := by
      rw [State.endRotating_waits (grant.trans running) (by rw [activity]; exact rotating), activity]
      rfl
    rw [row, lost]
    have gate : (gateRaised && s.drive.activity == .writing) = true ↔ gateRaised = true ∧ s.drive.activity = .writing := by
      rw [Bool.and_eq_true, beq_iff_eq]
    obtain ⟨read, capture, write, format, flush, sector, pass⟩ :=
      u.rotationLost_cases (gateRaised && s.drive.activity == .writing) g
    refine ⟨fun a p work => congrArg _ (read a p work), fun t w b l work => congrArg _ (capture t w b l work),
      fun a ws work => congrArg _ ?_, fun t p work => congrArg _ (format t p work), fun a w dropped work => congrArg _ ?_,
      fun a work => congrArg _ (sector a work), fun t x f l work live => ?_⟩
    · rw [write a ws work]
      simp only [gate]
    · rw [flush a w dropped work]
      simp only [gate]
    · have engine : u.engine.ending = s.engine.ending ∧ u.engine.active = s.engine.active := by
        dsimp only [u]
        cases s.timer.speedFault <;> exact ⟨rfl, rfl⟩
      rw [pass t x f l work]
      refine ⟨fun settled => congrArg _ ?_, fun ending => congrArg _ ?_⟩
      · rw [State.recoveryEnded_reports (s := u.endGrant) live (engine.1.trans settled), State.takeAborted_eq, ← engine.2]
        rfl
      · exact State.recoveryEnded_ending (s := u.endGrant) live (by rw [← engine.1] at ending; exact ending)

end Sys2Proof.Machine
end

