-- ==== Sys2Proof/Proofs/SectorEnds.lean ====
section
/-! The ends of a single-sector read and of a sector write (R10, R12, R13, R16, R66 to R68, R84, R93). -/

namespace Sys2Proof.Machine

variable {s : State} {g : Grant} {a : Addr}

/-! ## A READ answered from its outcome (R10, R12, R13) -/

theorem State.mayRecover_false {r : Region} {interpose : Bool}
    (denied : interpose = false ∨ r.read = .pass ∨ s.timer.speedFault = true ∨ packServes s.pack.state = false) :
    s.mayRecover r interpose = false := by
  unfold State.mayRecover
  obtain h | h | h | h := denied <;> rw [h]
  · rfl
  · rw [show (ReadPolicy.pass == ReadPolicy.recover) = false from rfl, Bool.and_false]
    rfl
  · rw [Bool.not_true, Bool.and_false]
    rfl
  · rw [Bool.and_false]

theorem State.mayRecover_true {r : Region} (policy : r.read = .recover) (steady : s.timer.speedFault = false)
    (served : packServes s.pack.state = true) : s.mayRecover r true = true := by
  unfold State.mayRecover
  rw [policy, steady, served]
  rfl

section finishRead

variable {r : Region} {interpose : Bool} {stage : Stage} {o : PassOutcome}
  (waits : s.port.outstanding = some ⟨.read a r interpose, stage⟩)

include waits

theorem State.finishRead_good (good : o.kind = .good) : s.finishRead o = s.finishRequest .done (o.answerData s.geom.words) := by
  unfold State.finishRead
  rw [waits]
  dsimp only
  rw [good]

theorem State.finishRead_wrongAddress (wrong : o.kind = .wrongAddress) : s.finishRead o = s.finishRequest .headerCheck [] := by
  unfold State.finishRead
  rw [waits]
  dsimp only
  rw [wrong]

theorem State.finishRead_dataCheck (denied : s.mayRecover r interpose = false) (failed : o.kind = .dataCheck ∨ o.kind = .noData) :
    s.finishRead o = s.finishRequest .dataCheck (o.answerData s.geom.words) := by
  unfold State.finishRead
  rw [waits]
  dsimp only
  obtain kind | kind := failed <;> rw [kind] <;> exact if_neg (Bool.eq_false_iff.mp denied)

theorem State.finishRead_headerCheck (denied : s.mayRecover r interpose = false) (failed : o.kind = .headerCheck) :
    s.finishRead o = s.finishRequest .headerCheck [] := by
  unfold State.finishRead
  rw [waits]
  dsimp only
  rw [failed]
  exact if_neg (Bool.eq_false_iff.mp denied)

theorem State.finishRead_recovers (allowed : s.mayRecover r interpose = true)
    (failed : o.kind = .dataCheck ∨ o.kind = .noData ∨ o.kind = .headerCheck) :
    s.finishRead o = s.sendToRecovery a r (o.answerData s.geom.words) := by
  unfold State.finishRead
  rw [waits]
  dsimp only
  obtain kind | kind | kind := failed <;> rw [kind] <;> exact if_pos allowed

end finishRead

/-! ## READ_SECTOR_END (R10, R84) -/

theorem exec_readSectorEnd_reading {signal : SectorSignal} (busy : s.drive.activity = .reading)
    (running : s.drive.grant = some g) (target : g.work.readAddr = some a) :
    exec (.readSectorEnd signal) s = .next (s.sectorRead g a (passOutcome g.threshold s.geom.words a signal)) := by
  have reading : s.grantIn .reading = some g := (if_pos busy).trans running
  change execReadSectorEnd signal s = _
  unfold execReadSectorEnd
  rw [reading]
  dsimp only
  rw [target]

/-- A read of the Controller Port that met no header of another cylinder ends its grant. -/
theorem State.sectorRead_read {prefetch : Bool} {o : PassOutcome} (work : g.work = .read a prefetch)
    (here : o.otherCylinder a.cyl = false) :
    s.sectorRead g a o = if s.stage = some .working then s.endGrant.finishRead o else s.endGrant := by
  refine (if_neg (Bool.eq_false_iff.mp here)).trans ?_
  rw [work]

theorem State.sectorRead_other {o : PassOutcome} (elsewhere : o.otherCylinder a.cyl = true) :
    s.sectorRead g a o = s.positioningFailure g o.header (o.field s.geom.words) :=
  if_pos elsewhere

/-- A read that still waits for its answer gives it to `finishRead`. -/
theorem exec_readSectorEnd_waiting {signal : SectorSignal} {prefetch interpose : Bool} {r : Region}
    (busy : s.drive.activity = .reading) (running : s.drive.grant = some g) (work : g.work = .read a prefetch)
    (here : (passOutcome g.threshold s.geom.words a signal).otherCylinder a.cyl = false)
    (waits : s.port.outstanding = some ⟨.read a r interpose, .working⟩) :
    exec (.readSectorEnd signal) s = .next (s.endGrant.finishRead (passOutcome g.threshold s.geom.words a signal)) := by
  have stage : s.stage = some .working := congrArg (Option.map Outstanding.stage) waits
  rw [exec_readSectorEnd_reading busy running (by rw [work]; rfl), State.sectorRead_read work here, if_pos stage]

/-- Settles O24, by the outcome's kind. -/
theorem readAnsweredFromOutcome : Obligations.ReadAnsweredFromOutcome := by
  unfold Obligations.ReadAnsweredFromOutcome
  refine ⟨fun s signal g a prefetch busy running work => ?_, fun s signal g a prefetch busy running work elsewhere => ?_⟩
  · intro o answer here
    have row := exec_readSectorEnd_reading (signal := signal) busy running (a := a) (by rw [work]; rfl)
    refine ⟨fun dropped => ?_, fun r interpose waits => ?_⟩
    · rw [row, State.sectorRead_read work here, if_neg dropped]
      rfl
    · have wait := exec_readSectorEnd_waiting (signal := signal) busy running work here waits
      have waits' : s.endGrant.port.outstanding = some ⟨.read a r interpose, .working⟩ := waits
      rw [wait]
      refine ⟨fun good => congrArg _ (State.finishRead_good waits' good),
        fun wrong => congrArg _ (State.finishRead_wrongAddress waits' wrong), fun denied => ?_⟩
      have no : s.endGrant.mayRecover r interpose = false := State.mayRecover_false denied
      exact ⟨fun failed => congrArg _ (State.finishRead_dataCheck waits' no failed),
        fun failed => congrArg _ (State.finishRead_headerCheck waits' no failed)⟩
  · have row := exec_readSectorEnd_reading (signal := signal) busy running (a := a) (by rw [work]; rfl)
    rw [row, State.sectorRead_other elsewhere]
    refine ⟨fun unused => ?_, fun used => ?_⟩
    · rw [State.positioningFailure_first _ _ unused, work]
      rfl
    · rw [State.positioningFailure_second _ _ used]
      unfold State.positioningLost
      rw [work]
      rfl

/-! ## SECTOR_WRITE_END (R66 to R68, R93) -/

theorem exec_sectorWriteEnd_write {header : Option (List BitCell)} {protect permit : Bool} {ws : List Word}
    (busy : s.drive.activity = .writing) (running : s.drive.grant = some g) (work : g.work = .write a ws) :
    exec (.sectorWriteEnd header protect permit) s = .next
      (if headerOfOtherCylinder g.threshold a.cyl header then
        ((s.setProtect protect).setPermit permit).positioningFailure g [] []
      else ((s.setProtect protect).setPermit permit).directWriteEnds a ws (writeEnd g.threshold a header protect)) := by
  have writing : ((s.setProtect protect).setPermit permit).grantIn .writing = some g := (if_pos busy).trans running
  change execSectorWriteEnd header protect permit s = _
  unfold execSectorWriteEnd
  dsimp only
  rw [writing]
  dsimp only
  rw [work]

theorem exec_sectorWriteEnd_flush {header : Option (List BitCell)} {protect permit dropped : Bool} {ws : List Word}
    (busy : s.drive.activity = .writing) (running : s.drive.grant = some g) (work : g.work = .flush a (some ws) dropped) :
    exec (.sectorWriteEnd header protect permit) s = .next
      (if headerOfOtherCylinder g.threshold a.cyl header then
        ((s.setProtect protect).setPermit permit).positioningFailure g [] []
      else
        ((s.setProtect protect).setPermit permit).flushWriteEnds g a ws dropped (writeEnd g.threshold a header protect)) := by
  have writing : ((s.setProtect protect).setPermit permit).grantIn .writing = some g := (if_pos busy).trans running
  change execSectorWriteEnd header protect permit s = _
  unfold execSectorWriteEnd
  dsimp only
  rw [writing]
  dsimp only
  rw [work]

theorem writeEnd_unmatched {threshold : Nat} {header : Option (List BitCell)} (protect : Bool)
    (unmatched : headerMatching threshold a header = false) : writeEnd threshold a header protect = .headerNotFound := by
  unfold writeEnd
  rw [unmatched]
  rfl

theorem writeEnd_matched {threshold : Nat} {header : Option (List BitCell)} (protect : Bool)
    (matched : headerMatching threshold a header = true) :
    writeEnd threshold a header protect = if protect then .writeProtected else .written := by
  unfold writeEnd
  rw [matched]
  rfl

/-- A matching header is of the cylinder asked for. -/
theorem headerOfOtherCylinder_of_matching {threshold : Nat} {header : Option (List BitCell)}
    (matched : headerMatching threshold a header = true) : headerOfOtherCylinder threshold a.cyl header = false := by
  obtain ⟨-, cylinder, -⟩ := (headerMatching_iff _ _ _).mp matched
  exact Bool.eq_false_iff.mpr fun other => ((headerOfOtherCylinder_iff _ _ _).mp other).2 cylinder

/-- A flush write that ended written: an entry merged into since stays, its attempt forgotten; else it leaves. -/
theorem State.flushWritten_eq {p : PostEntry} (posted : s.postAt a = some p) :
    s.flushWritten a =
      { s with posts := { s.posts with
        entries :=
          if p.mergedInFlight then s.posts.entries.map (fun q =>
            if q.addr = a then { q with failed := 0, inFlight := false, mergedInFlight := false } else q)
          else s.posts.entries.filter (fun q => q.addr != a) } } := by
  unfold State.flushWritten
  rw [posted]
  dsimp only
  split <;> rfl

theorem State.flushProtected_eq {p : PostEntry} (posted : s.postAt a = some p) :
    s.flushProtected a =
      { s with posts := { s.posts with entries := s.posts.entries.filter (fun q => q.addr != a) }
               events := withEvent .postDiscard s.events } := by
  unfold State.flushProtected
  rw [posted]
  rfl

/-- A failed attempt ends or renews the grant it is given; the running grant before it is of no account. -/
theorem State.flushFailed_cases {g : Grant} {dropped : Bool} {p : PostEntry} (s : State)
    (posted : dropped = false → s.postAt a = some p) :
    let ended : State := { s with drive := { s.drive with grant := none, activity := .idle } }
    let counted : List PostEntry := s.posts.entries.map (PostEntry.countFailure a)
    (dropped = true → s.flushFailed g a dropped = ended) ∧
    (dropped = false → 2 ≤ p.failed → s.flushFailed g a dropped =
      { ended with posts := { s.posts with entries := s.posts.entries.filter (fun q => q.addr != a) }
                   events := withEvent .postDiscard s.events }) ∧
    (dropped = false → p.failed < 2 →
      (s.lines.permit = false → s.flushFailed g a dropped =
        { ended with posts := { entries := counted, heldForPermit := true } }) ∧
      (s.lines.permit = true → s.timer.speedFault = true → s.flushFailed g a dropped =
        { ended with posts := { s.posts with entries := counted } }) ∧
      (s.lines.permit = true → s.timer.speedFault = false →
        let retry : Grant := { g with allowanceUsed := false, work := .flush a none false }
        s.flushFailed g a dropped =
          ({ s with posts := { s.posts with entries := counted }
                    drive := { s.drive with grant := some retry } } : State).beginPositioning false retry)) := by
  intro ended counted
  refine ⟨fun gone => State.flushFailed_over g (.inl gone), ?_, ?_⟩
  · rintro rfl third
    exact State.flushFailed_third g (posted rfl) third
  · rintro rfl few
    have early := State.flushFailed_early (g := g) (posted rfl) few
    refine ⟨fun deasserted => ?_, fun permit fault => ?_, fun permit steady => ?_⟩ <;> refine early.trans ?_
    · exact if_pos (by rw [deasserted]; rfl)
    · exact (if_neg (by rw [permit]; exact Bool.false_ne_true)).trans (if_pos fault)
    · exact (if_neg (by rw [permit]; exact Bool.false_ne_true)).trans (if_neg (Bool.eq_false_iff.mp steady))

/-- The TRANSPARENT WRITE's end, by the header found. -/
theorem exec_sectorWriteEnd_direct {header : Option (List BitCell)} {protect permit : Bool} {ws : List Word}
    (busy : s.drive.activity = .writing) (running : s.drive.grant = some g) (work : g.work = .write a ws) :
    let other := headerOfOtherCylinder g.threshold a.cyl header
    let u : State :=
      { s with lines := { s.lines with writeProtect := protect, permit := permit }
               drive := { s.drive with grant := none, activity := .idle } }
    (headerMatching g.threshold a header = true → protect = false →
      exec (.sectorWriteEnd header protect permit) s = .next
        ((({ u with driveLog := s.driveLog ++ [.writeSector a ws (crc ws)]
                    map := { s.map with entries := s.map.entries.filter (fun e => e.addr != a) }
                    buffers := { s.buffers with slots := s.buffers.slots.map (TrackBuffer.invalidate a) } } : State).supersede
          a).answerAt .working .done [])) ∧
    (headerMatching g.threshold a header = true → protect = true →
      exec (.sectorWriteEnd header protect permit) s = .next (u.answerAt .working .writeFault [])) ∧
    (headerMatching g.threshold a header = false → other = false ∨ g.allowanceUsed = true →
      exec (.sectorWriteEnd header protect permit) s = .next (u.answerAt .working .writeFault [])) ∧
    (other = true → g.allowanceUsed = false →
      exec (.sectorWriteEnd header protect permit) s = .next
        { u with drive := { s.drive with grant := some { g with allowanceUsed := true }
                                         activity := .positioning true (s.now + 25000) }
                 driveLog := s.driveLog ++ [.recalibrate] }) := by
  intro other u
  rw [exec_sectorWriteEnd_write busy running work]
  refine ⟨fun matched free => ?_, fun matched level => ?_, fun unmatched allowed => ?_, fun elsewhere unused => ?_⟩
  · subst free
    rw [if_neg (Bool.eq_false_iff.mp (headerOfOtherCylinder_of_matching matched)), writeEnd_matched _ matched]
    rfl
  · subst level
    rw [if_neg (Bool.eq_false_iff.mp (headerOfOtherCylinder_of_matching matched)), writeEnd_matched _ matched]
    rfl
  · by_cases elsewhere : other = true
    · have used := allowed.resolve_left (by rw [elsewhere]; simp)
      rw [if_pos elsewhere, State.positioningFailure_second _ _ used]
      unfold State.positioningLost
      rw [work]
      rfl
    · rw [if_neg elsewhere, writeEnd_unmatched _ unmatched]
      rfl
  · rw [if_pos elsewhere, State.positioningFailure_first _ _ unused, work]
    rfl

/-- The flush write's end, by the header found. -/
theorem exec_sectorWriteEnd_flushing {header : Option (List BitCell)} {protect permit dropped : Bool} {ws : List Word}
    {p : PostEntry} (busy : s.drive.activity = .writing) (running : s.drive.grant = some g)
    (work : g.work = .flush a (some ws) dropped) (posted : dropped = false → s.postAt a = some p) :
    let other := headerOfOtherCylinder g.threshold a.cyl header
    let matching := headerMatching g.threshold a header
    let u : State :=
      { s with lines := { s.lines with writeProtect := protect, permit := permit }
               buffers := { s.buffers with slots := s.buffers.slots.map (TrackBuffer.invalidate a) }
               drive := { s.drive with grant := none, activity := .idle } }
    (matching = true → protect = false →
      (dropped = true → exec (.sectorWriteEnd header protect permit) s = .next
        { u with driveLog := s.driveLog ++ [.writeSector a ws (crc ws)] }) ∧
      (dropped = false → exec (.sectorWriteEnd header protect permit) s = .next
        (({ u with driveLog := s.driveLog ++ [.writeSector a ws (crc ws)] } : State).flushWritten a))) ∧
    (matching = true → protect = true →
      exec (.sectorWriteEnd header protect permit) s = .next (if dropped then u else u.flushProtected a)) ∧
    (other = true → g.allowanceUsed = false →
      exec (.sectorWriteEnd header protect permit) s = .next
        { s with lines := u.lines
                 drive := { s.drive with grant := some { g with allowanceUsed := true }
                                         activity := .positioning true (s.now + 25000) }
                 driveLog := s.driveLog ++ [.recalibrate] }) ∧
    (matching = false → other = false ∨ g.allowanceUsed = true →
      exec (.sectorWriteEnd header protect permit) s = .next
        ((((s.setProtect protect).setPermit permit).invalidateSector a).flushFailed g a dropped)) := by
  intro other matching u
  rw [exec_sectorWriteEnd_flush busy running work]
  refine ⟨fun matched free => ?_, fun matched level => ?_, fun elsewhere unused => ?_, fun unmatched allowed => ?_⟩
  · subst free
    rw [if_neg (Bool.eq_false_iff.mp (headerOfOtherCylinder_of_matching matched)), writeEnd_matched _ matched]
    refine ⟨?_, ?_⟩ <;> rintro rfl <;> rfl
  · subst level
    rw [if_neg (Bool.eq_false_iff.mp (headerOfOtherCylinder_of_matching matched)), writeEnd_matched _ matched]
    rfl
  · rw [if_pos elsewhere, State.positioningFailure_first _ _ unused, work]
    rfl
  · by_cases elsewhere : other = true
    · have used := allowed.resolve_left (by rw [elsewhere]; simp)
      rw [if_pos elsewhere, State.positioningFailure_second _ _ used]
      unfold State.positioningLost
      rw [work]
    · rw [if_neg elsewhere, writeEnd_unmatched _ unmatched]
      rfl

/-- Settles O27: both writes by their header, the flush's failed attempt by `flushFailed_cases`. -/
theorem sectorWriteEnds : Obligations.SectorWriteEnds := by
  unfold Obligations.SectorWriteEnds
  refine ⟨fun s header protect permit g a ws busy running work => exec_sectorWriteEnd_direct busy running work,
    fun s header protect permit g a ws dropped p busy running work => ?_⟩
  intro other posted matching without u failedOnce
  obtain ⟨written, protected', elsewhere, failed⟩ :=
    exec_sectorWriteEnd_flushing (header := header) (protect := protect) (permit := permit) busy running work posted
  refine ⟨fun matched free => ⟨(written matched free).1, fun stands => ?_⟩, fun matched level => ?_, elsewhere,
    fun unmatched allowed => ?_⟩
  · exact ((written matched free).2 stands).trans (congrArg _ (State.flushWritten_eq (s := { u with
      driveLog := s.driveLog ++ [.writeSector a ws (crc ws)] }) (posted stands)))
  · refine (protected' matched level).trans (congrArg _ ?_)
    cases dropped with
    | true => rfl
    | false => exact State.flushProtected_eq (s := u) (posted rfl)
  · obtain ⟨gone, third, early⟩ := State.flushFailed_cases (g := g) (p := p)
      (((s.setProtect protect).setPermit permit).invalidateSector a) posted
    have row := failed unmatched allowed
    exact ⟨fun drops => row.trans (congrArg _ (gone drops)), fun stands often => row.trans (congrArg _ (third stands often)),
      fun stands few => ⟨fun deasserted => row.trans (congrArg _ ((early stands few).1 deasserted)),
        fun asserted fault => row.trans (congrArg _ ((early stands few).2.1 asserted fault)),
        fun asserted steady => row.trans (congrArg _ ((early stands few).2.2 asserted steady))⟩⟩

end Sys2Proof.Machine
end

