-- ==== Sys2Proof/Proofs/EngineRules.lean ====
section
/-! Rules of the Recovery Engine's parts: where a track's job stands, the accumulators, the sorted batch, an urgent job's place, the
merge of one sector, and the engine's tests (R113, R116, R118 to R120, R123, R124, R136, R149). -/

namespace Sys2Proof.Machine

variable {s : State} {e : Engine} {t : Track} {j : Job}

/-! ## Where a track's job stands (R113) -/

theorem Engine.place_of_active (active : e.active = some j) (track : j.track = t) : e.place t = .active j := by
  unfold Engine.place
  rw [active, Option.filter_some, if_pos (by simpa using track)]

theorem filter_track_eq_none {o : Option Job} (away : ∀ k ∈ o, k.track ≠ t) : o.filter (fun j => j.track == t) = none :=
  Option.filter_eq_none_iff.mpr fun k hk => by simpa using away k hk

theorem Engine.place_of_parked (away : ∀ k ∈ e.active, k.track ≠ t) (parked : e.parked = some j) (track : j.track = t) :
    e.place t = .parked j := by
  unfold Engine.place
  rw [filter_track_eq_none away, parked, Option.filter_some, if_pos (by simpa using track)]

theorem Engine.place_of_queued {before after : List Job} (unplaced : ∀ k ∈ e.active.toList ++ e.parked.toList, k.track ≠ t)
    (queued : e.queued = before ++ j :: after) (track : j.track = t) (earlier : ∀ k ∈ before, k.track ≠ t) :
    e.place t = .queued before j after := by
  have active : ∀ k ∈ e.active, k.track ≠ t := fun k hk => unplaced k (by simp [Option.mem_def.mp hk])
  have parked : ∀ k ∈ e.parked, k.track ≠ t := fun k hk => unplaced k (by simp [Option.mem_def.mp hk])
  unfold Engine.place
  rw [filter_track_eq_none active, filter_track_eq_none parked, queued, splitQueued_found t before after j track earlier]

theorem Engine.place_of_absent (away : ∀ k ∈ e.liveJobs, k.track ≠ t) : e.place t = .absent := by
  have active : ∀ k ∈ e.active, k.track ≠ t := fun k hk => away k (by simp [Engine.liveJobs, Option.mem_def.mp hk])
  have parked : ∀ k ∈ e.parked, k.track ≠ t := fun k hk => away k (by simp [Engine.liveJobs, Option.mem_def.mp hk])
  have queued : ∀ k ∈ e.queued, k.track ≠ t := fun k hk => away k (by simp [Engine.liveJobs, hk])
  unfold Engine.place
  rw [filter_track_eq_none active, filter_track_eq_none parked, splitQueued_none t _ queued]

/-! ## Accumulators (R136, R149) -/

/-- The accumulators of sectors that do not join are left as they are. -/
theorem Engine.emptyJoined_kept {ns before : List Nat} {b d : Option Nat} {m : Nat} (kept : d ≠ b ∨ m ∉ ns ∨ m ∈ before) :
    (e.emptyJoined ns before b).accumulator d m = e.accumulator d m := by
  unfold Engine.emptyJoined
  induction ns generalizing e with
  | nil => rfl
  | cons n ns ih =>
    rw [List.foldl_cons, ih (kept.imp_right (Or.imp_left fun out => fun tail => out (List.mem_cons_of_mem _ tail)))]
    split
    · rfl
    next joins =>
      refine Engine.dropAccumulator_other b d n m e (kept.imp_right ?_)
      rintro (out | old) rfl
      · exact out List.mem_cons_self
      · exact joins old

/-- An accumulator once empty stays so while others are made empty. -/
theorem Engine.emptyJoined_stays {ns before : List Nat} {b : Option Nat} {m : Nat} (tables : ∀ l ∈ e.banks, tableWf l = true)
    (empty : e.accumulator b m = Accumulator.empty) : (e.emptyJoined ns before b).accumulator b m = Accumulator.empty := by
  unfold Engine.emptyJoined
  induction ns generalizing e with
  | nil => exact empty
  | cons n ns ih =>
    rw [List.foldl_cons]
    split
    · exact ih tables empty
    · refine ih ((e.dropAccumulator_banks b n).2 tables) ?_
      by_cases same : m = n
      · rw [same]
        exact Engine.dropAccumulator_self b n e tables
      · rw [Engine.dropAccumulator_other b b n m e (.inr same)]
        exact empty

/-- A sector that joins has the empty accumulator. -/
theorem Engine.emptyJoined_joined {ns before : List Nat} {b : Option Nat} {m : Nat} (tables : ∀ l ∈ e.banks, tableWf l = true)
    (named : m ∈ ns) (joins : m ∉ before) : (e.emptyJoined ns before b).accumulator b m = Accumulator.empty := by
  induction ns generalizing e with
  | nil => cases named
  | cons n ns ih =>
    have head : e.emptyJoined (n :: ns) before b =
        (if n ∈ before then e else e.dropAccumulator b n).emptyJoined ns before b := rfl
    rw [head]
    by_cases same : m = n
    · subst same
      rw [if_neg joins]
      exact Engine.emptyJoined_stays ((e.dropAccumulator_banks b m).2 tables) (Engine.dropAccumulator_self b m e tables)
    · have tail := (List.mem_cons.mp named).resolve_left same
      split
      · exact ih tables tail
      · exact ih ((e.dropAccumulator_banks b n).2 tables) tail

/-! ## The sorted batch (R119) -/

/-- Track order between two jobs. -/
def Job.trackLe (x y : Job) : Prop := x.track.cyl < y.track.cyl ∨ (x.track.cyl = y.track.cyl ∧ x.track.head ≤ y.track.head)

theorem Track.notAfter_iff (t u : Track) : t.notAfter u = true ↔ t.cyl < u.cyl ∨ (t.cyl = u.cyl ∧ t.head ≤ u.head) := by
  simp [Track.notAfter]

theorem Job.trackLe_of_not {x y : Job} (after : ¬ x.track.notAfter y.track = true) : y.trackLe x := by
  rw [Track.notAfter_iff] at after
  unfold Job.trackLe
  omega

theorem Job.trackLe_trans {x y z : Job} (h : x.trackLe y) (h' : y.trackLe z) : x.trackLe z := by
  unfold Job.trackLe at *
  omega

theorem insertByTrack_sorted (j : Job) {l : List Job} (sorted : l.Pairwise Job.trackLe) :
    (insertByTrack j l).Pairwise Job.trackLe := by
  induction l with
  | nil => exact List.pairwise_singleton _ _
  | cons k l ih =>
    obtain ⟨least, rest⟩ := List.pairwise_cons.mp sorted
    unfold insertByTrack
    split
    next le =>
      refine List.pairwise_cons.mpr ⟨fun x member => ?_, ih rest⟩
      rcases List.mem_cons.mp ((insertByTrack_perm j l).subset member) with rfl | member
      · exact (Track.notAfter_iff _ _).mp le
      · exact least x member
    next after =>
      have first := Job.trackLe_of_not after
      refine List.pairwise_cons.mpr ⟨fun x member => ?_, sorted⟩
      rcases List.mem_cons.mp member with rfl | member
      · exact first
      · exact Job.trackLe_trans first (least x member)

theorem sortBatch_sorted (l : List Job) : (sortBatch l).Pairwise Job.trackLe := by
  induction l with
  | nil => exact .nil
  | cons j l ih => exact insertByTrack_sorted j ih

/-! ## An urgent job's place (R120) -/

/-- A queued portion that a job has entered as an urgent one, `others` being the jobs it held before: behind the urgent jobs and before
all others, an open window closed and its batch sorted. -/
def Engine.EnteredUrgent (e : Engine) (k : Job) (others queue : List Job) : Prop :=
  ∃ front back, queue = front ++ k :: back ∧ (∀ x ∈ front, x.urgent = true) ∧
    (∀ x, back.head? = some x → x.urgent = false) ∧ (e.orderWf = true → ∀ x ∈ back, x.urgent = false) ∧
    (e.window = none → front ++ back = others) ∧
    (e.window ≠ none → (front ++ back).Perm others ∧ (front ++ back).Pairwise Job.trackLe)

/-- With a head that is not urgent, an urgent-first list holds no urgent job. -/
theorem not_urgent_of_head {l : List Job} (order : l.Pairwise (fun j k => k.urgent = true → j.urgent = true))
    (head : ∀ x, l.head? = some x → x.urgent = false) : ∀ x ∈ l, x.urgent = false := by
  cases l with
  | nil => simp
  | cons k l =>
    have calm : k.urgent = false := head k rfl
    intro x member
    rcases List.mem_cons.mp member with rfl | member
    · exact calm
    · refine Bool.eq_false_iff.mpr fun urgent => ?_
      rw [(List.pairwise_cons.mp order).1 x member urgent] at calm
      cases calm

theorem Engine.enterUrgent_closed (k : Job) (closed : e.window = none) :
    e.enterUrgent k = { e with queued := insertUrgent k e.queued } := by
  unfold Engine.enterUrgent
  rw [Engine.closeWindow_closed e closed]

theorem Engine.enterUrgent_open (k : Job) {d : Nat} (window : e.window = some d) :
    e.enterUrgent k = { e with window := none, queued := insertUrgent k (sortBatch e.queued) } := by
  unfold Engine.enterUrgent
  rw [Engine.closeWindow_open e d window]

/-- An urgent job enters a queue whose jobs are some of the queue's: the form its place has. -/
theorem Engine.enterUrgent_entered (k : Job) {e : Engine} {others : List Job} (some : others.Sublist e.queued) :
    ∃ queue, e.EnteredUrgent k others queue ∧
      ({ e with queued := others } : Engine).enterUrgent k = { e with window := none, queued := queue } := by
  unfold Engine.EnteredUrgent
  cases window : e.window with
  | none =>
    obtain ⟨front, back, split, joined, urgent, head⟩ := insertUrgent_split k others
    refine ⟨insertUrgent k others, ⟨front, back, split, urgent, head, fun order => ?_, fun _ => joined, fun no => absurd rfl no⟩,
      ?_⟩
    · have ordered := ((Engine.orderWf_iff e).mp order).1.sublist some
      rw [← joined] at ordered
      exact not_urgent_of_head (List.pairwise_append.mp ordered).2.1 head
    · exact Engine.enterUrgent_closed k rfl
  | some d =>
    obtain ⟨front, back, split, joined, urgent, head⟩ := insertUrgent_split k (sortBatch others)
    refine ⟨insertUrgent k (sortBatch others), ⟨front, back, split, urgent, head, fun order => ?_, nofun, fun _ => ?_⟩, ?_⟩
    · have calm := ((Engine.orderWf_iff e).mp order).2 (by simp [window])
      intro x member
      have mem : x ∈ sortBatch others := by rw [← joined]; exact List.mem_append_right _ member
      exact calm x (some.subset ((sortBatch_perm others).subset mem))
    · rw [joined]
      exact ⟨sortBatch_perm others, sortBatch_sorted others⟩
    · exact Engine.enterUrgent_open k rfl

/-! ## The merge of one sector (R118) -/

theorem Job.hasOutcome_iff (n : Nat) (j : Job) : j.hasOutcome n = true ↔ ∃ x ∈ j.outcomes, x.sector = n := by
  simp [Job.hasOutcome]

/-- One sector treated by R118's table. -/
theorem Job.treat_eq (serving : Bool) (n : Nat) (j : Job) :
    j.treat serving n =
      { j with
        pending := if n ∈ j.pending ∨ serving = true then j.pending else insertSector n j.pending
        outcomes :=
          if n ∈ j.pending ∨ (serving = true ∧ ∃ x ∈ j.outcomes, x.sector = n) then j.outcomes
          else if serving = true then insertOutcome ⟨n, .alreadyHeld, j.step⟩ j.outcomes
          else j.outcomes.filter (fun x => x.sector != n) } := by
  unfold Job.treat
  by_cases pending : n ∈ j.pending
  · simp [pending]
  · cases serving with
    | false => simp [pending]
    | true =>
      by_cases decided : j.hasOutcome n = true
      · have known := (Job.hasOutcome_iff n j).mp decided
        simp [pending, decided, known]
      · have unknown := (Job.hasOutcome_iff n j).not.mp decided
        simp only [pending, decided, unknown, if_false, if_true, and_false, or_false, false_or, Bool.false_eq_true]

theorem State.mergeInto_one (a : Addr) (urgent : Bool) (track : j.track = a.track) :
    s.mergeInto [a.sector] urgent j =
      { j with
        urgent := j.urgent || urgent
        pending := if a.sector ∈ j.pending ∨ s.servingAt a = true then j.pending else insertSector a.sector j.pending
        outcomes :=
          if a.sector ∈ j.pending ∨ (s.servingAt a = true ∧ ∃ x ∈ j.outcomes, x.sector = a.sector) then j.outcomes
          else if s.servingAt a = true then insertOutcome ⟨a.sector, .alreadyHeld, j.step⟩ j.outcomes
          else j.outcomes.filter (fun x => x.sector != a.sector) } := by
  have one : s.treatAll [a.sector] j = j.treat (s.servingAt a) a.sector := by
    have addr : j.track.at a.sector = a := by rw [track]; rfl
    rw [← addr]
    rfl
  unfold State.mergeInto
  rw [one, Job.treat_eq]

/-! ## The engine's tests (R116, R123, R124) -/

theorem State.poke_noActive (idle : s.engine.active = none) :
    s.poke = { s with drive := { s.drive with recoveryRequest := false } } := by
  have stays : s.preempt = s := by
    unfold State.preempt
    rw [idle]
  rw [State.poke_stays s stays, idle]
  rfl

theorem State.poke_parks (active : s.engine.active = some j) (calm : j.urgent = false) (parked : s.engine.parked = none)
    (head : s.engine.headUrgent = true) (runs : s.engine.stopped = false) (place : s.canReserve = true)
    (free : s.drive.recoveryRunning = false) :
    s.poke = { s with engine := { s.engine with active := none, parked := some j }
                      drive := { s.drive with recoveryRequest := false } } := by
  have parks : s.preempt = { s with engine := { s.engine with active := none, parked := some j }
                                    drive := { s.drive with recoveryRequest := false } } := by
    unfold State.preempt
    rw [active]
    exact if_pos (by rw [calm, parked, head, runs, place, free]; rfl)
  unfold State.poke
  rw [parks]
  rfl

/-- An ACTIVE job that is not parked has its request standing exactly while the engine runs free. -/
theorem State.poke_keeps (active : s.engine.active = some j)
    (keeps : j.urgent = true ∨ ¬ (s.engine.parked = none ∧ s.engine.headUrgent = true ∧ s.engine.stopped = false ∧
      s.canReserve = true ∧ s.drive.recoveryRunning = false)) :
    s.poke = { s with drive := { s.drive with
      recoveryRequest := !s.engine.stopped && !s.drive.recoveryRunning } } := by
  have stays : s.preempt = s := by
    rcases s.preempt_cases with same | ⟨k, here, calm, parked, head, runs, place, free, -⟩
    · exact same
    · cases active.symm.trans here
      rcases keeps with urgent | keeps
      · rw [calm] at urgent
        cases urgent
      · exact absurd ⟨parked, head, runs, place, free⟩ keeps
  rw [State.poke_stays s stays, active]
  rfl

end Sys2Proof.Machine
end

