-- ==== Sys2Proof/Proofs/PassReports.lean ====
section
/-! The report of a recovery pass (R125, R126), the offer of decided words to the map (R48, R49), the resolution of a sector (R147) and
the outcomes examined (R138 to R144). -/

namespace Sys2Proof.Machine

variable {s : State} {j : Job}

/-! ## Offers (R48, R49) -/

theorem State.offer_posted {a : Addr} (o : Origin) (ws : List Word) (posted : s.postAt a ≠ none) :
    s.offer a o ws = (.superseded, s) :=
  if_pos (Option.isSome_iff_ne_none.mpr posted)

theorem State.offer_guarded {a : Addr} {e : MapEntry} (o : Origin) (ws : List Word) (unposted : s.postAt a = none)
    (mapped : s.entryAt a = some e) (guarded : e.origin = .diverted ∨ e.origin = .loaded) :
    s.offer a o ws = (.superseded, s) := by
  unfold State.offer
  rw [unposted, mapped]
  exact (if_neg Bool.false_ne_true).trans (if_pos (by simpa using guarded))

/-- An offer that nothing turns away is stored where there is a slot, else STORE_FULL is set. -/
theorem State.offer_open {a : Addr} (o : Origin) (ws : List Word) (unposted : s.postAt a = none)
    (unguarded : ∀ e, s.entryAt a = some e → e.origin ≠ .diverted ∧ e.origin ≠ .loaded) :
    s.offer a o ws =
      match s.storeSector a o ws with
      | some t => (.stored, t)
      | none => (.full, s.setEvent .storeFull) := by
  have free : ¬ (s.entryAt a).any (fun e => e.origin == .diverted || e.origin == .loaded) = true := by
    cases entry : s.entryAt a with
    | none => exact Bool.false_ne_true
    | some e => simpa using unguarded e entry
  unfold State.offer
  rw [unposted]
  exact (if_neg Bool.false_ne_true).trans (if_neg free)

theorem State.offer_stored {a : Addr} (o : Origin) (ws : List Word) {n : Nat} (unposted : s.postAt a = none)
    (unguarded : ∀ e, s.entryAt a = some e → e.origin ≠ .diverted ∧ e.origin ≠ .loaded)
    (held : ∀ e, s.entryAt a = some e → n = e.slot) (free : s.entryAt a = none → s.freeSlot = some n) :
    s.offer a o ws = (.stored, s.putEntry a o ws n) := by
  rw [State.offer_open o ws unposted unguarded, State.storeSector_slot a o ws s n held free]

theorem State.offer_full {a : Addr} (o : Origin) (ws : List Word) (unposted : s.postAt a = none) (unmapped : s.entryAt a = none)
    (full : s.freeSlot = none) : s.offer a o ws = (.full, { s with events := withEvent .storeFull s.events }) := by
  rw [State.offer_open o ws unposted (by simp [unmapped]), State.storeSector_full a o ws s unmapped full]
  rfl

theorem slotBound_entry (l : List MapEntry) (n : Nat) : slotBound l n = true ↔ ∃ e ∈ l, e.slot = n :=
  (slotBound_iff l n).trans List.mem_map

/-- The lowest free slot: bound to no entry, with every slot below it bound. -/
theorem State.freeSlot_lowest {n : Nat} (free : s.freeSlot = some n) :
    n < 1024 ∧ (∀ e ∈ s.map.entries, e.slot ≠ n) ∧ ∀ m < n, ∃ e ∈ s.map.entries, e.slot = m := by
  obtain ⟨-, below, unbound, lower⟩ := freeSlotFrom_some s.map.entries 0 1024 n free
  refine ⟨by omega, fun e member slot => ?_, fun m lt => (slotBound_entry _ _).mp (lower m (Nat.zero_le m) lt)⟩
  rw [(slotBound_entry s.map.entries n).mpr ⟨e, member, slot⟩] at unbound
  cases unbound

/-! ## The resolution of a sector (R147) -/

/-- Answering a held READ touches the answers and the port alone. -/
theorem State.answerHeldRead_frame (a : Addr) (st : Status) (ws : List Word) (s : State) :
    s.answerHeldRead a st ws = { s with completions := (s.answerHeldRead a st ws).completions
                                        port := (s.answerHeldRead a st ws).port } := by
  unfold State.answerHeldRead
  split
  · split
    · split <;> rfl
    · rfl
  · rfl

theorem State.answerHeldRead_here {a : Addr} (st : Status) (ws : List Word) {h : Hold} {last : List Word}
    (held : s.port.hold = some h) (kind : h.kind = .read last) (here : h.addr = a) :
    s.answerHeldRead a st ws = s.finishRequest st ws := by
  unfold State.answerHeldRead
  rw [held]
  dsimp only
  rw [kind]
  exact if_pos here

theorem State.answerHeldRead_other {a : Addr} (st : Status) (ws : List Word)
    (other : ∀ h, s.port.hold = some h → h.addr ≠ a) : s.answerHeldRead a st ws = s := by
  unfold State.answerHeldRead
  split
  next h held =>
    split
    · exact if_neg (other h held)
    · rfl
  · rfl

/-- The outcome that the map's answer gives a resolution (R48). -/
def Resolution.entered (r : Resolution) : OfferResult → SectorOutcome
  | .stored => r.outcome
  | .full => .notStored
  | .superseded => .superseded

/-- The resolution but for the held READ's answer: the map's answer, the sector's outcome, its accumulator discarded. -/
def State.resolved (n : Nat) (r : Resolution) (ws : List Word) (j : Job) (s : State) : State :=
  let p := s.offer (j.track.at n) r.mapOrigin ws
  p.2.withEngine (fun e => { e.dropAccumulator j.bank n with active := some (j.decide n (r.entered p.1)) })

/-- A pending sector's resolution: what it does to the ACTIVE job, then the answer, unless the offer was discarded. -/
theorem State.resolveSector_eq (n : Nat) (r : Resolution) (ws : List Word) (active : s.engine.active = some j) :
    s.resolveSector n r ws =
      if (s.offer (j.track.at n) r.mapOrigin ws).1 = .superseded then s.resolved n r ws j
      else (s.resolved n r ws j).answerHeldRead (j.track.at n) .done ws := by
  unfold State.resolveSector State.resolved
  rw [active]
  dsimp only
  generalize s.offer (j.track.at n) r.mapOrigin ws = p
  obtain ⟨res, v⟩ := p
  cases res <;> rfl

theorem State.resolved_frame (n : Nat) (r : Resolution) (ws : List Word) (j : Job) (s : State) :
    s.resolved n r ws j =
      { s with map := (s.offer (j.track.at n) r.mapOrigin ws).2.map
               events := (s.offer (j.track.at n) r.mapOrigin ws).2.events
               engine := { s.engine with
                 active := some (j.decide n (r.entered (s.offer (j.track.at n) r.mapOrigin ws).1))
                 banks := (s.engine.dropAccumulator j.bank n).banks } } := by
  have frame := State.offer_frame (j.track.at n) r.mapOrigin ws s
  unfold State.resolved
  dsimp only
  generalize s.offer (j.track.at n) r.mapOrigin ws = p at frame ⊢
  unfold State.withEngine
  dsimp only
  rw [Engine.dropAccumulator_eq j.bank n p.2.engine, frame]

/-- What a resolution leaves but for the answer of a held READ. -/
theorem State.resolveSector_frame (n : Nat) (r : Resolution) (ws : List Word) (active : s.engine.active = some j) :
    let t := s.resolveSector n r ws
    t = { s.resolved n r ws j with completions := t.completions, port := t.port } := by
  intro t
  have row : t = _ := State.resolveSector_eq n r ws active
  rw [row]
  split
  · rfl
  · exact State.answerHeldRead_frame _ _ _ _

/-- Settles O29: the offer by what stands at the address, the resolution by the map's answer. -/
theorem resolutionOffersToMap : Obligations.ResolutionOffersToMap := by
  unfold Obligations.ResolutionOffersToMap
  refine ⟨fun s a o ws => ⟨State.offer_posted o ws, fun e unposted mapped =>
    ⟨State.offer_guarded o ws unposted mapped, fun undiverted unloaded => ?_⟩, fun unposted unmapped =>
      ⟨fun n free => ⟨?_, State.freeSlot_lowest free⟩, fun full => ⟨State.offer_full o ws unposted unmapped full, fun m lt => ?_⟩⟩⟩,
    fun s j n r ws active => ?_⟩
  · refine State.offer_stored o ws unposted (fun f entry => ?_) (fun f entry => ?_) fun no => ?_
    · cases mapped.symm.trans entry
      exact ⟨undiverted, unloaded⟩
    · cases mapped.symm.trans entry
      rfl
    · rw [mapped] at no
      cases no
  · exact State.offer_stored o ws unposted (by simp [unmapped]) (by simp [unmapped]) (fun _ => free)
  · exact (slotBound_entry _ _).mp (freeSlotFrom_none s.map.entries 0 1024 full m (Nat.zero_le m) (by omega))
  · intro a p outcome t
    have frame : t = _ := State.resolveSector_frame n r ws active
    have resolved := State.resolved_frame n r ws j s
    have banks : t.engine = { s.engine with
        active := some (j.decide n (r.entered p.1)), banks := (s.engine.dropAccumulator j.bank n).banks } := by
      rw [frame, resolved]
    have accumulators : ∀ b m, t.engine.accumulator b m = (s.engine.dropAccumulator j.bank n).accumulator b m := by
      intro b m
      rw [banks]
      rfl
    refine ⟨?_, ?_, ?_, ?_, ?_, ?_, ?_, fun tables => ?_, fun b m other => ?_, fun h last held kind here stored => ?_, fun off => ?_⟩
    · rw [frame, resolved]
    · rw [frame, resolved]
    · rw [frame, resolved]
    · rw [frame, resolved]
    · rw [banks]
      rfl
    · rw [banks]
    · rw [banks]
    · rw [accumulators]
      exact Engine.dropAccumulator_self j.bank n s.engine tables
    · rw [accumulators]
      exact Engine.dropAccumulator_other j.bank b n m s.engine other
    · have row : t = _ := State.resolveSector_eq n r ws active
      have hold : (s.resolved n r ws j).port.hold = some h := by rw [resolved]; exact held
      rw [row, if_neg stored, State.answerHeldRead_here .done ws hold kind here, resolved]
      exact ⟨rfl, rfl, rfl⟩
    · have row : t = s.resolved n r ws j := by
        refine (State.resolveSector_eq n r ws active).trans ?_
        rcases off with other | superseded
        · have port : (s.resolved n r ws j).port = s.port := by rw [resolved]
          rw [State.answerHeldRead_other .done ws (by rw [port]; exact other), ite_self]
        · exact if_pos superseded
      rw [row, resolved]
      exact ⟨rfl, rfl⟩

/-! ## The outcomes examined (R138 to R144) -/

/-- The sector's accumulator made empty first, on the first pass of a RESET step. -/
def State.resetFirst (step : LadderStep) (first : Bool) (n : Nat) (j : Job) (s : State) : State :=
  if first && step.voteMode == .reset then s.withEngine (Engine.dropAccumulator j.bank n) else s

theorem State.examine_passed {step : LadderStep} {first : Bool} {n : Nat} {o : PassOutcome} (active : s.engine.active = some j)
    (gone : n ∉ j.pending) : s.examine step first (n, o) = s := by
  unfold State.examine
  rw [active]
  exact if_neg gone

section examine

variable {step : LadderStep} {first : Bool} {n : Nat} {o : PassOutcome} (active : s.engine.active = some j) (pending : n ∈ j.pending)

include active pending

theorem State.examine_good (good : o.kind = .good) :
    s.examine step first (n, o) = (s.resetFirst step first n j).resolveSector n .direct (o.answerData s.geom.words) := by
  unfold State.examine
  rw [active]
  refine (if_pos pending).trans ?_
  dsimp only
  rw [good]
  rfl

theorem State.examine_contributes {bits : List (Bool × Quality)} (data : o.bits = some bits)
    (contributes : o.kind = .dataCheck ∨ (o.kind = .headerCheck ∧ step.inference = true)) :
    s.examine step first (n, o) = (s.resetFirst step first n j).contribute step n bits (o.kind == .headerCheck) := by
  unfold State.examine
  rw [active]
  refine (if_pos pending).trans ?_
  dsimp only
  rcases contributes with kind | ⟨kind, inference⟩ <;> rw [kind, data]
  · rfl
  · exact if_pos inference

theorem State.examine_nothing (nothing : o.kind = .wrongAddress ∨ o.kind = .noData ∨
      (o.kind = .headerCheck ∧ step.inference = false) ∨ (o.bits = none ∧ o.kind ≠ .good)) :
    s.examine step first (n, o) = s.resetFirst step first n j := by
  unfold State.examine
  rw [active]
  refine (if_pos pending).trans ?_
  dsimp only
  rcases nothing with kind | kind | ⟨kind, inference⟩ | ⟨bits, kind⟩
  · rw [kind]
    rfl
  · rw [kind]
    rfl
  · rw [kind]
    cases o.bits with
    | none => rfl
    | some b => exact if_neg (Bool.eq_false_iff.mp inference)
  · rw [bits]
    cases kind' : o.kind with
    | good => exact absurd kind' kind
    | _ => rfl

end examine

/-- A contributing read of the ACTIVE job: folded, then evaluated. -/
theorem State.contribute_eq (step : LadderStep) (n : Nat) (bits : List (Bool × Quality)) (inferred : Bool)
    (active : s.engine.active = some j) :
    let acc := (s.engine.accumulator j.bank n).fold bits inferred
    let v := s.withEngine (Engine.putAccumulator j.bank n acc)
    (evaluate s.geom.words step.flipLimit step.flipCeiling acc = none → s.contribute step n bits inferred = v) ∧
    (∀ r ws, evaluate s.geom.words step.flipLimit step.flipCeiling acc = some (r, ws) →
      s.contribute step n bits inferred = v.resolveSector n r ws) := by
  intro acc v
  unfold State.contribute
  rw [active]
  dsimp only
  refine ⟨fun undecided => ?_, fun r ws decided => ?_⟩
  · rw [undecided]
  · rw [decided]

/-- Settles O30, by the outcome's kind. -/
theorem outcomeExamined : Obligations.OutcomeExamined := by
  unfold Obligations.OutcomeExamined
  intro s step first j n o active u
  have reset : u = s.resetFirst step first n j := by
    unfold u State.resetFirst
    simp only [Bool.and_eq_true, beq_iff_eq]
  have geom : u.geom = s.geom := by
    unfold u
    split <;> rfl
  have active' : u.engine.active = some j := by
    unfold u
    split
    · show (s.engine.dropAccumulator j.bank n).active = _
      rw [Engine.dropAccumulator_eq]
      exact active
    · exact active
  refine ⟨State.examine_passed active, fun pending => ⟨fun good => ?_, fun bits data contributes => ?_, fun nothing => ?_⟩⟩
  · rw [reset]
    exact State.examine_good active pending good
  · intro acc v
    obtain ⟨undecided, decided⟩ := State.contribute_eq step n bits (o.kind == .headerCheck) active'
    rw [State.examine_contributes active pending data contributes, ← reset, ← geom]
    exact ⟨undecided, decided⟩
  · rw [reset]
    exact State.examine_nothing active pending nothing

/-! ## The report of a pass (R109, R125, R126) -/

theorem State.takeReport_eq (step : LadderStep) (first : Bool) (g : Grant) (outcomes : List (Nat × PassOutcome))
    (active : s.engine.active = some j) :
    s.takeReport step first g outcomes =
      if outcomes.any (fun p => p.2.otherCylinder j.track.cyl) then
        ({ s with engine := { s.engine with active := some (j.charge g) } } : State).misSeek true
      else
        ((outcomes.filter (fun p => !g.passedOver.contains p.1)).foldl (State.examine step first)
          { s with engine := { s.engine with active := some { j.charge g with passes := countUp j.passes } } }).passCounted := by
  have charged : s.withEngine (Engine.updateActive (Job.charge g)) =
      { s with engine := { s.engine with active := some (j.charge g) } } :=
    congrArg (fun e : Engine => { s with engine := e }) (Engine.updateActive_charge g active)
  unfold State.takeReport
  rw [active]
  dsimp only
  rw [charged]
  rfl

theorem exec_recoveryPassEnd_reports {signals : List (Nat × SectorSignal)} {g : Grant} {t : Track} {step : LadderStep}
    {first : Bool} {sectors : List Nat} (busy : s.drive.activity = .reading) (running : s.drive.grant = some g)
    (work : g.work = .recovery t step first sectors) (live : g.aborted = false) (settled : s.engine.ending = none) :
    exec (.recoveryPassEnd signals) s =
      .next (s.endGrant.takeReport step first g (passOutcomes g.threshold s.geom.words t sectors signals)) := by
  have reading : s.grantIn .reading = some g := (if_pos busy).trans running
  change execRecoveryPassEnd signals s = _
  unfold execRecoveryPassEnd
  rw [reading]
  dsimp only
  rw [work]
  exact congrArg _ (State.recoveryEnded_reports (s := s.endGrant) live settled)

/-- The end of a pass that was read: the step counted, and whether the job goes on. -/
theorem State.passCounted_eq {step : LadderStep} (active : s.engine.active = some j)
    (found : (s.ladders.getD j.ladder [])[j.step]? = some step) :
    let last := step.passes ≤ j.passesDone + 1
    let next : Job := if last then { j with step := j.step + 1, passesDone := 0 } else { j with passesDone := j.passesDone + 1 }
    let exhausted := last ∧ (s.ladders.getD j.ladder []).length ≤ j.step + 1
    (j.pending = [] ∨ exhausted → s.passCounted = s.endActive .completed next) ∧
    (j.pending ≠ [] → ¬ exhausted →
      s.passCounted = ({ s with engine := { s.engine with active := some next } } : State).poke) := by
  intro last next exhausted
  have counted : s.countPass j = next := by
    unfold State.countPass State.ladderOf
    rw [found]
  have pending : next.pending = j.pending := by
    unfold next
    split <;> rfl
  have ends : (next.passesDone = 0 && decide ((s.ladderOf next).length ≤ next.step)) = true ↔ exhausted := by
    unfold next exhausted State.ladderOf
    by_cases l : last
    · simp [l]
    · simp [l]
  unfold State.passCounted
  rw [active]
  dsimp only
  rw [counted, pending]
  refine ⟨fun ends' => ?_, fun some goes => ?_⟩
  · by_cases empty : j.pending = []
    · exact if_pos (by rw [empty]; rfl)
    · exact (if_neg (by simpa using empty)).trans (if_pos (ends.mpr (ends'.resolve_left empty)))
  · exact (if_neg (by simpa using some)).trans (if_neg (ends.not.mpr goes))

/-- The tests of the engine, with their conditions written out. -/
theorem State.poke_cases (s : State) :
    let running := ∃ g, s.drive.grant = some g ∧ g.aborted = false ∧ ∃ t x f l, g.work = .recovery t x f l
    let stopped := s.engine.noPack = true ∨ s.engine.speed = true ∨ s.engine.transparent = true ∨
      s.engine.resultsFull = true ∨ s.engine.suspended = true
    let places := s.results.length +
      ((s.engine.active.toList ++ s.engine.parked.toList ++ s.engine.ending.toList).filter (·.reservation)).length
    let parks := s.engine.parked = none ∧ (∃ k rest, s.engine.queued = k :: rest ∧ k.urgent = true) ∧ ¬ stopped ∧ places < 64 ∧
      ¬ running
    (s.engine.active = none → s.poke = { s with drive := { s.drive with recoveryRequest := false } }) ∧
    (∀ j, s.engine.active = some j →
      (j.urgent = false → parks → s.poke =
        { s with engine := { s.engine with active := none, parked := some j }
                 drive := { s.drive with recoveryRequest := false } }) ∧
      (j.urgent = true ∨ ¬ parks →
        (¬ stopped → ¬ running → s.poke = { s with drive := { s.drive with recoveryRequest := true } }) ∧
        (stopped ∨ running → s.poke = { s with drive := { s.drive with recoveryRequest := false } }))) := by
  intro running stopped places parks
  have hr : s.drive.recoveryRunning = true ↔ running := Drive.recoveryRunning_iff s.drive
  have hs : s.engine.stopped = true ↔ stopped := Engine.stopped_iff s.engine
  have hp : s.canReserve = true ↔ places < 64 := s.canReserve_iff
  refine ⟨State.poke_noActive, fun j active => ⟨fun calm ⟨parked, head, runs, place, free⟩ => ?_, fun keeps => ?_⟩⟩
  · exact State.poke_parks active calm parked ((Engine.headUrgent_iff _).mpr head) (Bool.eq_false_iff.mpr (hs.not.mpr runs))
      (hp.mpr place) (Bool.eq_false_iff.mpr (hr.not.mpr free))
  · have stays := State.poke_keeps active (keeps.imp_right fun no => fun ⟨parked, head, runs, place, free⟩ =>
      no ⟨parked, (Engine.headUrgent_iff _).mp head, hs.not.mp (Bool.eq_false_iff.mp runs), hp.mp place,
        hr.not.mp (Bool.eq_false_iff.mp free)⟩)
    refine ⟨fun runs free => ?_, fun held => ?_⟩ <;> rw [stays]
    · rw [Bool.eq_false_iff.mpr (hs.not.mpr runs), Bool.eq_false_iff.mpr (hr.not.mpr free)]
      rfl
    · rcases held with stop | run
      · rw [hs.mpr stop]
        rfl
      · rw [hr.mpr run, Bool.not_true, Bool.and_false]

/-- Settles O32: the report by whether it is a mis-seek, the pass counted by its step, the tests by their conditions. -/
theorem recoveryPassTaken : Obligations.RecoveryPassTaken := by
  unfold Obligations.RecoveryPassTaken
  refine ⟨fun s signals g t step first sectors j busy running work live settled active => ?_,
    fun s j step active found => State.passCounted_eq active found, State.poke_cases⟩
  intro outcomes charged counted u misSeek missed
  have row : exec (.recoveryPassEnd signals) s = .next (s.endGrant.takeReport step first g outcomes) :=
    exec_recoveryPassEnd_reports busy running work live settled
  have other : (outcomes.any fun p => p.2.otherCylinder j.track.cyl) = true ↔ misSeek := List.any_eq_true
  have charge : j.charge g = charged := rfl
  rw [row, State.takeReport_eq (s := s.endGrant) step first g outcomes active, charge]
  refine ⟨fun read => ?_, fun lost third => ?_, fun lost early => ?_⟩
  · rw [if_neg (other.not.mpr read)]
    have passed : (fun p : Nat × PassOutcome => !g.passedOver.contains p.1) = fun p => decide (p.1 ∉ g.passedOver) := by
      funext p
      simp
    rw [passed]
    rfl
  · have ends : (u charged).misSeek true = (u charged).endActive .seekFailed missed :=
      State.misSeek_third (s := u charged) (j := charged) true rfl third
    rw [if_pos (other.mpr lost)]
    exact congrArg _ ends
  · have goes : (u charged).misSeek true = (u missed).poke :=
      State.misSeek_early (s := u charged) (j := charged) true rfl early
    rw [if_pos (other.mpr lost)]
    exact congrArg _ goes

end Sys2Proof.Machine
end

