-- ==== Sys2Proof/Proofs/JobEndings.lean ====
section
/-! The ending of a job (R129, R130, R148): its undecided sectors and their candidates, a held READ, its record and its bank. -/

namespace Sys2Proof.Machine

variable {s v : State} {j k : Job} {n : Nat}

/-! ## Offers one after another (R40, R42, R49) -/

/-- An offer stores its words in a slot of the address, or leaves the map as it was. -/
theorem State.offer_cases (a : Addr) (o : Origin) (ws : List Word) (s : State) :
    (∃ n, s.hasSlot a n ∧ s.offer a o ws = (.stored, s.putEntry a o ws n)) ∨
      ((s.offer a o ws).1 ≠ .stored ∧ (s.offer a o ws).2.map = s.map) := by
  unfold State.offer
  split
  · exact .inr ⟨by simp, rfl⟩
  · split
    · exact .inr ⟨by simp, rfl⟩
    · cases stored : s.storeSector a o ws with
      | none => exact .inr ⟨by simp, rfl⟩
      | some t =>
        obtain ⟨n, slot, rfl⟩ := State.storeSector_some stored
        exact .inl ⟨n, slot, rfl⟩

theorem insertEntry_self_mem (e : MapEntry) (l : List MapEntry) : e ∈ insertEntry e l :=
  List.mem_of_find?_eq_some (insertEntry_find_self e l)

theorem insertEntry_keeps {e f : MapEntry} {l : List MapEntry} (member : f ∈ l) (other : f.addr ≠ e.addr) :
    f ∈ insertEntry e l := by
  induction l with
  | nil => cases member
  | cons g l ih =>
    unfold insertEntry
    split
    · exact List.mem_cons_of_mem _ member
    · split
      next same =>
        rcases List.mem_cons.mp member with rfl | tail
        · exact absurd same.symm other
        · exact List.mem_cons_of_mem _ tail
      next =>
        rcases List.mem_cons.mp member with rfl | tail
        · exact List.mem_cons_self
        · exact List.mem_cons_of_mem _ (ih tail)

/-- A slot that words are put in is no other entry's. -/
theorem State.hasSlot_apart {a : Addr} {e : MapEntry} (wf : s.map.Wf) (slot : s.hasSlot a n) (member : e ∈ s.map.entries)
    (other : e.addr ≠ a) : e.slot ≠ n := by
  obtain ⟨bound, free⟩ := slot
  cases entry : s.entryAt a with
  | none => exact (State.freeSlot_lowest (free entry)).2.1 e member
  | some f =>
    rw [bound f entry]
    intro same
    have here : f.addr = a := by simpa using List.find?_some entry
    have equal := List.inj_on_of_nodup_map wf.apart member (List.mem_of_find?_eq_some entry) same
    exact other (equal ▸ here)

/-- An offer for another address leaves an entry and its words as they were, and the map in its form. -/
theorem State.offer_keeps {a : Addr} {e : MapEntry} (o : Origin) (ws : List Word) (wf : s.map.Wf) (member : e ∈ s.map.entries)
    (other : e.addr ≠ a) :
    (s.offer a o ws).2.map.Wf ∧ e ∈ (s.offer a o ws).2.map.entries ∧
      (s.offer a o ws).2.slotContents e.slot = s.slotContents e.slot := by
  rcases s.offer_cases a o ws with ⟨n, slot, stored⟩ | ⟨-, same⟩
  · rw [stored]
    refine ⟨wf.putEntry slot o ws, insertEntry_keeps member other, ?_⟩
    exact congrArg (Option.getD · _) (tableGet_put_other n e.slot _ _ (State.hasSlot_apart wf slot member other))
  · refine ⟨by rw [same]; exact wf, by rw [same]; exact member, ?_⟩
    unfold State.slotContents
    rw [same]

theorem State.offer_wf {a : Addr} (o : Origin) (ws : List Word) (wf : s.map.Wf) : (s.offer a o ws).2.map.Wf := by
  rcases s.offer_cases a o ws with ⟨n, slot, stored⟩ | ⟨-, same⟩
  · rw [stored]
    exact wf.putEntry slot o ws
  · rw [same]
    exact wf

/-! ## Outcome lists (R114) -/

theorem insertOutcome_self_mem (e : OutcomeEntry) (l : List OutcomeEntry) : e ∈ insertOutcome e l := by
  induction l with
  | nil => exact List.mem_cons_self
  | cons f l ih =>
    unfold insertOutcome
    split
    · exact List.mem_cons_self
    · split
      · exact List.mem_cons_self
      · exact List.mem_cons_of_mem _ ih

theorem insertOutcome_keeps {e f : OutcomeEntry} {l : List OutcomeEntry} (member : f ∈ l) (other : f.sector ≠ e.sector) :
    f ∈ insertOutcome e l := by
  induction l with
  | nil => cases member
  | cons g l ih =>
    unfold insertOutcome
    split
    · exact List.mem_cons_of_mem _ member
    · split
      next same =>
        rcases List.mem_cons.mp member with rfl | tail
        · exact absurd same.symm other
        · exact List.mem_cons_of_mem _ tail
      next =>
        rcases List.mem_cons.mp member with rfl | tail
        · exact List.mem_cons_self
        · exact List.mem_cons_of_mem _ (ih tail)

/-! ## The sectors left undecided (R129, R148) -/

/-- The words that a sector still pending offers at its job's end, none without keep-best or a contributing read. -/
def State.candidateOf (j : Job) (n : Nat) (s : State) : Option (List Word) :=
  if j.keepBest = true ∧ 1 ≤ (s.engine.accumulator j.bank n).count then
    some ((s.engine.accumulator j.bank n).candidateWords s.geom.words)
  else none

/-- What leaving a sector undecided does to the state: its candidate, if it has one, is offered. -/
def State.leaveOne (j : Job) (s v : State) (n : Nat) : State :=
  match s.candidateOf j n with
  | some ws => (v.offer (j.track.at n) .bestEffort ws).2
  | none => v

/-- The outcome of a sector left undecided, by the map's answer. -/
def State.leftOutcome (j : Job) (s v : State) (n : Nat) : SectorOutcome :=
  match s.candidateOf j n with
  | some ws =>
      match (v.offer (j.track.at n) .bestEffort ws).1 with
      | .stored => .kept
      | .full => .unresolved
      | .superseded => .superseded
  | none => .unresolved

/-- A job that differs from another in the pending set and the outcomes alone. -/
def Job.SameCase (j k : Job) : Prop := k = { j with pending := k.pending, outcomes := k.outcomes }

theorem Job.SameCase.decide (same : j.SameCase k) (n : Nat) (o : SectorOutcome) : j.SameCase (k.decide n o) := by
  unfold Job.SameCase at *
  rw [same]
  rfl

theorem State.leaveOne_frame (j : Job) (s v : State) (n : Nat) :
    s.leaveOne j v n = { v with map := (s.leaveOne j v n).map, events := (s.leaveOne j v n).events } := by
  unfold State.leaveOne
  split
  · exact State.offer_frame _ _ _ _
  · rfl

theorem State.leaveAll_frame (j : Job) (s v : State) (ns : List Nat) :
    ns.foldl (s.leaveOne j) v =
      { v with map := (ns.foldl (s.leaveOne j) v).map, events := (ns.foldl (s.leaveOne j) v).events } := by
  induction ns generalizing v with
  | nil => rfl
  | cons n ns ih =>
    rw [List.foldl_cons]
    refine (ih _).trans ?_
    rw [State.leaveOne_frame]

/-- One sector left undecided while the engine stands as at the ending's beginning. -/
theorem leaveUndecided_eq (engine : v.engine = s.engine) (geom : v.geom = s.geom) (same : j.SameCase k) (n : Nat) :
    leaveUndecided (v, k) n = (s.leaveOne j v n, k.decide n (s.leftOutcome j v n)) := by
  have bank : k.bank = j.bank := by rw [same]
  have keep : k.keepBest = j.keepBest := by rw [same]
  have track : k.track = j.track := by rw [same]
  unfold leaveUndecided State.leaveOne State.leftOutcome State.candidateOf
  simp only [engine, geom, bank, keep, track, Bool.and_eq_true, decide_eq_true_eq]
  by_cases offers : j.keepBest = true ∧ 1 ≤ (s.engine.accumulator j.bank n).count
  · simp only [if_pos offers] <;> rfl
  · simp only [if_neg offers]

/-- All of them: the state by the offers in turn; the job, of the same case. -/
theorem leaveAllUndecided_eq (ns : List Nat) (engine : v.engine = s.engine) (geom : v.geom = s.geom) (same : j.SameCase k) :
    (ns.foldl leaveUndecided (v, k)).1 = ns.foldl (s.leaveOne j) v ∧ j.SameCase (ns.foldl leaveUndecided (v, k)).2 := by
  induction ns generalizing v k with
  | nil => exact ⟨rfl, same⟩
  | cons n ns ih =>
    rw [List.foldl_cons, List.foldl_cons, leaveUndecided_eq engine geom same]
    refine ih ?_ ?_ (same.decide n _) <;> rw [State.leaveOne_frame]
    · exact engine
    · exact geom

/-- An entry of another sector stays in the outcome list. -/
theorem leaveAllUndecided_kept {ns : List Nat} (engine : v.engine = s.engine) (geom : v.geom = s.geom) (same : j.SameCase k)
    {e : OutcomeEntry} (member : e ∈ k.outcomes) (other : e.sector ∉ ns) : e ∈ (ns.foldl leaveUndecided (v, k)).2.outcomes := by
  induction ns generalizing v k with
  | nil => exact member
  | cons n ns ih =>
    obtain ⟨ne, tail⟩ := not_or.mp (List.mem_cons.not.mp other)
    rw [List.foldl_cons, leaveUndecided_eq engine geom same]
    refine ih ?_ ?_ (same.decide n _) (insertOutcome_keeps member ne) tail <;> rw [State.leaveOne_frame]
    · exact engine
    · exact geom

/-- A sector left undecided has its entry at the job's step, with the outcome that the map's answer gives. -/
theorem leaveAllUndecided_outcome {before after : List Nat} (engine : v.engine = s.engine) (geom : v.geom = s.geom)
    (same : j.SameCase k) (last : n ∉ after) :
    ⟨n, s.leftOutcome j (before.foldl (s.leaveOne j) v) n, j.step⟩ ∈
      ((before ++ n :: after).foldl leaveUndecided (v, k)).2.outcomes := by
  induction before generalizing v k with
  | nil =>
    have step : k.step = j.step := by rw [same]
    rw [List.nil_append, List.foldl_cons, leaveUndecided_eq engine geom same, ← step]
    refine leaveAllUndecided_kept (s := s) ?_ ?_ (same.decide n _) (insertOutcome_self_mem _ _) last <;> rw [State.leaveOne_frame]
    · exact engine
    · exact geom
  | cons m before ih =>
    rw [List.cons_append, List.foldl_cons, List.foldl_cons, leaveUndecided_eq engine geom same]
    refine ih ?_ ?_ (same.decide m _) <;> rw [State.leaveOne_frame]
    · exact engine
    · exact geom

theorem State.leaveOne_wf (wf : v.map.Wf) : (s.leaveOne j v n).map.Wf := by
  unfold State.leaveOne
  split
  · exact State.offer_wf _ _ wf
  · exact wf

theorem State.leaveAll_wf (ns : List Nat) (wf : v.map.Wf) : (ns.foldl (s.leaveOne j) v).map.Wf := by
  induction ns generalizing v with
  | nil => exact wf
  | cons n ns ih => exact ih (State.leaveOne_wf wf)

/-- Later offers for other sectors leave an entry and its words as they were. -/
theorem State.leaveAll_keeps {ns : List Nat} {e : MapEntry} (wf : v.map.Wf) (member : e ∈ v.map.entries)
    (other : ∀ m ∈ ns, e.addr ≠ j.track.at m) :
    e ∈ (ns.foldl (s.leaveOne j) v).map.entries ∧
      (ns.foldl (s.leaveOne j) v).slotContents e.slot = v.slotContents e.slot := by
  induction ns generalizing v with
  | nil => exact ⟨member, rfl⟩
  | cons m ns ih =>
    obtain ⟨here, later⟩ := List.forall_mem_cons.mp other
    have kept : e ∈ (s.leaveOne j v m).map.entries ∧ (s.leaveOne j v m).slotContents e.slot = v.slotContents e.slot := by
      unfold State.leaveOne
      split
      · exact (State.offer_keeps _ _ wf member here).2
      · exact ⟨member, rfl⟩
    obtain ⟨stays, words⟩ := ih (State.leaveOne_wf wf) kept.1 later
    exact ⟨stays, words.trans kept.2⟩

/-- Every entry is one of before, or a candidate's. -/
theorem State.leaveAll_entries {ns : List Nat} {e : MapEntry} (member : e ∈ (ns.foldl (s.leaveOne j) v).map.entries) :
    e ∈ v.map.entries ∨
      (e.origin = .bestEffort ∧ e.addr.track = j.track ∧ e.addr.sector ∈ ns ∧ e.epoch = v.pack.epoch) := by
  induction ns generalizing v with
  | nil => exact .inl member
  | cons m ns ih =>
    have pack : (s.leaveOne j v m).pack = v.pack := by rw [State.leaveOne_frame]
    rcases ih member with old | ⟨origin, track, sector, epoch⟩
    · unfold State.leaveOne at old
      split at old
      next ws _ =>
        rcases v.offer_cases (j.track.at m) .bestEffort ws with ⟨n, -, stored⟩ | ⟨-, same⟩
        · rw [stored] at old
          rcases insertEntry_mem _ _ _ old with rfl | old
          · exact .inr ⟨rfl, rfl, List.mem_cons_self, rfl⟩
          · exact .inl old
        · rw [same] at old
          exact .inl old
      next => exact .inl old
    · exact .inr ⟨origin, track, List.mem_cons_of_mem _ sector, by rw [← pack]; exact epoch⟩

/-- Without a candidate the map stays as it was. -/
theorem State.leaveAll_bare {ns : List Nat} (bare : ∀ m ∈ ns, s.candidateOf j m = none) : ns.foldl (s.leaveOne j) v = v := by
  induction ns with
  | nil => rfl
  | cons m ns ih =>
    obtain ⟨here, later⟩ := List.forall_mem_cons.mp bare
    have still : s.leaveOne j v m = v := by
      unfold State.leaveOne
      rw [here]
    rw [List.foldl_cons, still]
    exact ih later

theorem State.candidateOf_bare (idle : j.keepBest = false ∨ j.bank = none) (n : Nat) : s.candidateOf j n = none := by
  refine if_neg fun ⟨keep, reads⟩ => ?_
  rcases idle with off | unbanked
  · rw [off] at keep
    cases keep
  · rw [unbanked] at reads
    cases reads

/-! ## The held READ (R18, R129) -/

theorem State.answerHeldAtEnd_frame (j : Job) (s : State) :
    s.answerHeldAtEnd j = { s with completions := (s.answerHeldAtEnd j).completions, port := (s.answerHeldAtEnd j).port } := by
  unfold State.answerHeldAtEnd
  split
  · split
    · split <;> rfl
    · rfl
  · rfl

theorem State.answerHeldAtEnd_here {h : Hold} {last : List Word} (held : s.port.hold = some h) (kind : h.kind = .read last)
    (track : h.addr.track = j.track) (pending : h.addr.sector ∈ j.pending) :
    s.answerHeldAtEnd j = s.finishRequest .dataCheck
      (if 1 ≤ (s.engine.accumulator j.bank h.addr.sector).count then
        (s.engine.accumulator j.bank h.addr.sector).candidateWords s.geom.words else last) := by
  unfold State.answerHeldAtEnd
  rw [held]
  dsimp only
  rw [kind]
  exact if_pos ⟨track, pending⟩

theorem State.answerHeldAtEnd_other
    (other : ∀ h last, s.port.hold = some h → h.kind = .read last → h.addr.track = j.track → h.addr.sector ∉ j.pending) :
    s.answerHeldAtEnd j = s := by
  unfold State.answerHeldAtEnd
  split
  next h held =>
    split
    next last kind => exact if_neg fun ⟨track, pending⟩ => other h last held kind track pending
    · rfl
  · rfl

/-! ## The ending as a whole -/

/-- The job with its undecided sectors decided. -/
def State.decidedAtEnd (j : Job) (s : State) : Job := (j.pending.foldl leaveUndecided (s, j)).2

theorem State.decidedAtEnd_same (j : Job) (s : State) : j.SameCase (s.decidedAtEnd j) :=
  (leaveAllUndecided_eq j.pending (s := s) (v := s) (j := j) (k := j) rfl rfl rfl).2

theorem State.endJob_eq (ending : Ending) (j : Job) (s : State) :
    s.endJob ending j =
      ((j.pending.foldl (s.leaveOne j) s).answerHeldAtEnd j).closeJob ending (s.decidedAtEnd j) := by
  have offers := (leaveAllUndecided_eq j.pending (s := s) (v := s) (j := j) (k := j) rfl rfl rfl).1
  rw [← offers]
  rfl

/-- The ending's effect, field by field. -/
theorem State.endJob_frame (ending : Ending) (j : Job) (s : State) :
    let u := (j.pending.foldl (s.leaveOne j) s).answerHeldAtEnd j
    let kept := j.reservation || s.canReserve
    let t := s.endJob ending j
    t = { s with
      map := (j.pending.foldl (s.leaveOne j) s).map
      events := if kept then u.events else withEvent .resultsFull u.events
      port := u.port
      completions := u.completions
      engine := { s.engine with
        banks := (s.engine.freeBank j.bank).banks
        active := t.engine.active
        parked := t.engine.parked
        window := if s.engine.jobs = [] then none else s.engine.window
        resultsFull := t.engine.resultsFull }
      results := if kept then s.results ++ [(s.decidedAtEnd j).record ending] else s.results
      drive := { s.drive with recoveryRequest := t.drive.recoveryRequest } } := by
  intro u kept t
  have same := s.decidedAtEnd_same j
  have bank : (s.decidedAtEnd j).bank = j.bank := by rw [same]
  have reservation : (s.decidedAtEnd j).reservation = j.reservation := by rw [same]
  have state : u = { s with
      map := (j.pending.foldl (s.leaveOne j) s).map, events := u.events, port := u.port, completions := u.completions } := by
    have answered : u = _ := State.answerHeldAtEnd_frame j _
    rw [answered, State.leaveAll_frame]
  have place : u.keepsRecord (s.decidedAtEnd j) = kept := by
    unfold State.keepsRecord
    rw [reservation, state]
    rfl
  have closed : t = _ := (State.endJob_eq ending j s).trans (State.closeJob_eq ending (s.decidedAtEnd j) u)
  have again : u.closeJob ending (s.decidedAtEnd j) = t := (State.endJob_eq ending j s).symm
  rw [place, bank, again] at closed
  refine closed.trans ?_
  rw [state]

/-- Words stored for a sector stand in the map at the end, with their entry. -/
theorem State.leaveAll_stored {before after : List Nat} {ws : List Word} (split : j.pending = before ++ n :: after)
    (last : n ∉ after) (wf : s.map.Wf) (candidate : s.candidateOf j n = some ws)
    (stored : ((before.foldl (s.leaveOne j) s).offer (j.track.at n) .bestEffort ws).1 = .stored) :
    ∃ e ∈ (j.pending.foldl (s.leaveOne j) s).map.entries, e.addr = j.track.at n ∧ e.origin = .bestEffort ∧
      e.epoch = s.pack.epoch ∧ (j.pending.foldl (s.leaveOne j) s).slotContents e.slot = ⟨ws, crc ws⟩ := by
  have wf' : (before.foldl (s.leaveOne j) s).map.Wf := State.leaveAll_wf before wf
  have epoch : (before.foldl (s.leaveOne j) s).pack.epoch = s.pack.epoch := by rw [State.leaveAll_frame]
  rw [split, List.foldl_append, List.foldl_cons]
  generalize before.foldl (s.leaveOne j) s = v at stored wf' epoch ⊢
  rcases v.offer_cases (j.track.at n) .bestEffort ws with ⟨m, slot, put⟩ | ⟨no, -⟩
  · have one : s.leaveOne j v n = v.putEntry (j.track.at n) .bestEffort ws m := by
      unfold State.leaveOne
      rw [candidate]
      exact congrArg Prod.snd put
    rw [one]
    have words : (v.putEntry (j.track.at n) .bestEffort ws m).slotContents m = ⟨ws, crc ws⟩ :=
      congrArg (Option.getD · _) (tableGet_put_self m _ _)
    obtain ⟨stays, still⟩ := State.leaveAll_keeps (s := s) (j := j) (ns := after)
      (e := ⟨j.track.at n, .bestEffort, v.pack.epoch, m⟩) (wf'.putEntry slot .bestEffort ws) (insertEntry_self_mem _ _)
      (fun k member same => last (by cases congrArg Addr.sector same; exact member))
    exact ⟨_, stays, rfl, rfl, epoch, still.trans words⟩
  · exact absurd stored no

/-- An event just set is set. -/
theorem hasEvent_withEvent_self (e : Event) (events : BitVec 10) : hasEvent e (withEvent e events) = true := by
  cases e <;> simp [hasEvent, withEvent, Event.bit]

theorem Engine.freeBank_own {b : Option Nat} {i : Nat} {e : Engine} (bank : b = some i) (inside : i < e.banks.length) :
    (e.freeBank b).banks[i]? = some [] := by
  rw [bank]
  exact List.getElem?_set_self inside

theorem Engine.freeBank_other {b : Option Nat} {i : Nat} {e : Engine} (other : b ≠ some i) :
    (e.freeBank b).banks[i]? = e.banks[i]? := by
  cases b with
  | none => rfl
  | some k => exact List.getElem?_set_ne (fun same => other (congrArg some same))

/-- The record of the ending, with its outcomes (R130). -/
theorem State.decidedAtEnd_record (ending : Ending) (j : Job) (s : State) :
    let entry := (s.decidedAtEnd j).record ending
    entry.ending = ending ∧ entry.track = j.track ∧ entry.origin = j.origin ∧ entry.epoch = j.epoch ∧ entry.passes = j.passes ∧
      entry.settles = j.settles ∧ entry.misSeeks = j.misSeeks ∧ entry.clamped = j.clamped ∧
      (∀ before n after, j.pending = before ++ n :: after → n ∉ after → ∃ e ∈ entry.outcomes, e.sector = n ∧ e.step = j.step ∧
        e.outcome = s.leftOutcome j (before.foldl (s.leaveOne j) s) n) ∧
      (∀ e ∈ j.outcomes, e.sector ∉ j.pending → e ∈ entry.outcomes) := by
  intro entry
  have outcomes : entry.outcomes = (j.pending.foldl leaveUndecided (s, j)).2.outcomes := rfl
  have same : s.decidedAtEnd j = _ := s.decidedAtEnd_same j
  refine ⟨rfl, (congrArg Job.track same :), (congrArg Job.origin same :), (congrArg Job.epoch same :), (congrArg Job.passes same :),
    (congrArg Job.settles same :), (congrArg Job.misSeeks same :), (congrArg Job.clamped same :), fun before n after split last => ?_, fun e member other => ?_⟩
  · rw [outcomes, split]
    exact ⟨_, leaveAllUndecided_outcome (s := s) (j := j) (k := j) rfl rfl rfl last, rfl, rfl, rfl⟩
  · rw [outcomes]
    exact leaveAllUndecided_kept (s := s) (j := j) (k := j) rfl rfl rfl member other

/-- The job left ENDING completes its ending with the outcomes it has (R134). -/
theorem State.finishEnding_eq (ending : s.engine.ending = some j) :
    s.finishEnding = (s.withEngine (fun e => { e with ending := none })).closeJob .abandoned j := by
  unfold State.finishEnding
  rw [ending]

theorem State.finishEnding_frame (ending : s.engine.ending = some j) (reserved : j.reservation = true) :
    let t := s.finishEnding
    t = { s with
      results := s.results ++ [j.record .abandoned]
      engine := { s.engine with
        ending := none
        banks := (s.engine.freeBank j.bank).banks
        active := t.engine.active
        parked := t.engine.parked
        window := t.engine.window
        resultsFull := t.engine.resultsFull }
      drive := { s.drive with recoveryRequest := t.drive.recoveryRequest } } := by
  intro t
  have kept : (s.withEngine (fun e => { e with ending := none })).keepsRecord j = true := by
    unfold State.keepsRecord
    rw [reserved]
    rfl
  have banks : (({ s.engine with ending := none } : Engine).freeBank j.bank).banks = (s.engine.freeBank j.bank).banks := by
    cases j.bank <;> rfl
  have row : t = _ := State.finishEnding_eq ending
  rw [row, State.closeJob_eq, kept, ← banks]
  rfl

/-- Settles O33: the fields of the ending by `endJob_frame`, its outcomes and candidates by the sectors left undecided in turn. -/
theorem endedJobLeavesRecord : Obligations.EndedJobLeavesRecord := by
  unfold Obligations.EndedJobLeavesRecord
  refine ⟨fun s ending j => ?_, fun s ending j => rfl, fun s => ?_⟩
  · intro t acc candidate offered
    have frame : t = _ := State.endJob_frame ending j s
    have candidates : ∀ n, candidate n = s.candidateOf j n := fun n => rfl
    have offers : offered = s.leaveOne j := by
      funext v n
      rfl
    have map : t.map = (j.pending.foldl offered s).map := by rw [frame, offers]
    have banks : t.engine.banks = (s.engine.freeBank j.bank).banks := by rw [frame]
    have start := State.leaveAll_frame j s s j.pending
    refine ⟨map, fun place => ?_, fun unreserved full => ?_, fun before n after ws split last wf some stored => ?_,
      fun e member => ?_, fun h last held kind track pending => ?_, fun other => ?_, fun i bank inside => ?_,
      fun i other => ?_, ?_, ?_, fun idle => ?_⟩
    · have kept : (j.reservation || s.canReserve) = true := Bool.or_eq_true_iff.mpr place
      obtain ⟨ended, track, origin, epoch, passes, settles, misSeeks, clamped, decided, earlier⟩ := s.decidedAtEnd_record ending j
      refine ⟨(s.decidedAtEnd j).record ending, ?_, ended, track, origin, epoch, passes, settles, misSeeks, clamped, ?_, earlier⟩
      · rw [frame, kept]
        rfl
      · intro before n after split last
        obtain ⟨e, member, sector, step, outcome⟩ := decided before n after split last
        unfold State.leftOutcome at outcome
        refine ⟨e, member, sector, step, fun bare => ?_, fun ws some => ?_⟩ <;> rw [outcome, ← candidates]
        · rw [bare]
        · rw [some, offers] <;> rfl
    · have dropped : (j.reservation || s.canReserve) = false := by rw [unreserved, full]; rfl
      rw [frame, dropped]
      exact ⟨rfl, hasEvent_withEvent_self _ _⟩
    · have stands := State.leaveAll_stored split last (s.mapWf_iff.mp wf) some (by rw [← offers]; exact stored)
      have words : ∀ i, t.slotContents i = (j.pending.foldl (s.leaveOne j) s).slotContents i := by
        intro i
        unfold State.slotContents
        rw [map, offers]
      simp only [words, map, offers]
      exact stands
    · rw [map, offers] at member
      exact State.leaveAll_entries member
    · have answered : (j.pending.foldl (s.leaveOne j) s).answerHeldAtEnd j = _ :=
        State.answerHeldAtEnd_here (by rw [start]; exact held) kind track pending
      rw [frame, answered, start]
      exact ⟨rfl, rfl⟩
    · have unanswered : (j.pending.foldl (s.leaveOne j) s).answerHeldAtEnd j = _ :=
        State.answerHeldAtEnd_other (by rw [start]; exact other)
      rw [frame, unanswered, start]
      exact ⟨rfl, rfl⟩
    · rw [banks]
      exact Engine.freeBank_own bank inside
    · rw [banks]
      exact Engine.freeBank_other other
    · rw [frame]
    · rw [frame]
    · rw [map, offers, State.leaveAll_bare fun n _ => State.candidateOf_bare idle n]
  · intro t
    refine ⟨fun none => ?_, fun j ending reserved => ?_⟩
    · unfold t State.finishEnding
      rw [none]
    · have frame : t = _ := State.finishEnding_frame ending reserved
      have banks : t.engine.banks = (s.engine.freeBank j.bank).banks := by rw [frame]
      refine ⟨?_, ?_, ?_, fun i bank inside => ?_, fun i other => ?_, ?_⟩
      · rw [frame]
        rfl
      · rw [frame]
      · rw [frame]
      · rw [banks]
        exact Engine.freeBank_own bank inside
      · rw [banks]
        exact Engine.freeBank_other other
      · rw [frame]

end Sys2Proof.Machine
end

