-- ==== Sys2Proof/Proofs/EngineMoments.lean ====
section
/-! The part's own moments: activation (R121, R122), the ends of the batch window, of a hold and of the Flush Latency (R19, R62, R119),
and the entry of a waiting WRITE (R21). -/

namespace Sys2Proof.Machine

variable {s : State} {j : Job}

/-! ## Deadlines (R19, R62, R119) -/

theorem exec_batchWindowExpiry_closed (closed : s.engine.window = none) : exec .batchWindowExpiry s = .next s := by
  change execBatchWindowExpiry s = _
  unfold execBatchWindowExpiry
  rw [closed]

theorem exec_batchWindowExpiry_open {d : Nat} (window : s.engine.window = some d) :
    exec .batchWindowExpiry s = .next
      { s.advanceTo d with engine := { s.engine with window := none, queued := sortBatch s.engine.queued } } := by
  change execBatchWindowExpiry s = _
  unfold execBatchWindowExpiry
  rw [window]
  exact congrArg (fun e : Engine => Host.Outcome.next { s.advanceTo d with engine := e })
    (Engine.closeWindow_open s.engine d window)

theorem exec_holdDeadline_unheld (unheld : s.port.hold = none) : exec .holdDeadline s = .next s := by
  change execHoldDeadline s = _
  unfold execHoldDeadline
  rw [unheld]

theorem exec_holdDeadline_held {h : Hold} (held : s.port.hold = some h) :
    exec .holdDeadline s = .next ((s.advanceTo h.deadline).expireHold h) := by
  change execHoldDeadline s = _
  unfold execHoldDeadline
  rw [held]

theorem exec_flushLatencyExpiry_empty (empty : s.posts.entries = []) : exec .flushLatencyExpiry s = .next s := by
  change execFlushLatencyExpiry s = _
  unfold execFlushLatencyExpiry
  rw [empty]

theorem exec_flushLatencyExpiry_oldest {p : PostEntry} {rest : List PostEntry} (posted : s.posts.entries = p :: rest) :
    exec .flushLatencyExpiry s = .next (s.advance ((p.firstArrival + 100 * s.timing.flushLatency + 1) - s.now)) := by
  change execFlushLatencyExpiry s = _
  unfold execFlushLatencyExpiry
  rw [posted, Nat.mul_comm 100]
  rfl

/-- A FLUSH request that stands is overdue once the oldest entry's age has passed the Flush Latency. -/
theorem State.flushOverdue_advanced {p : PostEntry} {rest : List PostEntry} (posted : s.posts.entries = p :: rest)
    (requested : s.flushRequested = true) :
    (s.advance ((p.firstArrival + 100 * s.timing.flushLatency + 1) - s.now)).flushOverdue = true := by
  have requested' : (s.advance ((p.firstArrival + 100 * s.timing.flushLatency + 1) - s.now)).flushRequested = true := requested
  unfold State.flushOverdue
  rw [requested', State.advance_posts, posted, Bool.true_and, decide_eq_true_iff, State.advance_now, State.advance_timing]
  unfold msTicks
  rw [show Config.ticksPerMs = 100 from rfl]
  omega

/-! ## The entry of a waiting WRITE (R21) -/

theorem exec_waitingWriteEntry_idle {permit : Bool} (idle : ∀ ws a d, s.port.hold ≠ some ⟨.write ws, a, d⟩) :
    exec (.waitingWriteEntry permit) s = .next (s.setPermit permit) := by
  change execWaitingWriteEntry permit s = _
  unfold execWaitingWriteEntry
  dsimp only
  rw [State.setPermit_port]
  cases held : s.port.hold with
  | none => rfl
  | some h =>
    obtain ⟨kind, a, d⟩ := h
    cases kind with
    | read last => rfl
    | write ws => exact absurd held (idle ws a d)

theorem exec_waitingWriteEntry_waits {permit : Bool} {ws : List Word} {a : Addr} {d : Nat}
    (held : s.port.hold = some ⟨.write ws, a, d⟩) :
    exec (.waitingWriteEntry permit) s = .next
      (if s.postHasRoom a then (s.setPermit permit).enterWaiting a ws else s.setPermit permit) := by
  change execWaitingWriteEntry permit s = _
  unfold execWaitingWriteEntry
  dsimp only
  rw [State.setPermit_port, held]
  rfl

/-- A waiting WRITE of a PASS region enters with the effects of a PASS write (R45). -/
theorem State.enterWaiting_posted {ws : List Word} {a : Addr} (policy : (s.regionAt a.cyl).write = .pass)
    (permit : s.lines.permit = true) (unposted : s.postAt a = none) :
    s.enterWaiting a ws =
      ((({ s with
          posts := { s.posts with entries := s.posts.entries ++ [⟨a, ws, s.now, 0, false, false⟩] }
          map := { s.map with entries := s.map.entries.filter (fun e => e.addr != a) }
          buffers := { s.buffers with slots := s.buffers.slots.map (TrackBuffer.invalidate a) } } : State).supersede
        a).finishRequest .done []) := by
  refine (if_pos ⟨policy, permit⟩).trans ?_
  rw [State.takePost_new unposted]
  rfl

theorem State.enterWaiting_refused {ws : List Word} {a : Addr} (refused : (s.regionAt a.cyl).write ≠ .pass ∨ s.lines.permit = false) :
    s.enterWaiting a ws = s.finishRequest .writeProtected [] := by
  refine if_neg fun ⟨policy, permit⟩ => ?_
  rcases refused with other | deasserted
  · exact other policy
  · rw [deasserted] at permit
    cases permit

/-- Settles O36, by what each moment finds standing. -/
theorem holdsAndDeadlines : Obligations.HoldsAndDeadlines := by
  unfold Obligations.HoldsAndDeadlines
  refine ⟨fun s => ⟨exec_batchWindowExpiry_closed, fun d => exec_batchWindowExpiry_open, sortBatch_perm _, sortBatch_sorted _,
    exec_holdDeadline_unheld, fun a d last held => exec_holdDeadline_held held, fun a d ws held => exec_holdDeadline_held held,
    exec_flushLatencyExpiry_empty, fun p rest posted =>
      ⟨_, exec_flushLatencyExpiry_oldest posted, rfl, State.flushOverdue_advanced posted⟩⟩,
    fun s permit => ⟨exec_waitingWriteEntry_idle, fun ws a d held => ⟨fun unposted full => ?_, fun unposted room =>
      ⟨fun policy asserted => ?_, fun refused => ?_⟩⟩⟩⟩
  · rw [exec_waitingWriteEntry_waits held, State.postHasRoom_new unposted, decide_eq_false (Nat.not_lt.mpr full)]
    rfl
  · rw [exec_waitingWriteEntry_waits held, State.postHasRoom_new unposted, decide_eq_true room]
    exact congrArg _ (State.enterWaiting_posted (s := s.setPermit permit) policy asserted unposted)
  · rw [exec_waitingWriteEntry_waits held, State.postHasRoom_new unposted, decide_eq_true room]
    exact congrArg _ (State.enterWaiting_refused (s := s.setPermit permit) refused)

/-! ## Activation (R121, R122) -/

theorem Engine.runPhase_running (e : Engine) : e.runPhase = .running ↔ e.window = none ∧ e.jobs ≠ [] := by
  unfold Engine.runPhase Engine.length
  cases e.window with
  | some d => simp
  | none =>
    by_cases empty : e.jobs = []
    · simp [empty]
    · simp [empty]

theorem State.activationDue_iff (s : State) :
    s.activationDue = true ↔ s.engine.active = none ∧ s.engine.noPack = false ∧ s.engine.speed = false ∧
      s.engine.transparent = false ∧ s.engine.suspended = false ∧ s.engine.window = none ∧ s.engine.jobs ≠ [] ∧
      s.engine.ending = none := by
  unfold State.activationDue Engine.stoppedForActivation
  simp only [Bool.and_eq_true, Option.isNone_iff_eq_none, beq_iff_eq, Engine.runPhase_running, Bool.not_eq_true',
    Bool.or_eq_false_iff, and_assoc]

theorem exec_jobActivation_due (due : s.activationDue = true) : exec .jobActivation s = .next s.activate :=
  congrArg Host.Outcome.next (if_pos due)

/-- The PARKED job resumed, when no urgent head would park it again. -/
theorem State.resumeParked_eq {p : Job} (active : s.engine.active = none) (parked : s.engine.parked = some p)
    (stays : p.urgent = true ∨ ¬ (s.engine.headUrgent = true ∧ s.canReserve = true)) :
    s.resumeParked p = { s with
      engine := { s.engine with active := some p, parked := none, resultsFull := (s.resumeParked p).engine.resultsFull }
      drive := { s.drive with recoveryRequest := (s.resumeParked p).drive.recoveryRequest } } := by
  have reserve : ∀ full, ({ s with engine := { s.engine with active := some p, parked := none, resultsFull := full } } :
      State).canReserve = s.canReserve := by
    intro full
    unfold State.canReserve Engine.reservations Engine.placed
    rw [active, parked]
    rfl
  have lifted := State.liftResultsFull_frame (s.withEngine (fun e => { e with active := some p, parked := none }))
  unfold State.resumeParked
  generalize (s.withEngine (fun e => { e with active := some p, parked := none })).liftResultsFull = u at lifted ⊢
  have keeps := State.poke_keeps (s := u) (j := p) (by rw [lifted]; rfl) (stays.imp_right fun no =>
    fun ⟨_, head, _, place, _⟩ => no ⟨by rw [← head, lifted]; rfl, by rw [← place, lifted]; exact (reserve _).symm⟩)
  rw [keeps]
  rw [lifted]
  rfl

/-- The urgent jobs stand first: behind a job that is not urgent none is (R120). -/
theorem Engine.headUrgent_behind {e : Engine} {rest : List Job} (first : e.queued.Pairwise fun j k => k.urgent = true → j.urgent = true) (queued : e.queued = j :: rest)
    (calm : j.urgent = false) : ({ e with queued := rest } : Engine).headUrgent = false := by
  rw [queued] at first
  unfold Engine.headUrgent
  cases rest with
  | nil => rfl
  | cons k rest =>
    refine Bool.eq_false_iff.mpr fun urgent => ?_
    rw [(List.pairwise_cons.mp first).1 k List.mem_cons_self urgent] at calm
    cases calm

/-- The head with its bank, its reservation and its counts at the start. -/
def Job.atStart (b : Nat) (j : Job) : Job := { j with bank := some b, reservation := true, step := 0, passesDone := 0 }

/-- The state with the head activated, before the engine's tests. -/
def State.headActivated (j : Job) (rest : List Job) (s : State) : State :=
  { s with engine := { s.engine with
      active := some (j.atStart s.engine.otherBank), queued := rest, banks := s.engine.banks.set s.engine.otherBank [] } }

theorem Engine.otherBank_free (e : Engine) : e.otherBank < 2 ∧ ∀ p, e.parked = some p → p.bank ≠ some e.otherBank := by
  unfold Engine.otherBank
  split
  next zero =>
    refine ⟨by omega, fun p parked => ?_⟩
    rw [parked] at zero
    rw [show p.bank = some 0 from zero]
    simp
  next other =>
    refine ⟨by omega, fun p parked zero => other ?_⟩
    rw [parked]
    exact zero

theorem State.activateHead_goes {rest : List Job} (some' : s.ladders.getD j.ladder [] ≠ []) :
    s.activateHead j rest = (s.headActivated j rest).liftResultsFull.poke :=
  if_neg (by rw [List.length_eq_zero_iff]; exact some')

theorem State.activateHead_ends {rest : List Job} (bare : s.ladders.getD j.ladder [] = []) :
    s.activateHead j rest = (s.headActivated j rest).endActive .completed (j.atStart s.engine.otherBank) :=
  if_pos (by rw [List.length_eq_zero_iff]; exact bare)

/-- An activated head is not parked by the tests that follow: an urgent job behind it would stand before it. -/
theorem State.activateHead_frame {rest : List Job} (first : s.engine.queued.Pairwise fun j k => k.urgent = true → j.urgent = true)
    (queued : s.engine.queued = j :: rest)
    (some' : s.ladders.getD j.ladder [] ≠ []) :
    s.activateHead j rest = { s.headActivated j rest with
      engine := { (s.headActivated j rest).engine with resultsFull := (s.activateHead j rest).engine.resultsFull }
      drive := { s.drive with recoveryRequest := (s.activateHead j rest).drive.recoveryRequest } } := by
  rw [State.activateHead_goes some']
  have lifted := State.liftResultsFull_frame (s.headActivated j rest)
  generalize (s.headActivated j rest).liftResultsFull = u at lifted ⊢
  have keeps := State.poke_keeps (s := u) (j := j.atStart s.engine.otherBank) (by rw [lifted]; rfl) (by
    cases urgent : j.urgent with
    | true => exact .inl urgent
    | false =>
      refine .inr fun ⟨_, head, _⟩ => ?_
      have calm := Engine.headUrgent_behind first queued urgent
      rw [lifted] at head
      exact Bool.eq_false_iff.mp calm head)
  rw [keeps]
  rw [lifted]
  rfl

/-- An empty ladder ends the head at once: its accumulators are empty, so that it offers nothing. -/
theorem State.activateHead_ended {rest : List Job} (bare : s.ladders.getD j.ladder [] = []) :
    let t := s.activateHead j rest
    t.engine.active = none ∧ t.engine.parked = s.engine.parked ∧ t.engine.queued = rest ∧ t.map = s.map ∧
      ∃ entry, t.results = s.results ++ [entry] ∧ entry.track = j.track ∧ entry.ending = .completed ∧ entry.passes = j.passes := by
  intro t
  let v : State := ((s.headActivated j rest).withEngine (fun e => { e with active := none })).setRecoveryRequest false
  have row : t = v.endJob .completed (j.atStart s.engine.otherBank) := State.activateHead_ends bare
  have frame := State.endJob_frame .completed (j.atStart s.engine.otherBank) v
  have silent : ∀ n ∈ (j.atStart s.engine.otherBank).pending, v.candidateOf (j.atStart s.engine.otherBank) n = none := by
    intro n _
    refine if_neg fun ⟨_, reads⟩ => ?_
    have empty : v.engine.bank s.engine.otherBank = [] := by
      unfold Engine.bank
      rw [List.getD_eq_getElem?_getD]
      show ((s.engine.banks.set s.engine.otherBank [])[s.engine.otherBank]?).getD [] = []
      by_cases within : s.engine.otherBank < s.engine.banks.length
      · rw [List.getElem?_set_self within]
        rfl
      · rw [List.getElem?_eq_none (by rw [List.length_set]; omega)]
        rfl
    have none : v.engine.accumulator (j.atStart s.engine.otherBank).bank n = Accumulator.empty :=
      congrArg (fun l => (tableGet n l).getD Accumulator.empty) empty
    rw [none] at reads
    cases reads
  obtain ⟨ended, track, -, -, passes, -⟩ := v.decidedAtEnd_record .completed (j.atStart s.engine.otherBank)
  have seats : t.engine.seats = (none, s.engine.parked, rest, s.engine.ending) :=
    (congrArg (fun u : State => u.engine.seats) (State.activateHead_ends bare)).trans
      (State.endActive_seats .completed (j.atStart s.engine.otherBank) (s.headActivated j rest))
  refine ⟨congrArg (·.1) seats, congrArg (·.2.1) seats, congrArg (·.2.2.1) seats, ?_, v.decidedAtEnd (j.atStart s.engine.otherBank) |>.record .completed, ?_, track, ended, passes⟩
  · rw [row, frame, State.leaveAll_bare silent]
    rfl
  · rw [row, frame]
    rfl

theorem State.activate_resumes {p : Job} (parked : s.engine.parked = some p)
    (turn : p.urgent = true ∨ ¬ (s.engine.headUrgent = true ∧ s.canReserve = true)) : s.activate = s.resumeParked p := by
  unfold State.activate
  rw [parked]
  by_cases urgent : p.urgent = true
  · exact if_pos urgent
  · exact (if_neg urgent).trans (if_neg fun head => turn.elim urgent (· ((Bool.and_eq_true _ _).mp head)))

theorem State.activate_head {rest : List Job} (queued : s.engine.queued = j :: rest)
    (turn : s.engine.parked = none ∨
      ∃ p, s.engine.parked = some p ∧ p.urgent = false ∧ s.engine.headUrgent = true ∧ s.canReserve = true) :
    s.activate = if s.canReserve then s.activateHead j rest else s.placeResultsFull := by
  have holds : s.activate = s.activateOrHold := by
    unfold State.activate
    rcases turn with parked | ⟨p, parked, calm, head, place⟩
    · rw [parked]
    · rw [parked]
      exact (if_neg (Bool.eq_false_iff.mp calm)).trans (if_pos ((Bool.and_eq_true _ _).mpr ⟨head, place⟩))
  rw [holds]
  unfold State.activateOrHold
  rw [queued]

/-- Settles O35, by whose turn it is. -/
theorem jobActivationChoice : Obligations.JobActivationChoice := by
  unfold Obligations.JobActivationChoice
  intro s wf due headFirst
  refine ⟨fun no => congrArg _ (if_neg fun yes => no ((State.activationDue_iff s).mp yes)), fun p turn parked first => ?_,
    fun j rest turn heads queued => ?_⟩
  · rw [exec_jobActivation_due ((State.activationDue_iff s).mpr turn), State.activate_resumes parked first,
      State.resumeParked_eq turn.1 parked first]
    exact ⟨_, rfl, rfl, rfl, rfl, rfl, rfl, rfl, rfl⟩
  rw [exec_jobActivation_due ((State.activationDue_iff s).mpr turn), State.activate_head queued heads]
  refine ⟨fun place steps => ?_, fun place bare => ?_, fun full => ?_⟩
  · obtain ⟨within, apart⟩ := s.engine.otherBank_free
    have order := ((State.queuesWf_iff s).mp wf).order
    rw [place, if_pos rfl, State.activateHead_frame order queued steps]
    exact ⟨_, s.engine.otherBank, rfl, within, apart, rfl, rfl, rfl, rfl, rfl, rfl, rfl⟩
  · rw [place, if_pos rfl]
    obtain ⟨active, parked, queue, map, entry, record⟩ := State.activateHead_ended (s := s) (rest := rest) bare
    exact ⟨_, entry, rfl, active, parked, queue, map, record⟩
  · rw [full, if_neg Bool.false_ne_true]
    rfl

end Sys2Proof.Machine
end

