-- ==== Sys2Proof/Proofs/SupersededSector.lean ====
section
/-! Supersession (R128): the pending sector of a written address leaves its job, wherever that stands, and an emptied job ends. -/

namespace Sys2Proof.Machine

variable {s t : State} {a : Addr} {n : Nat} {k : Job} {before after : List Job}

/-- A supersession looks where the track's job stands. -/
theorem State.supersede_eq (a : Addr) (s : State) :
    s.supersede a = match s.engine.place a.track with
      | .active j => if a.sector ∈ j.pending then s.supersedeActive a.sector j else s
      | .parked j => if a.sector ∈ j.pending then s.supersedeParked a.sector j else s
      | .queued before j after => if a.sector ∈ j.pending then s.supersedeQueued a.sector before j after else s
      | .absent => s := by
  unfold State.supersede Engine.place
  cases s.engine.active.filter (fun j => j.track == a.track) with
  | some j => rfl
  | none =>
    cases s.engine.parked.filter (fun j => j.track == a.track) with
    | some j => rfl
    | none =>
      cases splitQueued a.track s.engine.queued with
      | some p => rfl
      | none => rfl

/-- A track's job that is not ACTIVE leaves the ACTIVE job another. -/
theorem Engine.place_notActive {e : Engine} {x : Track} (elsewhere : ∀ j, e.place x ≠ .active j) : ∀ k ∈ e.active, k.track ≠ x := by
  intro k active track
  exact elsewhere k (Engine.place_of_active active track)

/-- What a supersession of sector `n` does to its job `k`, which stands between `before` and `after` (R128): it stays without the sector,
or, emptied and with no grant of it running, ends COMPLETED with its record. -/
inductive State.LosesSector (n : Nat) (k : Job) (before after : List Job) (s t : State) : Prop
  | stays (needed : (k.decide n .superseded).pending ≠ [] ∨ (s.engine.active = some k ∧ s.drive.recoveryRunning = true))
      (live : t.engine.liveJobs = before ++ k.decide n .superseded :: after) (results : t.results = s.results)
      (active : s.engine.active = some k → t.engine.active = some (k.decide n .superseded))
  | ends (emptied : (k.decide n .superseded).pending = []) (idle : s.engine.active = some k → s.drive.recoveryRunning = false)
      (live : t.engine.liveJobs = before ++ after)
      (recorded : k.reservation = true ∨ s.canReserve = true →
        t.results = s.results ++ [(k.decide n .superseded).record .completed])
      (dropped : k.reservation = false → s.canReserve = false → t.results = s.results ∧ hasEvent .resultsFull t.events = true)

/-- The job taken from its place and closed. -/
theorem State.LosesSector.of_close {u : State} (emptied : (k.decide n .superseded).pending = [])
    (idle : s.engine.active = some k → s.drive.recoveryRunning = false) (live : u.engine.liveJobs = before ++ after)
    (results : u.results = s.results) (places : k.reservation = true ∨ u.canReserve = s.canReserve) :
    s.LosesSector n k before after (u.endJob .completed (k.decide n .superseded)) := by
  rw [State.endJob_decided emptied]
  have keeps : u.keepsRecord (k.decide n .superseded) = (k.reservation || s.canReserve) := by
    show (k.reservation || u.canReserve) = _
    rcases places with reserved | same
    · rw [reserved]
      rfl
    · rw [same]
  refine .ends emptied idle ((State.closeJob_liveJobs _ _ _).trans live) (fun kept => ?_) (fun unreserved full => ?_)
  · rw [State.closeJob_eq, keeps, ← results]
    exact if_pos (by simpa using kept)
  · rw [State.closeJob_eq, keeps, unreserved, full, ← results]
    exact ⟨rfl, hasEvent_withEvent_self _ _⟩

theorem State.supersedeActive_loses (wf : s.engine.WellQueued s.results.length (s.pack.state = .unloading))
    (active : s.engine.active = some k) :
    s.LosesSector n k [] (s.engine.parked.toList ++ s.engine.queued) (s.supersedeActive n k) := by
  have reserved := (wf.placed k (by simp [Engine.placed, active])).1
  have dropped := Engine.dropAccumulator_eq k.bank n s.engine
  unfold State.supersedeActive
  rw [State.passOver_frame]
  dsimp only
  split
  next ends =>
    obtain ⟨emptied, still⟩ := Bool.and_eq_true_iff.mp ends
    refine State.LosesSector.of_close (List.isEmpty_iff.mp emptied) (fun _ => by simpa using still) ?_ rfl (.inl reserved)
    show ({ s.engine.dropAccumulator k.bank n with active := none } : Engine).liveJobs = _
    rw [dropped]
    rfl
  next stays =>
    refine .stays ?_ ?_ rfl (fun _ => rfl)
    · by_cases emptied : (k.decide n .superseded).pending = []
      · refine .inr ⟨active, ?_⟩
        by_contra still
        exact stays (Bool.and_eq_true_iff.mpr ⟨List.isEmpty_iff.mpr emptied, by simpa using still⟩)
      · exact .inl emptied
    · show ({ s.engine.dropAccumulator k.bank n with active := some _ } : Engine).liveJobs = _
      rw [dropped]
      rfl

theorem State.supersedeParked_loses (wf : s.engine.WellQueued s.results.length (s.pack.state = .unloading))
    (parked : s.engine.parked = some k) (away : s.engine.active ≠ some k) :
    s.LosesSector n k s.engine.active.toList s.engine.queued (s.supersedeParked n k) := by
  have reserved := (wf.placed k (by simp [Engine.placed, parked])).1
  have dropped := Engine.dropAccumulator_eq k.bank n s.engine
  unfold State.supersedeParked
  dsimp only
  split
  next ends =>
    refine State.LosesSector.of_close (List.isEmpty_iff.mp ends) (fun active => absurd active away) ?_ rfl (.inl reserved)
    show ({ s.engine.dropAccumulator k.bank n with parked := none } : Engine).liveJobs = _
    rw [dropped]
    simp [Engine.liveJobs]
  next stays =>
    refine .stays (.inl fun emptied => stays (List.isEmpty_iff.mpr emptied)) ?_ rfl (fun active => absurd active away)
    show ({ s.engine.dropAccumulator k.bank n with parked := some _ } : Engine).liveJobs = _
    rw [dropped]
    simp [Engine.liveJobs]

theorem State.supersedeQueued_loses (away : s.engine.active ≠ some k) :
    s.LosesSector n k (s.engine.active.toList ++ s.engine.parked.toList ++ before) after (s.supersedeQueued n before k after) := by
  unfold State.supersedeQueued
  dsimp only
  split
  next ends =>
    exact State.LosesSector.of_close (List.isEmpty_iff.mp ends) (fun active => absurd active away)
      (by simp [Engine.liveJobs, State.withEngine]) rfl (.inr rfl)
  next stays =>
    exact .stays (.inl fun emptied => stays (List.isEmpty_iff.mpr emptied)) (by simp [Engine.liveJobs, State.withEngine]) rfl
      (fun active => absurd active away)

/-- A track has at most one job (R113). -/
theorem Engine.WellQueued.liveTracks {e : Engine} {records : Nat} {unloading : Prop} (wf : e.WellQueued records unloading) :
    (e.liveJobs.map Job.track).Nodup := by
  refine wf.tracks.sublist (List.Sublist.map _ ?_)
  unfold Engine.liveJobs Engine.jobs Engine.placed
  exact (List.sublist_append_left _ _).append_right _

theorem Engine.WellQueued.one_of_track {e : Engine} {records : Nat} {unloading : Prop} (wf : e.WellQueued records unloading)
    {j k : Job} (hj : j ∈ e.liveJobs) (hk : k ∈ e.liveJobs) (track : j.track = k.track) : j = k :=
  List.inj_on_of_nodup_map wf.liveTracks hj hk track

/-- The jobs beside one are of other tracks. -/
theorem Engine.WellQueued.others_apart {e : Engine} {records : Nat} {unloading : Prop} (wf : e.WellQueued records unloading)
    (live : e.liveJobs = before ++ k :: after) : ∀ i ∈ before ++ after, i.track ≠ k.track := by
  have tracks := wf.liveTracks
  rw [live, List.map_append, List.map_cons, List.nodup_middle, List.nodup_cons, ← List.map_append] at tracks
  exact fun i hi same => tracks.1 (same ▸ List.mem_map_of_mem hi)

/-- Where no job of the track has the sector pending a supersession does nothing; else it takes the sector out of that job. -/
theorem State.supersede_cases (wf : s.engine.WellQueued s.results.length (s.pack.state = .unloading)) (a : Addr) :
    (s.supersede a = s ∧ ∀ k ∈ s.engine.liveJobs, k.track = a.track → a.sector ∉ k.pending) ∨
      ∃ before k after, s.engine.liveJobs = before ++ k :: after ∧ k.track = a.track ∧ a.sector ∈ k.pending ∧
        s.LosesSector a.sector k before after (s.supersede a) := by
  have settle : ∀ before k after t', s.engine.liveJobs = before ++ k :: after → k.track = a.track →
      s.supersede a = (if a.sector ∈ k.pending then t' else s) → s.LosesSector a.sector k before after t' →
      (s.supersede a = s ∧ ∀ k ∈ s.engine.liveJobs, k.track = a.track → a.sector ∉ k.pending) ∨
        ∃ before k after, s.engine.liveJobs = before ++ k :: after ∧ k.track = a.track ∧ a.sector ∈ k.pending ∧
          s.LosesSector a.sector k before after (s.supersede a) := by
    intro before k after t' live track row loses
    by_cases pending : a.sector ∈ k.pending
    · rw [if_pos pending] at row
      exact .inr ⟨before, k, after, live, track, pending, row ▸ loses⟩
    · rw [if_neg pending] at row
      refine .inl ⟨row, fun i hi same => ?_⟩
      rw [wf.one_of_track hi (by simp [live]) (same.trans track.symm)]
      exact pending
  have row := s.supersede_eq a
  cases stands : s.engine.place a.track with
  | active j =>
    obtain ⟨active, track⟩ := Engine.place_active stands
    rw [stands] at row
    exact settle _ j _ _ (by simp [Engine.liveJobs, active]) track row (State.supersedeActive_loses wf active)
  | parked j =>
    obtain ⟨parked, track⟩ := Engine.place_parked stands
    rw [stands] at row
    refine settle _ j _ _ (by simp [Engine.liveJobs, parked]) track row (State.supersedeParked_loses wf parked fun active => ?_)
    exact Engine.place_notActive (by simp [stands]) j active track
  | queued before j after =>
    obtain ⟨queued, track, -⟩ := Engine.place_queued stands
    rw [stands] at row
    refine settle (s.engine.active.toList ++ s.engine.parked.toList ++ before) j after _ (by simp [Engine.liveJobs, queued])
      track row (State.supersedeQueued_loses fun active => ?_)
    exact Engine.place_notActive (by simp [stands]) j active track
  | absent =>
    rw [stands] at row
    exact .inl ⟨row, fun k hk same => absurd same (Engine.place_absent stands k hk)⟩

/-- A pass that runs has the superseded sector passed over (R124, R128). -/
theorem State.supersede_passedOver {g : Grant} (active : s.engine.active = some k) (running : s.drive.recoveryRunning = true)
    (grant : s.drive.grant = some g) (track : k.track = a.track) (pending : a.sector ∈ k.pending) :
    (s.supersede a).drive.grant = some { g with passedOver := insertSector a.sector g.passedOver } := by
  have row := s.supersede_eq a
  rw [Engine.place_of_active active track] at row
  rw [row]
  refine (congrArg (fun t : State => t.drive.grant) (if_pos pending)).trans ?_
  have dropped := State.passOver_grant a.sector (s.withEngine (Engine.dropAccumulator k.bank a.sector))
  unfold State.supersedeActive
  dsimp only
  rw [running, Bool.not_true, Bool.and_false, if_neg Bool.false_ne_true]
  refine dropped.trans ((if_pos running).trans ?_)
  show s.drive.grant.map _ = _
  rw [grant]
  rfl

/-- Settles O34, by what a supersession does to the job of its track. -/
theorem supersededSectorLeavesJob : Obligations.SupersededSectorLeavesJob := by
  unfold Obligations.SupersededSectorLeavesJob
  intro s a form t
  have wf := (State.queuesWf_iff s).mp form
  have frame : t = _ := s.supersede_engineOnly a
  refine ⟨by rw [frame], by rw [frame], by rw [frame], by rw [frame], ?_⟩
  rcases State.supersede_cases wf a with ⟨same, absent⟩ | ⟨before, k, after, live, track, pending, loses⟩
  · have same : t = s := same
    rw [same]
    refine ⟨absent, fun _ => rfl, fun k hk _ => hk, fun k hk track pending => absurd pending (absent k hk track),
      fun k hk track pending => absurd (by simp [pending]) (absent k hk track), fun k g active _ _ track pending => ?_⟩
    exact absurd pending (absent k (by simp [Engine.liveJobs, active]) track)
  have mem : k ∈ s.engine.liveJobs := by simp [live]
  have apart : ∀ i ∈ before ++ after, i.track ≠ a.track := track ▸ wf.others_apart live
  have only : ∀ i ∈ s.engine.liveJobs, i.track = a.track → i = k := fun i hi same => wf.one_of_track hi mem (same.trans track.symm)
  have kept : ∀ i ∈ s.engine.liveJobs, i.track ≠ a.track → i ∈ before ++ after := by
    intro i hi other
    rw [live] at hi
    have : i ≠ k := fun same => other (same ▸ track)
    simpa [this] using hi
  refine ⟨fun i hi same => ?_, fun absent => absurd pending (absent k mem track), fun i hi other => ?_,
    fun i hi same _ ⟨m, hm, other⟩ => ?_, fun i hi same sole => ?_, fun i g active running grant track pending =>
      State.supersede_passedOver active running grant track pending⟩
  · cases loses with
    | stays _ live' _ _ =>
      have hi : i ∈ before ++ k.decide a.sector .superseded :: after := live' ▸ hi
      have self : i = k.decide a.sector .superseded := by
        by_contra other
        exact apart i (by simpa [other] using hi) same
      simp [self, Job.decide]
    | ends _ _ live' _ _ => exact absurd same (apart i (live' ▸ hi))
  · cases loses with
    | stays _ live' _ _ =>
      show i ∈ t.engine.liveJobs
      rw [live']
      exact List.mem_append.mpr ((List.mem_append.mp (kept i hi other)).imp_right (List.mem_cons_of_mem _))
    | ends _ _ live' _ _ =>
      show i ∈ t.engine.liveJobs
      rw [live']
      exact kept i hi other
  · obtain rfl := only i hi same
    cases loses with
    | stays _ live' _ _ =>
      show _ ∈ t.engine.liveJobs
      rw [live']
      exact List.mem_append_right _ List.mem_cons_self
    | ends emptied _ _ _ _ =>
      have left : m ∈ (i.decide a.sector .superseded).pending := by simp [Job.decide, hm, other]
      rw [emptied] at left
      cases left
  · obtain rfl := only i hi same
    have decided : i.decide a.sector .superseded =
        { i with pending := [], outcomes := insertOutcome ⟨a.sector, .superseded, i.step⟩ i.outcomes } := by
      simp [Job.decide, sole]
    cases loses with
    | stays needed live' results active =>
      obtain ⟨now, running⟩ := needed.resolve_left fun more => more (by rw [decided])
      refine ⟨fun _ _ => ⟨results, decided ▸ active now⟩, fun ended => ?_⟩
      rcases ended with away | still
      · exact absurd now away
      · rw [running] at still
        cases still
    | ends _ idle live' recorded dropped =>
      refine ⟨fun now running => ?_, fun _ => ⟨fun k hk => apart k (live' ▸ hk), fun place => ?_, dropped⟩⟩
      · rw [idle now] at running
        cases running
      · exact ⟨_, recorded place, rfl, rfl, rfl, rfl⟩

end Sys2Proof.Machine
end

