-- ==== Sys2Proof/Proofs/RecoveryRequests.lean ====
section
/-! A failed READ given to recovery (R13, R17, R118, R120), from a single read and from a capture. -/

namespace Sys2Proof.Machine

variable {s : State} {a : Addr} {r : Region} {data : List Word} {j : Job}

/-! ## What the READ meets (R13, R17) -/

/-- The outstanding READ held to its deadline, or answered at once with the Hold Limit 0, by the values the state `s` has. -/
def State.readTaken (s : State) (a : Addr) (r : Region) (data : List Word) (v : State) : State :=
  if 0 < s.timing.holdLimit then
    { v with port := { v.port with outstanding := some ⟨.read a r true, .held⟩
                                   hold := some ⟨.read data, a, s.now + 100 * s.timing.holdLimit⟩ } }
  else v.finishRequest .dataCheck data

theorem State.sendToRecovery_refused (full : s.automaticRequest a r.ladder r.keepBest (0 < s.timing.holdLimit) = none) :
    s.sendToRecovery a r data = s.finishRequest .dataCheck data := by
  unfold State.sendToRecovery
  rw [full]

theorem State.sendToRecovery_taken {v : State} {stage : Stage} (waits : s.port.outstanding = some ⟨.read a r true, stage⟩)
    (entered : s.automaticRequest a r.ladder r.keepBest (0 < s.timing.holdLimit) = some v)
    (port : v.port = s.port) (now : v.now = s.now) (timing : v.timing = s.timing) :
    s.sendToRecovery a r data = s.readTaken a r data v := by
  have held : v.beginHold (.read data) a = { v with port := { v.port with
      outstanding := some ⟨.read a r true, .held⟩, hold := some ⟨.read data, a, s.now + 100 * s.timing.holdLimit⟩ } } := by
    unfold State.beginHold
    rw [port, waits, now, timing, Nat.mul_comm 100]
    rfl
  unfold State.sendToRecovery
  rw [entered]
  dsimp only
  rw [held]
  rfl

/-- A request that changes the engine alone, before its tests. -/
theorem State.sendToRecovery_tested {e : Engine} {stage : Stage} (waits : s.port.outstanding = some ⟨.read a r true, stage⟩)
    (entered : s.automaticRequest a r.ladder r.keepBest (0 < s.timing.holdLimit) = some ({ s with engine := e } : State).poke) :
    s.sendToRecovery a r data = s.readTaken a r data ({ s with engine := e } : State).poke :=
  State.sendToRecovery_taken waits entered (by rw [State.poke_frame]) (by rw [State.poke_frame]) (by rw [State.poke_frame])

/-! ## The request in the Recovery Queue (R118, R120) -/

/-- What banks may have become where sector `n` of job `j` was asked for: its accumulator is empty where it joins, no other changes. -/
def Engine.JoinEmptied (e : Engine) (n : Nat) (j : Job) (banks : List (List (Nat × Accumulator))) : Prop :=
  (n ∈ j.pending → banks = e.banks) ∧
  (∀ b m, b ≠ j.bank ∨ m ≠ n → ({ e with banks := banks } : Engine).accumulator b m = e.accumulator b m) ∧
  (n ∉ j.pending → (∀ l ∈ e.banks, tableWf l = true) →
    ({ e with banks := banks } : Engine).accumulator j.bank n = Accumulator.empty)

theorem Engine.emptyJoined_emptied (e : Engine) (n : Nat) (j : Job) :
    e.JoinEmptied n j (e.emptyJoined [n] j.pending j.bank).banks := by
  have same : ({ e with banks := (e.emptyJoined [n] j.pending j.bank).banks } : Engine) = e.emptyJoined [n] j.pending j.bank :=
    (Engine.emptyJoined_eq ..).symm
  unfold Engine.JoinEmptied
  rw [same]
  refine ⟨fun pending => ?_, fun b m other => Engine.emptyJoined_kept (other.imp_right fun ne => .inl (by simpa using ne)),
    fun joins tables => ?_⟩
  · show (if n ∈ j.pending then e else e.dropAccumulator j.bank n).banks = _
    rw [if_pos pending]
  · exact Engine.emptyJoined_joined tables List.mem_cons_self joins

theorem State.automaticRequest_active {urgent : Bool} (active : s.engine.active = some j) (track : j.track = a.track) :
    ∃ banks, s.engine.JoinEmptied a.sector j banks ∧ s.automaticRequest a r.ladder r.keepBest urgent =
      some ({ s with engine := { s.engine with active := some (s.mergeInto [a.sector] urgent j), banks := banks } } : State).poke := by
  refine ⟨_, s.engine.emptyJoined_emptied a.sector j, ?_⟩
  unfold State.automaticRequest State.withEngine
  rw [Engine.place_of_active active track]
  dsimp only
  rw [Engine.emptyJoined_eq]

theorem State.automaticRequest_parked {urgent : Bool} (away : ∀ x ∈ s.engine.active, x.track ≠ a.track)
    (parked : s.engine.parked = some j) (track : j.track = a.track) :
    ∃ banks, s.engine.JoinEmptied a.sector j banks ∧ s.automaticRequest a r.ladder r.keepBest urgent =
      some ({ s with engine := { s.engine with parked := some (s.mergeInto [a.sector] urgent j), banks := banks } } : State).poke := by
  refine ⟨_, s.engine.emptyJoined_emptied a.sector j, ?_⟩
  unfold State.automaticRequest State.withEngine
  rw [Engine.place_of_parked away parked track]
  dsimp only
  rw [Engine.emptyJoined_eq]

section queued
variable {before after : List Job} (unplaced : ∀ x ∈ s.engine.active.toList ++ s.engine.parked.toList ++ before, x.track ≠ a.track)
  (queued : s.engine.queued = before ++ j :: after) (track : j.track = a.track)
include unplaced queued track

theorem State.place_queued_job : s.engine.place a.track = .queued before j after :=
  Engine.place_of_queued (fun k hk => unplaced k (List.mem_append_left _ hk)) queued track
    fun k hk => unplaced k (List.mem_append_right _ hk)

/-- A queued job that becomes urgent moves to an urgent job's place. -/
theorem State.automaticRequest_moves {urgent : Bool} (is : urgent = true) (calm : j.urgent = false) :
    ∃ queue, s.engine.EnteredUrgent (s.mergeInto [a.sector] urgent j) (before ++ after) queue ∧
      s.automaticRequest a r.ladder r.keepBest urgent =
        some ({ s with engine := { s.engine with window := none, queued := queue } } : State).poke := by
  have fewer : (before ++ after).Sublist s.engine.queued := by
    rw [queued]
    exact (List.sublist_cons_self j after).append_left before
  obtain ⟨queue, entered, row⟩ := Engine.enterUrgent_entered (s.mergeInto [a.sector] urgent j) fewer
  refine ⟨queue, entered, ?_⟩
  unfold State.automaticRequest State.withEngine
  rw [State.place_queued_job unplaced queued track]
  dsimp only
  rw [calm, row, is]
  rfl

theorem State.automaticRequest_rests {urgent : Bool} (rests : urgent = false ∨ j.urgent = true) :
    s.automaticRequest a r.ladder r.keepBest urgent =
      some ({ s with engine := { s.engine with queued := before ++ s.mergeInto [a.sector] urgent j :: after } } : State).poke := by
  unfold State.automaticRequest
  rw [State.place_queued_job unplaced queued track]
  refine if_neg fun moves => ?_
  obtain ⟨is, calm⟩ := Bool.and_eq_true_iff.mp moves
  rcases rests with no | already
  · rw [no] at is
    cases is
  · rw [already] at calm
    cases calm

end queued

section absent
variable {urgent : Bool} (absent : ∀ x ∈ s.engine.liveJobs, x.track ≠ a.track)
include absent

theorem State.automaticRequest_full (full : 16 ≤ s.engine.length) :
    s.automaticRequest a r.ladder r.keepBest urgent = none := by
  unfold State.automaticRequest
  rw [Engine.place_of_absent absent]
  exact if_pos full

/-- The job an automatic request makes: its sector pending, or decided ALREADY_HELD where it has a serving entry (R118). -/
def State.readJob (s : State) (a : Addr) (r : Region) (urgent : Bool) : Job :=
  { newJob a.track r.ladder .automatic urgent r.keepBest s.pack.epoch with
    pending := if s.servingAt a then [] else [a.sector]
    outcomes := if s.servingAt a then [⟨a.sector, .alreadyHeld, 0⟩] else [] }

omit absent in
theorem State.treatAll_readJob (s : State) (a : Addr) (r : Region) (urgent : Bool) :
    s.treatAll [a.sector] (newJob a.track r.ladder .automatic urgent r.keepBest s.pack.epoch) = s.readJob a r urgent := by
  show (newJob a.track r.ladder .automatic urgent r.keepBest s.pack.epoch).treat (s.servingAt a) a.sector = _
  unfold State.readJob
  cases s.servingAt a <;> rfl

theorem State.automaticRequest_new (room : s.engine.length < 16) :
    s.automaticRequest a r.ladder r.keepBest urgent =
      if s.servingAt a then some (s.closeJob .completed (s.readJob a r urgent))
      else some (s.withEngine fun e => if urgent then e.enterUrgent (s.readJob a r urgent)
        else { e with queued := e.queued ++ [s.readJob a r urgent] }).poke := by
  unfold State.automaticRequest
  rw [Engine.place_of_absent absent]
  refine (if_neg (Nat.not_le.mpr room)).trans ?_
  rw [State.treatAll_readJob]
  cases serving : s.servingAt a with
  | false => exact if_neg (by simp [State.readJob, serving])
  | true =>
    have decided : (s.readJob a r urgent).pending = [] := by simp [State.readJob, serving]
    exact (if_pos (by rw [decided]; rfl)).trans (congrArg some (State.endJob_decided decided .completed s))

theorem State.automaticRequest_enters (is : urgent = true) (room : s.engine.length < 16) (unserved : s.servingAt a = false) :
    ∃ queue, s.engine.EnteredUrgent (s.readJob a r urgent) s.engine.queued queue ∧
      s.automaticRequest a r.ladder r.keepBest urgent =
        some ({ s with engine := { s.engine with window := none, queued := queue } } : State).poke := by
  obtain ⟨queue, entered, row⟩ := Engine.enterUrgent_entered (s.readJob a r urgent) (List.Sublist.refl s.engine.queued)
  refine ⟨queue, entered, ?_⟩
  rw [State.automaticRequest_new absent room, unserved]
  subst is
  exact congrArg (fun e : Engine => some ({ s with engine := e } : State).poke) row

theorem State.automaticRequest_appended (calm : urgent = false) (room : s.engine.length < 16) (unserved : s.servingAt a = false) :
    s.automaticRequest a r.ladder r.keepBest urgent =
      some ({ s with engine := { s.engine with queued := s.engine.queued ++ [s.readJob a r urgent] } } : State).poke := by
  rw [State.automaticRequest_new absent room, unserved, calm]
  rfl

end absent

theorem State.readJob_unserved {urgent : Bool} (unserved : s.servingAt a = false) :
    s.readJob a r urgent = ⟨a.track, r.ladder, .automatic, urgent, r.keepBest, s.pack.epoch, [a.sector], [], 0, 0, 0, 0, 0, false,
      false, none, false⟩ := by
  simp [State.readJob, newJob, unserved]

theorem State.closeJob_jobs (ending : Ending) (j : Job) (s : State) : (s.closeJob ending j).engine.jobs = s.engine.jobs := by
  have live := s.closeJob_liveJobs ending j
  have queued : (s.closeJob ending j).engine.queued = s.engine.queued := by rw [State.closeJob_eq]
  have left : (s.closeJob ending j).engine.ending = s.engine.ending := by rw [State.closeJob_eq]
  unfold Engine.liveJobs at live
  rw [queued, List.append_cancel_right_eq] at live
  unfold Engine.jobs Engine.placed
  rw [live, queued, left]

/-- A failed READ whose track has no job makes one. -/
theorem State.sendToRecovery_new {stage : Stage} (waits : s.port.outstanding = some ⟨.read a r true, stage⟩)
    (absent : ∀ x ∈ s.engine.liveJobs, x.track ≠ a.track) (room : s.engine.length < 16) (unserved : s.servingAt a = false) :
    ∃ e : Engine, s.readJob a r (0 < s.timing.holdLimit) ∈ e.liveJobs ∧
      s.sendToRecovery a r data = s.readTaken a r data ({ s with engine := e } : State).poke := by
  by_cases held : 0 < s.timing.holdLimit
  · obtain ⟨queue, ⟨front, back, split, -⟩, row⟩ :=
      State.automaticRequest_enters (r := r) absent (decide_eq_true held) room unserved
    refine ⟨_, ?_, State.sendToRecovery_tested waits row⟩
    simp [Engine.liveJobs, split]
  · have row := State.automaticRequest_appended (r := r) absent (decide_eq_false held) room unserved
    refine ⟨_, ?_, State.sendToRecovery_tested waits row⟩
    simp [Engine.liveJobs]

/-- Settles O25, by where the track's job stands. -/
theorem failedReadHeldForRecovery : Obligations.FailedReadHeldForRecovery := by
  unfold Obligations.FailedReadHeldForRecovery
  refine ⟨fun s signal g a prefetch r busy running work waits policy steady serves => ?_, fun s a r data stage waits => ?_⟩
  · intro o failed
    have here : o.otherCylinder a.cyl = false := by
      refine Bool.eq_false_iff.mpr fun elsewhere => ?_
      rw [((PassOutcome.otherCylinder_iff o a.cyl).mp elsewhere).1] at failed
      simp at failed
    rw [exec_readSectorEnd_waiting busy running work here waits]
    exact congrArg _ (State.finishRead_recovers (s := s.endGrant) waits (State.mayRecover_true policy steady serves) failed)
  intro urgent answered taken tested new merged emptied entered t
  have merges : ∀ j : Job, j.track = a.track → s.mergeInto [a.sector] urgent j = merged j :=
    fun j track => State.mergeInto_one a urgent track
  refine ⟨fun absent => ⟨fun full => ?_, fun room unserved held => ?_, fun room unserved zero => ?_, fun room served => ?_⟩,
    fun j active track => ?_, fun j away parked track => ?_, fun before j after unplaced queued track => ⟨fun held calm => ?_,
      fun rests => ?_⟩⟩
  · exact State.sendToRecovery_refused (State.automaticRequest_full absent full)
  · obtain ⟨queue, entered, row⟩ := State.automaticRequest_enters (r := r) absent (decide_eq_true held) room unserved
    rw [State.readJob_unserved unserved] at entered
    exact ⟨queue, entered, State.sendToRecovery_tested waits row⟩
  · have row := State.automaticRequest_appended (r := r) absent (decide_eq_false (p := 0 < s.timing.holdLimit) (by omega)) room unserved
    rw [State.readJob_unserved unserved] at row
    exact State.sendToRecovery_tested waits row
  · have row := State.automaticRequest_new (r := r) (urgent := urgent) absent room
    rw [served, if_pos rfl] at row
    have closed := State.closeJob_eq .completed (s.readJob a r urgent) s
    have keeps : s.keepsRecord (s.readJob a r urgent) = s.canReserve := rfl
    rw [keeps] at closed
    have record : (s.readJob a r urgent).record .completed =
        ⟨s.pack.epoch, a.track, .automatic, .completed, 0, 0, 0, false, [⟨a.sector, .alreadyHeld, 0⟩]⟩ := by
      simp [State.readJob, newJob, served, Job.record]
    rw [record] at closed
    refine ⟨s.closeJob .completed (s.readJob a r urgent), State.sendToRecovery_taken waits row ?_ ?_ ?_, ?_, ?_, ?_, ?_,
      .of_eq (State.closeJob_jobs _ _ s), fun place => ?_, fun full => ?_⟩
    all_goals rw [closed]
    · exact if_pos place
    · rw [full]
      exact ⟨rfl, hasEvent_withEvent_self _ _⟩
  · obtain ⟨banks, emptied, row⟩ := State.automaticRequest_active (s := s) (r := r) (urgent := urgent) active track
    exact ⟨banks, emptied, merges j track ▸ State.sendToRecovery_tested waits row⟩
  · obtain ⟨banks, emptied, row⟩ := State.automaticRequest_parked (s := s) (r := r) (urgent := urgent) away parked track
    exact ⟨banks, emptied, merges j track ▸ State.sendToRecovery_tested waits row⟩
  · obtain ⟨queue, entered, row⟩ := State.automaticRequest_moves (r := r) unplaced queued track (decide_eq_true held) calm
    exact ⟨queue, merges j track ▸ entered, State.sendToRecovery_tested waits row⟩
  · have row := State.automaticRequest_rests (r := r) (urgent := urgent) unplaced queued track
      (rests.imp_left fun zero => decide_eq_false (by omega))
    exact merges j track ▸ State.sendToRecovery_tested waits row

end Sys2Proof.Machine
end

