-- ==== Sys2Proof/Proofs/Captures.lean ====
section
/-! The capture of a track into a buffer (R72, R73, R76, R84). -/

namespace Sys2Proof.Machine

variable {s : State} {t : Track} {n want : Nat} {signal : SectorSignal} {g : Grant} {buffer : Option Nat} {decoded : List Nat}
  {o : PassOutcome}

theorem State.awaitsCapture_iff (s : State) (a : Addr) :
    s.awaitsCapture a = true ↔ ∃ r interpose, s.port.outstanding = some ⟨.read a r interpose, .capturing⟩ := by
  unfold State.awaitsCapture
  cases s.port.outstanding with
  | none => simp
  | some q =>
    obtain ⟨work, stage⟩ := q
    cases work <;> simp [and_comm]

/-- The buffers after a decoded sector (R72): a GOOD one is stored in the capture's buffer. -/
def State.capturedSlots (buffer : Option Nat) (n : Nat) (o : PassOutcome) (s : State) : List TrackBuffer :=
  match buffer with
  | some i =>
      if o.kind = .good then
        s.buffers.slots.set i { s.buffer i with good := tablePut n (o.answerData s.geom.words) (s.buffer i).good }
      else s.buffers.slots
  | none => s.buffers.slots

/-- The state with a decoded sector taken, before the READ that waits on it. -/
def State.sectorCaptured (g : Grant) (t : Track) (want : Nat) (buffer : Option Nat) (decoded : List Nat) (n : Nat) (o : PassOutcome)
    (s : State) : State :=
  { s with
    drive := { s.drive with grant := some { g with work := .capture t want buffer (insertSector n decoded) } }
    buffers := { s.buffers with slots := s.capturedSlots buffer n o } }

theorem State.storeCaptured_eq (buffer : Option Nat) (n : Nat) (o : PassOutcome) (s : State) :
    s.storeCaptured buffer n o = { s with buffers := { s.buffers with slots := s.capturedSlots buffer n o } } := by
  unfold State.storeCaptured State.capturedSlots
  cases buffer with
  | none => rfl
  | some i =>
    dsimp only
    split <;> rfl

theorem State.capturedSlots_failed (failed : o.kind ≠ .good) : s.capturedSlots buffer n o = s.buffers.slots := by
  unfold State.capturedSlots
  cases buffer with
  | none => rfl
  | some i => exact if_neg failed

theorem State.captureDecoded_other (elsewhere : o.otherCylinder t.cyl = true)
    (tried : n = want ∨ s.awaitsCapture (t.at n) = true) :
    s.captureDecoded g t want buffer decoded n o = s.positioningFailure g o.header (o.field s.geom.words) :=
  if_pos (by simp [elsewhere, tried])

theorem State.captureDecoded_taken (goes : ¬ ((n = want ∨ s.awaitsCapture (t.at n) = true) ∧ o.otherCylinder t.cyl = true)) :
    s.captureDecoded g t want buffer decoded n o =
      if s.awaitsCapture (t.at n) then (s.sectorCaptured g t want buffer decoded n o).finishRead o
      else s.sectorCaptured g t want buffer decoded n o := by
  unfold State.captureDecoded
  rw [State.storeCaptured_eq]
  exact if_neg (by simpa using goes)

/-- A sector that was not decoded gives zero words (R10). -/
theorem answerData_nothing (w : Nat) : PassOutcome.nothing.answerData w = List.replicate w 0 := by
  show (fitWords (w + 1) []).take w = _
  rw [fitWords_nil, List.take_replicate, Nat.min_eq_left (Nat.le_succ w)]

section row
variable (busy : s.drive.activity = .reading) (running : s.drive.grant = some g) (work : g.work = .capture t want buffer decoded)
include busy running work

theorem exec_captureSectorDecoded : exec (.captureSectorDecoded n signal) s = .next
    (if n < s.geom.sectors && !decoded.contains n then
      s.captureDecoded g t want buffer decoded n (passOutcome g.threshold s.geom.words (t.at n) signal) else s) := by
  have grant : s.grantIn .reading = some g := (if_pos busy).trans running
  change execCaptureSectorDecoded n signal s = _
  unfold execCaptureSectorDecoded
  rw [grant]
  dsimp only
  rw [work]

theorem exec_captureSectorDecoded_new (fresh : n ∉ decoded) (within : n < s.geom.sectors) :
    exec (.captureSectorDecoded n signal) s =
      .next (s.captureDecoded g t want buffer decoded n (passOutcome g.threshold s.geom.words (t.at n) signal)) := by
  rw [exec_captureSectorDecoded busy running work]
  exact congrArg _ (if_pos (by simp [fresh, within]))

theorem exec_captureEnd : exec .captureEnd s =
    .next (if s.stage = some .capturing then s.endGrant.finishRead PassOutcome.nothing else s.endGrant) := by
  have grant : s.grantIn .reading = some g := (if_pos busy).trans running
  change execCaptureEnd s = _
  unfold execCaptureEnd
  rw [grant]
  dsimp only
  rw [work]

end row

theorem State.readTaken_frame (s : State) (a : Addr) (r : Region) (data : List Word) (v : State) :
    s.readTaken a r data v = { v with
      port := (s.readTaken a r data v).port, completions := (s.readTaken a r data v).completions } := by
  unfold State.readTaken
  split <;> rfl

theorem liveJobs_subset_jobs (e : Engine) : e.liveJobs ⊆ e.jobs := by
  intro j mem
  simp only [Engine.liveJobs, Engine.jobs, Engine.placed, List.mem_append] at mem ⊢
  tauto

/-- A failed READ whose track has no job: its new job, and its hold or its answer (R13, R17, R120). -/
theorem State.sendToRecovery_fresh {a : Addr} {r : Region} {data : List Word} {stage : Stage}
    (waits : s.port.outstanding = some ⟨.read a r true, stage⟩) (absent : ∀ x ∈ s.engine.liveJobs, x.track ≠ a.track)
    (room : s.engine.length < 16) (unserved : s.servingAt a = false) :
    let v := s.sendToRecovery a r data
    { v.drive with recoveryRequest := s.drive.recoveryRequest } = s.drive ∧ v.buffers = s.buffers ∧ v.map = s.map ∧
      (∃ j ∈ v.engine.jobs, j.track = a.track ∧ j.pending = [a.sector] ∧ j.origin = .automatic ∧ j.ladder = r.ladder ∧
        j.keepBest = r.keepBest ∧ j.urgent = decide (0 < s.timing.holdLimit)) ∧
      (0 < s.timing.holdLimit → v.completions = s.completions ∧ v.port.outstanding = some ⟨.read a r true, .held⟩ ∧
        v.port.hold = some ⟨.read data, a, s.now + 100 * s.timing.holdLimit⟩) ∧
      (s.timing.holdLimit = 0 → v.completions = s.completions ++ [.status .dataCheck data] ∧ v.port.outstanding = none ∧
        v.port.hold = none) := by
  intro v
  obtain ⟨e, made, sent⟩ := State.sendToRecovery_new (data := data) waits absent room unserved
  rw [State.readJob_unserved unserved] at made
  have sent : v = _ := sent
  have jobs := State.poke_liveJobs ({ s with engine := e } : State)
  have tested := State.poke_frame ({ s with engine := e } : State)
  generalize ({ s with engine := e } : State).poke = w at sent jobs tested
  have frame := State.readTaken_frame s a r data w
  rw [sent]
  have mem : ∀ j ∈ e.liveJobs, j ∈ (s.readTaken a r data w).engine.jobs := by
    intro j live
    rw [frame]
    exact liveJobs_subset_jobs w.engine (jobs ▸ live)
  refine ⟨?_, ?_, ?_, ⟨_, mem _ made, rfl, rfl, rfl, rfl, rfl, rfl⟩, fun held => ?_, fun zero => ?_⟩
  · rw [frame, tested]
  · rw [frame, tested]
  · rw [frame, tested]
  · unfold State.readTaken
    rw [if_pos held, tested]
    exact ⟨rfl, rfl, rfl⟩
  · unfold State.readTaken
    rw [if_neg (by omega), tested]
    exact ⟨rfl, rfl, rfl⟩

/-- Settles O26, by what the sector's window gives and by the READ that waits. -/
theorem captureFillsBuffer : Obligations.CaptureFillsBuffer := by
  unfold Obligations.CaptureFillsBuffer
  intro s n signal g t want buffer decoded busy running work o stored u
  have captured : s.sectorCaptured g t want buffer decoded n o = u := rfl
  have row : n ∉ decoded → n < s.geom.sectors → exec (.captureSectorDecoded n signal) s =
      .next (s.captureDecoded g t want buffer decoded n o) := exec_captureSectorDecoded_new busy running work
  have here : o.kind ≠ .wrongAddress → o.otherCylinder t.cyl = false := fun kind =>
    Bool.eq_false_iff.mpr fun elsewhere => kind ((PassOutcome.otherCylinder_iff o t.cyl).mp elsewhere).1
  have finishes : n ∉ decoded → n < s.geom.sectors → o.otherCylinder t.cyl = false → s.awaitsCapture (t.at n) = true →
      exec (.captureSectorDecoded n signal) s = .next (u.finishRead o) := by
    intro fresh within same awaits
    rw [row fresh within, State.captureDecoded_taken (fun ⟨_, other⟩ => by rw [same] at other; cases other), awaits, captured]
    rfl
  have goesOn : n ∉ decoded → n < s.geom.sectors → n ≠ want ∨ o.otherCylinder t.cyl = false → s.awaitsCapture (t.at n) = false →
      exec (.captureSectorDecoded n signal) s = .next u := by
    intro fresh within same silent
    rw [row fresh within, State.captureDecoded_taken, silent, captured]
    · rfl
    · rw [silent]
      rintro ⟨tried | no, other⟩
      · rcases same with away | same
        · exact away tried
        · rw [same] at other
          cases other
      · cases no
  refine ⟨fun past => ?_, fun fresh within good => ⟨fun awaits => ?_, fun silent => goesOn fresh within (.inr (here ?_)) silent⟩,
    goesOn, fun fresh within elsewhere tried => ?_, fun r interpose fresh within same waits => ?_, fun quiet => ?_,
    fun a r interpose waits denied => ?_, fun a r waits policy steady serves => ?_⟩
  · rw [exec_captureSectorDecoded busy running work]
    exact congrArg _ (if_neg (by simpa [imp_iff_or_not, or_comm] using past))
  · obtain ⟨r, interpose, waits⟩ := (s.awaitsCapture_iff _).mp awaits
    rw [finishes fresh within (here (by simp [good])) awaits]
    exact congrArg _ (State.finishRead_good (s := u) waits good)
  · simp [good]
  · rw [row fresh within, State.captureDecoded_other elsewhere tried]
    refine ⟨fun unused => ?_, fun used => ?_⟩
    · rw [State.positioningFailure_first _ _ unused, work]
      rfl
    · rw [State.positioningFailure_second _ _ used]
      unfold State.positioningLost
      rw [work]
      rfl
  · intro data
    have awaits := (s.awaitsCapture_iff _).mpr ⟨r, interpose, waits⟩
    rw [finishes fresh within same awaits]
    refine ⟨fun wrong => congrArg _ (State.finishRead_wrongAddress (s := u) waits wrong), fun denied => ?_,
      fun is policy steady serves failed => ?_⟩
    · have no : u.mayRecover r interpose = false := State.mayRecover_false denied
      exact ⟨fun failed => congrArg _ (State.finishRead_dataCheck waits no failed),
        fun failed => congrArg _ (State.finishRead_headerCheck waits no failed)⟩
    subst is
    have recovers : u.finishRead o = u.sendToRecovery (t.at n) r data :=
      State.finishRead_recovers waits (State.mayRecover_true (s := u) policy steady serves) failed
    rw [recovers]
    have live : (∀ j ∈ s.engine.jobs, j.track ≠ t) → ∀ j ∈ u.engine.liveJobs, j.track ≠ (t.at n).track := by
      exact fun absent j mem => absent j (liveJobs_subset_jobs s.engine mem)
    refine ⟨rfl, fun absent full => congrArg _ (State.sendToRecovery_refused (State.automaticRequest_full (live absent) full)),
      fun absent room unserved => ?_⟩
    have same : u.buffers = s.buffers := congrArg (fun l => ({ s.buffers with slots := l } : Buffers))
      (State.capturedSlots_failed (by rcases failed with h | h | h <;> simp [h]))
    obtain ⟨drive, buffers, map, job, held, answered⟩ :=
      State.sendToRecovery_fresh (s := u) (data := data) waits (live absent) room unserved
    exact ⟨_, rfl, (congrArg Drive.grant drive :), (congrArg Drive.activity drive :).trans busy,
       buffers.trans same, map, job, held, answered⟩
  · rw [exec_captureEnd busy running work, if_neg quiet]
    rfl
  · have stage : s.stage = some .capturing := congrArg (Option.map Outstanding.stage) waits
    rw [exec_captureEnd busy running work, if_pos stage, ← answerData_nothing]
    exact congrArg _ (State.finishRead_dataCheck (s := s.endGrant) waits (State.mayRecover_false denied) (.inr rfl))
  · have stage : s.stage = some .capturing := congrArg (Option.map Outstanding.stage) waits
    rw [exec_captureEnd busy running work, if_pos stage, ← answerData_nothing]
    exact congrArg _ (State.finishRead_recovers (s := s.endGrant) waits (State.mayRecover_true policy steady serves) (.inr (.inl rfl)))

end Sys2Proof.Machine
end

