-- ==== Sys2Proof/Proofs/FormatRequests.lean ====
section
/-! A FORMAT data request (R15, R37, R47). -/

namespace Sys2Proof.Machine

variable {s : State} {t : Track}

/-- The pending set that a FORMAT supersedes is that of its track's job (R47). -/
theorem Engine.pendingOf_job {e : Engine} {records : Nat} {unloading : Prop} (wf : e.WellQueued records unloading) {j : Job}
    (live : j ∈ e.liveJobs) (track : j.track = t) : e.pendingOf t = j.pending := by
  unfold Engine.pendingOf
  cases stands : e.place t with
  | active k =>
    obtain ⟨active, same⟩ := Engine.place_active stands
    rw [wf.one_of_track live (by simp [Engine.liveJobs, active]) (track.trans same.symm)]
  | parked k =>
    obtain ⟨parked, same⟩ := Engine.place_parked stands
    rw [wf.one_of_track live (by simp [Engine.liveJobs, parked]) (track.trans same.symm)]
  | queued before k after =>
    obtain ⟨queued, same, -⟩ := Engine.place_queued stands
    rw [wf.one_of_track live (by simp [Engine.liveJobs, queued]) (track.trans same.symm)]
  | absent => exact absurd track (Engine.place_absent stands j live)

/-- A superseded sector is no longer pending, and no other joins. -/
theorem State.supersede_pending (wf : s.WellQueued) {n : Nat} {ns : List Nat}
    (within : ∀ j ∈ s.engine.liveJobs, j.track = t → j.pending ⊆ n :: ns) :
    ∀ j ∈ (s.supersede (t.at n)).engine.liveJobs, j.track = t → j.pending ⊆ ns := by
  have narrows : ∀ l : List Nat, l ⊆ n :: ns → n ∉ l → l ⊆ ns := fun l sub gone m hm =>
    (List.mem_cons.mp (sub hm)).resolve_left fun same => gone (same ▸ hm)
  intro j live track
  rcases State.supersede_cases wf (t.at n) with ⟨same, absent⟩ | ⟨before, k, after, split, here, pending, loses⟩
  · rw [same] at live
    exact narrows _ (within j live track) (absent j live track)
  · have apart : ∀ i ∈ before ++ after, i.track ≠ t := fun i hi same => wf.others_apart split i hi (same.trans here.symm)
    cases loses with
    | stays _ live' _ _ =>
      rw [live'] at live
      have self : j = k.decide n .superseded := by
        by_contra other
        have other : j ≠ k.decide (t.at n).sector .superseded := other
        exact apart j (by simpa [other] using live) track
      rw [self]
      refine narrows _ (fun m hm => ?_) (by simp [Job.decide])
      exact within k (by simp [split]) here (List.mem_of_mem_filter hm)
    | ends _ _ live' _ _ => exact absurd track (apart j (live' ▸ live))

theorem State.supersedeAll_pending (ns : List Nat) (wf : s.WellQueued)
    (within : ∀ j ∈ s.engine.liveJobs, j.track = t → j.pending ⊆ ns) :
    ∀ j ∈ (ns.foldl (fun s n => s.supersede (t.at n)) s).engine.liveJobs, j.track = t → j.pending = [] := by
  induction ns generalizing s with
  | nil => exact fun j live track => List.subset_nil.mp (within j live track)
  | cons n ns ih => exact ih ((s.supersede_acts _).keeps_queues wf) (State.supersede_pending wf within)

/-- The collections without a track, before the sectors of its job are superseded (R47). -/
def State.trackDropped (t : Track) (s : State) : State :=
  ((s.removeTrackEntries t).dropPosts (fun b => b.track == t)).emptyTrackBuffer t

theorem State.formatEffects_frame (t : Track) (s : State) : (s.trackDropped t).EngineOnly (s.formatEffects t) :=
  State.supersedeAll_engineOnly t _ _

/-- After a FORMAT's effects no job of its track has a sector pending. -/
theorem State.formatEffects_pending (wf : s.WellQueued) (loaded : s.pack.state ≠ .unloading) :
    ∀ j ∈ (s.formatEffects t).engine.jobs, j.track = t → j.pending = [] := by
  have unending : (s.formatEffects t).engine.ending = none :=
    EngineActs.none_ending (s := s.trackDropped t) (State.supersedeAll_acts t _ _) (wf.none_ending loaded) loaded
  have live := State.supersedeAll_pending (s := s.trackDropped t) (t := t) (s.engine.pendingOf t) wf
    fun j live track => (Engine.pendingOf_job wf live track) ▸ List.Subset.refl _
  intro j mem
  refine live j (show j ∈ (s.formatEffects t).engine.liveJobs from ?_)
  simpa [Engine.jobs, Engine.placed, Engine.liveJobs, unending] using mem

theorem exec_format_served {head : Nat} {permit : Bool} (within : head < s.geom.heads) (serves : packServes s.pack.state = true) :
    let u := (s.setPermit permit).afterDataRequest head
    let track : Track := ⟨s.port.virtCyl, head⟩
    exec (.format head permit) s = .next
      (if u.acceptsFormat track then (u.disarmed.formatEffects track).requestPortWork (.format track) (.format track .awaitIndex)
       else u.disarmed.answer .writeProtected []) := by
  intro u track
  show Host.Outcome.next ((s.setPermit permit).takeFormat head) = _
  rw [State.takeFormat_eq]
  refine congrArg _ ((if_neg (Nat.not_le.mpr within)).trans ?_)
  have served : ¬ (!packServes u.pack.state) = true := by
    rw [show packServes u.pack.state = true from serves]
    simp
  exact if_neg served

/-- Settles O9, by the three consents. -/
theorem formatDataRequest : Obligations.FormatDataRequest := by
  unfold Obligations.FormatDataRequest
  intro s head permit sound within serves track u accepted
  have accepts : u.acceptsFormat track = true ↔ accepted := State.acceptsFormat_iff track u
  have row := exec_format_served (permit := permit) within serves
  have taken : exec (.format head permit) s = .next
      (if u.acceptsFormat track then (u.disarmed.formatEffects track).requestPortWork (.format track) (.format track .awaitIndex)
       else u.disarmed.answer .writeProtected []) := row
  rw [taken]
  refine ⟨fun refused => congrArg _ (if_neg (accepts.not.mpr refused)), fun agreed => ?_⟩
  rw [if_pos (accepts.mpr agreed)]
  simp only [State.sound, Bool.and_eq_true] at sound
  obtain ⟨⟨⟨⟨⟨-, queues⟩, -⟩, -⟩, -⟩, -⟩ := sound
  have wf : u.disarmed.WellQueued := (State.queuesWf_iff s).mp queues
  have pending := State.formatEffects_pending (t := track) wf (serves_loaded serves)
  have frame := State.formatEffects_frame track u.disarmed
  generalize u.disarmed.formatEffects track = v at pending frame
  unfold State.EngineOnly at frame
  have cond : v.drive.cond = s.drive.cond := by
    rw [frame]
    rfl
  by_cases ready : s.drive.cond = .ready
  · rw [State.requestPortWork_taken _ _ v (by rw [frame]; exact serves) (cond.trans ready)]
    refine ⟨_, rfl, ?_, ?_, ?_, ?_, ?_, ?_, pending, fun _ => ⟨rfl, ?_, ?_⟩, fun no => absurd ready no, ?_, ?_, ?_, ?_⟩
    all_goals rw [frame]; rfl
  · rw [State.requestPortWork_handedBack _ _ v (cond ▸ ready)]
    refine ⟨_, rfl, ?_, ?_, ?_, ?_, ?_, ?_, pending, fun yes => absurd yes ready, fun _ => ⟨?_, ?_⟩, ?_, ?_, ?_, ?_⟩
    all_goals rw [frame]; rfl

end Sys2Proof.Machine
end

