-- ==== Sys2Proof/Proofs/CandidateSearch.lean ====
section
/-! The fold of a read, the positions taken, and the search for a correction (R140, R142 to R147). -/

namespace Sys2Proof.Machine

/-! ## The fold (R140) -/

theorem foldBit_eq (v : BitVote) (b : Bool) (q : Quality) :
    foldBit v (b, q) = ⟨max (-127) (min 127 (v.score + (if b then 1 else -1) * q.weight)), if q = .erased then v.last else some b⟩ := by
  unfold foldBit clampInt
  refine congrArg (fun n => (⟨n, if q = .erased then v.last else some b⟩ : BitVote)) ?_
  cases b <;> cases q <;> simp only [Quality.weight, if_true, if_false, Bool.false_eq_true] <;> omega

/-- Each position of the read is folded into its vote, an empty one where none is listed. -/
theorem foldBits_get (vs : List BitVote) (bits : List (Bool × Quality)) (i : Nat) (p : Bool × Quality) (read : bits[i]? = some p) :
    (foldBits vs bits)[i]? = some (foldBit (vs.getD i BitVote.empty) p) := by
  induction bits generalizing vs i with
  | nil => simp at read
  | cons b bits ih =>
    cases vs with
    | nil =>
      cases i with
      | zero => simp only [List.getElem?_cons_zero, Option.some.injEq] at read; subst read; rfl
      | succ i => simpa [foldBits] using ih [] i (by simpa using read)
    | cons v vs =>
      cases i with
      | zero => simp only [List.getElem?_cons_zero, Option.some.injEq] at read; subst read; rfl
      | succ i => simpa [foldBits] using ih vs i (by simpa using read)

theorem foldBits_length (vs : List BitVote) (bits : List (Bool × Quality)) (fits : vs.length ≤ bits.length) :
    (foldBits vs bits).length = bits.length := by
  induction bits generalizing vs with
  | nil =>
    rw [foldBits]
    simpa using fits
  | cons b bits ih =>
    cases vs with
    | nil => simpa [foldBits] using ih [] (Nat.zero_le _)
    | cons v vs => simpa [foldBits] using ih vs (by simpa using fits)

/-! ## The positions taken (R145) -/

/-- The order of R145 on pairs (confidence, index). -/
def earlier (p q : Nat × Nat) : Prop := p.1 < q.1 ∨ (p.1 = q.1 ∧ p.2 < q.2)

theorem earlier_irrefl (p : Nat × Nat) : ¬ earlier p p := by
  unfold earlier
  omega

theorem earlier_asymm {p q : Nat × Nat} (h : earlier p q) : ¬ earlier q p := by
  unfold earlier at *
  omega

theorem earlier_trans {p q r : Nat × Nat} (h : earlier p q) (h' : earlier q r) : earlier p r := by
  unfold earlier at *
  omega

/-- The first `limit` of a set of positions in the order of R145. -/
structure FirstOf (limit : Nat) (among : Nat × Nat → Prop) (taken : List (Nat × Nat)) : Prop where
  sorted : taken.Pairwise earlier
  chosen : ∀ p ∈ taken, among p
  room : taken.length ≤ limit
  first : ∀ k, among k → k ∉ taken → taken.length = limit ∧ ∀ p ∈ taken, earlier p k

theorem FirstOf.nodup {limit : Nat} {among : Nat × Nat → Prop} {l : List (Nat × Nat)} (h : FirstOf limit among l) : l.Nodup :=
  h.sorted.imp fun {p q} (before : earlier p q) (same : p = q) => earlier_irrefl q (same ▸ before)

theorem FirstOf.subset {limit : Nat} {among : Nat × Nat → Prop} {l m : List (Nat × Nat)} (hl : FirstOf limit among l)
    (hm : FirstOf limit among m) : l ⊆ m := by
  intro p mem
  by_contra out
  obtain ⟨full, before⟩ := hm.first p (hl.chosen p mem) out
  by_cases within : ∀ q ∈ m, q ∈ l
  · have longer : (p :: m).length ≤ l.length :=
      (List.subperm_of_subset (List.nodup_cons.mpr ⟨out, hm.nodup⟩) (List.cons_subset.mpr ⟨mem, within⟩)).length_le
    have room := hl.room
    rw [List.length_cons] at longer
    omega
  · push Not at within
    obtain ⟨q, hq, absent⟩ := within
    exact earlier_asymm (before q hq) ((hl.first q (hm.chosen q hq) absent).2 p mem)

/-- The first positions of a set are determined. -/
theorem FirstOf.unique {limit : Nat} {among : Nat × Nat → Prop} {l m : List (Nat × Nat)} (hl : FirstOf limit among l)
    (hm : FirstOf limit among m) : l = m :=
  List.Perm.eq_of_pairwise (fun _ _ _ _ h h' => absurd h' (earlier_asymm h)) hl.sorted hm.sorted
    ((List.perm_ext_iff_of_nodup hl.nodup hm.nodup).mpr fun _ => ⟨fun h => hl.subset hm h, fun h => hm.subset hl h⟩)

theorem insertPosition_perm (p : Nat × Nat) (l : List (Nat × Nat)) : (insertPosition p l).Perm (p :: l) := by
  induction l with
  | nil => exact .refl _
  | cons q l ih =>
    unfold insertPosition
    split
    · exact .refl _
    · exact (ih.cons q).trans (.swap p q l)

theorem insertPosition_sorted {p : Nat × Nat} {l : List (Nat × Nat)} (sorted : l.Pairwise earlier) (last : ∀ q ∈ l, q.2 < p.2) :
    (insertPosition p l).Pairwise earlier := by
  induction l with
  | nil => exact List.pairwise_singleton _ _
  | cons q l ih =>
    obtain ⟨first, rest⟩ := List.pairwise_cons.mp sorted
    unfold insertPosition
    split
    next less =>
      refine List.pairwise_cons.mpr ⟨fun r hr => ?_, sorted⟩
      rcases List.mem_cons.mp hr with rfl | hr
      · exact .inl less
      · exact earlier_trans (.inl less) (first r hr)
    next more =>
      refine List.pairwise_cons.mpr ⟨fun r hr => ?_, ih rest fun r hr => last r (List.mem_cons_of_mem _ hr)⟩
      rcases List.mem_cons.mp ((insertPosition_perm p l).subset hr) with rfl | hr
      · have := last q List.mem_cons_self
        unfold earlier
        omega
      · exact first r hr

/-- One more position, behind all others in index, comes to the set. -/
theorem FirstOf.insert {limit : Nat} {among : Nat × Nat → Prop} {l : List (Nat × Nat)} (h : FirstOf limit among l) {p : Nat × Nat}
    (last : ∀ q, among q → q.2 < p.2) : FirstOf limit (fun q => among q ∨ q = p) ((insertPosition p l).take limit) := by
  have perm := insertPosition_perm p l
  have sorted := insertPosition_sorted h.sorted fun q hq => last q (h.chosen q hq)
  have count := perm.length_eq
  generalize insertPosition p l = m at perm sorted count
  rw [List.length_cons] at count
  have split : (m.take limit ++ m.drop limit).Pairwise earlier := by rwa [List.take_append_drop]
  obtain ⟨-, -, cross⟩ := List.pairwise_append.mp split
  refine ⟨sorted.sublist (List.take_sublist _ _), fun q hq => ?_, ?_, fun k mem out => ?_⟩
  · rcases List.mem_cons.mp (perm.subset (List.mem_of_mem_take hq)) with same | old
    · exact .inr same
    · exact .inl (h.chosen q old)
  · rw [List.length_take]
    omega
  · rw [List.length_take]
    by_cases kept : k ∈ m
    · have dropped : k ∈ m.drop limit := by
        rw [← List.take_append_drop limit m] at kept
        exact (List.mem_append.mp kept).resolve_left out
      have more := List.length_pos_of_mem dropped
      rw [List.length_drop] at more
      exact ⟨by omega, fun q hq => cross q hq k dropped⟩
    · have absent : k ∉ p :: l := fun hk => kept (perm.symm.subset hk)
      have old : among k := mem.resolve_right fun same => absent (same ▸ List.mem_cons_self)
      obtain ⟨full, before⟩ := h.first k old fun hk => absent (List.mem_cons_of_mem _ hk)
      refine ⟨by omega, fun q hq => ?_⟩
      have tail : (m.drop limit).length = 1 := by
        rw [List.length_drop]
        omega
      obtain ⟨d, single⟩ := List.length_eq_one_iff.mp tail
      rcases List.mem_cons.mp (perm.subset (List.mem_of_mem_take hq)) with same | hq'
      · have behind : earlier q d := cross q hq d (by simp [single])
        have other : d ∈ p :: l := perm.subset (List.mem_of_mem_drop (by simp [single] : d ∈ m.drop limit))
        rcases List.mem_cons.mp other with same' | hd
        · exact absurd behind (by rw [same, same']; exact earlier_irrefl p)
        · exact earlier_trans behind (before d hd)
      · exact before q hq'

/-- The eligible positions of a list of votes, as pairs (confidence, index) (R145). -/
def Eligible (ceiling : Nat) (votes : List BitVote) (p : Nat × Nat) : Prop :=
  ∃ v, votes[p.2]? = some v ∧ p.1 = v.confidence ∧ v.confidence ≤ ceiling

theorem eligible_iff (ceiling : Nat) (votes : List BitVote) (p : Nat × Nat) :
    Eligible ceiling votes p ↔
      p.2 < votes.length ∧ p.1 = (votes.getD p.2 ⟨0, none⟩).score.natAbs ∧ p.1 ≤ ceiling := by
  obtain ⟨c, i⟩ := p
  unfold Eligible
  dsimp only
  by_cases within : i < votes.length
  · simp only [List.getElem?_eq_getElem within, Option.some.injEq, List.getD_eq_getElem _ _ within, exists_eq_left',
      BitVote.confidence, within, true_and]
    exact and_congr_right fun score => by rw [score]
  · simp [within]

theorem Eligible.index {ceiling : Nat} {votes : List BitVote} {p : Nat × Nat} (h : Eligible ceiling votes p) :
    p.2 < votes.length := by
  obtain ⟨v, read, -⟩ := h
  exact (List.getElem?_eq_some_iff.mp read).1

theorem eligible_snoc (ceiling : Nat) (votes : List BitVote) (v : BitVote) (p : Nat × Nat) :
    Eligible ceiling (votes ++ [v]) p ↔ Eligible ceiling votes p ∨ (p = (v.confidence, votes.length) ∧ v.confidence ≤ ceiling) := by
  obtain ⟨c, i⟩ := p
  rcases Nat.lt_trichotomy i votes.length with within | last | beyond
  · simp [Eligible, List.getElem?_append_left within, within.ne]
  · simp [Eligible, last, Prod.ext_iff]
  · have none : (votes ++ [v])[i]? = none := by simp; omega
    simp [Eligible, none, beyond.ne', List.getElem?_eq_none beyond.le]

theorem FirstOf.congr {limit : Nat} {among among' : Nat × Nat → Prop} {l : List (Nat × Nat)} (h : FirstOf limit among l)
    (same : ∀ p, among p ↔ among' p) : FirstOf limit among' l where
  sorted := h.sorted
  chosen p hp := (same p).mp (h.chosen p hp)
  room := h.room
  first k hk := h.first k ((same k).mpr hk)

theorem takePositions_first {limit ceiling : Nat} (vs votes : List BitVote) (taken : List (Nat × Nat))
    (h : FirstOf limit (Eligible ceiling votes) taken) :
    FirstOf limit (Eligible ceiling (votes ++ vs)) (takePositions limit ceiling votes.length vs taken) := by
  induction vs generalizing votes taken with
  | nil => simpa [takePositions] using h
  | cons v vs ih =>
    have next := ih (votes ++ [v]) (if v.confidence ≤ ceiling then (insertPosition (v.confidence, votes.length) taken).take limit
      else taken) ?_
    · rwa [List.append_assoc, List.length_append] at next
    split
    next low =>
      refine (h.insert fun q hq => hq.index).congr fun q => ?_
      rw [eligible_snoc, and_iff_left low]
    next high =>
      refine h.congr fun q => ?_
      rw [eligible_snoc]
      exact ⟨.inl, fun either => either.resolve_right fun last => high last.2⟩

/-- The positions taken are the first eligible ones (R145). -/
theorem takePositions_eq {limit ceiling : Nat} {votes : List BitVote} {taken : List (Nat × Nat)}
    (h : FirstOf limit (Eligible ceiling votes) taken) : takePositions limit ceiling 0 votes [] = taken :=
  (takePositions_first votes [] [] ⟨.nil, nofun, Nat.zero_le _, fun k ⟨v, read, _⟩ => by simp at read⟩).unique h


/-! ## The candidate and its corrections (R142, R143, R146) -/

theorem bitsPass_iff (w : Nat) (bits : List Bool) :
    bitsPass w bits = true ↔ crc ((bitsToWords (w + 1) bits).take w) = (bitsToWords (w + 1) bits).getD w 0 := by
  unfold bitsPass dataPasses
  rw [beq_iff_eq]

theorem subsets_eq (l : List Nat) : subsets l = l.sublists' := by
  induction l with
  | nil => rfl
  | cons p l ih => rw [subsets, List.sublists'_cons, ih]

/-- A subset of the positions taken, not empty, whose inversion makes the candidate pass. -/
def Passing (w : Nat) (acc : Accumulator) (taken ps : List Nat) : Prop :=
  ps.Sublist taken ∧ ps ≠ [] ∧ bitsPass w (invertAt ps 0 acc.candidateBits) = true

section search
variable {w limit ceiling : Nat} {acc : Accumulator} {positions : List (Nat × Nat)}
  (first : FirstOf limit (Eligible ceiling acc.votes) positions)
include first

theorem mem_passingSubsets {ps : List Nat} :
    ps ∈ passingSubsets w limit ceiling acc ↔ Passing w acc (positions.map (·.2)) ps := by
  unfold passingSubsets Passing
  rw [takePositions_eq first, subsets_eq, List.mem_filter, List.mem_filter, List.mem_sublists', and_assoc]
  simp

theorem positions_nodup : (positions.map (·.2)).Nodup := by
  refine List.Nodup.map_on (fun p hp q hq same => ?_) first.nodup
  obtain ⟨v, read, score, -⟩ := first.chosen p hp
  obtain ⟨v', read', score', -⟩ := first.chosen q hq
  rw [same, read'] at read
  cases read
  exact Prod.ext (score.trans score'.symm) same

theorem passingSubsets_nodup : (passingSubsets w limit ceiling acc).Nodup := by
  unfold passingSubsets
  rw [takePositions_eq first, subsets_eq]
  exact ((List.nodup_sublists'.mpr (positions_nodup first)).filter _).filter _

end search

section evaluation
variable {w limit ceiling : Nat} {acc : Accumulator}

theorem evaluate_few (few : acc.count < 2) : evaluate w limit ceiling acc = none := if_pos few

theorem evaluate_vote (enough : 2 ≤ acc.count) (passes : bitsPass w acc.candidateBits = true) :
    evaluate w limit ceiling acc = some (.vote acc.inferred, bitsToWords w acc.candidateBits) :=
  (if_neg (Nat.not_lt.mpr enough)).trans (if_pos passes)

/-- A candidate that fails: the search for one subset alone that passes. -/
theorem evaluate_search (enough : 2 ≤ acc.count) (fails : bitsPass w acc.candidateBits = false) :
    evaluate w limit ceiling acc = if limit = 0 then none else
      match passingSubsets w limit ceiling acc with
      | [ps] => some (.flip ps.length acc.inferred, bitsToWords w (invertAt ps 0 acc.candidateBits))
      | _ => none :=
  (if_neg (Nat.not_lt.mpr enough)).trans (if_neg (Bool.eq_false_iff.mp fails))

variable {positions : List (Nat × Nat)}

/-- With a flip limit of 0 no position is taken. -/
theorem passing_limit (first : FirstOf limit (Eligible ceiling acc.votes) positions) {ps : List Nat}
    (passing : Passing w acc (positions.map (·.2)) ps) : ps.length ≤ limit ∧ 1 ≤ ps.length := by
  obtain ⟨sub, some', -⟩ := passing
  have fewer := sub.length_le
  rw [List.length_map] at fewer
  exact ⟨fewer.trans first.room, List.length_pos_iff.mpr some'⟩

theorem evaluate_flip (enough : 2 ≤ acc.count) (fails : bitsPass w acc.candidateBits = false)
    (first : FirstOf limit (Eligible ceiling acc.votes) positions) {ps : List Nat}
    (passing : Passing w acc (positions.map (·.2)) ps) (alone : ∀ qs, Passing w acc (positions.map (·.2)) qs → qs = ps) :
    evaluate w limit ceiling acc = some (.flip ps.length acc.inferred, bitsToWords w (invertAt ps 0 acc.candidateBits)) := by
  obtain ⟨within, some'⟩ := passing_limit first passing
  have found : passingSubsets w limit ceiling acc = [ps] := by
    refine List.perm_singleton.mp ((List.perm_ext_iff_of_nodup (passingSubsets_nodup first) (List.nodup_singleton ps)).mpr
      fun qs => ?_)
    rw [mem_passingSubsets first, List.mem_singleton]
    exact ⟨alone qs, fun same => same ▸ passing⟩
  rw [evaluate_search enough fails, if_neg (by omega), found]

theorem evaluate_undecided (enough : 2 ≤ acc.count) (fails : bitsPass w acc.candidateBits = false)
    (first : FirstOf limit (Eligible ceiling acc.votes) positions)
    (notOne : ∀ ps, Passing w acc (positions.map (·.2)) ps → ∃ qs, Passing w acc (positions.map (·.2)) qs ∧ qs ≠ ps) :
    evaluate w limit ceiling acc = none := by
  rw [evaluate_search enough fails]
  split
  · rfl
  split
  next ps found =>
    have passing : Passing w acc (positions.map (·.2)) ps := (mem_passingSubsets first).mp (by simp [found])
    obtain ⟨qs, other, differs⟩ := notOne ps passing
    have member := (mem_passingSubsets first).mpr other
    rw [found, List.mem_singleton] at member
    exact absurd member differs
  · rfl

/-- What an answer of the evaluation says. -/
theorem evaluate_some {r : Resolution} {ws : List Word} (answer : evaluate w limit ceiling acc = some (r, ws)) :
    2 ≤ acc.count ∧
      ((bitsPass w acc.candidateBits = true ∧ r = .vote acc.inferred ∧ ws = bitsToWords w acc.candidateBits) ∨
        (bitsPass w acc.candidateBits = false ∧ ∃ ps ∈ passingSubsets w limit ceiling acc, r = .flip ps.length acc.inferred ∧
          ws = bitsToWords w (invertAt ps 0 acc.candidateBits))) := by
  have enough : 2 ≤ acc.count := by
    by_contra few
    rw [evaluate_few (Nat.not_le.mp few)] at answer
    cases answer
  refine ⟨enough, ?_⟩
  cases passes : bitsPass w acc.candidateBits with
  | true =>
    rw [evaluate_vote enough passes] at answer
    cases answer
    exact .inl ⟨rfl, rfl, rfl⟩
  | false =>
    rw [evaluate_search enough passes] at answer
    split at answer
    · cases answer
    split at answer
    next ps found =>
      cases answer
      exact .inr ⟨rfl, ps, by simp [found], rfl, rfl⟩
    · cases answer

end evaluation

theorem takePositions_isFirst (limit ceiling : Nat) (votes : List BitVote) :
    FirstOf limit (Eligible ceiling votes) (takePositions limit ceiling 0 votes []) :=
  takePositions_first votes [] [] ⟨.nil, nofun, Nat.zero_le _, fun k ⟨v, read, _⟩ => by simp at read⟩

/-- Settles O31: the fold and the candidate position by position, the search by the positions R145 takes. -/
theorem foldThenEvaluation : Obligations.FoldThenEvaluation := by
  unfold Obligations.FoldThenEvaluation
  refine ⟨fun acc bits inferred i b q read fits => ?_, fun acc w bits ps i => ?_, fun w limit ceiling acc r ws answer => ?_,
    fun w limit ceiling acc taken => ?_⟩
  · intro before t moved
    refine ⟨(foldBits_get acc.votes bits i (b, q) read).trans (congrArg some ?_), rfl, rfl, foldBits_length acc.votes bits fits⟩
    rw [foldBit_eq]
    cases q <;> rfl
  · refine ⟨rfl, rfl, bitsPass_iff w bits, ?_⟩
    rw [invertAt_get, Nat.zero_add]
  · obtain ⟨enough, ⟨passes, rfl, words⟩ | ⟨fails, ps, found, rfl, words⟩⟩ := evaluate_some answer
    · exact ⟨enough, nofun, fun h same => by cases same; exact ⟨rfl, words, passes⟩, nofun⟩
    · refine ⟨enough, nofun, nofun, fun k h same => ?_⟩
      cases same
      have first := takePositions_isFirst limit ceiling acc.votes
      have passing := (mem_passingSubsets first).mp found
      obtain ⟨within, some'⟩ := passing_limit first passing
      obtain ⟨sub, -, corrected⟩ := passing
      refine ⟨rfl, some', within, fails, ps, rfl, (positions_nodup first).sublist sub, fun i hi => ?_, corrected, words⟩
      obtain ⟨p, hp, rfl⟩ := List.mem_map.mp (sub.subset hi)
      obtain ⟨v, read, -, low⟩ := first.chosen p hp
      exact ⟨v, read, low⟩
  · intro confidence eligible before passing
    refine ⟨evaluate_few, evaluate_vote, fun enough fails room sorted eligibles complete => ?_⟩
    have pairs : ∀ i, eligible i ↔ Eligible ceiling acc.votes (confidence i, i) := fun i =>
      ((eligible_iff ceiling acc.votes (confidence i, i)).trans ⟨fun h => ⟨h.1, h.2.2⟩, fun h => ⟨h.1, rfl, h.2⟩⟩).symm
    have first : FirstOf limit (Eligible ceiling acc.votes) (taken.map fun i => (confidence i, i)) := by
      refine ⟨List.pairwise_map.mpr sorted, fun p hp => ?_, by rwa [List.length_map], fun p chosen out => ?_⟩
      · obtain ⟨i, hi, rfl⟩ := List.mem_map.mp hp
        exact (pairs i).mp (eligibles i hi)
      · obtain ⟨c, k⟩ := p
        obtain ⟨-, score, -⟩ := (eligible_iff ceiling acc.votes (c, k)).mp chosen
        obtain rfl : c = confidence k := score
        have left : k ∉ taken := fun hk => out (List.mem_map.mpr ⟨k, hk, rfl⟩)
        obtain ⟨full, ahead⟩ := complete k ((pairs k).mpr chosen) left
        refine ⟨(List.length_map _).trans full, fun q hq => ?_⟩
        obtain ⟨i, hi, rfl⟩ := List.mem_map.mp hq
        exact ahead i hi
    have same : (taken.map fun i => (confidence i, i)).map (·.2) = taken := by
      rw [List.map_map]
      exact List.map_id taken
    have passing_iff : ∀ ps, Passing w acc ((taken.map fun i => (confidence i, i)).map (·.2)) ps ↔ passing ps := by
      rw [same]
      exact fun _ => .rfl
    refine ⟨fun ps passes alone => evaluate_flip enough fails first ((passing_iff ps).mpr passes)
      fun qs other => alone qs ((passing_iff qs).mp other), fun notOne => evaluate_undecided enough fails first fun ps passes => ?_⟩
    have passes := (passing_iff ps).mp passes
    rcases notOne with none | ⟨qs, rs, hq, hr, differ⟩
    · exact absurd passes (none ps)
    · by_cases same : qs = ps
      · exact ⟨rs, (passing_iff rs).mpr hr, fun h => differ (same.trans h.symm)⟩
      · exact ⟨qs, (passing_iff qs).mpr hq, same⟩

end Sys2Proof.Machine
end

