-- ==== Sys2Proof/Proofs/JobEndingFrames.lean ====
section
/-! What the endings of jobs, the loss of a grant and the handing back of requests leave alone (R80, R98 to R100, R129, R133, R134). -/

namespace Sys2Proof.Machine

variable {s t u : State}

/-! ## Endings of jobs (R129, R133, R134) -/

/-- All that the endings of jobs may change; a window once closed stays so, and with nothing held nothing is answered. -/
structure State.EndsJobs (s t : State) : Prop where
  frame : t = { s with
    port := { s.port with outstanding := t.port.outstanding, hold := t.port.hold }
    completions := t.completions
    map := t.map
    events := t.events
    results := t.results
    engine := { s.engine with
      active := t.engine.active
      parked := t.engine.parked
      ending := t.engine.ending
      queued := t.engine.queued
      window := t.engine.window
      resultsFull := t.engine.resultsFull
      banks := t.engine.banks }
    drive := { s.drive with recoveryRequest := t.drive.recoveryRequest } }
  unheld : s.port.hold = none → t.port = s.port ∧ t.completions = s.completions
  events : ∀ e, e ≠ .storeFull → e ≠ .resultsFull → hasEvent e t.events = hasEvent e s.events
  window : s.engine.window = none → t.engine.window = none

theorem State.EndsJobs.refl (s : State) : s.EndsJobs s := ⟨rfl, fun _ => ⟨rfl, rfl⟩, fun _ _ _ => rfl, id⟩

theorem State.EndsJobs.trans (h : s.EndsJobs t) (h' : t.EndsJobs u) : s.EndsJobs u where
  frame := by
    have first := h.frame
    have second := h'.frame
    rw [first] at second
    exact second
  unheld none := by
    obtain ⟨port, said⟩ := h.unheld none
    obtain ⟨port', said'⟩ := h'.unheld (port ▸ none)
    exact ⟨port'.trans port, said'.trans said⟩
  events e store full := (h'.events e store full).trans (h.events e store full)
  window closed := h'.window (h.window closed)

/-- An event other than the one set stands as it stood. -/
theorem hasEvent_withEvent_other {e f : Event} (other : e ≠ f) (events : BitVec 10) :
    hasEvent e (withEvent f events) = hasEvent e events := by
  have apart : e.bit ≠ f.bit := by
    revert other
    cases e <;> cases f <;> simp [Event.bit]
  rw [hasEvent, withEvent, BitVec.getLsbD_or, BitVec.getLsbD_ofNat, Nat.testBit_two_pow_of_ne apart.symm, Bool.and_false,
    Bool.or_false]
  rfl

theorem State.withEngine_endsJobs {f : Engine → Engine} (frame : f s.engine = { s.engine with
      active := (f s.engine).active
      parked := (f s.engine).parked
      ending := (f s.engine).ending
      queued := (f s.engine).queued
      window := (f s.engine).window
      resultsFull := (f s.engine).resultsFull
      banks := (f s.engine).banks }) (window : s.engine.window = none → (f s.engine).window = none) :
    s.EndsJobs (s.withEngine f) where
  frame := congrArg (fun e : Engine => ({ s with engine := e } : State)) frame
  unheld _ := ⟨rfl, rfl⟩
  events _ _ _ := rfl
  window := window

theorem State.offer_endsJobs (a : Addr) (o : Origin) (ws : List Word) (s : State) : s.EndsJobs (s.offer a o ws).2 := by
  unfold State.offer
  split
  · exact .refl s
  split
  · exact .refl s
  cases stored : s.storeSector a o ws with
  | none => exact ⟨rfl, fun _ => ⟨rfl, rfl⟩, fun e store _ => hasEvent_withEvent_other store _, id⟩
  | some t =>
    obtain ⟨n, -, rfl⟩ := State.storeSector_some stored
    exact ⟨rfl, fun _ => ⟨rfl, rfl⟩, fun _ _ _ => rfl, id⟩

theorem leaveUndecided_endsJobs (p : State × Job) (n : Nat) : p.1.EndsJobs (leaveUndecided p n).1 := by
  unfold leaveUndecided
  dsimp only
  split
  · exact State.offer_endsJobs _ _ _ _
  · exact .refl _

theorem leaveAllUndecided_endsJobs (ns : List Nat) (p : State × Job) : p.1.EndsJobs (ns.foldl leaveUndecided p).1 := by
  induction ns generalizing p with
  | nil => exact .refl _
  | cons n ns ih => exact (leaveUndecided_endsJobs p n).trans (ih _)

theorem State.finishRequest_endsJobs {h : Hold} (st : Status) (data : List Word) (held : s.port.hold = some h) :
    s.EndsJobs (s.finishRequest st data) where
  frame := rfl
  unheld none := by
    rw [held] at none
    cases none
  events _ _ _ := rfl
  window := id

theorem State.answerHeldAtEnd_endsJobs (j : Job) (s : State) : s.EndsJobs (s.answerHeldAtEnd j) := by
  unfold State.answerHeldAtEnd
  split
  next h held =>
    split
    · split
      · exact State.finishRequest_endsJobs _ _ held
      · exact .refl s
    · exact .refl s
  next => exact .refl s

theorem State.closeSectors_endsJobs (j : Job) (s : State) : s.EndsJobs (s.closeSectors j).1 :=
  (leaveAllUndecided_endsJobs j.pending (s, j)).trans (State.answerHeldAtEnd_endsJobs j _)

theorem State.closeJob_endsJobs (ending : Ending) (j : Job) (s : State) : s.EndsJobs (s.closeJob ending j) where
  frame := by rw [State.closeJob_eq]
  unheld _ := by
    rw [State.closeJob_eq]
    exact ⟨rfl, rfl⟩
  events e _ full := by
    rw [State.closeJob_eq]
    dsimp only
    split
    · rfl
    · exact hasEvent_withEvent_other full _
  window closed := by
    rw [State.closeJob_eq]
    dsimp only
    rw [closed, ite_self]

theorem State.endJob_endsJobs (ending : Ending) (j : Job) (s : State) : s.EndsJobs (s.endJob ending j) :=
  (s.closeSectors_endsJobs j).trans (State.closeJob_endsJobs ending _ _)

theorem State.endActive_endsJobs (ending : Ending) (j : Job) (s : State) : s.EndsJobs (s.endActive ending j) := by
  have taken : s.EndsJobs ((s.withEngine (fun e => { e with active := none })).setRecoveryRequest false) :=
    ⟨rfl, fun _ => ⟨rfl, rfl⟩, fun _ _ _ => rfl, id⟩
  exact taken.trans (State.endJob_endsJobs ending j _)

theorem State.endParked_endsJobs (ending : Ending) (s : State) : s.EndsJobs (s.endParked ending) := by
  unfold State.endParked
  split
  · exact .refl s
  · exact (State.withEngine_endsJobs rfl id).trans (State.endJob_endsJobs ending _ _)

theorem State.endQueued_endsJobs (ending : Ending) (fuel : Nat) (s : State) : s.EndsJobs (s.endQueued ending fuel) := by
  induction fuel generalizing s with
  | zero => exact .refl s
  | succ fuel ih =>
    unfold State.endQueued
    split
    · exact .refl s
    · exact ((State.withEngine_endsJobs rfl id).trans (State.endJob_endsJobs ending _ _)).trans (ih _)

theorem State.abandonJobs_endsJobs (s : State) : s.EndsJobs s.abandonJobs := by
  have active : s.EndsJobs (match s.engine.active with | none => s | some j => s.endActive .abandoned j) := by
    split
    · exact .refl s
    · exact s.endActive_endsJobs _ _
  exact (active.trans (State.endParked_endsJobs _ _)).trans (State.endQueued_endsJobs _ _ _)

theorem State.releaseActive_endsJobs (s : State) : s.EndsJobs s.releaseActive := by
  unfold State.releaseActive
  split
  · exact .refl s
  split
  · exact (s.closeSectors_endsJobs _).trans (State.withEngine_endsJobs rfl id)
  · exact s.endActive_endsJobs _ _

theorem State.releaseJobs_endsJobs (s : State) : s.EndsJobs s.releaseJobs :=
  (s.releaseActive_endsJobs.trans (State.endParked_endsJobs _ _)).trans (State.endQueued_endsJobs _ _ _)

theorem State.finishEnding_endsJobs (s : State) : s.EndsJobs s.finishEnding := by
  unfold State.finishEnding
  split
  · exact .refl s
  · exact (State.withEngine_endsJobs rfl id).trans (State.closeJob_endsJobs _ _ _)

/-! ## A grant lost, and standing requests handed back (R80, R98 to R100) -/

/-- All that the loss of a grant and the handing back of requests may change. -/
def State.Settles (s t : State) : Prop :=
  t = { s with
    port := { s.port with outstanding := t.port.outstanding, hold := t.port.hold }
    completions := t.completions
    map := t.map
    events := t.events
    results := t.results
    posts := t.posts
    buffers := t.buffers
    ci := { s.ci with reply := t.ci.reply }
    engine := { s.engine with
      active := t.engine.active
      parked := t.engine.parked
      ending := t.engine.ending
      queued := t.engine.queued
      window := t.engine.window
      resultsFull := t.engine.resultsFull
      banks := t.engine.banks }
    drive := { s.drive with
      recoveryRequest := t.drive.recoveryRequest
      grant := t.drive.grant
      activity := t.drive.activity
      requests := t.drive.requests } }

theorem State.Settles.refl (s : State) : s.Settles s := rfl

theorem State.Settles.trans (h : s.Settles t) (h' : t.Settles u) : s.Settles u := by
  unfold State.Settles at *
  rw [h] at h'
  exact h'

theorem State.EndsJobs.settles (h : s.EndsJobs t) : s.Settles t := by
  have frame := h.frame
  unfold State.Settles
  rw [frame]

theorem State.endGrant_settles (s : State) : s.Settles s.endGrant := rfl

theorem State.finishRequest_settles (st : Status) (data : List Word) (s : State) : s.Settles (s.finishRequest st data) := rfl

theorem State.answerAt_settles (g : Stage) (st : Status) (data : List Word) (s : State) : s.Settles (s.answerAt g st data) := by
  unfold State.answerAt
  split
  · exact s.finishRequest_settles st data
  · exact .refl s

theorem State.fillDriveReplyEmpty_settles (granted : Bool) (a : Addr) (completion : Word) (s : State) :
    s.Settles (s.fillDriveReplyEmpty granted a completion) := by
  unfold State.fillDriveReplyEmpty State.fillDriveReply
  split
  · split
    · exact rfl
    · exact .refl s
  · exact .refl s

theorem State.flushLost_settles (a : Addr) (dropped : Bool) (s : State) : s.Settles (s.flushLost a dropped) := by
  have lost : s.Settles (s.endGrant.invalidateSector a) := rfl
  unfold State.flushLost
  dsimp only
  split
  · exact lost
  · refine lost.trans ?_
    unfold State.countFlushFailure
    split
    · exact .refl _
    · split <;> exact rfl

theorem State.poke_settles (s : State) : s.Settles s.poke := by
  unfold State.Settles
  rw [State.poke_frame]

theorem State.takeAborted_settles (g : Grant) (s : State) : s.Settles (s.takeAborted g) :=
  State.Settles.trans (t := s.withEngine (Engine.updateActive (Job.charge g))) rfl (State.poke_settles _)

theorem State.recoveryEnded_settles {report : State → State} (g : Grant) (reports : s.Settles (report s)) :
    s.Settles (s.recoveryEnded g report) := by
  unfold State.recoveryEnded
  split
  · exact .refl s
  split
  · exact s.finishEnding_endsJobs.settles
  · exact reports

theorem State.loseGrant_settles (why : Loss) (s : State) : s.Settles (s.loseGrant why) := by
  unfold State.loseGrant
  split
  · exact .refl s
  next g _ =>
  have ended := s.endGrant_settles
  have writes : ∀ t : State, t.Settles (if why = .fault then (if t.stage = some .working then t.setStage .clearing else t)
      else t.answerAt .working .notReady []) := by
    intro t
    split
    · split
      · exact rfl
      · exact .refl t
    · exact State.answerAt_settles _ _ _ t
  dsimp only
  split
  · exact ended.trans (State.answerAt_settles _ _ _ _)
  · exact ended.trans (State.answerAt_settles _ _ _ _)
  · exact ended.trans (State.answerAt_settles _ _ _ _)
  · exact ended.trans (State.answerAt_settles _ _ _ _)
  · exact ended.trans (State.fillDriveReplyEmpty_settles _ _ _ _)
  · exact ended.trans (writes _)
  next x _ _ =>
    have emptied : s.Settles (s.endGrant.emptyTrackBuffer x) := rfl
    exact emptied.trans (writes _)
  · split
    · exact s.flushLost_settles _ _
    · exact rfl
  · exact ended.trans (State.recoveryEnded_settles g (State.takeAborted_settles g _))

theorem State.handBack_settles (r : ControllerRequest) (s : State) : s.Settles (s.handBack r) := by
  rcases s.handBack_cases r with same | ⟨-, -, same⟩ | ⟨_, _, -, -, -, same⟩ <;> rw [same] <;> exact rfl

/-- Handed back, no request stands; the rest of the drive is untouched. -/
theorem State.handBackAll_drive (s : State) : s.handBackAll.drive = { s.drive with requests := [] } := by
  unfold State.handBackAll
  suffices held : ∀ (l : List ControllerRequest) (t : State), (l.foldl State.handBack t).drive = t.drive from held _ _
  intro l
  induction l with
  | nil => exact fun _ => rfl
  | cons r l ih => exact fun t => (ih _).trans (State.handBack_drive r t)

theorem State.handBackAll_settles (s : State) : s.Settles s.handBackAll := by
  unfold State.handBackAll
  refine State.Settles.trans (t := s.withDrive (fun d => { d with requests := [] })) rfl ?_
  suffices held : ∀ (l : List ControllerRequest) (t : State), t.Settles (l.foldl State.handBack t) from held _ _
  intro l
  induction l with
  | nil => exact fun t => .refl t
  | cons r l ih => exact fun t => (State.handBack_settles r t).trans (ih _)

theorem State.loseGrant_grant (why : Loss) (s : State) : (s.loseGrant why).drive.grant = none := by
  have free := s.loseGrant_free why
  rw [State.granted_eq] at free
  simpa using free

theorem State.loseGrant_events (why : Loss) (s : State) : EventsStay s.events (s.loseGrant why).events :=
  Acts.events (s.loseGrant_acts why)

end Sys2Proof.Machine
end

