-- ==== Sys2Proof/Proofs/DriveLines.lean ====
section
/-! The drive's ready and fault lines (R77, R98, R99, R152, R159, R160). -/

namespace Sys2Proof.Machine

variable {s : State}

/-! ## The fault line (R77, R98) -/

/-- The fault handling, on what the loss of the grant leaves. -/
def State.faultLost (s : State) : State := (s.setEvent .driveFault).loseGrant .fault

theorem State.beginFault_eq (s : State) :
    s.beginFault = { s.faultLost with
      driveLog := s.driveLog ++ [.faultClear]
      drive := { s.faultLost.drive with activity := .clearing (s.now + nominalTicks s.geom), physCyl := none } } := by
  have frame : (s.setEvent .driveFault).Settles s.faultLost := State.loseGrant_settles _ _
  unfold State.Settles at frame
  have now : s.faultLost.now = s.now := by rw [frame]; rfl
  have geom : s.faultLost.geom = s.geom := by rw [frame]; rfl
  have log : s.faultLost.driveLog = s.driveLog := by rw [frame]; rfl
  rw [← now, ← geom, ← log]
  rfl

theorem State.faultLost_event (s : State) : hasEvent .driveFault s.faultLost.events = true :=
  State.loseGrant_events .fault (s.setEvent .driveFault) .driveFault (hasEvent_withEvent_self _ _)

theorem exec_driveFault_rises (low : s.lines.fault = false) : exec .driveFault s = .next s.takeFaultRise :=
  congrArg _ (if_neg (by rw [low]; exact Bool.false_ne_true))

theorem State.takeFaultRise_taken (ready : s.lines.ready = true) (steady : ∀ d, s.drive.activity ≠ .clearing d) :
    s.takeFaultRise = (s.setFault true).beginFault := by
  have clear : s.drive.activity.isClearing = false := by
    cases activity : s.drive.activity with
    | clearing d => exact absurd activity (steady d)
    | _ => rfl
  exact if_pos (by rw [ready, clear]; rfl)

theorem State.takeFaultRise_noted (idle : s.lines.ready = false ∨ ∃ d, s.drive.activity = .clearing d) :
    s.takeFaultRise = s.setFault true := by
  refine if_neg ?_
  rcases idle with off | ⟨d, clearing⟩
  · simp [off]
  · simp [clearing, Activity.isClearing]

theorem State.faultLost_read {g : Grant} {a : Addr} {p i : Bool} {r : Region} (running : s.drive.grant = some g)
    (work : g.work = .read a p) (waits : s.port.outstanding = some ⟨.read a r i, .working⟩) :
    s.faultLost = (s.setEvent .driveFault).endGrant.finishRequest .notReady [] := by
  unfold State.faultLost State.loseGrant
  rw [show (s.setEvent .driveFault).drive.grant = some g from running]
  dsimp only
  rw [work]
  exact if_pos (congrArg (Option.map Outstanding.stage) waits)

theorem State.faultLost_write {g : Grant} {a : Addr} {ws : List Word} (running : s.drive.grant = some g)
    (work : g.work = .write a ws) (waits : s.port.outstanding = some ⟨.write a ws, .working⟩) :
    s.faultLost = (s.setEvent .driveFault).endGrant.setStage .clearing := by
  unfold State.faultLost State.loseGrant
  rw [show (s.setEvent .driveFault).drive.grant = some g from running]
  dsimp only
  rw [work]
  exact (if_pos rfl).trans (if_pos (congrArg (Option.map Outstanding.stage) waits))

theorem exec_faultClearEnd_clearing {d : Nat} (clearing : s.drive.activity = .clearing d) :
    exec .faultClearEnd s =
      .next (if s.lines.fault then (s.advanceTo d).faultPersists else (s.advanceTo d).faultRemoved) := by
  change execFaultClearEnd s = _
  unfold execFaultClearEnd
  rw [clearing]

theorem State.answerAt_there {st : Stage} {status : Status} {data : List Word} (there : s.stage = some st) :
    s.answerAt st status data = s.finishRequest status data := if_pos there

theorem State.answerAt_elsewhere {st : Stage} {status : Status} {data : List Word} (elsewhere : s.stage ≠ some st) :
    s.answerAt st status data = s := if_neg elsewhere

theorem exec_faultLineFall (s : State) : exec .faultLineFall s = .next
    { s with lines := { s.lines with fault := false }
             drive := { s.drive with
               cond := if s.lines.ready = true ∧ s.drive.cond = .fault then .ready else s.drive.cond } } := by
  refine congrArg Host.Outcome.next ?_
  by_cases cleared : s.lines.ready = true ∧ s.drive.cond = .fault
  · rw [if_pos cleared]
    exact if_pos (by simp [cleared])
  · rw [if_neg cleared]
    exact if_neg (by simpa using cleared)

/-! ## The ready line (R77, R95, R99, R152, R159, R160) -/

theorem exec_driveReadyRise_rises (low : s.lines.ready = false) : exec .driveReadyRise s = .next s.takeReadyRise :=
  congrArg _ (if_neg (by rw [low]; exact Bool.false_ne_true))

/-- Ready risen, before a fault line found asserted is taken. -/
def State.risen (s : State) : State :=
  { s with lines := { s.lines with ready := true }
           drive := { s.drive with cond := .ready }
           timer := { s.timer with counting := false }
           pack := if s.pack.state = .empty then { s.pack with state := .spinningUp, spinUp := 0 } else s.pack }

theorem State.takeReadyRise_eq (s : State) : s.takeReadyRise = if s.lines.fault then s.risen.beginFault else s.risen := by
  have rise : ((s.setReady true).setCond .ready).packRise = { (s.setReady true).setCond .ready with
      pack := if s.pack.state = .empty then { s.pack with state := .spinningUp, spinUp := 0 } else s.pack } := by
    by_cases empty : s.pack.state = .empty
    · rw [if_pos empty]
      exact if_pos empty
    · rw [if_neg empty]
      exact if_neg empty
  unfold State.takeReadyRise
  dsimp only
  rw [rise]
  rfl

theorem exec_driveReadyFall_falls (high : s.lines.ready = true) :
    exec .driveReadyFall s = .next ((s.setReady false).sequencerFall).packFall :=
  congrArg _ (if_pos high)

/-- The sequencer's part of a fall of ready. -/
theorem State.sequencerFall_settles (s : State) :
    (({ s with drive := { s.drive with cond := .off, physCyl := none } } : State)).Settles s.sequencerFall ∧
      s.sequencerFall.drive.grant = none ∧ s.sequencerFall.drive.activity = .idle ∧ s.sequencerFall.drive.requests = [] := by
  have lost := s.loseGrant_settles .ready
  have gone := s.loseGrant_grant .ready
  unfold State.sequencerFall
  dsimp only
  generalize s.loseGrant .ready = v at lost gone
  have fallen : (({ s with drive := { s.drive with cond := .off, physCyl := none } } : State)).Settles
      (v.withDrive (fun d => { d with cond := .off, physCyl := none, activity := .idle })) := by
    unfold State.Settles at lost ⊢
    rw [lost]
    rfl
  refine ⟨(fallen.trans (State.answerAt_settles _ _ _ _)).trans (State.handBackAll_settles _), ?_, ?_, ?_⟩
  · rw [State.handBackAll_drive, State.answerAt_drive]
    exact gone
  · rw [State.handBackAll_drive, State.answerAt_drive]
    rfl
  · rw [State.handBackAll_drive]

/-! ## The pack leaves (R22, R36, R69, R152, R159, R160) -/

theorem State.discardPosts_eq (s : State) : s.discardPosts = { s with
    posts := { s.posts with entries := [] }
    events := if s.posts.entries = [] then s.events else withEvent .postDiscard s.events } := by
  unfold State.discardPosts
  cases posted : s.posts.entries with
  | nil =>
    show s = { s with posts := { s.posts with entries := [] } }
    rw [← posted]
  | cons p l => rfl

theorem State.releaseHold_frame (s : State) : s.releaseHold = { s with
    port := { s.port with outstanding := s.releaseHold.port.outstanding, hold := none }
    completions := s.releaseHold.completions } := by
  unfold State.releaseHold
  cases held : s.port.hold with
  | none =>
    show s = { s with port := { s.port with hold := none } }
    rw [← held]
  | some h => rfl

theorem State.beginDeparture_frame (s : State) : s.beginDeparture = { s with
    port := { s.port with outstanding := s.releaseHold.port.outstanding, hold := none, formatEnable := false }
    completions := s.releaseHold.completions
    engine := { s.engine with noPack := true, window := none }
    drive := { s.drive with recoveryRequest := false } } := by
  unfold State.beginDeparture
  rw [State.releaseHold_frame]

/-- All that the departure of a pack changes before its collections are emptied. -/
def State.Departs (s t : State) : Prop :=
  t = { s with
    port := t.port
    completions := t.completions
    map := t.map
    events := t.events
    results := t.results
    posts := t.posts
    engine := t.engine
    drive := { s.drive with recoveryRequest := t.drive.recoveryRequest } }

theorem State.Departs.trans {s t u : State} (h : s.Departs t) (h' : t.Departs u) : s.Departs u := by
  unfold State.Departs at *
  rw [h] at h'
  exact h'

theorem State.EndsJobs.departs {s t : State} (h : s.EndsJobs t) : s.Departs t := by
  have frame := h.frame
  unfold State.Departs
  rw [frame]

theorem State.discardPosts_departs (s : State) : s.Departs s.discardPosts := by
  unfold State.Departs
  rw [State.discardPosts_eq]

theorem State.beginDeparture_departs (s : State) : s.Departs s.beginDeparture := by
  unfold State.Departs
  rw [State.beginDeparture_frame]

/-- The jobs of a lost pack ended, before the collections are emptied (R160). -/
def State.lostJobs (s : State) : State := (((s.setEvent .packLost).discardPosts.beginDeparture).abandonJobs)

theorem State.lostJobs_departs (s : State) : s.Departs s.lostJobs :=
  ((State.Departs.trans (t := s.setEvent .packLost) rfl (State.discardPosts_departs _)).trans
    (State.beginDeparture_departs _)).trans (State.abandonJobs_endsJobs _).departs

/-- A departure leaves the collections emptied by `packGone` of a state that differs as a departure does. -/
theorem State.packFall_cases (s : State) :
    (s.pack.state = .empty ∧ s.packFall = s) ∨
      ∃ v, s.Departs v ∧ s.packFall = v.packGone ∧ (packServes s.pack.state = true → v = s.lostJobs) := by
  unfold State.packFall
  split
  next empty => exact .inl ⟨empty, rfl⟩
  next spinning =>
    rw [spinning]
    exact .inr ⟨s, rfl, rfl, nofun⟩
  next => exact .inr ⟨s.lostJobs, s.lostJobs_departs, rfl, fun _ => rfl⟩
  next => exact .inr ⟨s.lostJobs, s.lostJobs_departs, rfl, fun _ => rfl⟩
  next unloading =>
    rw [unloading]
    exact .inr ⟨s.finishEnding, s.finishEnding_endsJobs.departs, rfl, nofun⟩

/-- What the ended jobs of a lost pack leave. -/
theorem State.lostJobs_facts (s : State) :
    s.lostJobs.posts.entries = [] ∧ hasEvent .packLost s.lostJobs.events = true ∧
      (s.posts.entries ≠ [] → hasEvent .postDiscard s.lostJobs.events = true) ∧ s.lostJobs.port.hold = none ∧
      s.lostJobs.port.formatEnable = false ∧ s.lostJobs.engine.noPack = true ∧ s.lostJobs.engine.window = none ∧
      s.lostJobs.engine.seats = (none, none, [], s.engine.ending) := by
  have ends : ((s.setEvent .packLost).discardPosts.beginDeparture).EndsJobs s.lostJobs := State.abandonJobs_endsJobs _
  have seats : s.lostJobs.engine.seats = (none, none, [], ((s.setEvent .packLost).discardPosts.beginDeparture).engine.ending) :=
    State.abandonJobs_seats _
  have start := State.beginDeparture_frame (s.setEvent .packLost).discardPosts
  have discarded := State.discardPosts_eq (s.setEvent .packLost)
  generalize s.lostJobs = w at ends seats ⊢
  generalize ((s.setEvent .packLost).discardPosts.beginDeparture) = v at ends seats start
  generalize (s.setEvent .packLost).discardPosts = x at start discarded
  have hold : v.port.hold = none := by rw [start]
  obtain ⟨port, -⟩ := ends.unheld hold
  have frame := ends.frame
  refine ⟨?_, ?_, fun posted => ?_, ?_, ?_, ?_, ?_, ?_⟩
  · rw [frame, start, discarded]
  · rw [ends.events .packLost nofun nofun, start, discarded]
    dsimp only
    split
    · exact hasEvent_withEvent_self _ _
    · exact hasEvent_withEvent _ _ _ (hasEvent_withEvent_self _ _)
  · rw [ends.events .postDiscard nofun nofun, start, discarded]
    dsimp only
    rw [if_neg (show ¬ (s.setEvent .packLost).posts.entries = [] from posted)]
    exact hasEvent_withEvent_self _ _
  · rw [port, hold]
  · rw [port, start]
  · rw [frame, start]
  · exact ends.window (by rw [start])
  · rw [seats, start, discarded]
    rfl

/-- Neither the Post Queue nor the buffers change. -/
def State.SameStores (s t : State) : Prop := t.posts = s.posts ∧ t.buffers = s.buffers

theorem State.SameStores.trans {s t u : State} (h : s.SameStores t) (h' : t.SameStores u) : s.SameStores u :=
  ⟨h'.1.trans h.1, h'.2.trans h.2⟩

theorem State.answerAt_stores (g : Stage) (st : Status) (data : List Word) (s : State) : s.SameStores (s.answerAt g st data) := by
  unfold State.answerAt
  split <;> exact ⟨rfl, rfl⟩

theorem State.fillDriveReplyEmpty_stores (granted : Bool) (a : Addr) (c : Word) (s : State) :
    s.SameStores (s.fillDriveReplyEmpty granted a c) := by
  unfold State.fillDriveReplyEmpty State.fillDriveReply
  split
  · split <;> exact ⟨rfl, rfl⟩
  · exact ⟨rfl, rfl⟩

theorem State.recoveryEnded_stores (g : Grant) (s : State) : s.SameStores (s.recoveryEnded g (State.takeAborted g)) := by
  unfold State.recoveryEnded
  split
  · exact ⟨rfl, rfl⟩
  split
  · rw [s.finishEnding_endsJobs.frame]
    exact ⟨rfl, rfl⟩
  · unfold State.takeAborted
    rw [State.poke_frame]
    exact ⟨rfl, rfl⟩

theorem State.handBackAll_stores (s : State) : s.SameStores s.handBackAll := by
  unfold State.handBackAll
  suffices held : ∀ (l : List ControllerRequest) (t : State), t.SameStores (l.foldl State.handBack t) from held _ _
  intro l
  induction l with
  | nil => exact fun _ => ⟨rfl, rfl⟩
  | cons r l ih =>
    refine fun t => State.SameStores.trans ?_ (ih _)
    rcases t.handBack_cases r with same | ⟨-, -, same⟩ | ⟨_, _, -, -, -, same⟩ <;> rw [same] <;> exact ⟨rfl, rfl⟩

/-- A grant lost otherwise than by a fault discards no post and moves no buffer. -/
def State.KeepsStores (s t : State) : Prop :=
  (t.posts.entries = [] ↔ s.posts.entries = []) ∧ t.buffers.order = s.buffers.order ∧
    t.buffers.slots.length = s.buffers.slots.length

theorem State.SameStores.keeps {s t u : State} (h : s.KeepsStores t) (h' : t.SameStores u) : s.KeepsStores u := by
  obtain ⟨posts, buffers⟩ := h'
  unfold State.KeepsStores
  rw [posts, buffers]
  exact h

theorem State.loseGrant_keepsStores {why : Loss} (calm : why ≠ .fault) (s : State) : s.KeepsStores (s.loseGrant why) := by
  have idle : s.KeepsStores s.endGrant := ⟨.rfl, rfl, rfl⟩
  unfold State.loseGrant
  split
  · exact ⟨.rfl, rfl, rfl⟩
  simp only [calm, if_false]
  split
  · exact (State.answerAt_stores _ _ _ _).keeps idle
  · exact (State.answerAt_stores _ _ _ _).keeps idle
  · exact (State.answerAt_stores _ _ _ _).keeps idle
  · exact (State.answerAt_stores _ _ _ _).keeps idle
  · exact (State.fillDriveReplyEmpty_stores _ _ _ _).keeps idle
  · exact (State.answerAt_stores _ _ _ _).keeps idle
  next x _ _ =>
    have emptied : s.KeepsStores (s.endGrant.emptyTrackBuffer x) := ⟨.rfl, rfl, List.length_map _⟩
    exact (State.answerAt_stores _ _ _ _).keeps emptied
  · exact ⟨List.map_eq_nil_iff, rfl, List.length_map _⟩
  · exact (State.recoveryEnded_stores _ _).keeps idle

theorem State.sequencerFall_keepsStores (s : State) : s.KeepsStores s.sequencerFall := by
  have fallen : s.KeepsStores ((s.loseGrant .ready).withDrive (fun d => { d with cond := .off, physCyl := none, activity := .idle })) :=
    State.SameStores.keeps (s.loseGrant_keepsStores (why := .ready) nofun) ⟨rfl, rfl⟩
  exact (State.handBackAll_stores _).keeps ((State.answerAt_stores _ _ _ _).keeps fallen)

/-- Settles O28, line by line. -/
theorem driveLinesTaken : Obligations.DriveLinesTaken := by
  unfold Obligations.DriveLinesTaken
  refine ⟨fun s => ⟨fun high => congrArg _ (if_pos high), fun low idle => ?_, fun low ready idle steady => ?_,
    fun low ready steady => ?_, fun d clearing => ⟨fun low => ?_, fun high => ?_⟩, exec_faultLineFall s⟩,
    fun s => ⟨fun high => congrArg _ (if_pos high), fun low fault => ?_, fun low fault => ?_, fun low => congrArg _ (if_neg ?_),
      fun high => ?_⟩⟩
  · rw [exec_driveFault_rises low, State.takeFaultRise_noted idle]
    rfl
  · rw [exec_driveFault_rises low, State.takeFaultRise_taken ready steady]
    exact congrArg _ (State.beginFault_idle (s := s.setFault true) idle)
  · rw [exec_driveFault_rises low, State.takeFaultRise_taken ready steady, State.beginFault_eq]
    refine ⟨_, rfl, State.loseGrant_grant _ _, rfl, State.faultLost_event _, rfl, rfl, fun g a p r i running work waits => ?_,
      fun g a ws running work waits => ?_⟩
    · rw [State.faultLost_read (s := s.setFault true) running work waits]
      exact ⟨rfl, rfl⟩
    · rw [State.faultLost_write (s := s.setFault true) running work waits]
      exact ⟨rfl, congrArg (Option.map _) waits⟩
  · rw [exec_faultClearEnd_clearing clearing, low, if_neg Bool.false_ne_true]
    have stage : ((s.advanceTo d).setActivity .idle).stage = s.stage := rfl
    refine ⟨_, rfl, State.answerAt_drive _ _ _ _, fun waits => ?_, fun quiet => ?_⟩
    · unfold State.faultRemoved
      rw [State.answerAt_there (stage.trans waits)]
      exact ⟨rfl, rfl⟩
    · unfold State.faultRemoved
      rw [State.answerAt_elsewhere (fun there => quiet (stage.symm.trans there))]
      exact ⟨rfl, rfl⟩
  · rw [exec_faultClearEnd_clearing clearing, high, if_pos rfl]
    have stage : (((s.advanceTo d).setActivity .idle).setCond .fault).stage = s.stage := rfl
    have drive := State.handBackAll_drive ((((s.advanceTo d).setActivity .idle).setCond .fault).answerAt .clearing .notReady [])
    rw [State.answerAt_drive] at drive
    refine ⟨_, rfl, congrArg Drive.cond drive, congrArg Drive.activity drive, congrArg Drive.requests drive, fun waits none => ?_⟩
    unfold State.faultPersists State.handBackAll
    rw [State.answerAt_there (stage.trans waits)]
    show (s.drive.requests.foldl State.handBack _).completions = _ ∧ (s.drive.requests.foldl State.handBack _).port.outstanding = _
    rw [none]
    exact ⟨rfl, rfl⟩
  · rw [exec_driveReadyRise_rises low, State.takeReadyRise_eq, fault]
    rfl
  · rw [exec_driveReadyRise_rises low, State.takeReadyRise_eq, fault, if_pos rfl, State.beginFault_eq]
    have frame : (s.risen.setEvent .driveFault).Settles s.risen.faultLost := State.loseGrant_settles _ _
    unfold State.Settles at frame
    refine ⟨_, rfl, ?_, State.faultLost_event _, rfl⟩
    rw [frame]
    rfl
  · rw [low]
    exact Bool.false_ne_true
  · rw [exec_driveReadyFall_falls high]
    obtain ⟨fallen, grant, activity, requests⟩ := State.sequencerFall_settles (s.setReady false)
    obtain ⟨posted, order, slots⟩ := State.sequencerFall_keepsStores (s.setReady false)
    generalize (s.setReady false).sequencerFall = v at fallen grant activity requests posted order slots
    unfold State.Settles at fallen
    have lines : v.lines = { s.lines with ready := false } := by rw [fallen]; rfl
    have drive : v.drive = { s.drive with
        cond := .off, physCyl := none, activity := .idle, grant := none, requests := []
        recoveryRequest := v.drive.recoveryRequest } := by
      rw [← grant, ← activity, ← requests]
      rw [fallen]
      rfl
    have pack : v.pack = s.pack := by rw [fallen]; rfl
    have tables : v.regions = s.regions ∧ v.ladders = s.ladders ∧ v.timing = s.timing := by rw [fallen]; exact ⟨rfl, rfl, rfl⟩
    rcases v.packFall_cases with ⟨empty, same⟩ | ⟨w, departs, same, lost⟩
    · rw [same]
      rw [pack] at empty
      refine ⟨v, rfl, lines, ?_, grant, ?_, activity, requests, ?_, ?_, pack ▸ empty, congrArg Pack.epoch pack,
        congrArg Pack.unloadGuard pack, tables.1, tables.2.1, tables.2.2, fun other => absurd empty other, fun serves => ?_⟩
      · rw [drive]
      · rw [drive]
      · rw [drive]
      · rw [drive]
      · rw [empty] at serves
        cases serves
    · rw [same]
      unfold State.Departs at departs
      have drive' : w.packGone.drive = { v.drive with recoveryRequest := w.drive.recoveryRequest } := by
        show w.drive = _
        rw [departs]
      rw [drive] at drive'
      have lines' : w.packGone.lines = v.lines := by
        show w.lines = _
        rw [departs]
      have pack' : w.pack = v.pack := by rw [departs]
      have tables' : w.regions = v.regions ∧ w.ladders = v.ladders ∧ w.timing = v.timing := by
        rw [departs]
        exact ⟨rfl, rfl, rfl⟩
      have buffers : w.buffers = v.buffers := by rw [departs]
      refine ⟨_, rfl, lines'.trans lines, congrArg Drive.cond drive', congrArg Drive.grant drive', congrArg Drive.physCyl drive',
        congrArg Drive.activity drive', congrArg Drive.requests drive', (congrArg Drive.trim drive' :), (congrArg Drive.offsetCode drive' :),
        rfl, (congrArg Pack.epoch (pack'.trans pack) :), (congrArg Pack.unloadGuard (pack'.trans pack) :), tables'.1.trans tables.1,
        tables'.2.1.trans tables.2.1, tables'.2.2.trans tables.2.2, fun _ => ⟨rfl, ?_, ?_, rfl, rfl, rfl, rfl, rfl, rfl⟩,
        fun serves => ?_⟩
      · show w.buffers.slots.map _ = _
        rw [buffers, List.map_const', List.map_const']
        exact congrArg (fun n => List.replicate n _) slots
      · show w.buffers.order = _
        rw [buffers]
        exact order
      · have facts := v.lostJobs_facts
        rw [← lost (by rw [pack]; exact serves)] at facts
        obtain ⟨posts, packLost, discarded, hold, format, noPack, window, seats⟩ := facts
        exact ⟨packLost, posts, fun posted' => discarded (posted.not.mpr posted'), hold, format, noPack, window,
          congrArg (·.1) seats, congrArg (·.2.1) seats, congrArg (·.2.2.1) seats⟩

end Sys2Proof.Machine
end

