-- ==== Sys2Proof/Proofs/QueryCommands.lean ====
section
/-! The queries with their replies, LOAD SECTOR's tests, and READ DRIVE SECTOR (R29, R51, R56 to R58, R107, R168, R172, R175). -/

namespace Sys2Proof.Machine

/-! ## A command row by what its body answers (R163, R165) -/

section row
variable {i : Instr} {code : Word} {ps : List Word} {body : State → ResultCode × State} {s t : State} {r : ResultCode}

/-- A row taken as a command: its body's answer on the state taken, recorded. -/
theorem exec_row (row : exec i s = .next (s.commandStep code ps body)) (takes : s.takesCommand ps) (other : code ≠ Code.confirm)
    (answer : body (s.commandTaken false code) = (r, t)) : exec i s = .next (concludeCommand (r, t)) := by
  rw [row, State.commandStep_takes code ps body s takes other, answer]

theorem exec_row_refuses (row : exec i s = .next (s.commandStep code ps body)) (takes : s.takesCommand ps)
    (other : code ≠ Code.confirm) (answer : body (s.commandTaken false code) = (r, s.commandTaken false code)) :
    exec i s = .next (s.afterCommand code r) := exec_row row takes other answer

/-- A query's reply is formed and selected. -/
theorem exec_row_replies {kind : ReplyKind} {contents : List Word} (row : exec i s = .next (s.commandStep code ps body))
    (takes : s.takesCommand ps) (other : code ≠ Code.confirm)
    (answer : body (s.commandTaken false code) = (s.commandTaken false code).replyWith kind r contents) :
    exec i s = .next (s.afterQuery code kind r contents) := exec_row row takes other answer

end row

section body
variable {ps : List Word} {s : State} {a : Addr}

/-! ## LOAD SECTOR (R51) -/

theorem cmdLoadSector_unnamed (unnamed : ∀ a, ¬ namesAddr s.geom ps a) : cmdLoadSector ps s = (.badParameter, s) := by
  unfold cmdLoadSector
  rw [addrOf_none s.geom ps unnamed]

theorem cmdLoadSector_named (named : namesAddr s.geom ps a) : cmdLoadSector ps s =
    if !packServes s.pack.state then (.noPack, s)
    else if (s.postAt a).isSome then (.notIdle, s)
    else if (s.entryAt a).isNone && s.freeSlot.isNone then (.full, s)
    else (.ok, { s with ci := { s.ci with sequence := .awaitData a } }) := by
  unfold cmdLoadSector
  rw [addrOf_names s.geom ps a named]

/-- Settles O46, by the four tests in their order. -/
theorem loadSectorAwaitsData : Obligations.LoadSectorAwaitsData := by
  unfold Obligations.LoadSectorAwaitsData
  intro s ps takes
  have row : exec (.loadSector ps) s = .next (s.commandStep Code.loadSector ps (cmdLoadSector ps)) := rfl
  refine ⟨fun unnamed => ?_, fun a named => ?_⟩
  · exact exec_row_refuses row takes (by decide) (cmdLoadSector_unnamed unnamed)
  have body := cmdLoadSector_named (s := s.commandTaken false Code.loadSector) named
  refine ⟨fun unserved => ?_, fun serves posted => ?_, fun serves unposted unmapped full => ?_, fun serves unposted room => ?_⟩
  · exact exec_row_refuses row takes (by decide) (body.trans (if_pos (by
      show (!packServes s.pack.state) = true
      rw [unserved]
      rfl)))
  all_goals
    have served : ¬ (!packServes s.pack.state) = true := by simp [serves]
    have body := body.trans (if_neg served)
  · exact exec_row_refuses row takes (by decide) (body.trans (if_pos (Option.isSome_iff_ne_none.mpr posted)))
  all_goals
    have free : ¬ (s.postAt a).isSome = true := by simp [unposted]
    have body := body.trans (if_neg free)
  · exact exec_row_refuses row takes (by decide) (body.trans (if_pos (by
      show ((s.entryAt a).isNone && s.freeSlot.isNone) = true
      rw [unmapped, full]
      rfl)))
  · have place : ¬ ((s.entryAt a).isNone && s.freeSlot.isNone) = true := by simpa [imp_iff_not_or] using room
    exact exec_row row takes (by decide) (body.trans (if_neg place))

/-! ## The queries (R29, R56 to R58, R107, R175) -/

theorem cmdReadMapEntry_unnamed (unnamed : ∀ a, ¬ namesAddr s.geom ps a) : cmdReadMapEntry ps s = (.badParameter, s) := by
  unfold cmdReadMapEntry
  rw [addrOf_none s.geom ps unnamed]

theorem cmdReadStoreData_unnamed (unnamed : ∀ a, ¬ namesAddr s.geom ps a) : cmdReadStoreData ps s = (.badParameter, s) := by
  unfold cmdReadStoreData
  rw [addrOf_none s.geom ps unnamed]

theorem cmdListMap_unnamed (unnamed : ∀ a, ¬ namesAddr s.geom ps a) : cmdListMap ps s = (.badParameter, s) := by
  unfold cmdListMap
  rw [addrOf_none s.geom ps unnamed]

theorem cmdReadMapEntry_unmapped (named : namesAddr s.geom ps a) (unmapped : s.entryAt a = none) : cmdReadMapEntry ps s =
    s.replyWith .mapEntry .notFound [word a.cyl, word a.head, word a.sector, 0, 0, 0, 0, 0, 0, 0] := by
  unfold cmdReadMapEntry
  rw [addrOf_names s.geom ps a named]
  dsimp only
  rw [unmapped]
  rfl

theorem cmdReadMapEntry_mapped {e : MapEntry} (named : namesAddr s.geom ps a) (mapped : s.entryAt a = some e) :
    cmdReadMapEntry ps s = s.replyWith .mapEntry .ok
      [word a.cyl, word a.head, word a.sector, 1, Origin.toWord e.origin, word e.origin.flips, flagWord e.origin.inferred,
        e.epoch.extractLsb' 16 16, e.epoch.extractLsb' 0 16, word e.slot] := by
  unfold cmdReadMapEntry
  rw [addrOf_names s.geom ps a named]
  dsimp only
  rw [mapped]
  rfl

theorem cmdReadStoreData_unmapped (named : namesAddr s.geom ps a) (unmapped : s.entryAt a = none) :
    cmdReadStoreData ps s = s.replyWith .storeData .notFound [word a.cyl, word a.head, word a.sector, 0] := by
  unfold cmdReadStoreData
  rw [addrOf_names s.geom ps a named]
  dsimp only
  rw [unmapped]

theorem cmdReadStoreData_mapped {e : MapEntry} (named : namesAddr s.geom ps a) (mapped : s.entryAt a = some e) :
    cmdReadStoreData ps s = s.replyWith .storeData .ok
      ([word a.cyl, word a.head, word a.sector, Origin.toWord e.origin] ++ s.slotWords e.slot ++
        [(s.slotContents e.slot).check]) := by
  unfold cmdReadStoreData
  rw [addrOf_names s.geom ps a named]
  dsimp only
  rw [mapped]

theorem cmdListMap_named (named : namesAddr s.geom ps a) : cmdListMap ps s =
    let after := s.map.entries.filter (fun e => !e.addr.before a)
    let room := (s.geom.words - 7) / 3
    s.replyWith .mapList .ok
      ([word (min room after.length), flagWord (room < after.length)] ++ (after.take room).flatMap mapListItem) := by
  unfold cmdListMap
  rw [addrOf_names s.geom ps a named]
  dsimp only
  rw [List.length_take]

theorem word_toNat (w : Word) : word w.toNat = w := by simp [word]

theorem cmdReadRegion_inRange {w : Word} {rest : List Word} (inRange : w.toNat < 16) : cmdReadRegion (w :: rest) s =
    s.replyWith .region (if (s.regions.getD w.toNat none).isSome then .ok else .notFound)
      (regionContents w.toNat (s.regions.getD w.toNat none)) := if_pos inRange

theorem cmdReadRegion_held {w : Word} {rest : List Word} {r : Region} (inRange : w.toNat < 16)
    (held : s.regions.getD w.toNat none = some r) : cmdReadRegion (w :: rest) s = s.replyWith .region .ok
      [w, 1, word r.low, word r.high, WritePolicy.toWord r.write, ReadPolicy.toWord r.read, flagWord r.prefetch, word r.ladder,
        flagWord r.keepBest] := by
  rw [cmdReadRegion_inRange inRange, held]
  unfold regionContents
  rw [word_toNat]
  rfl

theorem cmdReadRegion_empty {w : Word} {rest : List Word} (inRange : w.toNat < 16)
    (empty : s.regions.getD w.toNat none = none) :
    cmdReadRegion (w :: rest) s = s.replyWith .region .notFound [w, 0, 0, 0, 1, 1, 0, 0, 1] := by
  rw [cmdReadRegion_inRange inRange, empty]
  unfold regionContents
  rw [word_toNat]
  rfl

theorem cmdReadRegion_outside {w : Word} {rest : List Word} (outside : 16 ≤ w.toNat) :
    cmdReadRegion (w :: rest) s = (.badParameter, s) := if_neg (Nat.not_lt.mpr outside)

theorem cmdReadLadder_inRange {w : Word} {rest : List Word} (inRange : w.toNat < 8) : cmdReadLadder (w :: rest) s =
    s.replyWith .ladder .ok
      ([w, word (s.ladders.getD w.toNat []).length, word (s.ladderJobs w.toNat)] ++
        (s.ladders.getD w.toNat []).flatMap stepWords) := if_pos inRange

theorem cmdReadLadder_outside {w : Word} {rest : List Word} (outside : 8 ≤ w.toNat) :
    cmdReadLadder (w :: rest) s = (.badParameter, s) := if_neg (Nat.not_lt.mpr outside)

end body

theorem cmdReadResult_empty {ps : List Word} {s : State} (empty : s.results = []) :
    cmdReadResult ps s = s.replyWith .result .notFound [] := by
  unfold cmdReadResult
  rw [empty]

/-- The oldest record taken from the Result Queue and shown, before RESULTS_FULL is looked at. -/
def State.recordShown (r : ResultRecord) (rest : List ResultRecord) (s : State) : State :=
  ({ s with results := rest } : State).withReply (some (formReply .result .ok s.geom.words (r.contents rest.length)))

theorem cmdReadResult_oldest {ps : List Word} {s : State} {r : ResultRecord} {rest : List ResultRecord} (held : s.results = r :: rest) :
    cmdReadResult ps s = (.ok, (s.recordShown r rest).liftResultsFull.poke) := by
  unfold cmdReadResult
  rw [held]
  rfl

theorem State.liftResultsFull_room {s : State} (place : s.canReserve = true) : s.liftResultsFull.engine.resultsFull = false := by
  unfold State.liftResultsFull
  rw [place]
  rfl

/-- What the record shown leaves, after the engine's tests. -/
theorem State.recordShown_tested (r : ResultRecord) (rest : List ResultRecord) (s : State) :
    let t := (s.recordShown r rest).liftResultsFull.poke
    t.results = rest ∧ t.ci = (s.recordShown r rest).ci ∧ t.completions = s.completions ∧
      (rest.length + s.engine.reservations < 64 → t.engine.resultsFull = false) ∧ t.map = s.map ∧ t.posts = s.posts ∧
      t.pack = s.pack ∧ t.port = s.port := by
  have lifted := State.liftResultsFull_frame (s.recordShown r rest)
  have room := State.liftResultsFull_room (s := s.recordShown r rest)
  generalize (s.recordShown r rest).liftResultsFull = u at lifted room
  intro t
  have tested : t = _ := u.poke_frame
  rw [tested]
  refine ⟨?_, ?_, ?_, fun place => room (decide_eq_true place), ?_, ?_, ?_, ?_⟩
  all_goals rw [lifted] <;> rfl

/-- Settles O40, query by query. -/
theorem queriesFormReplies : Obligations.QueriesFormReplies := by
  unfold Obligations.QueriesFormReplies
  refine ⟨fun s ps takes => ⟨exec_row rfl takes (by decide) rfl, fun unnamed => ⟨?_, ?_, ?_⟩, fun a named => ⟨fun unmapped => ⟨?_, ?_⟩,
    fun e mapped => ⟨?_, ?_⟩, ?_⟩, ?_, ?_⟩, fun s ps takes => ⟨fun empty => ?_, fun r rest held => ?_⟩⟩
  · exact exec_row_refuses rfl takes (by decide) (cmdReadMapEntry_unnamed unnamed)
  · exact exec_row_refuses rfl takes (by decide) (cmdReadStoreData_unnamed unnamed)
  · exact exec_row_refuses rfl takes (by decide) (cmdListMap_unnamed unnamed)
  · exact exec_row_replies rfl takes (by decide) (cmdReadMapEntry_unmapped named unmapped)
  · exact exec_row_replies rfl takes (by decide) (cmdReadStoreData_unmapped named unmapped)
  · exact exec_row_replies rfl takes (by decide) (cmdReadMapEntry_mapped named mapped)
  · exact exec_row_replies rfl takes (by decide) (cmdReadStoreData_mapped named mapped)
  · exact exec_row_replies rfl takes (by decide) (cmdListMap_named named)
  · rintro rfl
    exact ⟨exec_row_refuses rfl takes (by decide) rfl, exec_row_refuses rfl takes (by decide) rfl⟩
  · rintro w rest rfl
    refine ⟨fun outside => ?_, fun inRange => ⟨fun r held => ?_, fun empty => ?_⟩, fun outside => ?_, fun inRange => ?_⟩
    · exact exec_row_refuses rfl takes (by decide) (cmdReadRegion_outside outside)
    · exact exec_row_replies rfl takes (by decide) (cmdReadRegion_held inRange held)
    · exact exec_row_replies rfl takes (by decide) (cmdReadRegion_empty inRange empty)
    · exact exec_row_refuses rfl takes (by decide) (cmdReadLadder_outside outside)
    · exact exec_row_replies rfl takes (by decide) (cmdReadLadder_inRange inRange)
  · exact exec_row_replies rfl takes (by decide) (cmdReadResult_empty empty)
  · rw [exec_row (i := .readResult ps) rfl takes (by decide) (cmdReadResult_oldest held)]
    obtain ⟨results, ci, said, lifted, map, posts, pack, port⟩ :=
      State.recordShown_tested r rest (s.commandTaken false Code.readResult)
    exact ⟨_, rfl, results, congrArg (fun c : CommandInterface => { c with lastResult := .ok }) ci,
      congrArg (· ++ [Completion.status .done []]) said, lifted, map, posts, pack, port⟩

/-! ## READ DRIVE SECTOR (R172) -/

theorem cmdReadDriveSector_unnamed {ps : List Word} {s : State} (unnamed : ∀ a, ¬ namesAddr s.geom ps a) :
    cmdReadDriveSector ps s = (.badParameter, s) := by
  unfold cmdReadDriveSector
  rw [addrOf_none s.geom ps unnamed]

theorem cmdReadDriveSector_unserved {ps : List Word} {s : State} {a : Addr} (named : namesAddr s.geom ps a)
    (unserved : packServes s.pack.state = false) : cmdReadDriveSector ps s = (.noPack, s) := by
  unfold cmdReadDriveSector
  rw [addrOf_names s.geom ps a named]
  exact if_pos (by rw [unserved]; rfl)

/-- With a pack served the reply is selected unready, and its request stands or is handed back at once (R80, R172). -/
theorem cmdReadDriveSector_served {ps : List Word} {s : State} {a : Addr} (named : namesAddr s.geom ps a)
    (serves : packServes s.pack.state = true) :
    let v : State := s.withReply (some ⟨.driveSector, .ok, false, [], 2, 0, some false⟩)
    cmdReadDriveSector ps s = (.ok, if s.drive.cond = .ready then
        v.withDrive (fun d => { d with requests := d.requests ++ [⟨.commandInterface, .driveSector a⟩] })
      else v.fillDriveReplyEmpty false a notReadyWord) := by
  intro v
  unfold cmdReadDriveSector
  rw [addrOf_names s.geom ps a named]
  refine (if_neg (by simp [serves])).trans (congrArg (Prod.mk ResultCode.ok) ?_)
  have takes : v.takesRequests = (s.drive.cond == .ready) := by
    have loaded := serves_not_unloading _ serves
    show (s.drive.cond == .ready && s.pack.state != .unloading) = _
    rw [loaded, Bool.and_true]
  have standing : (v.takesRequests = true) = (s.drive.cond = .ready) := by rw [takes, beq_iff_eq]
  show (if v.takesRequests = true then _ else _) = _
  simp only [standing]
  rfl

theorem State.fillDriveReply_asked {s : State} {r : Reply} {granted : Bool} {a : Addr} {completion : Word} {header field : List Word}
    (reply : s.ci.reply = some r) (asked : r.driveRead = some granted) :
    s.fillDriveReply granted a completion header field = s.withReply (some { r with
      ready := true, contents := driveSectorContents a completion header field, parts := 2, pointer := 0, driveRead := none }) := by
  unfold State.fillDriveReply
  rw [reply]
  exact if_pos asked

/-- Settles O41, by the grounds of refusal and by the end of the read. -/
theorem readDriveSectorReply : Obligations.ReadDriveSectorReply := by
  unfold Obligations.ReadDriveSectorReply
  refine fun s => ⟨fun ps takes => ⟨fun unnamed => ?_, fun a named => ⟨fun unserved => ?_, fun serves ready => ?_,
    fun serves notReady => ?_⟩⟩, fun signal g a r busy running work => ?_⟩
  · exact exec_row_refuses rfl takes (by decide) (cmdReadDriveSector_unnamed unnamed)
  · exact exec_row_refuses rfl takes (by decide) (cmdReadDriveSector_unserved named unserved)
  · have answer := cmdReadDriveSector_served (s := s.commandTaken false Code.readDriveSector) named serves
    exact exec_row rfl takes (by decide) (answer.trans (congrArg (Prod.mk ResultCode.ok) (if_pos ready)))
  · have answer := cmdReadDriveSector_served (s := s.commandTaken false Code.readDriveSector) named serves
    have filled := answer.trans (congrArg (Prod.mk ResultCode.ok)
      ((if_neg notReady).trans (State.fillDriveReply_asked (completion := notReadyWord) rfl rfl)))
    refine (exec_row rfl takes (by decide) filled).trans ?_
    rw [fitWords_nil]
    rfl
  · intro o here reply asked
    have row := exec_readSectorEnd_reading (signal := signal) busy running (a := a) (by rw [work]; rfl)
    rw [row]
    unfold State.sectorRead
    refine congrArg _ ((if_neg (by rw [here]; exact Bool.false_ne_true)).trans ?_)
    rw [work]
    exact State.fillDriveReply_asked (s := s.endGrant) reply asked

end Sys2Proof.Machine
end

