-- ==== Sys2Proof/Proofs/SettingCommands.lean ====
section
/-! The commands that load the ladders and set values (R3, R8, R30, R78, R88, R104 to R106, R155, R162, R173, R176, R178). -/

namespace Sys2Proof.Machine

variable {ps : List Word} {s : State}

/-! ## The steps of the Ladder Table (R104, R105) -/

theorem stepOf_short (short : ps.length < 8) : stepOf ps = none := by
  unfold stepOf
  split
  · simp only [List.length_cons] at short
    omega
  · rfl

section step
variable {strobe off thr passes vm fl fc inf : Word} {rest : List Word}

theorem stepOf_unnamed (bad : 1 < vm.toNat ∨ 1 < inf.toNat) :
    stepOf (strobe :: off :: thr :: passes :: vm :: fl :: fc :: inf :: rest) = none := by
  simp only [stepOf]
  rcases bad with mode | flag
  · rw [(voteModeOf_none vm).mpr mode]
  · rw [(flagOf_none inf).mpr flag]
    cases voteModeOf vm <;> rfl

/-- The step that the fields name, each brought within its range. -/
def clampedStep (strobe off thr passes fl fc : Word) (mode : VoteMode) (inference : Bool) : LadderStep :=
  { strobe := max (-6) (min 6 strobe.toInt), headOffset := max (-50) (min 50 off.toInt), threshold := min 15 thr.toNat
    passes := max 1 (min 8 passes.toNat), voteMode := mode, flipLimit := min 4 fl.toNat, flipCeiling := min 127 fc.toNat
    inference := inference }

/-- A field lies outside its range. -/
abbrev stepOutside (strobe off thr passes fl fc : Word) : Prop :=
  strobe.toInt < -6 ∨ 6 < strobe.toInt ∨ off.toInt < -50 ∨ 50 < off.toInt ∨ 15 < thr.toNat ∨ passes.toNat < 1 ∨
    8 < passes.toNat ∨ 4 < fl.toNat ∨ 127 < fc.toNat

theorem stepOf_named (good : ¬ (1 < vm.toNat ∨ 1 < inf.toNat)) :
    ∃ mode inference clamped, VoteMode.toWord mode = vm ∧ flagWord inference = inf ∧
      (clamped = true ↔ stepOutside strobe off thr passes fl fc) ∧
      stepOf (strobe :: off :: thr :: passes :: vm :: fl :: fc :: inf :: rest) =
        some (clampedStep strobe off thr passes fl fc mode inference, clamped) := by
  rw [not_or] at good
  obtain ⟨mode, named⟩ := Option.ne_none_iff_exists'.mp (mt (voteModeOf_none vm).mp good.1)
  obtain ⟨inference, flag⟩ := Option.ne_none_iff_exists'.mp (mt (flagOf_none inf).mp good.2)
  have h0 (high x : Nat) : clampNat 0 high x = min high x := by rw [clampNat_eq 0 high x (Nat.zero_le _), Nat.zero_max]
  refine ⟨mode, inference, (clampInt (-6) 6 strobe.toInt != strobe.toInt || clampInt (-50) 50 off.toInt != off.toInt ||
    clampNat 0 15 thr.toNat != thr.toNat || clampNat 1 8 passes.toNat != passes.toNat || clampNat 0 4 fl.toNat != fl.toNat ||
    clampNat 0 127 fc.toNat != fc.toNat), (voteModeOf_some vm mode).mp named, (flagOf_some inf inference).mp flag, ?_, ?_⟩
  · simp only [Bool.or_eq_true, clampInt_ne_iff (-6) 6 _ (by omega), clampInt_ne_iff (-50) 50 _ (by omega),
      clampNat_ne_iff 0 _ _ (Nat.zero_le _), clampNat_ne_iff 1 8 _ (by omega)]
    unfold stepOutside
    omega
  · simp only [stepOf, named, flag, clampInt_eq (-6) 6 _ (by omega : (-6 : Int) ≤ 6),
      clampInt_eq (-50) 50 _ (by omega : (-50 : Int) ≤ 50), clampNat_eq 1 8 _ (by omega), h0]
    rfl

end step

/-- A ladder with a step index equal to the length appended, below it replaced (R105). -/
def stepPlaced (index : Word) (t : LadderStep) (steps : List LadderStep) : List LadderStep :=
  if index.toNat = steps.length then steps ++ [t] else steps.set index.toNat t

theorem cmdLoadLadderStep_short (short : ps.length < 10) : cmdLoadLadderStep ps s = (.badParameter, s) := by
  unfold cmdLoadLadderStep
  split
  case h_1 l i fields =>
    simp only [List.length_cons] at short
    rw [stepOf_short (by omega)]
  case h_2 => rfl

theorem cmdLoadLadderStep_unnamed {l i : Word} {fields : List Word} (unnamed : stepOf fields = none) :
    cmdLoadLadderStep (l :: i :: fields) s = (.badParameter, s) := by
  simp only [cmdLoadLadderStep, unnamed]

theorem cmdLoadLadderStep_named {l i : Word} {fields : List Word} {t : LadderStep} {clamped : Bool}
    (named : stepOf fields = some (t, clamped)) : cmdLoadLadderStep (l :: i :: fields) s =
      if 8 ≤ l.toNat ∨ (s.ladders.getD l.toNat []).length < i.toNat ∨ 12 ≤ i.toNat then (.badParameter, s)
      else (if clamped = true then .clamped else .ok,
        { s with ladders := s.ladders.set l.toNat (stepPlaced i t (s.ladders.getD l.toNat [])) }) := by
  simp only [cmdLoadLadderStep, named]
  rfl

theorem cmdClearLadder_outside {l : Word} {rest : List Word} (outside : 7 < l.toNat) :
    cmdClearLadder (l :: rest) s = (.badParameter, s) := if_pos outside

theorem cmdClearLadder_inRange {l : Word} {rest : List Word} (inRange : l.toNat ≤ 7) : cmdClearLadder (l :: rest) s =
    if s.engine.liveJobs.any (fun j => j.ladder == l.toNat) then (.notIdle, s)
    else (.ok, { s with ladders := s.ladders.set l.toNat [] }) := if_neg (Nat.not_le.mpr (Nat.lt_succ_of_le inRange))

/-- Settles O43, by the grounds of refusal and the step's fields. -/
theorem ladderCommands : Obligations.LadderCommands := by
  unfold Obligations.LadderCommands
  refine fun s ps takes => ⟨fun short => ?_, ?_, ?_, ?_⟩
  · exact exec_row_refuses rfl takes (by decide) (cmdLoadLadderStep_short short)
  · rintro l i strobe off thr passes vm fl fc inf rest rfl steps bad
    by_cases fields : 1 < vm.toNat ∨ 1 < inf.toNat
    · exact ⟨fun _ => exec_row_refuses rfl takes (by decide) (cmdLoadLadderStep_unnamed (stepOf_unnamed fields)),
        fun good => absurd (by tauto : bad) good⟩
    obtain ⟨mode, inference, clamped, vote, flag, outside, named⟩ :=
      stepOf_named (strobe := strobe) (off := off) (thr := thr) (passes := passes) (fl := fl) (fc := fc) (rest := rest) fields
    have body := cmdLoadLadderStep_named (s := s.commandTaken false 0o022) (l := l) (i := i) named
    refine ⟨fun refused => ?_, fun good => ⟨clampedStep strobe off thr passes fl fc mode inference, rfl, rfl, rfl, rfl, vote, rfl,
      rfl, flag, ?_⟩⟩
    · have place : 8 ≤ l.toNat ∨ steps.length < i.toNat ∨ 12 ≤ i.toNat := by tauto
      exact exec_row_refuses rfl takes (by decide) (body.trans (if_pos place))
    · have place : ¬ (8 ≤ l.toNat ∨ steps.length < i.toNat ∨ 12 ≤ i.toNat) := by tauto
      rw [show (if clamped = true then ResultCode.clamped else .ok) = _ from if_congr outside rfl rfl] at body
      exact exec_row rfl takes (by decide) (body.trans (if_neg place))
  · rintro rfl
    exact exec_row_refuses rfl takes (by decide) rfl
  · rintro l rest rfl
    have any : ((∃ j ∈ s.engine.liveJobs, j.ladder = l.toNat) ↔ s.engine.liveJobs.any (fun j => j.ladder == l.toNat) = true) := by
      simp [List.any_eq_true]
    refine ⟨fun outside => ?_, fun inRange used => ?_, fun inRange unused => ?_⟩
    · exact exec_row_refuses rfl takes (by decide) (cmdClearLadder_outside outside)
    · exact exec_row_refuses rfl takes (by decide) ((cmdClearLadder_inRange inRange).trans (if_pos (any.mp used)))
    · exact exec_row rfl takes (by decide) ((cmdClearLadder_inRange inRange).trans (if_neg fun used =>
        let ⟨j, mem, is⟩ := any.mpr used
        unused j mem is))

/-! ## SET MODE (R8) -/

theorem State.poke_jobs (s : State) : s.poke.engine.jobs.Perm s.engine.jobs := by
  have live := s.poke_liveJobs
  have left : s.poke.engine.ending = s.engine.ending := by rw [State.poke_frame]
  have split (e : Engine) : e.jobs.Perm (e.liveJobs ++ e.ending.toList) := by
    unfold Engine.jobs Engine.placed Engine.liveJobs
    simpa only [List.append_assoc] using List.perm_append_comm.append_left _ |>.append_left _
  exact (split _).trans (by rw [live, left]; exact (split _).symm)

/-- Work of the CONTROLLER client waits or runs (R8). -/
theorem Drive.controllerBusy_iff (d : Drive) : d.controllerBusy = true ↔ d.requests ≠ [] ∨
    ∃ g, d.grant = some g ∧ (∀ a w x, g.work ≠ .flush a w x) ∧ (∀ t x f l, g.work ≠ .recovery t x f l) := by
  unfold Drive.controllerBusy
  rw [Bool.or_eq_true, Bool.not_eq_true', List.isEmpty_eq_false_iff]
  refine or_congr Iff.rfl ?_
  cases d.grant with
  | none => simp
  | some g =>
      have only (p : Grant → Prop) : (∃ x, some g = some x ∧ p x) ↔ p g :=
        ⟨fun ⟨_, is, holds⟩ => Option.some.inj is ▸ holds, fun holds => ⟨g, rfl, holds⟩⟩
      rw [only]
      dsimp only
      cases g.work with
      | flush a w x => exact iff_of_false nofun fun no => no.1 a w x rfl
      | recovery t x f l => exact iff_of_false nofun fun no => no.2 t x f l rfl
      | _ => exact iff_of_true rfl ⟨fun _ _ _ => nofun, fun _ _ _ _ => nofun⟩

theorem cmdSetMode_unnamed (unnamed : ∀ m : Mode, ps.head? ≠ some (Mode.toWord m)) : cmdSetMode ps s = (.badParameter, s) := by
  unfold cmdSetMode
  have row : ps.head?.bind modeOf = none := by
    cases ps with
    | nil => rfl
    | cons w rest => exact Option.eq_none_iff_forall_ne_some.mpr fun m is => unnamed m (congrArg some ((modeOf_some w m).mp is).symm)
  rw [row]

theorem cmdSetMode_named {m : Mode} (named : ps.head? = some (Mode.toWord m)) : cmdSetMode ps s =
    if (!s.posts.entries.isEmpty || s.port.hold.isSome || s.drive.controllerBusy) = true then (.notIdle, s)
    else if m = s.port.mode then (.ok, s)
    else (.ok, (({ s with port := { s.port with mode := m }
                          engine := { s.engine with transparent := m == Mode.transparent } } : State)).poke) := by
  unfold cmdSetMode
  have row : ps.head?.bind modeOf = some m := by rw [named]; exact (modeOf_some _ m).mpr rfl
  rw [row]

/-! ## SET GEOMETRY (R178) -/

theorem geometryOf_short (short : ps.length < 5) : geometryOf ps = none := by
  unfold geometryOf
  split
  · simp only [List.length_cons] at short
    omega
  · rfl

theorem geometryOf_fields (c h n w p : Word) (rest : List Word) : geometryOf (c :: h :: n :: w :: p :: rest) =
    if geometryWf ⟨c.toNat, h.toNat, n.toNat, w.toNat, p.toNat⟩ = true then
      some ⟨c.toNat, h.toNat, n.toNat, w.toNat, p.toNat⟩ else none := by
  unfold geometryOf geometryWf
  simp only [Bool.and_eq_true, Bool.or_eq_true, decide_eq_true_eq, beq_iff_eq, and_assoc, or_assoc]

/-- A slot brought within a cylinder count keeps its low end and has its high end cut (R30). -/
theorem clipRegion_eq (cylinders : Nat) (slot : Option Region) : clipRegion cylinders slot =
    slot.bind (fun r => if cylinders ≤ r.low then none else some { r with high := min r.high (cylinders - 1) }) := by
  cases slot with
  | none => rfl
  | some r =>
      unfold clipRegion
      dsimp only [Option.bind_some]
      split
      · rfl
      · split
        · rw [Nat.min_eq_right (by omega)]
        · rw [Nat.min_eq_left (by omega)]

theorem cmdSetGeometry_unnamed (unnamed : geometryOf ps = none) : cmdSetGeometry ps s = (.badParameter, s) := by
  unfold cmdSetGeometry
  rw [unnamed]

theorem cmdSetGeometry_served {g : Geometry} (named : geometryOf ps = some g)
    (served : packServes s.pack.state = true ∨ s.pack.state = .unloading) : cmdSetGeometry ps s = (.notIdle, s) := by
  unfold cmdSetGeometry
  rw [named]
  cases state : s.pack.state <;> simp_all [packServes]

theorem cmdSetGeometry_away {g : Geometry} (named : geometryOf ps = some g) (unserved : packServes s.pack.state = false)
    (away : s.pack.state ≠ .unloading) : cmdSetGeometry ps s = (.ok, s.setGeometry g) := by
  unfold cmdSetGeometry
  rw [named]
  cases state : s.pack.state <;> simp_all [packServes]

/-! ## The other values (R155, R173, R88, R176) -/

theorem guardOf_eq (w : Word) : guardOf w =
    if w = word 0 then some .auto else if w = word 1 then some .waitEngine else if w = word 2 then some .waitPermit else none := rfl

theorem cmdSetGuard_unnamed (unnamed : ∀ k : Nat, k < 3 → ps.head? ≠ some (word k)) : cmdSetGuard ps s = (.badParameter, s) := by
  unfold cmdSetGuard
  cases ps with
  | nil => rfl
  | cons w rest =>
      have differs (k : Nat) (lt : k < 3) : w ≠ word k := fun is => unnamed k lt (congrArg some is)
      have row : (w :: rest).head?.bind guardOf = none := by
        show guardOf w = none
        rw [guardOf_eq, if_neg (differs 0 (by omega)), if_neg (differs 1 (by omega)), if_neg (differs 2 (by omega))]
      rw [row]

theorem guardOf_word (k : Nat) (lt : k < 3) :
    guardOf (word k) = some (if k = 0 then .auto else if k = 1 then .waitEngine else .waitPermit) := by
  match k, lt with
  | 0, _ => rfl
  | 1, _ => rfl
  | 2, _ => rfl

theorem cmdSetGuard_named {k : Nat} (lt : k < 3) (named : ps.head? = some (word k)) : cmdSetGuard ps s =
    (.ok, { s with pack := { s.pack with unloadGuard := if k = 0 then .auto else if k = 1 then .waitEngine else .waitPermit } }) := by
  unfold cmdSetGuard
  have row : ps.head?.bind guardOf = guardOf (word k) := by rw [named]; rfl
  rw [row, guardOf_word k lt]
  rfl

theorem cmdSetTiming_short (short : ps.length < 3) : cmdSetTiming ps s = (.badParameter, s) := by
  unfold cmdSetTiming
  split
  · simp only [List.length_cons] at short
    omega
  · rfl

theorem cmdSetTiming_named {hold window latency : Word} {rest : List Word} :
    cmdSetTiming (hold :: window :: latency :: rest) s =
      (if 2000 < hold.toNat ∨ 1000 < window.toNat ∨ latency.toNat < 10 ∨ 2000 < latency.toNat then .clamped else .ok,
        { s with timing := ⟨min 2000 hold.toNat, min 1000 window.toNat, max 10 (min 2000 latency.toNat)⟩ }) := by
  have h0 (high x : Nat) : clampNat 0 high x = min high x := by rw [clampNat_eq 0 high x (Nat.zero_le _), Nat.zero_max]
  have outside : (clampNat 0 2000 hold.toNat != hold.toNat || clampNat 0 1000 window.toNat != window.toNat ||
      clampNat 10 2000 latency.toNat != latency.toNat) = true ↔
      2000 < hold.toNat ∨ 1000 < window.toNat ∨ latency.toNat < 10 ∨ 2000 < latency.toNat := by
    simp only [Bool.or_eq_true, clampNat_ne_iff 0 _ _ (Nat.zero_le _), clampNat_ne_iff 10 2000 _ (by omega)]
    omega
  unfold cmdSetTiming
  simp only [outside]
  rw [h0, h0, clampNat_eq 10 2000 _ (by omega)]

theorem cmdSetTrim_named {w : Word} {rest : List Word} : cmdSetTrim (w :: rest) s =
    (if w.toInt < -512 ∨ 511 < w.toInt then .clamped else .ok,
      { s with drive := { s.drive with trim := max (-512) (min 511 w.toInt) } }) := by
  unfold cmdSetTrim
  simp only [clampInt_ne_iff (-512) 511 _ (by omega : (-512 : Int) ≤ 511)]
  rw [clampInt_eq (-512) 511 _ (by omega)]
  rfl

theorem hasEvent_clearEvents (e : Event) (mask : Word) (events : BitVec 10) :
    hasEvent e (clearEvents mask events) = (hasEvent e events && !mask.getLsbD e.bit) := by
  have bit : e.bit < 10 := by cases e <;> decide
  unfold hasEvent clearEvents
  simp [bit]

theorem cmdSetControlAddress_unnamed (unnamed : ∀ a, ¬ namesAddr s.geom ps a) : cmdSetControlAddress ps s = (.badParameter, s) := by
  unfold cmdSetControlAddress
  rw [addrOf_none s.geom ps unnamed]

theorem cmdSetControlAddress_named {a : Addr} (named : namesAddr s.geom ps a) :
    cmdSetControlAddress ps s = (.ok, { s with ci := { s.ci with controlAddr := a } }) := by
  unfold cmdSetControlAddress
  rw [addrOf_names s.geom ps a named]

/-- Settles O49, command by command. -/
theorem settingCommands : Obligations.SettingCommands := by
  unfold Obligations.SettingCommands
  refine fun s ps takes => ⟨?_, fun unnamed => ?_, fun short => ?_, ?_, fun unnamed => ?_, fun k lt named => ?_,
    fun short => ?_, ?_, ?_, ?_, fun unnamed => ?_, fun a named => ?_⟩
  · intro m named busy
    have body := cmdSetMode_named (s := s.commandTaken false Code.setMode) named
    have tested : (!s.posts.entries.isEmpty || false || (s.commandTaken false Code.setMode).drive.controllerBusy) = true ↔ busy := by
      rw [Bool.or_false, Bool.or_eq_true, Drive.controllerBusy_iff, Bool.not_eq_true', List.isEmpty_eq_false_iff]
      rfl
    refine ⟨fun is => ?_, fun idle same => ?_, fun idle other => ?_⟩
    · exact exec_row_refuses rfl takes (by decide) (body.trans (if_pos (tested.mpr is)))
    · exact exec_row_refuses rfl takes (by decide) (body.trans ((if_neg (mt tested.mp idle)).trans (if_pos same)))
    · have answer := body.trans ((if_neg (mt tested.mp idle)).trans (if_neg other))
      refine ⟨_, exec_row rfl takes (by decide) answer, ?_, ?_, ?_, ?_, ?_, ?_, State.poke_jobs _⟩
      all_goals
        unfold concludeCommand
        dsimp only
        rw [State.poke_frame]
        rfl
  · exact exec_row_refuses rfl takes (by decide) (cmdSetMode_unnamed unnamed)
  · exact exec_row_refuses rfl takes (by decide) (cmdSetGeometry_unnamed (geometryOf_short short))
  · rintro c h n w p rest rfl g
    have fields := geometryOf_fields c h n w p rest
    refine ⟨fun bad => ?_, fun good served => ?_, fun good unserved away => ?_⟩
    · exact exec_row_refuses rfl takes (by decide) (cmdSetGeometry_unnamed (fields.trans (if_neg (Bool.eq_false_iff.mp bad))))
    · exact exec_row_refuses rfl takes (by decide) (cmdSetGeometry_served (fields.trans (if_pos good)) served)
    · intro u
      have regions : s.regions.map (clipRegion g.cylinders) = _ := List.map_congr_left fun slot _ => clipRegion_eq g.cylinders slot
      refine (exec_row rfl takes (by decide) (cmdSetGeometry_away (fields.trans (if_pos good)) unserved away)).trans ?_
      rw [← regions]
      rfl
  · exact exec_row_refuses rfl takes (by decide) (cmdSetGuard_unnamed unnamed)
  · exact exec_row rfl takes (by decide) (cmdSetGuard_named lt named)
  · exact exec_row_refuses rfl takes (by decide) (cmdSetTiming_short short)
  · rintro hold window latency rest rfl
    exact exec_row rfl takes (by decide) cmdSetTiming_named
  · rintro rfl
    exact ⟨exec_row_refuses rfl takes (by decide) rfl, exec_row_refuses rfl takes (by decide) rfl⟩
  · rintro w rest rfl
    refine ⟨exec_row rfl takes (by decide) cmdSetTrim_named, _, exec_row rfl takes (by decide) rfl, rfl, fun e => ?_⟩
    exact hasEvent_clearEvents e w _
  · exact exec_row_refuses rfl takes (by decide) (cmdSetControlAddress_unnamed unnamed)
  · exact exec_row rfl takes (by decide) (cmdSetControlAddress_named named)

end Sys2Proof.Machine
end

