-- ==== Sys2Proof/Proofs/ControlSector.lean ====
section
/-! The control sector written and read (R5, R52, R163, R165, R168 to R171). -/

namespace Sys2Proof.Machine

variable {s : State} {i : Instr} {code : Word}

/-! ## A command sector is the row of its code (R163) -/

theorem Instr.params_length (row : i.code? = some code) (fits : i.wellFormed = true) : i.params.length < 65536 := by
  cases i with
  | badCommand c ps => exact decide_eq_true_eq.mp ((Bool.and_eq_true _ _).mp fits).2
  | _ => first | exact decide_eq_true_eq.mp fits | cases row

theorem fitWords_again (n : Nat) (ws : List Word) : fitWords n (fitWords n ws) = fitWords n ws := by
  have length := fitWords_length n ws
  generalize fitWords n ws = l at length
  rw [← length]
  exact fitWords_exact l

theorem fitWords_take (n : Nat) (ws : List Word) (room : ws.length ≤ n) : (fitWords n ws).take ws.length = ws := by
  rw [fitWords_short n ws room, List.take_left]

/-- The four words a command sector begins with, then its parameters as far as it holds them (R163). -/
theorem commandSector_eq (w : Nat) (code : Word) (ps : List Word) (wide : 4 ≤ w) : commandSector w code ps =
    0o071523 :: 0o106254 :: code :: word ps.length :: fitWords (w - 4) ps := by
  obtain ⟨n, rfl⟩ := Nat.exists_eq_add_of_le' wide
  rfl

/-- The state reached by a command sector whose parameters the sector does not hold is the same for every command (R163). -/
theorem State.takeCommand_tooMany {count : Nat} {ps qs : List Word} {body other : State → ResultCode × State}
    (many : s.geom.words - 4 < count) : s.takeCommand code count ps body = s.takeCommand code count qs other := by
  have words : s.selectStatus.geom.words - 4 < count := by rw [State.selectStatus_eq]; exact many
  have noMatch (rs : List Word) (p : Word) : matchingConfirm s.selectStatus.geom.words count code rs p = false := by
    unfold matchingConfirm
    rw [decide_eq_false (Nat.not_le.mpr words), Bool.and_false, Bool.false_and]
  have refused (u : State) (same : u.geom = s.selectStatus.geom) :
      concludeCommand (runBody count body u) = concludeCommand (runBody count other u) := by
    have out : u.geom.words - 4 < count := by rw [same]; exact words
    exact congrArg concludeCommand ((if_pos out).trans (if_pos out).symm)
  unfold State.takeCommand
  dsimp only
  simp only [noMatch, Bool.false_eq_true, if_false]
  split
  · exact refused _ (by rw [State.abandonSequence_eq])
  · exact refused _ rfl
  · exact refused _ rfl

/-- The sector of a command row, written to the control sector: the data awaited, or the command (R52, R163). -/
theorem State.controlWrite_command {ps : List Word} (wide : 4 ≤ s.geom.words) (few : ps.length < 65536) :
    s.controlWrite (fitWords s.geom.words (commandSector s.geom.words code ps)) =
      match s.ci.sequence with
      | .awaitData a => s.takeDataSector a (commandSector s.geom.words code ps)
      | .ready | .awaitConfirm _ => s.takeCommand code ps.length ps (commandBody code ps) := by
  have sector : fitWords s.geom.words (commandSector s.geom.words code ps) = commandSector s.geom.words code ps := fitWords_again _ _
  have count : (word ps.length).toNat = ps.length := by simpa [word] using few
  have command : s.takeCommand code (word ps.length).toNat ((fitWords (s.geom.words - 4) ps).take (word ps.length).toNat)
      (commandBody code ((fitWords (s.geom.words - 4) ps).take (word ps.length).toNat)) =
      s.takeCommand code ps.length ps (commandBody code ps) := by
    rw [count]
    by_cases room : ps.length ≤ s.geom.words - 4
    · rw [fitWords_take _ _ room]
    · exact State.takeCommand_tooMany (Nat.not_le.mp room)
  unfold State.controlWrite
  rw [sector]
  cases s.ci.sequence with
  | awaitData a => rfl
  | ready => rw [commandSector_eq _ _ _ wide]; exact command
  | awaitConfirm p => rw [commandSector_eq _ _ _ wide]; exact command

theorem State.commandStep_eq_controlWrite {ps : List Word} (wide : 4 ≤ s.geom.words) (few : ps.length < 65536) :
    s.commandStep code ps (commandBody code ps) = (s.dropRequest.setVirtHead s.ci.controlAddr.head).controlWrite
      (fitWords s.geom.words (commandSector s.geom.words code ps)) := by
  have kept : (s.dropRequest.setVirtHead s.ci.controlAddr.head).geom = s.geom := by rw [State.dropRequest_eq]; rfl
  have row := State.controlWrite_command (s := s.dropRequest.setVirtHead s.ci.controlAddr.head) (code := code) (kept ▸ wide) few
  rw [kept] at row
  rw [row]
  unfold State.commandStep
  dsimp only
  rw [kept] <;> rfl

/-- The control sector's address, read or written with the virtual drive on its cylinder (R5). -/
theorem State.controlAddr_reached (inside : s.ci.controlAddr.within s.geom = true) (here : s.port.virtCyl = s.ci.controlAddr.cyl) :
    ¬ s.geom.heads ≤ s.ci.controlAddr.head ∧ ¬ s.geom.sectors ≤ s.ci.controlAddr.sector ∧
      s.requestAddr s.ci.controlAddr.head s.ci.controlAddr.sector = s.ci.controlAddr := by
  simp only [Addr.within, Bool.and_eq_true, decide_eq_true_eq] at inside
  obtain ⟨⟨-, head⟩, sector⟩ := inside
  refine ⟨Nat.not_le.mpr head, Nat.not_le.mpr sector, ?_⟩
  unfold State.requestAddr
  rw [here]

theorem State.takeWrite_control (ws : List Word) (inside : s.ci.controlAddr.within s.geom = true)
    (here : s.port.virtCyl = s.ci.controlAddr.cyl) : s.takeWrite s.ci.controlAddr.head s.ci.controlAddr.sector ws =
      (s.dropRequest.setVirtHead s.ci.controlAddr.head).controlWrite (fitWords s.geom.words ws) := by
  obtain ⟨head, sector, addr⟩ := State.controlAddr_reached inside here
  rw [State.takeWrite_eq, if_neg head, if_neg sector, if_pos addr]

theorem State.takeRead_control (inside : s.ci.controlAddr.within s.geom = true) (here : s.port.virtCyl = s.ci.controlAddr.cyl) :
    s.takeRead s.ci.controlAddr.head s.ci.controlAddr.sector = (s.dropRequest.setVirtHead s.ci.controlAddr.head).readControl := by
  obtain ⟨head, sector, addr⟩ := State.controlAddr_reached inside here
  rw [State.takeRead_eq, if_neg head, if_neg sector, if_pos addr]

theorem Geometry.words_wide {g : Geometry} (wf : geometryWf g = true) : 64 ≤ g.words := by
  simp only [geometryWf, Bool.and_eq_true, Bool.or_eq_true, beq_iff_eq, decide_eq_true_eq] at wf
  omega

/-- Settles O37, from the sector's words. -/
theorem controlSectorWrites : Obligations.ControlSectorWrites := by
  unfold Obligations.ControlSectorWrites
  intro s i code permit wf row fits
  have words := Geometry.words_wide wf
  have few := Instr.params_length row fits
  have written (u : State) (same : u.geom = s.geom) : exec i u = .next ((u.dropRequest.setVirtHead u.ci.controlAddr.head).controlWrite
      (fitWords s.geom.words (commandSector s.geom.words code i.params))) := by
    rw [exec_command i code u row, State.commandStep_eq_controlWrite (by rw [same]; omega) few, same]
  refine ⟨fun here inside => ?_, fun a _ => ?_, fun taken many => ?_, ?_⟩
  · rw [written (s.setPermit permit) rfl]
    exact congrArg _ (State.takeWrite_control (s := s.setPermit permit) _ inside here)
  · rw [written s rfl]
    show _ = Host.Outcome.next (s.takeControlWrite _)
    have kept : (s.dropRequest.setVirtHead s.ci.controlAddr.head).geom = s.geom := by rw [State.dropRequest_eq]; rfl
    unfold State.takeControlWrite
    dsimp only
    rw [kept]
  · have tooMany : s.geom.words - 4 < i.params.length := by omega
    rw [exec_command i code s row, State.commandStep_eq _ _ _ _ taken fun p _ => by
      unfold matchingConfirm
      rw [decide_eq_false (Nat.not_le.mpr tooMany), Bool.and_false, Bool.false_and]]
    exact congrArg (Host.Outcome.next ∘ concludeCommand) (if_pos tooMany)
  · rintro c ps rfl takes
    have unlisted : c ∉ Code.catalogue := by
      have fits : (!Code.catalogue.contains c && decide (ps.length < 65536)) = true := fits
      simpa using ((Bool.and_eq_true _ _).mp fits).1
    have other : c ≠ Code.confirm := fun is => unlisted (is ▸ by decide)
    exact exec_row_refuses (exec_command _ c s rfl) takes other (commandBody_unlisted c ps _ unlisted)

/-! ## The status record (R170, R179) -/

/-- The word of the engine state shown (R115, R170). -/
theorem Engine.shown_word (e : Engine) : EngineShown.toWord e.shown =
    if e.noPack || e.speed || e.transparent || e.resultsFull then 4 else if e.suspended then 3
    else if e.window.isSome then 1 else if e.jobs = [] then 0 else 2 := by
  have empty : e.length = 0 ↔ e.jobs = [] := List.length_eq_zero_iff
  unfold Engine.shown Engine.held Engine.runPhase
  simp only [empty]
  split
  · rfl
  split
  · rfl
  cases e.window with
  | some w => rfl
  | none => by_cases none : e.jobs = [] <;> simp only [none, Option.isSome_none, Bool.false_eq_true, if_true, if_false] <;> rfl

theorem bitsWord_three (a b c : Bool) : bitsWord [a, b, c] = a.toNat + 2 * b.toNat + 4 * c.toNat := by
  simp only [bitsWord]
  omega

theorem bitsWord_four (a b c d : Bool) : bitsWord [a, b, c, d] = a.toNat + 2 * b.toNat + 4 * c.toNat + 8 * d.toNat := by
  simp only [bitsWord]
  omega

theorem Engine.atWork_iff (e : Engine) : e.atWork = true ↔ e.shown = .collecting ∨
    (e.shown = .running ∧ (e.active.isSome ∨ e.parked.isSome)) := by
  unfold Engine.atWork
  simp only [Bool.or_eq_true, Bool.and_eq_true, beq_iff_eq]

/-- An event's bit in the word of events (R176, R179). -/
theorem event_word (events : BitVec 10) (e : Event) : (events.setWidth 16 : Word).getLsbD e.bit = hasEvent e events := by
  have bit : e.bit < 16 := by cases e <;> decide
  unfold hasEvent
  rw [BitVec.getLsbD_setWidth, decide_eq_true bit, Bool.true_and]

/-! ## The control sector read (R168, R169, R171) -/

theorem State.readControl_record (shown : s.ci.reply = none) : s.readControl =
    let v : State := { s with ci := { s.ci with toggle := if s.engine.shown = .collecting ∨
      (s.engine.shown = .running ∧ (s.engine.active.isSome ∨ s.engine.parked.isSome)) then !s.ci.toggle else s.ci.toggle } }
    v.answer .done v.statusRecord := by
  unfold State.readControl State.controlData
  rw [shown]
  unfold State.buildStatus
  simp only [← Engine.atWork_iff]
  split <;> rfl

theorem State.readControl_part {r : Reply} (shown : s.ci.reply = some r) (ready : r.ready = true) : s.readControl =
    (s.withReply (some { r with pointer := if r.pointer + 1 < r.parts then r.pointer + 1 else 0 })).answer .done
      (r.part s.geom.words r.pointer) := by
  unfold State.readControl State.controlData
  rw [shown]
  dsimp only
  rw [if_pos ready]

theorem State.readControl_unready {r : Reply} (shown : s.ci.reply = some r) (unready : r.ready = false) :
    s.readControl = s.answer .done (r.notReadyPart s.geom.words) := by
  unfold State.readControl State.controlData
  rw [shown]
  dsimp only
  rw [if_neg (by rw [unready]; exact Bool.false_ne_true)]

/-- Settles O38, by the selector and word by word. -/
theorem controlSectorRead : Obligations.ControlSectorRead := by
  unfold Obligations.ControlSectorRead
  refine ⟨fun s inside here => ?_, fun s wide => ?_, fun events e => ?_, rfl, rfl⟩
  · intro a u
    have row : exec (.read a.head a.sector) s = .next u.readControl := by
      have taken := State.takeRead_control inside here
      rw [State.dropRequest_eq] at taken
      exact congrArg _ taken
    rw [row]
    refine ⟨fun shown => ?_, fun r shown ready => ?_, fun r shown unready => ?_⟩
    · exact congrArg _ (State.readControl_record (s := u) shown)
    · exact congrArg _ (State.readControl_part (s := u) shown ready)
    · rw [← fitWords_nil]
      exact congrArg _ (State.readControl_unready (s := u) shown unready)
  · intro e
    unfold State.statusRecord
    rw [fitWords_short _ _ (by exact wide), bitsWord_three, bitsWord_four, Engine.shown_word]
    rfl
  · rw [← event_word]
    cases e <;> rfl

end Sys2Proof.Machine
end

