-- ==== Sys2Proof/Proofs/CommandFrames.lean ====
section
/-! What a command leaves alone (R163, R165, R168). -/

namespace Sys2Proof.Machine

variable {s t u : State} {code : Word}

/-! ## With nothing outstanding, nothing held and no reply selected, nothing is answered -/

/-- Nothing is answered, no reply is filled and no Unload Request noted, but what was outstanding, held or selected. -/
structure State.Undisturbed (s t : State) : Prop where
  answers : s.port.outstanding = none → s.port.hold = none → t.port = s.port ∧ t.completions = s.completions
  reply : s.ci.reply = none → t.ci.reply = none
  requested : hasEvent .unloadRequested t.events = hasEvent .unloadRequested s.events

theorem State.Undisturbed.trans (h : s.Undisturbed t) (h' : t.Undisturbed u) : s.Undisturbed u where
  answers waits held := by
    obtain ⟨port, said⟩ := h.answers waits held
    obtain ⟨port', said'⟩ := h'.answers (by rw [port, waits]) (by rw [port, held])
    exact ⟨port'.trans port, said'.trans said⟩
  reply shown := h'.reply (h.reply shown)
  requested := h'.requested.trans h.requested

theorem State.Undisturbed.same (port : t.port = s.port) (said : t.completions = s.completions) (reply : t.ci.reply = s.ci.reply)
    (events : t.events = s.events) : s.Undisturbed t := ⟨fun _ _ => ⟨port, said⟩, fun shown => reply.trans shown, by rw [events]⟩

theorem State.EndsJobs.undisturbed (h : s.EndsJobs t) : s.Undisturbed t :=
  ⟨fun _ held => h.unheld held, fun shown => by rw [h.frame, shown], h.events .unloadRequested nofun nofun⟩

theorem State.answerAt_undisturbed (g : Stage) (st : Status) (data : List Word) (s : State) : s.Undisturbed (s.answerAt g st data) := by
  refine ⟨fun waits _ => ?_, ?_, ?_⟩
  · have away : s.stage ≠ some g := by rw [State.stage, waits]; exact nofun
    rw [State.answerAt_elsewhere away]
    exact ⟨rfl, rfl⟩
  all_goals
    unfold State.answerAt
    split
  · exact id
  · exact id
  · rfl
  · rfl

theorem State.fillDriveReplyEmpty_undisturbed (granted : Bool) (a : Addr) (c : Word) (s : State) :
    s.Undisturbed (s.fillDriveReplyEmpty granted a c) := by
  unfold State.fillDriveReplyEmpty State.fillDriveReply
  split
  next shown =>
    split
    · exact ⟨fun _ _ => ⟨rfl, rfl⟩, fun none => absurd (shown.symm.trans none) nofun, rfl⟩
    · exact .same rfl rfl rfl rfl
  next => exact .same rfl rfl rfl rfl

theorem State.recoveryEnded_undisturbed (g : Grant) (s : State) : s.Undisturbed (s.recoveryEnded g (State.takeAborted g)) := by
  unfold State.recoveryEnded
  split
  · exact .same rfl rfl rfl rfl
  split
  · exact s.finishEnding_endsJobs.undisturbed
  · unfold State.takeAborted
    rw [State.poke_frame]
    exact .same rfl rfl rfl rfl

theorem State.loseGrant_undisturbed (s : State) : s.Undisturbed (s.loseGrant .forced) := by
  have ended : s.Undisturbed s.endGrant := .same rfl rfl rfl rfl
  unfold State.loseGrant
  split
  · exact .same rfl rfl rfl rfl
  dsimp only
  split
  · exact ended.trans (State.answerAt_undisturbed _ _ _ _)
  · exact ended.trans (State.answerAt_undisturbed _ _ _ _)
  · exact ended.trans (State.answerAt_undisturbed _ _ _ _)
  · exact ended.trans (State.answerAt_undisturbed _ _ _ _)
  · exact ended.trans (State.fillDriveReplyEmpty_undisturbed _ _ _ _)
  · exact ended.trans (State.answerAt_undisturbed _ _ _ _)
  next x _ _ =>
    have emptied : s.Undisturbed (s.endGrant.emptyTrackBuffer x) := .same rfl rfl rfl rfl
    exact emptied.trans (State.answerAt_undisturbed _ _ _ _)
  · exact .same rfl rfl rfl rfl
  · exact ended.trans (State.recoveryEnded_undisturbed _ _)

theorem State.handBackAll_undisturbed (s : State) : s.Undisturbed s.handBackAll := by
  unfold State.handBackAll
  suffices handed : ∀ (l : List ControllerRequest) (t : State), t.Undisturbed (l.foldl State.handBack t) from
    State.Undisturbed.trans (t := s.withDrive (fun d => { d with requests := [] })) (.same rfl rfl rfl rfl) (handed _ _)
  intro l
  induction l with
  | nil => exact fun _ => .same rfl rfl rfl rfl
  | cons r l ih =>
    refine fun t => State.Undisturbed.trans ?_ (ih _)
    unfold State.handBack
    split
    · exact State.answerAt_undisturbed _ _ _ t
    · split
      · exact State.fillDriveReplyEmpty_undisturbed _ _ _ t
      all_goals exact .same rfl rfl rfl rfl

/-! ## What a command changes -/

/-- All that a command may change of the state it is given. -/
def State.CommandChanges (s t : State) : Prop :=
  t = { s with
    geom := t.geom
    port := { s.port with mode := t.port.mode, virtCyl := t.port.virtCyl, virtHead := t.port.virtHead, formatEnable := t.port.formatEnable }
    timing := t.timing
    regions := t.regions
    ladders := t.ladders
    map := t.map
    posts := t.posts
    buffers := t.buffers
    drive := { s.drive with
      requests := t.drive.requests
      recoveryRequest := t.drive.recoveryRequest
      grant := t.drive.grant
      activity := t.drive.activity
      physCyl := t.drive.physCyl
      trim := t.drive.trim }
    engine := t.engine
    results := t.results
    events := t.events
    pack := t.pack
    ci := { s.ci with controlAddr := t.ci.controlAddr, sequence := t.ci.sequence, reply := t.ci.reply } }

theorem State.CommandChanges.trans (h : s.CommandChanges t) (h' : t.CommandChanges u) : s.CommandChanges u := by
  unfold State.CommandChanges at *
  rw [h] at h'
  exact h'

/-- What the loss of a grant, ended jobs and requests handed back change, nothing being answered. -/
theorem State.Settles.changes (h : s.Settles t) (quiet : s.Undisturbed t) (waits : s.port.outstanding = none)
    (held : s.port.hold = none) : s.CommandChanges t := by
  obtain ⟨port, said⟩ := quiet.answers waits held
  have frame := h
  unfold State.Settles at frame
  unfold State.CommandChanges
  rw [frame] at port said ⊢
  dsimp only at port said ⊢
  rw [said, port]

/-- What the command of a code leaves alone. -/
structure State.CommandLeaves (code : Word) (s t : State) : Prop where
  changes : s.CommandChanges t
  stores : code ≠ 0o141 → t.posts = s.posts ∧ t.buffers = s.buffers ∧ t.port.formatEnable = s.port.formatEnable
  map : code ∉ [0o041, 0o044, 0o061, 0o141] → t.map = s.map
  results : code ∉ [0o002, 0o040, 0o041, 0o044, 0o141] → t.results = s.results
  pack : code ∉ [0o100, 0o102, 0o121, 0o141] → t.pack = s.pack
  grant : code ∉ [0o041, 0o044, 0o141] → t.drive.grant = s.drive.grant ∧ t.drive.activity = s.drive.activity
  heads : code ∉ [0o121, 0o141] → t.drive.physCyl = s.drive.physCyl ∧ t.port.virtCyl = s.port.virtCyl
  engine : code ∉ [0o002, 0o040, 0o041, 0o042, 0o043, 0o044, 0o120, 0o141] → t.engine = s.engine
  events : code ∉ [0o040, 0o041, 0o044, 0o140, 0o141] → t.events = s.events

theorem State.CommandLeaves.refl (s : State) : s.CommandLeaves code s where
  changes := rfl
  stores _ := ⟨rfl, rfl, rfl⟩
  map _ := rfl
  results _ := rfl
  pack _ := rfl
  grant _ := ⟨rfl, rfl⟩
  heads _ := ⟨rfl, rfl⟩
  engine _ := rfl
  events _ := rfl

/-- A command on the tables, the requests, the sequence and the selector. -/
theorem State.CommandLeaves.tables (same : t = { s with
    timing := t.timing
    regions := t.regions
    ladders := t.ladders
    drive := { s.drive with requests := t.drive.requests, trim := t.drive.trim }
    ci := { s.ci with controlAddr := t.ci.controlAddr, sequence := t.ci.sequence, reply := t.ci.reply } }) :
    s.CommandLeaves code t where
  changes := by unfold State.CommandChanges; rw [same]
  stores _ := ⟨(congrArg State.posts same :), (congrArg State.buffers same :), (congrArg (·.port.formatEnable) same :)⟩
  map _ := (congrArg State.map same :)
  results _ := (congrArg State.results same :)
  pack _ := (congrArg State.pack same :)
  grant _ := ⟨(congrArg (·.drive.grant) same :), (congrArg (·.drive.activity) same :)⟩
  heads _ := ⟨(congrArg (·.drive.physCyl) same :), (congrArg (·.port.virtCyl) same :)⟩
  engine _ := (congrArg State.engine same :)
  events _ := (congrArg State.events same :)

/-- A command on the Recovery Queue that cuts no grant short: RECOVER TRACK, or one that leaves the records and the events. -/
theorem State.CommandLeaves.queues (own : code ∈ [0o002, 0o040, 0o042, 0o043])
    (results : code ∈ [0o002, 0o040] ∨ t.results = s.results) (events : code = 0o040 ∨ t.events = s.events) (same : t = { s with
      results := t.results
      events := t.events
      ci := { s.ci with reply := t.ci.reply }
      engine := t.engine
      drive := { s.drive with recoveryRequest := t.drive.recoveryRequest } }) : s.CommandLeaves code t where
  changes := by unfold State.CommandChanges; rw [same]
  stores _ := ⟨(congrArg State.posts same :), (congrArg State.buffers same :), (congrArg (·.port.formatEnable) same :)⟩
  map _ := (congrArg State.map same :)
  results out := results.elim (fun mem => absurd mem (by simp at out ⊢; tauto)) id
  pack _ := (congrArg State.pack same :)
  grant _ := ⟨(congrArg (·.drive.grant) same :), (congrArg (·.drive.activity) same :)⟩
  heads _ := ⟨(congrArg (·.drive.physCyl) same :), (congrArg (·.port.virtCyl) same :)⟩
  engine out := absurd own (by simp at out ⊢; tauto)
  events out := events.elim (fun is => absurd is (by simp at out ⊢; tauto)) id

/-- CANCEL TRACK or RESET ENGINE: the queues, the map and the running grant. -/
theorem State.CommandLeaves.engineCut (own : code = 0o041 ∨ code = 0o044) (same : t = { s with
      map := t.map
      results := t.results
      events := t.events
      engine := t.engine
      drive := { s.drive with
        recoveryRequest := t.drive.recoveryRequest
        grant := t.drive.grant
        activity := t.drive.activity } }) : s.CommandLeaves code t where
  changes := by unfold State.CommandChanges; rw [same]
  stores _ := ⟨(congrArg State.posts same :), (congrArg State.buffers same :), (congrArg (·.port.formatEnable) same :)⟩
  map out := absurd own (by simp at out; tauto)
  results out := absurd own (by simp at out; tauto)
  pack _ := (congrArg State.pack same :)
  grant out := absurd own (by simp at out; tauto)
  heads _ := ⟨(congrArg (·.drive.physCyl) same :), (congrArg (·.port.virtCyl) same :)⟩
  engine out := absurd own (by simp at out; tauto)
  events out := absurd own (by simp at out; tauto)

/-! ## The commands on the Recovery Engine (R117, R131 to R133) -/

/-- Nothing differs but the Recovery Queue, the records, the events and the standing RECOVERY request. -/
def State.QueuesOnly (s t : State) : Prop :=
  t = { s with
    results := t.results
    events := t.events
    engine := t.engine
    drive := { s.drive with recoveryRequest := t.drive.recoveryRequest } }

/-- The engine's tests after a change of the queue. -/
theorem State.poke_queuesOnly (changed : u = { s with engine := u.engine }) : s.QueuesOnly u.poke := by
  unfold State.QueuesOnly
  rw [State.poke_frame, changed]

theorem State.closeJob_queuesOnly (ending : Ending) (j : Job) (s : State) : s.QueuesOnly (s.closeJob ending j) := by
  unfold State.QueuesOnly
  rw [State.closeJob_eq]

theorem State.placeCommanded_engine (j : Job) (s : State) : ∃ f, s.placeCommanded j = s.withEngine f := by
  unfold State.placeCommanded
  split <;> exact ⟨_, rfl⟩

theorem State.commandedRequest_queuesOnly {track : Track} {ns : List Nat} {ladder : Nat} {keepBest : Bool}
    (taken : s.commandedRequest track ns ladder keepBest = some t) : s.QueuesOnly t := by
  unfold State.commandedRequest at taken
  split at taken
  · cases taken
    exact State.poke_queuesOnly rfl
  · cases taken
    exact State.poke_queuesOnly rfl
  · cases taken
    exact State.poke_queuesOnly rfl
  · split at taken
    · cases taken
    dsimp only at taken
    split at taken
    next none =>
      cases taken
      rw [State.endJob_decided (List.isEmpty_iff.mp none)]
      exact s.closeJob_queuesOnly _ _
    next =>
      cases taken
      obtain ⟨f, placed⟩ := State.placeCommanded_engine (s.treatAll ns (newJob track ladder .commanded false keepBest s.pack.epoch)) s
      rw [placed]
      exact State.poke_queuesOnly rfl

/-- Nothing differs but what an ended job and an aborted grant change, nothing being held. -/
def State.CutsOnly (s t : State) : Prop :=
  t = { s with
    map := t.map
    results := t.results
    events := t.events
    engine := t.engine
    drive := { s.drive with
      recoveryRequest := t.drive.recoveryRequest
      grant := t.drive.grant
      activity := t.drive.activity } }

theorem State.CutsOnly.trans (h : s.CutsOnly t) (h' : t.CutsOnly u) : s.CutsOnly u := by
  unfold State.CutsOnly at *
  rw [h] at h'
  exact h'

theorem State.EndsJobs.cutsOnly (h : s.EndsJobs t) (held : s.port.hold = none) : s.CutsOnly t := by
  obtain ⟨port, said⟩ := h.unheld held
  have frame := h.frame
  unfold State.CutsOnly
  rw [frame] at port said ⊢
  dsimp only at port said ⊢
  rw [said, port]

theorem State.abortRecovery_cutsOnly (s : State) : s.CutsOnly s.abortRecovery := by
  unfold State.abortRecovery
  split
  · exact rfl
  split
  · split <;> exact rfl
  · exact rfl

theorem State.cutActive_cutsOnly (ending : Ending) (j : Job) (held : s.port.hold = none) : s.CutsOnly (s.cutActive ending j) := by
  have aborted := s.abortRecovery_cutsOnly
  have port : s.abortRecovery.port = s.port := by rw [aborted]
  exact aborted.trans ((State.endActive_endsJobs ending _ _).cutsOnly (by rw [port, held]))

theorem cmdCancelTrack_cutsOnly (ps : List Word) (held : s.port.hold = none) : s.CutsOnly (cmdCancelTrack ps s).2 := by
  unfold cmdCancelTrack
  split
  · dsimp only
    split
    · exact rfl
    split
    · exact rfl
    · exact State.cutActive_cutsOnly _ _ held
    · exact State.CutsOnly.trans (t := s.withEngine _) rfl ((State.endJob_endsJobs _ _ _).cutsOnly held)
    · exact State.CutsOnly.trans (t := s.withEngine _) rfl ((State.endJob_endsJobs _ _ _).cutsOnly held)
  · exact rfl

theorem State.CutsOnly.hold (h : s.CutsOnly t) (held : s.port.hold = none) : t.port.hold = none := by
  unfold State.CutsOnly at h
  rw [h, held]

theorem cmdResetEngine_cutsOnly (ps : List Word) (held : s.port.hold = none) : s.CutsOnly (cmdResetEngine ps s).2 := by
  have emptied (u : State) (cut : s.CutsOnly u) : s.CutsOnly u.finishEnding.abandonJobs.engineAtRest := by
    have finished := cut.trans (u.finishEnding_endsJobs.cutsOnly (cut.hold held))
    have ended := finished.trans ((State.abandonJobs_endsJobs _).cutsOnly (finished.hold held))
    exact ended.trans rfl
  unfold cmdResetEngine
  dsimp only
  split
  · exact emptied _ s.abortRecovery_cutsOnly
  · exact emptied _ (State.cutActive_cutsOnly _ _ held)

/-! ## Every command by its code -/

theorem cmdReadResult_leaves (ps : List Word) : s.CommandLeaves 0o002 (cmdReadResult ps s).2 := by
  cases held : s.results with
  | nil => rw [cmdReadResult_empty held]; exact .tables rfl
  | cons r rest =>
    rw [cmdReadResult_oldest held]
    have lifted := State.liftResultsFull_frame (s.recordShown r rest)
    generalize (s.recordShown r rest).liftResultsFull = v at lifted
    have same := v.poke_frame
    refine .queues (by decide) (.inl (by decide)) (.inr ?_) ?_
    · rw [same, lifted]
      rfl
    · rw [same, lifted]
      rfl

theorem cmdReadMapEntry_leaves (ps : List Word) : s.CommandLeaves code (cmdReadMapEntry ps s).2 := by
  unfold cmdReadMapEntry
  split
  · exact .refl s
  · exact .tables rfl

theorem cmdReadStoreData_leaves (ps : List Word) : s.CommandLeaves code (cmdReadStoreData ps s).2 := by
  unfold cmdReadStoreData
  split
  · exact .refl s
  · split <;> exact .tables rfl

theorem cmdListMap_leaves (ps : List Word) : s.CommandLeaves code (cmdListMap ps s).2 := by
  unfold cmdListMap
  split
  · exact .refl s
  · exact .tables rfl

theorem cmdReadRegion_leaves (ps : List Word) : s.CommandLeaves code (cmdReadRegion ps s).2 := by
  unfold cmdReadRegion
  split
  · exact .refl s
  · split
    · exact .tables rfl
    · exact .refl s

theorem cmdReadLadder_leaves (ps : List Word) : s.CommandLeaves code (cmdReadLadder ps s).2 := by
  unfold cmdReadLadder
  split
  · exact .refl s
  · split
    · exact .tables rfl
    · exact .refl s

theorem cmdReadDriveSector_leaves (ps : List Word) : s.CommandLeaves code (cmdReadDriveSector ps s).2 := by
  unfold cmdReadDriveSector
  split
  · exact .refl s
  split
  · exact .refl s
  · dsimp only
    split
    · exact .tables rfl
    · unfold State.fillDriveReplyEmpty State.fillDriveReply
      exact .tables rfl

theorem cmdLoadRegion_leaves (ps : List Word) : s.CommandLeaves code (cmdLoadRegion ps s).2 := by
  unfold cmdLoadRegion
  split
  · exact .refl s
  · split
    · exact .refl s
    · exact .tables rfl

theorem cmdDeleteRegion_leaves (ps : List Word) : s.CommandLeaves code (cmdDeleteRegion ps s).2 := by
  unfold cmdDeleteRegion
  split
  · exact .refl s
  split
  · split
    · exact .refl s
    · exact .tables rfl
  · exact .refl s

theorem cmdLoadLadderStep_leaves (ps : List Word) : s.CommandLeaves code (cmdLoadLadderStep ps s).2 := by
  unfold cmdLoadLadderStep
  split
  · split
    · exact .refl s
    · dsimp only
      split
      · exact .refl s
      · exact .tables rfl
  · exact .refl s

theorem cmdClearLadder_leaves (ps : List Word) : s.CommandLeaves code (cmdClearLadder ps s).2 := by
  unfold cmdClearLadder
  split
  · exact .refl s
  split
  · exact .refl s
  split
  · exact .refl s
  · exact .tables rfl

theorem cmdRecoverTrack_leaves (ps : List Word) : s.CommandLeaves 0o040 (cmdRecoverTrack ps s).2 := by
  unfold cmdRecoverTrack
  split
  · exact .refl s
  split
  · exact .refl s
  split
  · exact .refl s
  next taken =>
    have same := State.commandedRequest_queuesOnly taken
    unfold State.QueuesOnly at same
    refine .queues (by decide) (.inl (by decide)) (.inl rfl) ?_
    rw [same]

theorem cmdSuspendEngine_leaves (ps : List Word) : s.CommandLeaves 0o042 (cmdSuspendEngine ps s).2 :=
  .queues (by decide) (.inr rfl) (.inr rfl) rfl

theorem cmdResumeEngine_leaves (ps : List Word) : s.CommandLeaves 0o043 (cmdResumeEngine ps s).2 := by
  have frame := State.poke_frame (s.withEngine (fun e => { e with suspended := false }))
  unfold cmdResumeEngine
  refine .queues (by decide) (.inr ?_) (.inr ?_) ?_
  · rw [frame]
    rfl
  · rw [frame]
    rfl
  · rw [frame]
    rfl

theorem cmdLoadSector_leaves (ps : List Word) : s.CommandLeaves code (cmdLoadSector ps s).2 := by
  unfold cmdLoadSector
  split
  · exact .refl s
  split
  · exact .refl s
  split
  · exact .refl s
  split
  · exact .refl s
  · exact .tables rfl

theorem cmdDropSector_leaves (ps : List Word) : s.CommandLeaves 0o061 (cmdDropSector ps s).2 := by
  unfold cmdDropSector
  split
  · exact .refl s
  split
  · exact ⟨rfl, fun _ => ⟨rfl, rfl, rfl⟩, fun out => absurd (by decide) out, fun _ => rfl, fun _ => rfl, fun _ => ⟨rfl, rfl⟩,
      fun _ => ⟨rfl, rfl⟩, fun _ => rfl, fun _ => rfl⟩
  · exact .refl s

/-- A command on the pack record. -/
theorem State.CommandLeaves.packOnly (own : code ∈ [0o100, 0o102, 0o121, 0o141]) (same : t = { s with pack := t.pack }) :
    s.CommandLeaves code t where
  changes := by unfold State.CommandChanges; rw [same]
  stores _ := ⟨(congrArg State.posts same :), (congrArg State.buffers same :), (congrArg (·.port.formatEnable) same :)⟩
  map _ := (congrArg State.map same :)
  results _ := (congrArg State.results same :)
  pack out := absurd own out
  grant _ := ⟨(congrArg (·.drive.grant) same :), (congrArg (·.drive.activity) same :)⟩
  heads _ := ⟨(congrArg (·.drive.physCyl) same :), (congrArg (·.port.virtCyl) same :)⟩
  engine _ := (congrArg State.engine same :)
  events _ := (congrArg State.events same :)

theorem cmdPermitUnload_leaves (ps : List Word) : s.CommandLeaves 0o100 (cmdPermitUnload ps s).2 := by
  unfold cmdPermitUnload
  split
  case h_4 => exact .packOnly (by decide) rfl
  all_goals exact .refl s

theorem cmdSetGuard_leaves (ps : List Word) : s.CommandLeaves 0o102 (cmdSetGuard ps s).2 := by
  unfold cmdSetGuard
  split
  · exact .refl s
  · exact .packOnly (by decide) rfl

theorem cmdSetMode_leaves (ps : List Word) : s.CommandLeaves 0o120 (cmdSetMode ps s).2 := by
  unfold cmdSetMode
  split
  · exact .refl s
  split
  · exact .refl s
  split
  · exact .refl s
  next m _ _ _ =>
    have same := State.poke_frame ({ s with port := { s.port with mode := m }
                                            engine := { s.engine with transparent := m == Mode.transparent } } : State)
    dsimp only
    refine ⟨?_, fun _ => ?_, fun _ => ?_, fun _ => ?_, fun _ => ?_, fun _ => ?_, fun _ => ?_, fun out => absurd (by decide) out,
      fun _ => ?_⟩
    all_goals rw [same]
    · rfl
    · exact ⟨rfl, rfl, rfl⟩
    · exact ⟨rfl, rfl⟩
    · exact ⟨rfl, rfl⟩

theorem cmdSetGeometry_leaves (ps : List Word) : s.CommandLeaves 0o121 (cmdSetGeometry ps s).2 := by
  have set (g : Geometry) : s.CommandLeaves 0o121 (s.setGeometry g) :=
    ⟨rfl, fun _ => ⟨rfl, rfl, rfl⟩, fun _ => rfl, fun _ => rfl, fun out => absurd (by decide) out, fun _ => ⟨rfl, rfl⟩,
      fun out => absurd (by decide) out, fun _ => rfl, fun _ => rfl⟩
  unfold cmdSetGeometry
  split
  · exact .refl s
  split
  · exact .refl s
  · exact .refl s
  · exact .refl s
  · exact set _
  · exact set _

theorem cmdSetTiming_leaves (ps : List Word) : s.CommandLeaves code (cmdSetTiming ps s).2 := by
  unfold cmdSetTiming
  split
  · exact .tables rfl
  · exact .refl s

theorem cmdSetTrim_leaves (ps : List Word) : s.CommandLeaves code (cmdSetTrim ps s).2 := by
  unfold cmdSetTrim
  split
  · exact .refl s
  · exact .tables rfl

theorem cmdSetControlAddress_leaves (ps : List Word) : s.CommandLeaves code (cmdSetControlAddress ps s).2 := by
  unfold cmdSetControlAddress
  split
  · exact .refl s
  · exact .tables rfl

theorem cmdClearEvents_leaves (ps : List Word) : s.CommandLeaves 0o140 (cmdClearEvents ps s).2 := by
  unfold cmdClearEvents
  split
  · exact .refl s
  · exact ⟨rfl, fun _ => ⟨rfl, rfl, rfl⟩, fun _ => rfl, fun _ => rfl, fun _ => rfl, fun _ => ⟨rfl, rfl⟩, fun _ => ⟨rfl, rfl⟩,
      fun _ => rfl, fun out => absurd (by decide) out⟩

theorem State.awaitConfirm_leaves (pending : Word) : s.CommandLeaves code (s.awaitConfirm pending).2 := .tables rfl

/-- What a command answers leaves the state as its code allows. -/
def State.AnswerLeaves (code : Word) (s : State) (p : ResultCode × State) : Prop := s.CommandLeaves code p.2

/-- What the command of each code leaves alone. -/
theorem commandBody_leaves (ps : List Word) (held : s.port.hold = none) : s.AnswerLeaves code (commandBody code ps s) := by
  unfold commandBody
  refine iteInduction (fun _ => State.CommandLeaves.refl s) (fun _ => ?_)
  refine iteInduction (fun own => own ▸ cmdReadResult_leaves ps) (fun _ => ?_)
  refine iteInduction (fun _ => cmdReadMapEntry_leaves ps) (fun _ => ?_)
  refine iteInduction (fun _ => cmdReadStoreData_leaves ps) (fun _ => ?_)
  refine iteInduction (fun _ => cmdListMap_leaves ps) (fun _ => ?_)
  refine iteInduction (fun _ => cmdReadRegion_leaves ps) (fun _ => ?_)
  refine iteInduction (fun _ => cmdReadLadder_leaves ps) (fun _ => ?_)
  refine iteInduction (fun _ => cmdReadDriveSector_leaves ps) (fun _ => ?_)
  refine iteInduction (fun _ => cmdLoadRegion_leaves ps) (fun _ => ?_)
  refine iteInduction (fun _ => cmdDeleteRegion_leaves ps) (fun _ => ?_)
  refine iteInduction (fun _ => cmdLoadLadderStep_leaves ps) (fun _ => ?_)
  refine iteInduction (fun _ => cmdClearLadder_leaves ps) (fun _ => ?_)
  refine iteInduction (fun own => own ▸ cmdRecoverTrack_leaves ps) (fun _ => ?_)
  refine iteInduction (fun own => State.CommandLeaves.engineCut (.inl own) (cmdCancelTrack_cutsOnly ps held)) (fun _ => ?_)
  refine iteInduction (fun own => own ▸ cmdSuspendEngine_leaves ps) (fun _ => ?_)
  refine iteInduction (fun own => own ▸ cmdResumeEngine_leaves ps) (fun _ => ?_)
  refine iteInduction (fun own => State.CommandLeaves.engineCut (.inr own) (cmdResetEngine_cutsOnly ps held)) (fun _ => ?_)
  refine iteInduction (fun _ => cmdLoadSector_leaves ps) (fun _ => ?_)
  refine iteInduction (fun own => own ▸ cmdDropSector_leaves ps) (fun _ => ?_)
  refine iteInduction (fun _ => State.awaitConfirm_leaves _) (fun _ => ?_)
  refine iteInduction (fun own => own ▸ cmdPermitUnload_leaves ps) (fun _ => ?_)
  refine iteInduction (fun _ => State.awaitConfirm_leaves _) (fun _ => ?_)
  refine iteInduction (fun own => own ▸ cmdSetGuard_leaves ps) (fun _ => ?_)
  refine iteInduction (fun own => own ▸ cmdSetMode_leaves ps) (fun _ => ?_)
  refine iteInduction (fun own => own ▸ cmdSetGeometry_leaves ps) (fun _ => ?_)
  refine iteInduction (fun _ => cmdSetTiming_leaves ps) (fun _ => ?_)
  refine iteInduction (fun _ => cmdSetTrim_leaves ps) (fun _ => ?_)
  refine iteInduction (fun _ => cmdSetControlAddress_leaves ps) (fun _ => ?_)
  refine iteInduction (fun _ => State.awaitConfirm_leaves _) (fun _ => ?_)
  refine iteInduction (fun own => own ▸ cmdClearEvents_leaves ps) (fun _ => ?_)
  exact iteInduction (fun _ => State.CommandLeaves.refl s) (fun _ => State.CommandLeaves.refl s)

theorem runBody_leaves (count : Nat) (ps : List Word) (held : s.port.hold = none) :
    s.AnswerLeaves code (runBody count (commandBody code ps) s) :=
  iteInduction (fun _ => State.CommandLeaves.refl s) (fun _ => commandBody_leaves ps held)

/-! ## The confirmed commands (R35, R54, R158, R166) -/

theorem State.abortGrant_changes (waits : s.port.outstanding = none) (held : s.port.hold = none) :
    s.CommandChanges s.abortGrant ∧ s.abortGrant.port = s.port := by
  unfold State.abortGrant
  split
  · exact ⟨rfl, rfl⟩
  · have lost := (s.loseGrant_settles .forced).changes s.loseGrant_undisturbed waits held
    exact ⟨lost.trans rfl, (s.loseGrant_undisturbed.answers waits held).1⟩

/-- The departure of a pack with nothing held. -/
theorem State.beginDeparture_quiet (held : s.port.hold = none) : s.beginDeparture = { s with
    port := { s.port with formatEnable := false }
    engine := { s.engine with noPack := true, window := none }
    drive := { s.drive with recoveryRequest := false } } := by
  have quiet : s.releaseHold = s := by
    unfold State.releaseHold
    rw [held]
  have frame := s.beginDeparture_frame
  rw [quiet] at frame
  rw [frame, ← held]

/-- Jobs ended and requests handed back, from a state with nothing outstanding and nothing held. -/
theorem State.EndsJobs.changes (h : s.EndsJobs t) (waits : s.port.outstanding = none) (held : s.port.hold = none) :
    s.CommandChanges t.handBackAll := by
  have ended := h.settles.changes h.undisturbed waits held
  obtain ⟨port, -⟩ := h.undisturbed.answers waits held
  exact ended.trans (t.handBackAll_settles.changes t.handBackAll_undisturbed (by rw [port, waits]) (by rw [port, held]))

theorem State.giveRelease_changes (waits : s.port.outstanding = none) (held : s.port.hold = none) :
    s.CommandChanges s.giveRelease := by
  have departs := State.beginDeparture_quiet held
  have left : s.CommandChanges s.beginDeparture.assertRelease := by rw [departs]; exact rfl
  exact left.trans (State.EndsJobs.changes (State.releaseJobs_endsJobs _) (by rw [departs]; exact waits) (by rw [departs]; exact held))

theorem State.forceRelease_changes (waits : s.port.outstanding = none) (held : s.port.hold = none) :
    s.CommandChanges s.forceRelease := by
  obtain ⟨aborted, port⟩ := State.abortGrant_changes waits held
  have waits' : s.abortGrant.discardPosts.port.outstanding = none := by
    rw [State.discardPosts_eq]
    exact (congrArg Port.outstanding port).trans waits
  have held' : s.abortGrant.discardPosts.port.hold = none := by
    rw [State.discardPosts_eq]
    exact (congrArg Port.hold port).trans held
  have discarded : s.CommandChanges s.abortGrant.discardPosts := aborted.trans (by rw [State.discardPosts_eq]; exact rfl)
  have departs := State.beginDeparture_quiet held'
  have left := discarded.trans (u := s.abortGrant.discardPosts.beginDeparture.assertRelease) (by rw [departs]; exact rfl)
  exact left.trans (State.EndsJobs.changes (State.abandonJobs_endsJobs _) (by rw [departs]; exact waits') (by rw [departs]; exact held'))

theorem confirmed_changes (pending : Word) (waits : s.port.outstanding = none) (held : s.port.hold = none) :
    s.CommandChanges (confirmed pending s).2 := by
  unfold confirmed
  split
  · exact rfl
  split
  · unfold confirmedForceUnload
    split
    · exact rfl
    · exact State.giveRelease_changes waits held
    · exact State.forceRelease_changes waits held
    · exact State.forceRelease_changes waits held
    · exact rfl
  · unfold confirmedEnableFormat
    split <;> exact rfl

/-- A command row that no data sector is awaited for: what it leaves is the command's outcome recorded. -/
theorem exec_row_leaves {i : Instr} (row : i.code? = some code) (taken : ∀ a, s.ci.sequence ≠ .awaitData a) :
    ∃ confirming r u, exec i s = .next (concludeCommand (r, u)) ∧ (s.ci.sequence = .ready ∨ code = 0o141 ∨ confirming = false) ∧
      (s.commandTaken confirming code).CommandLeaves code u := by
  rw [exec_command i code s row]
  by_cases plain : ∀ pending, s.ci.sequence = .awaitConfirm pending →
      matchingConfirm s.geom.words i.params.length code i.params pending = false
  · rw [State.commandStep_eq _ _ _ _ taken plain]
    refine ⟨false, _, _, rfl, .inr (.inr rfl), ?_⟩
    exact runBody_leaves _ _ rfl
  · push Not at plain
    obtain ⟨pending, waits, matching⟩ := plain
    have matching : matchingConfirm s.geom.words i.params.length code i.params pending = true := by simpa using matching
    have own : code = Code.confirm := by
      simp only [matchingConfirm, Bool.and_eq_true, beq_iff_eq] at matching
      exact matching.1.1
    subst own
    rw [State.commandStep_confirming _ _ _ _ waits matching]
    refine ⟨true, _, _, rfl, .inr (.inl rfl), confirmed_changes pending rfl rfl, fun out => absurd rfl out, ?_, ?_, ?_, ?_, ?_, ?_, ?_⟩
    all_goals exact fun out => absurd (by decide) out

/-- Settles O39, from what each command leaves alone. -/
theorem commandRowsFrame : Obligations.CommandRowsFrame := by
  unfold Obligations.CommandRowsFrame
  intro s t i code row taken runs
  obtain ⟨confirming, r, u, same, confirms, leaves⟩ := exec_row_leaves row taken
  obtain rfl := Host.Outcome.next.inj (same.symm.trans runs)
  have changes := leaves.changes
  unfold State.CommandChanges at changes
  refine ⟨congrArg (· ++ [Completion.status .done []]) (congrArg State.completions changes :), (congrArg (·.ci.lastCommand) changes :),
    (congrArg (·.port.outstanding) changes :), (congrArg (·.port.hold) changes :), (congrArg State.now changes :),
    (congrArg State.lines changes :), (congrArg State.timer changes :), (congrArg State.driveLog changes :),
    (congrArg State.pending changes :), (congrArg (·.drive.cond) changes :), (congrArg (·.drive.physHead) changes :),
    (congrArg (·.drive.offsetCode) changes :), (congrArg (·.drive.settled) changes :), (congrArg (·.drive.strobe) changes :),
    (congrArg (·.drive.threshold) changes :), (congrArg (·.ci.toggle) changes :), leaves.stores, leaves.map, leaves.results, leaves.pack,
    leaves.grant, leaves.heads, leaves.engine, fun ready out => (leaves.events out).trans ?_⟩
  exact if_pos (.inl ready)

end Sys2Proof.Machine
end

