-- ==== Sys2Proof/Proofs/PackRelease.lean ====
section
/-! Unload Request, PERMIT UNLOAD and Unload Release, and the commands that wait for CONFIRM (R35, R54, R154 to R158, R166). -/

namespace Sys2Proof.Machine

variable {s t u v : State}

/-! ## Requests handed back (R80) -/

/-- Standing requests handed back: answers and a filled reply, no hold begun. -/
structure State.HandsBack (s t : State) : Prop where
  frame : t = { s with
    port := { s.port with outstanding := t.port.outstanding, hold := t.port.hold }
    completions := t.completions
    ci := { s.ci with reply := t.ci.reply }
    drive := { s.drive with requests := t.drive.requests } }
  hold : s.port.hold = none → t.port.hold = none

theorem State.HandsBack.trans (h : s.HandsBack t) (h' : t.HandsBack u) : s.HandsBack u where
  frame := by
    have first := h.frame
    have second := h'.frame
    rw [first] at second
    exact second
  hold none := h'.hold (h.hold none)

theorem State.handBackAll_handsBack (s : State) : s.HandsBack s.handBackAll := by
  unfold State.handBackAll
  suffices handed : ∀ (l : List ControllerRequest) (t : State), t.HandsBack (l.foldl State.handBack t) from
    State.HandsBack.trans (t := s.withDrive (fun d => { d with requests := [] })) ⟨rfl, id⟩ (handed _ _)
  intro l
  induction l with
  | nil => exact fun _ => ⟨rfl, id⟩
  | cons r l ih =>
    refine fun t => State.HandsBack.trans ?_ (ih _)
    rcases t.handBack_cases r with same | ⟨-, -, same⟩ | ⟨_, _, -, -, -, same⟩ <;> rw [same]
    · exact ⟨rfl, id⟩
    · exact ⟨rfl, fun _ => rfl⟩
    · exact ⟨rfl, id⟩

/-! ## Unload Release given (R134, R157, R158) -/

/-- What a release leaves, of any kind, of the state its departure begins from. -/
structure State.Released (s t : State) : Prop where
  pack : t.pack = { s.pack with state := .unloading, firstRequest := none, unloadRelease := true }
  formatEnable : t.port.formatEnable = false
  hold : t.port.hold = none
  noPack : t.engine.noPack = true
  window : t.engine.window = none
  requests : t.drive.requests = []
  grant : t.drive.grant = s.drive.grant
  posts : t.posts = s.posts
  now : t.now = s.now
  ci : t.ci = { s.ci with reply := t.ci.reply }
  reply : s.ci.reply = none → t.ci.reply = none
  events : ∀ e, e ≠ .storeFull → e ≠ .resultsFull → hasEvent e t.events = hasEvent e s.events

/-- A departure, the jobs ended, and the standing requests handed back. -/
theorem State.EndsJobs.released (ends : s.beginDeparture.assertRelease.EndsJobs u) :
    s.Released u.handBackAll ∧ u.handBackAll.engine = u.engine := by
  have begun := s.beginDeparture_frame
  have ended := ends.frame
  have handed := u.handBackAll_handsBack
  have frame := handed.frame
  have drive := u.handBackAll_drive
  have reply := u.handBackAll_undisturbed.reply
  have held : s.beginDeparture.assertRelease.port.hold = none := by
    show s.beginDeparture.port.hold = none
    rw [begun]
  have closed : s.beginDeparture.assertRelease.engine.window = none := rfl
  obtain ⟨port, -⟩ := ends.unheld held
  have events := ends.events
  have window := ends.window closed
  have hold := handed.hold (by rw [port, held])
  have start : s.beginDeparture.assertRelease = { s with
      port := { s.port with outstanding := s.releaseHold.port.outstanding, hold := none, formatEnable := false }
      completions := s.releaseHold.completions
      engine := { s.engine with noPack := true, window := none }
      drive := { s.drive with recoveryRequest := false }
      pack := { s.pack with state := .unloading, firstRequest := none, unloadRelease := true } } :=
    congrArg State.assertRelease begun
  generalize s.beginDeparture.assertRelease = b at *
  generalize u.handBackAll = t at *
  have engine : t.engine = u.engine := by rw [frame]
  have sameEvents : t.events = u.events := by rw [frame]
  have uci : u.ci = s.ci := by rw [ended, start]
  have upack : u.pack = { s.pack with state := .unloading, firstRequest := none, unloadRelease := true } := by rw [ended, start]
  have uposts : u.posts = s.posts := by rw [ended, start]
  have unow : u.now = s.now := by rw [ended, start]
  have ugrant : u.drive.grant = s.drive.grant := by rw [ended, start]
  have unoPack : u.engine.noPack = true := by rw [ended, start]
  have uformat : u.port.formatEnable = false := by rw [port, start]
  refine ⟨⟨?_, ?_, hold, engine ▸ unoPack, engine ▸ window, congrArg Drive.requests drive, (congrArg Drive.grant drive).trans ugrant, ?_, ?_,
    ?_, fun none => reply (uci ▸ none), fun e store full => ?_⟩, engine⟩
  · rw [← upack, frame]
  · rw [← uformat, frame]
  · rw [← uposts, frame]
  · rw [← unow, frame]
  · rw [← uci, frame]
  · rw [sameEvents, events e store full, start]

theorem State.giveRelease_released (s : State) :
    s.Released s.giveRelease ∧ s.giveRelease.engine = s.beginDeparture.assertRelease.releaseJobs.engine :=
  State.EndsJobs.released (State.releaseJobs_endsJobs _)

theorem State.forceRelease_released (s : State) : s.abortGrant.discardPosts.Released s.forceRelease ∧
    s.forceRelease.engine = s.abortGrant.discardPosts.beginDeparture.assertRelease.abandonJobs.engine :=
  State.EndsJobs.released (State.abandonJobs_endsJobs _)

/-! ## The grant aborted by a forced release (R100) -/

theorem State.abortGrant_settles (s : State) : ∃ w, s.Settles w ∧ s.Undisturbed w ∧ s.KeepsStores w ∧ w.drive.grant = none ∧
    Acts s w ∧ s.abortGrant = { w with drive := { w.drive with physCyl := s.abortGrant.drive.physCyl } } := by
  unfold State.abortGrant
  split
  next free => exact ⟨s, .refl s, .same rfl rfl rfl rfl, ⟨.rfl, rfl, rfl⟩, free, .refl, rfl⟩
  next =>
    exact ⟨s.loseGrant .forced, s.loseGrant_settles _, s.loseGrant_undisturbed, s.loseGrant_keepsStores (why := .forced) nofun, s.loseGrant_grant _,
      s.loseGrant_acts _, rfl⟩

/-- What a forced release leaves, from a state with a pack served. -/
theorem State.forceRelease_facts (queues : s.queuesWf = true) (loaded : s.pack.state ≠ .unloading) :
    let t := s.forceRelease
    t.pack = { s.pack with state := .unloading, firstRequest := none, unloadRelease := true } ∧ t.port.formatEnable = false ∧
      t.port.hold = none ∧ t.engine.noPack = true ∧ t.engine.window = none ∧ t.engine.jobs = [] ∧ t.drive.requests = [] ∧
      t.drive.grant = none ∧ t.posts.entries = [] ∧ (s.ci.reply = none → t.ci = s.ci) ∧
      (s.posts.entries ≠ [] → hasEvent .postDiscard t.events = true) ∧
      hasEvent .unloadRequested t.events = hasEvent .unloadRequested s.events := by
  intro t
  obtain ⟨released, engine⟩ := s.forceRelease_released
  obtain ⟨w, settles, still, ⟨posted, -⟩, free, acts, aborted⟩ := s.abortGrant_settles
  have discarded := State.discardPosts_eq s.abortGrant
  have pack : w.pack = s.pack := by rw [settles]
  have ci : w.ci = { s.ci with reply := w.ci.reply } := by rw [settles]
  have ended : w.engine.ending = none := by
    have kept : w.queuesWf = true := acts.moves.induct (fun move wf => move.keeps_queuesWf wf) queues
    exact State.WellQueued.none_ending (s := w) (w.queuesWf_iff.mp kept) (by rw [pack]; exact loaded)
  have seats := State.abandonJobs_seats s.abortGrant.discardPosts.beginDeparture.assertRelease
  have left : s.abortGrant.discardPosts.beginDeparture.assertRelease.engine.ending = none := by
    show s.abortGrant.discardPosts.beginDeparture.engine.ending = none
    rw [State.beginDeparture_frame, discarded, aborted]
    exact ended
  have jobs : t.engine.jobs = [] := by
    rw [engine]
    rw [left] at seats
    obtain ⟨active, parked, queued, ending⟩ : _ ∧ _ ∧ _ ∧ _ := by simpa [Engine.seats] using seats
    simp [Engine.jobs, Engine.placed, active, parked, queued, ending]
  generalize s.abortGrant.discardPosts = x at released discarded
  have wholePosts : s.abortGrant.posts = w.posts := (congrArg State.posts aborted :)
  have xpack : x.pack = s.pack := by rw [discarded, ← pack, aborted]
  have xci : x.ci = w.ci := by rw [discarded, aborted]
  have xevents : x.events = if w.posts.entries = [] then w.events else withEvent .postDiscard w.events := by
    rw [discarded, aborted]
  refine ⟨released.pack.trans ?_, released.formatEnable, released.hold, released.noPack, released.window, jobs, released.requests,
    released.grant.trans ?_, ?_, fun shown => ?_, fun post => ?_, ?_⟩
  · rw [xpack]
  · rw [discarded, aborted]
    exact free
  · rw [released.posts, discarded]
  · have bare := still.reply shown
    rw [released.ci, released.reply (xci ▸ bare), xci, ci]
    show { s.ci with reply := none } = s.ci
    rw [← shown]
  · rw [released.events .postDiscard nofun nofun, xevents, if_neg (posted.not.mpr post)]
    exact hasEvent_withEvent_self _ _
  · rw [released.events .unloadRequested nofun nofun, xevents, ← still.requested]
    split
    · rfl
    · exact hasEvent_withEvent_other (e := .unloadRequested) (f := .postDiscard) nofun _

/-! ## A release while spinning up (R154, R158) -/

theorem State.releaseJobs_none (idle : s.engine.liveJobs = []) : s.releaseJobs = s := by
  obtain ⟨active, parked, queued⟩ : s.engine.active = none ∧ s.engine.parked = none ∧ s.engine.queued = [] := by
    simpa [Engine.liveJobs, and_assoc] using idle
  have first : s.releaseActive = s := by
    unfold State.releaseActive
    rw [active]
  have second : s.endParked .abandoned = s := by
    unfold State.endParked
    rw [parked]
  unfold State.releaseJobs
  dsimp only
  rw [first, second, queued]
  rfl

/-- What a release leaves with no pack served and no job. -/
theorem State.giveRelease_spinning (empty : s.emptyWithoutPack = true) (spinning : s.pack.state = .spinningUp) :
    s.Released s.giveRelease ∧ s.giveRelease.engine.jobs = [] ∧ s.giveRelease.results = s.results ∧ s.giveRelease.map = s.map := by
  obtain ⟨unserved, gone⟩ := s.emptyWithoutPack_iff.mp empty
  obtain ⟨posts, held, live⟩ := unserved (by rw [spinning]; rfl)
  obtain ⟨-, ended⟩ := gone (by rw [spinning]; rfl) (by rw [spinning]; nofun)
  obtain ⟨released, engine⟩ := s.giveRelease_released
  have departs := State.beginDeparture_quiet held
  have idle : s.beginDeparture.assertRelease.engine.liveJobs = [] := by
    show s.beginDeparture.engine.liveJobs = []
    rw [departs]
    exact live
  have same : s.giveRelease = s.beginDeparture.assertRelease.handBackAll :=
    congrArg State.handBackAll (State.releaseJobs_none idle)
  have frame := (s.beginDeparture.assertRelease.handBackAll_handsBack).frame
  rw [← same] at frame
  refine ⟨released, ?_, ?_, ?_⟩
  · rw [engine, State.releaseJobs_none idle]
    show s.beginDeparture.engine.jobs = []
    rw [departs]
    show (s.engine.active.toList ++ s.engine.parked.toList ++ s.engine.ending.toList) ++ s.engine.queued = []
    rw [ended]
    simpa [Engine.liveJobs] using live
  · refine (congrArg State.results frame :).trans ?_
    show s.beginDeparture.results = _
    rw [departs]
  · refine (congrArg State.map frame :).trans ?_
    show s.beginDeparture.map = _
    rw [departs]

/-! ## A release that is not forced, a pack served (R134, R157) -/

theorem leaveAllUndecided_pending (ns : List Nat) (p : State × Job) :
    (ns.foldl leaveUndecided p).2.pending = p.2.pending.filter (fun n => decide (n ∉ ns)) := by
  induction ns generalizing p with
  | nil => simp
  | cons n ns ih =>
    have here : (leaveUndecided p n).2.pending = p.2.pending.filter (fun m => m != n) := by
      unfold leaveUndecided
      dsimp only
      split <;> rfl
    rw [List.foldl_cons, ih, here, List.filter_filter]
    refine List.filter_congr fun m _ => ?_
    by_cases same : m = n <;> simp [same]

theorem State.decidedAtEnd_pending (j : Job) (s : State) : (s.decidedAtEnd j).pending = [] := by
  refine (leaveAllUndecided_pending j.pending (s, j)).trans (List.filter_eq_nil_iff.mpr fun n mem => ?_)
  simpa using mem

/-- The job left ENDING by a release that is not forced: the ACTIVE job's, while its grant runs. -/
theorem State.releaseJobs_ending (ended : s.engine.ending = none) :
    (∀ j, s.engine.active = some j → s.drive.recoveryRunning = true →
      s.releaseJobs.engine.ending = some (s.decidedAtEnd j)) ∧
    (s.drive.recoveryRunning = false → s.releaseJobs.engine.ending = none) ∧ s.releaseJobs.engine.active = none ∧
    s.releaseJobs.engine.parked = none ∧ s.releaseJobs.engine.queued = [] := by
  have rest (u : State) (idle : u.engine.active = none) (same : u = s.releaseActive) :
      s.releaseJobs.engine.seats = (none, none, [], u.engine.ending) := by
    have seats := State.endRest_seats .abandoned idle
    rw [same] at seats ⊢
    exact seats
  have apart {x : Option Job} (seats : s.releaseJobs.engine.seats = (none, none, [], x)) : s.releaseJobs.engine.ending = x ∧
      s.releaseJobs.engine.active = none ∧ s.releaseJobs.engine.parked = none ∧ s.releaseJobs.engine.queued = [] := by
    obtain ⟨active, parked, queued, left⟩ : _ ∧ _ ∧ _ ∧ _ := by simpa [Engine.seats] using seats
    exact ⟨left, active, parked, queued⟩
  cases active : s.engine.active with
  | none =>
    have same : s = s.releaseActive := by
      unfold State.releaseActive
      rw [active]
    obtain ⟨left, idle⟩ := apart (rest s active same)
    exact ⟨nofun, fun _ => left.trans ended, idle⟩
  | some j =>
    cases running : s.drive.recoveryRunning with
    | true =>
      have same : (s.closeSectors j).1.withEngine (fun e => { e with active := none, ending := some (s.decidedAtEnd j) }) =
          s.releaseActive := by
        unfold State.releaseActive
        rw [active]
        exact (if_pos running).symm
      obtain ⟨left, idle⟩ := apart (rest _ rfl same)
      refine ⟨fun k is _ => ?_, nofun, idle⟩
      cases is
      exact left
    | false =>
      have same : s.endActive .abandoned j = s.releaseActive := by
        unfold State.releaseActive
        rw [active]
        exact (if_neg (by rw [running]; exact Bool.false_ne_true)).symm
      obtain ⟨gone, -, -, stays⟩ : _ ∧ _ ∧ _ ∧ _ := by simpa [Engine.seats] using s.endActive_seats .abandoned j
      obtain ⟨left, idle⟩ := apart (rest _ gone same)
      exact ⟨nofun, fun _ => left.trans (stays.trans ended), idle⟩

/-- A held request is answered once by a release that is not forced. -/
theorem State.giveRelease_answers (held : s.port.hold ≠ none) :
    s.giveRelease.completions = s.completions ++ [.status .notReady []] := by
  obtain ⟨h, held⟩ := Option.ne_none_iff_exists'.mp held
  have answered : s.releaseHold = s.finishRequest .notReady [] := by
    unfold State.releaseHold
    rw [held]
  have frame := s.beginDeparture_frame
  rw [answered] at frame
  have start : s.beginDeparture.assertRelease.port.outstanding = none ∧ s.beginDeparture.assertRelease.port.hold = none ∧
      s.beginDeparture.assertRelease.completions = s.completions ++ [.status .notReady []] := by
    show s.beginDeparture.port.outstanding = none ∧ s.beginDeparture.port.hold = none ∧ s.beginDeparture.completions = _
    rw [frame]
    exact ⟨rfl, rfl, rfl⟩
  obtain ⟨waits, unheld, said⟩ := start
  have quiet := (State.releaseJobs_endsJobs s.beginDeparture.assertRelease).undisturbed.trans (State.handBackAll_undisturbed _)
  exact (quiet.answers waits unheld).2.trans said

/-! ## UNLOAD_REQUEST, PERMIT UNLOAD and UNLOAD_RELEASE (R154 to R157) -/

theorem State.releaseTest_iff (s : State) : s.releaseTest = true ↔ s.posts.entries = [] ∧
    (s.pack.permitGiven = true ∨ s.pack.unloadGuard = .auto ∨ (s.pack.unloadGuard = .waitEngine ∧ s.engine.jobs = [])) := by
  unfold State.releaseTest Engine.length
  rw [Bool.and_eq_true, List.isEmpty_iff]
  refine and_congr_right fun _ => ?_
  cases s.pack.unloadGuard <;> simp [or_comm]

theorem cmdPermitUnload_unserved {ps : List Word} (away : s.pack.state = .empty ∨ s.pack.state = .spinningUp) :
    cmdPermitUnload ps s = (.noPack, s) := by
  unfold cmdPermitUnload
  rcases away with state | state <;> rw [state]

theorem cmdPermitUnload_loaded {ps : List Word} (loaded : s.pack.state = .loaded) : cmdPermitUnload ps s = (.notFound, s) := by
  unfold cmdPermitUnload
  rw [loaded]

theorem cmdPermitUnload_pending {ps : List Word} (pending : s.pack.state = .unloadPending) :
    cmdPermitUnload ps s = (.ok, { s with pack := { s.pack with permitGiven := true } }) := by
  unfold cmdPermitUnload
  rw [pending]
  rfl

theorem cmdPermitUnload_unloading {ps : List Word} (unloading : s.pack.state = .unloading) : cmdPermitUnload ps s = (.ok, s) := by
  unfold cmdPermitUnload
  rw [unloading]

/-- Settles O50, by the pack state. -/
theorem unloadSequence : Obligations.UnloadSequence := by
  unfold Obligations.UnloadSequence
  intro s elapsed ps sound u
  simp only [State.sound, Bool.and_eq_true] at sound
  obtain ⟨⟨⟨⟨⟨-, queues⟩, -⟩, empty⟩, -⟩, -⟩ := sound
  have request : exec (.unloadRequest elapsed) s = .next u.takeUnloadRequest := rfl
  refine ⟨fun away => ?_, fun spinning => ?_, fun loaded => ?_, fun first pending noted => ⟨fun soon => ?_, fun late => ?_⟩,
    fun takes => ⟨fun away => ?_, fun loaded => ?_, fun pending => ?_, fun unloading => ?_⟩, fun stays => ?_, fun pending passes => ?_⟩
  · rw [request]
    unfold State.takeUnloadRequest
    rcases away with state | state <;> rw [show u.pack.state = _ from state]
  · rw [request]
    unfold State.takeUnloadRequest
    rw [show u.pack.state = _ from spinning]
    obtain ⟨released, jobs, results, map⟩ := State.giveRelease_spinning (s := u.setEvent .unloadRequested) empty spinning
    exact ⟨_, rfl, (released.events .unloadRequested nofun nofun).trans (hasEvent_withEvent_self _ _), released.now, congrArg Pack.state released.pack,
      congrArg Pack.unloadRelease released.pack, congrArg Pack.firstRequest released.pack, released.formatEnable, released.noPack,
      released.window, jobs, released.requests, released.grant, results, map, released.posts⟩
  · rw [request]
    unfold State.takeUnloadRequest
    rw [show u.pack.state = _ from loaded]
    rfl
  · rw [request]
    unfold State.takeUnloadRequest
    rw [show u.pack.state = _ from pending]
    unfold State.secondRequest
    rw [show u.pack.firstRequest = _ from noted]
    exact congrArg _ (if_neg (Nat.not_le.mpr soon))
  · rw [request]
    unfold State.takeUnloadRequest
    rw [show u.pack.state = _ from pending]
    unfold State.secondRequest
    rw [show u.pack.firstRequest = _ from noted]
    obtain ⟨pack, -, hold, -, -, jobs, -, grant, posts, -, -, requested⟩ :=
      State.forceRelease_facts (s := u.setEvent .unloadRequested) queues (fun state => by cases pending.symm.trans state)
    exact ⟨_, congrArg _ (if_pos late), requested.trans (hasEvent_withEvent_self _ _), congrArg Pack.state pack,
      congrArg Pack.unloadRelease pack, grant, posts, jobs, hold⟩
  · exact exec_row_refuses rfl takes (by decide) (cmdPermitUnload_unserved (s := s.commandTaken false Code.permitUnload) away)
  · exact exec_row_refuses rfl takes (by decide) (cmdPermitUnload_loaded (s := s.commandTaken false Code.permitUnload) loaded)
  · exact exec_row rfl takes (by decide) (cmdPermitUnload_pending (s := s.commandTaken false Code.permitUnload) pending)
  · exact exec_row_refuses rfl takes (by decide) (cmdPermitUnload_unloading (s := s.commandTaken false Code.permitUnload) unloading)
  · refine congrArg Host.Outcome.next (if_neg fun ⟨pending, test⟩ => stays ⟨pending, s.releaseTest_iff.mp test⟩)
  · have row : exec .unloadRelease s = .next s.giveRelease := congrArg _ (if_pos ⟨pending, s.releaseTest_iff.mpr passes⟩)
    obtain ⟨released, engine⟩ := s.giveRelease_released
    have ended : s.beginDeparture.assertRelease.engine.ending = none := by
      show s.beginDeparture.engine.ending = none
      rw [State.beginDeparture_frame]
      exact State.WellQueued.none_ending (s := s) (s.queuesWf_iff.mp queues) (by rw [pending]; nofun)
    have start : s.beginDeparture.assertRelease.engine.active = s.engine.active ∧
        s.beginDeparture.assertRelease.drive.recoveryRunning = s.drive.recoveryRunning := by
      show s.beginDeparture.engine.active = _ ∧ s.beginDeparture.drive.recoveryRunning = _
      rw [State.beginDeparture_frame]
      exact ⟨rfl, rfl⟩
    obtain ⟨active, running⟩ := start
    obtain ⟨leaves, idle, noActive, noParked, noQueued⟩ := State.releaseJobs_ending ended
    rw [active, running] at leaves
    rw [running] at idle
    rw [← engine] at leaves idle noActive noParked noQueued
    refine ⟨_, row, congrArg Pack.state released.pack, congrArg Pack.unloadRelease released.pack, congrArg Pack.firstRequest released.pack,
      released.formatEnable, released.noPack, noActive, noParked, noQueued, released.window, released.grant, released.requests,
      released.hold, fun j is runs => ⟨_, leaves j is runs, ?_, State.decidedAtEnd_pending _ _⟩, idle, State.giveRelease_answers⟩
    rw [State.decidedAtEnd_same j s.beginDeparture.assertRelease]

/-! ## The commands that wait for CONFIRM (R35, R54, R158, R166) -/

theorem exec_row_waits {i : Instr} {code : Word} {ps : List Word}
    (row : exec i s = .next (s.commandStep code ps (State.awaitConfirm code))) (takes : s.takesCommand ps) (other : code ≠ Code.confirm) :
    exec i s = .next { s.afterCommand code .confirmRequired with
      ci := { (s.afterCommand code .confirmRequired).ci with sequence := .awaitConfirm code } } := exec_row row takes other rfl

theorem exec_confirm_unmatched {ps : List Word} (takes : s.takesCommand ps)
    (other : ∀ code, s.ci.sequence = .awaitConfirm code → ps.head? ≠ some code) :
    exec (.confirm ps) s = .next (s.afterCommand 0o141 .sequenceLost) := by
  have plain (pending : Word) (waits : s.ci.sequence = .awaitConfirm pending) :
      matchingConfirm s.geom.words ps.length Code.confirm ps pending = false := by
    have differs : (ps.head? == some pending) = false := by simpa using other pending waits
    unfold matchingConfirm
    rw [differs, Bool.and_false]
  show Host.Outcome.next (s.commandStep Code.confirm ps (cmdConfirm ps)) = _
  rw [State.commandStep_eq _ _ _ _ takes.1 plain, runBody_room _ _ _ (by exact takes.2)]
  rfl

theorem exec_confirm_matching {code : Word} {rest : List Word} (takes : s.takesCommand (code :: rest))
    (waits : s.ci.sequence = .awaitConfirm code) : exec (.confirm (code :: rest)) s =
      .next (concludeCommand (confirmed code (s.commandTaken true Code.confirm))) := by
  have room : (code :: rest).length ≤ s.geom.words - 4 := Nat.le_sub_of_add_le takes.2
  have matching : matchingConfirm s.geom.words (code :: rest).length Code.confirm (code :: rest) code = true := by
    unfold matchingConfirm
    rw [decide_eq_true room]
    simp
  exact congrArg _ (State.commandStep_confirming _ _ s code waits matching)

/-- A forced unload of a pack spinning up or served, whose execution nothing outstanding, held or selected disturbs (R158). -/
theorem confirmedForceUnload_facts (queues : s.queuesWf = true) (empty : s.emptyWithoutPack = true) (shown : s.ci.reply = none)
    (there : s.pack.state = .spinningUp ∨ packServes s.pack.state = true) :
    ∃ t, confirmedForceUnload s = (.ok, t) ∧
      t.pack = { s.pack with state := .unloading, firstRequest := none, unloadRelease := true } ∧ t.port.formatEnable = false ∧
      t.engine.noPack = true ∧ t.engine.window = none ∧ t.engine.jobs = [] ∧ t.drive.requests = [] ∧ t.posts.entries = [] ∧
      t.ci = s.ci ∧ (packServes s.pack.state = true → t.drive.grant = none) ∧
      (s.posts.entries ≠ [] → hasEvent .postDiscard t.events = true) ∧
      hasEvent .unloadRequested t.events = hasEvent .unloadRequested s.events := by
  rcases there with spinning | serves
  · have row : confirmedForceUnload s = (.ok, s.giveRelease) := by
      unfold confirmedForceUnload
      rw [spinning]
    obtain ⟨released, jobs, -, -⟩ := State.giveRelease_spinning empty spinning
    obtain ⟨posts, -, -⟩ := (s.emptyWithoutPack_iff.mp empty).unserved (by rw [spinning]; rfl)
    refine ⟨_, row, released.pack, released.formatEnable, released.noPack, released.window, jobs, released.requests,
      (congrArg PostQueue.entries released.posts).trans posts, ?_, fun serves => ?_, fun posted => absurd posts posted,
      released.events .unloadRequested nofun nofun⟩
    · rw [released.ci, released.reply shown, ← shown]
    · rw [spinning] at serves
      cases serves
  · have loaded : s.pack.state ≠ .unloading := fun state => by
      rw [state] at serves
      cases serves
    have row : confirmedForceUnload s = (.ok, s.forceRelease) := by
      unfold confirmedForceUnload
      cases state : s.pack.state with
      | loaded => rfl
      | unloadPending => rfl
      | _ =>
        rw [state] at serves
        cases serves
    obtain ⟨pack, format, -, noPack, window, jobs, requests, grant, posts, ci, discarded, requested⟩ :=
      State.forceRelease_facts queues loaded
    exact ⟨_, row, pack, format, noPack, window, jobs, requests, posts, ci shown, fun _ => grant, discarded, requested⟩

/-- Settles O48, by the pending command. -/
theorem confirmedCommands : Obligations.ConfirmedCommands := by
  unfold Obligations.ConfirmedCommands
  intro s ps takes
  refine ⟨?_, exec_confirm_unmatched takes, ?_⟩
  · intro waiting
    exact ⟨exec_row_waits rfl takes (by decide), exec_row_waits rfl takes (by decide), exec_row_waits rfl takes (by decide)⟩
  rintro code rest waits rfl u
  have row := exec_confirm_matching takes waits
  refine ⟨?_, ?_, ?_, ?_, ?_, ?_⟩
  · rintro rfl
    exact row
  · rintro rfl serves
    have body : confirmedEnableFormat (s.commandTaken true Code.confirm) = _ := if_pos serves
    exact row.trans (congrArg (Host.Outcome.next ∘ concludeCommand) body)
  · rintro rfl unserved
    have body : confirmedEnableFormat (s.commandTaken true Code.confirm) = _ := if_neg (by
      show ¬ packServes s.pack.state = true
      rw [unserved]
      exact Bool.false_ne_true)
    exact row.trans (congrArg (Host.Outcome.next ∘ concludeCommand) body)
  · rintro rfl empty
    have body : confirmedForceUnload (s.commandTaken true Code.confirm) = (.noPack, s.commandTaken true Code.confirm) := by
      unfold confirmedForceUnload
      rw [show (s.commandTaken true Code.confirm).pack.state = _ from empty]
    exact row.trans (congrArg (Host.Outcome.next ∘ concludeCommand) body)
  · rintro rfl unloading
    have body : confirmedForceUnload (s.commandTaken true Code.confirm) = (.ok, s.commandTaken true Code.confirm) := by
      unfold confirmedForceUnload
      rw [show (s.commandTaken true Code.confirm).pack.state = _ from unloading]
    exact row.trans (congrArg (Host.Outcome.next ∘ concludeCommand) body)
  · rintro rfl there sound
    simp only [State.sound, Bool.and_eq_true] at sound
    obtain ⟨⟨⟨⟨⟨-, queues⟩, -⟩, empty⟩, -⟩, -⟩ := sound
    have emptied : (s.commandTaken true Code.confirm).emptyWithoutPack = true := by
      rw [State.emptyWithoutPack_iff] at empty ⊢
      obtain ⟨unserved, gone⟩ := empty
      exact ⟨fun away => ⟨(unserved away).1, rfl, (unserved away).2.2⟩, gone⟩
    obtain ⟨t, body, pack, format, noPack, window, jobs, requests, posts, ci, grant, discarded, requested⟩ :=
      confirmedForceUnload_facts (s := s.commandTaken true Code.confirm) queues emptied rfl there
    have runs := row.trans (congrArg (Host.Outcome.next ∘ concludeCommand) (show confirmed _ _ = _ from body))
    exact ⟨_, runs, congrArg Pack.state pack, congrArg Pack.unloadRelease pack, congrArg Pack.firstRequest pack, format, noPack, window,
      jobs, requests, posts, (congrArg (fun c : CommandInterface => { c with lastResult := .ok }) ci :), grant, discarded,
      requested.trans (congrArg _ (if_pos (.inr rfl)))⟩

end Sys2Proof.Machine
end

