-- ==== Sys2Proof/Proofs/EngineCommands.lean ====
section
/-! SUSPEND, RESUME and RESET ENGINE, and the records of the jobs a reset ends (R100, R127, R130, R132, R133). -/

namespace Sys2Proof.Machine

variable {s t u : State} {j : Job} {ending : Ending}

/-! ## The records of ended jobs (R130) -/

/-- A record but for its outcomes. -/
def ResultRecord.bare (r : ResultRecord) : ResultRecord := { r with outcomes := [] }

/-- The records that enter the Result Queue from one state to another are those of these jobs, in their order. -/
def State.Files (ending : Ending) (ks : List Job) (s t : State) : Prop :=
  ∃ records, t.results = s.results ++ records ∧ records.map ResultRecord.bare = ks.map (fun k => (k.record ending).bare)

theorem State.Files.nil (same : t.results = s.results) : s.Files ending [] t := ⟨[], by rw [same, List.append_nil], rfl⟩

theorem State.Files.trans {ks ls : List Job} (h : s.Files ending ks t) (h' : t.Files ending ls u) : s.Files ending (ks ++ ls) u := by
  obtain ⟨first, results, files⟩ := h
  obtain ⟨second, results', files'⟩ := h'
  exact ⟨first ++ second, by rw [results', results, List.append_assoc], by rw [List.map_append, List.map_append, files, files']⟩

theorem State.Files.length {ks : List Job} (h : s.Files ending ks t) : t.results.length = s.results.length + ks.length := by
  obtain ⟨records, results, files⟩ := h
  have same := congrArg List.length files
  rw [List.length_map, List.length_map] at same
  rw [results, List.length_append, same]

theorem Job.SameCase.bare {k : Job} (same : j.SameCase k) : (k.record ending).bare = (j.record ending).bare := by
  rw [same]
  rfl

/-- A job ended leaves its record where it has a place. -/
theorem State.endJob_files (ending : Ending) (j : Job) (s : State) :
    s.Files ending (if j.reservation || s.canReserve then [j] else []) (s.endJob ending j) := by
  have frame := State.endJob_frame ending j s
  dsimp only at frame
  have results := (congrArg State.results frame :)
  dsimp only at results
  split at results
  next kept =>
    rw [if_pos kept]
    exact ⟨_, results, congrArg (fun r => [r]) (s.decidedAtEnd_same j).bare⟩
  next full =>
    rw [if_neg full]
    exact .nil results

theorem State.closeJob_files (ending : Ending) (j : Job) (s : State) :
    s.Files ending (if j.reservation || s.canReserve then [j] else []) (s.closeJob ending j) := by
  have results := (congrArg State.results (State.closeJob_eq ending j s) :)
  change _ = if (j.reservation || s.canReserve) = true then _ else _ at results
  split at results
  next kept =>
    rw [if_pos kept]
    exact ⟨_, results, rfl⟩
  next full =>
    rw [if_neg full]
    exact .nil results

/-- A job with its reservation leaves its record. -/
theorem State.endJob_filed (reserved : j.reservation = true) : s.Files ending [j] (s.endJob ending j) := by
  have files := s.endJob_files ending j
  rwa [reserved, Bool.true_or, if_pos rfl] at files

/-- A filed record is that of one of the jobs. -/
theorem ResultRecord.of_filed {records : List ResultRecord} {ks : List Job} {r : ResultRecord}
    (files : records.map ResultRecord.bare = ks.map (fun k => (k.record ending).bare)) (mem : r ∈ records) :
    ∃ k ∈ ks, (k.record ending).bare = r.bare :=
  List.mem_map.mp (files ▸ List.mem_map_of_mem mem)

/-- Each of the jobs has its record. -/
theorem ResultRecord.filed_of {records : List ResultRecord} {ks : List Job} {k : Job}
    (files : records.map ResultRecord.bare = ks.map (fun k => (k.record ending).bare)) (mem : k ∈ ks) :
    ∃ r ∈ records, r.bare = (k.record ending).bare :=
  List.mem_map.mp (files.symm ▸ List.mem_map_of_mem (f := fun k : Job => (k.record ending).bare) mem)

/-- What the filed records show, but for their outcomes, in their order. -/
theorem ResultRecord.map_filed {α : Type} {records : List ResultRecord} {ks : List Job}
    (files : records.map ResultRecord.bare = ks.map (fun k => (k.record ending).bare)) (f : ResultRecord → α)
    (bare : ∀ r, f r.bare = f r) : records.map f = ks.map (fun k => f (k.record ending)) := by
  have shown := congrArg (List.map f) files
  rw [List.map_map, List.map_map] at shown
  simpa only [Function.comp_def, bare] using shown

/-! ## The jobs in their order (R133) -/

theorem State.finishEnding_files (s : State) :
    ∃ ks, s.Files .abandoned ks s.finishEnding ∧ ks ⊆ s.engine.ending.toList ∧
      ((∀ k ∈ s.engine.ending, k.reservation = true) → ks = s.engine.ending.toList) := by
  cases left : s.engine.ending with
  | none =>
    have same : s.finishEnding = s := by
      unfold State.finishEnding
      rw [left]
    rw [same]
    exact ⟨[], .nil rfl, List.nil_subset _, fun _ => rfl⟩
  | some j =>
    have files := State.closeJob_files .abandoned j (s.withEngine (fun e => { e with ending := none }))
    rw [← State.finishEnding_eq left] at files
    refine ⟨_, files, ?_, fun reserved => ?_⟩
    · split
      · exact List.Subset.refl _
      · exact List.nil_subset _
    · rw [reserved j (Option.mem_some_self j), Bool.true_or, if_pos rfl]
      rfl

theorem State.endParked_files (s : State) :
    ∃ ks, s.Files .abandoned ks (s.endParked .abandoned) ∧ ks ⊆ s.engine.parked.toList ∧
      ((∀ k ∈ s.engine.parked, k.reservation = true) → ks = s.engine.parked.toList) := by
  cases parked : s.engine.parked with
  | none =>
    have same : s.endParked .abandoned = s := by
      unfold State.endParked
      rw [parked]
    rw [same]
    exact ⟨[], .nil rfl, List.nil_subset _, fun _ => rfl⟩
  | some j =>
    have row : s.endParked .abandoned = (s.withEngine (fun e => { e with parked := none })).endJob .abandoned j := by
      unfold State.endParked
      rw [parked]
    have files := State.endJob_files .abandoned j (s.withEngine (fun e => { e with parked := none }))
    rw [← row] at files
    refine ⟨_, files, ?_, fun reserved => ?_⟩
    · split
      · exact List.Subset.refl _
      · exact List.nil_subset _
    · rw [reserved j (Option.mem_some_self j), Bool.true_or, if_pos rfl]
      rfl

/-- The queued jobs in their order: with no job placed and none of them reserved, each while a place is free. -/
theorem State.endQueued_files (fuel : Nat) (idle : s.engine.active = none) (enough : s.engine.queued.length ≤ fuel) :
    ∃ ks, s.Files .abandoned ks (s.endQueued .abandoned fuel) ∧ ks ⊆ s.engine.queued ∧
      (s.engine.parked = none → s.engine.ending = none → (∀ k ∈ s.engine.queued, k.reservation = false) →
        ks = s.engine.queued.take (64 - s.results.length) ∧
        (64 - s.results.length < s.engine.queued.length → hasEvent .resultsFull (s.endQueued .abandoned fuel).events = true)) := by
  induction fuel generalizing s with
  | zero =>
    have none : s.engine.queued = [] := List.length_eq_zero_iff.mp (Nat.le_zero.mp enough)
    rw [none]
    exact ⟨[], .nil rfl, List.nil_subset _, fun _ _ _ => ⟨List.take_nil.symm, fun few => absurd few (Nat.not_lt_zero _)⟩⟩
  | succ fuel ih =>
    cases queue : s.engine.queued with
    | nil =>
      have same : s.endQueued .abandoned (fuel + 1) = s := by
        unfold State.endQueued
        rw [queue]
      rw [same]
      exact ⟨[], .nil rfl, List.nil_subset _, fun _ _ _ => ⟨List.take_nil.symm, fun few => absurd few (Nat.not_lt_zero _)⟩⟩
    | cons j rest =>
      have row : s.endQueued .abandoned (fuel + 1) =
          ((s.withEngine (fun e => { e with queued := rest })).endJob .abandoned j).endQueued .abandoned fuel := by
        rw [State.endQueued, queue]
      have same := State.endJob_idle_seats .abandoned j (s := s.withEngine (fun e => { e with queued := rest })) idle
      have files := State.endJob_files .abandoned j (s.withEngine (fun e => { e with queued := rest }))
      have frame := State.endJob_frame .abandoned j (s.withEngine (fun e => { e with queued := rest }))
      have events := (congrArg State.events frame :)
      rw [row]
      generalize (s.withEngine (fun e => { e with queued := rest })).endJob .abandoned j = v at same files events
      obtain ⟨active, parked, queued, left⟩ : _ ∧ _ ∧ _ ∧ _ := by simpa [Engine.seats] using same
      have queued : v.engine.queued = rest := queued
      rw [queue, List.length_cons] at enough
      obtain ⟨ks, later, among, exact'⟩ := ih (active.trans idle) (by rw [queued]; omega)
      rw [queued] at among exact'
      refine ⟨_, files.trans later, ?_, fun noParked noEnding unreserved => ?_⟩
      · split
        · exact List.cons_subset_cons j among
        · exact fun k mem => List.mem_cons_of_mem _ (among mem)
      have first : j.reservation = false := unreserved j List.mem_cons_self
      have room : (s.withEngine (fun e => { e with queued := rest })).canReserve = decide (s.results.length < 64) := by
        show decide (s.results.length + (s.engine.placed.filter (·.reservation)).length < 64) = _
        have placed : s.engine.placed = [] := by
          unfold Engine.placed
          rw [idle, noParked, noEnding]
          rfl
        rw [placed]
        rfl
      obtain ⟨taken, dropped⟩ := exact' (parked.trans noParked) (left.trans noEnding)
        (fun k mem => unreserved k (List.mem_cons_of_mem _ mem))
      have count := files.length
      rw [first, Bool.false_or, room] at count files ⊢
      by_cases free : s.results.length < 64
      · rw [decide_eq_true free, if_pos rfl] at count ⊢
        have count : v.results.length = s.results.length + 1 := count
        rw [taken, count]
        rw [count] at dropped
        have one : 64 - s.results.length = (64 - (s.results.length + 1)) + 1 := by omega
        refine ⟨?_, fun few => dropped ?_⟩
        · rw [one, List.take_succ_cons]
          rfl
        · rw [one, List.length_cons] at few
          omega
      · rw [decide_eq_false free, if_neg Bool.false_ne_true] at count ⊢
        have count : v.results.length = s.results.length := count
        have none : 64 - s.results.length = 0 := by omega
        rw [taken, count, none, List.take_zero, List.take_zero]
        refine ⟨rfl, fun _ => ?_⟩
        have full : hasEvent .resultsFull v.events = true := by
          rw [events, first, Bool.false_or, room, decide_eq_false free]
          exact hasEvent_withEvent_self _ _
        exact Acts.events (State.endQueued_acts .abandoned fuel v).acts .resultsFull full

/-! ## A grant aborted by a command (R100, R127) -/

theorem State.abortRecovery_frame (s : State) : s.abortRecovery = { s with
    drive := { s.drive with grant := s.abortRecovery.drive.grant, activity := s.abortRecovery.drive.activity } } := by
  unfold State.abortRecovery
  split
  · rfl
  split
  · split <;> rfl
  · rfl

/-- A running RECOVERY grant is aborted, and no other. -/
theorem State.abortRecovery_drive (s : State) :
    let aborts (g : Grant) : Prop := s.drive.grant = some g ∧ g.aborted = false ∧ ∃ u x f l, g.work = .recovery u x f l
    s.abortRecovery.drive.recoveryRunning = false ∧
      (∀ g, aborts g →
        (∀ r d, s.drive.activity = .positioning r d →
          s.abortRecovery.drive.grant = some { g with aborted := true } ∧ s.abortRecovery.drive.activity = .positioning r d) ∧
        ((∀ r d, s.drive.activity ≠ .positioning r d) →
          s.abortRecovery.drive.grant = none ∧ s.abortRecovery.drive.activity = .idle)) ∧
      ((∀ g, ¬ aborts g) → s.abortRecovery = s) := by
  intro aborts
  have runs : s.drive.recoveryRunning = true ↔ ∃ g, aborts g := s.drive.recoveryRunning_iff
  by_cases running : ∃ g, aborts g
  · obtain ⟨g, here, stands, t, x, f, l, work⟩ := running
    have row : s.abortRecovery = match s.drive.activity with
        | .positioning _ _ => s.setGrant { g with aborted := true }
        | .idle | .settling | .reading | .writing | .verifying | .clearing _ => s.endGrant := by
      unfold State.abortRecovery
      rw [here]
      dsimp only
      exact if_pos (runs.mpr ⟨g, here, stands, t, x, f, l, work⟩)
    by_cases positioning : ∃ r d, s.drive.activity = .positioning r d
    · obtain ⟨r, d, activity⟩ := positioning
      rw [activity] at row
      have row : s.abortRecovery = s.setGrant { g with aborted := true } := row
      have still : (s.setGrant { g with aborted := true }).drive.recoveryRunning = false := by
        refine Bool.eq_false_iff.mpr fun still => ?_
        obtain ⟨g', here', stands', -⟩ := (Drive.recoveryRunning_iff _).mp still
        cases here'
        cases stands'
      rw [row]
      refine ⟨still, fun g' ⟨here', _⟩ => ?_, fun other => absurd ⟨here, stands, t, x, f, l, work⟩ (other g)⟩
      cases here.symm.trans here'
      refine ⟨fun r' d' is => ?_, fun no => absurd activity (no r d)⟩
      exact ⟨rfl, is⟩
    · push Not at positioning
      have row : s.abortRecovery = s.endGrant := by
        rw [row]
        cases activity : s.drive.activity with
        | positioning r d => exact absurd activity (positioning r d)
        | _ => rfl
      rw [row]
      exact ⟨rfl, fun _ _ => ⟨fun r d is => absurd is (positioning r d), fun _ => ⟨rfl, rfl⟩⟩,
        fun other => absurd ⟨here, stands, t, x, f, l, work⟩ (other g)⟩
  · have off : s.drive.recoveryRunning = false := Bool.eq_false_iff.mpr (mt runs.mp running)
    have same : s.abortRecovery = s := by
      unfold State.abortRecovery
      split
      · rfl
      · exact if_neg (by rw [off]; exact Bool.false_ne_true)
    push Not at running
    rw [same]
    exact ⟨off, fun g is => absurd is (running g), fun _ => rfl⟩

/-- What the aborted grant charges to the ACTIVE job. -/
theorem State.chargeRunning_eq {g : Grant} (running : s.drive.recoveryRunning = true) (here : s.drive.grant = some g) (j : Job) :
    s.chargeRunning j = j.charge g := by
  unfold State.chargeRunning
  rw [if_pos running, here]
  rfl

theorem State.chargeRunning_idle (idle : s.drive.recoveryRunning = false) (j : Job) : s.chargeRunning j = j := by
  unfold State.chargeRunning
  exact if_neg (by rw [idle]; exact Bool.false_ne_true)

/-- A charged job differs in its settles and its clamp. -/
theorem State.chargeRunning_same (j : Job) (s : State) :
    s.chargeRunning j = { j with settles := (s.chargeRunning j).settles, clamped := (s.chargeRunning j).clamped } := by
  unfold State.chargeRunning
  split
  · cases s.drive.grant <;> rfl
  · rfl

/-! ## RESET ENGINE (R133) -/

/-- The ACTIVE job cut by RESET ENGINE, with its grant. -/
def State.activeCut (s : State) : State :=
  match s.engine.active with
  | none => s.abortRecovery
  | some j => s.cutActive .abandoned j

theorem cmdResetEngine_eq (ps : List Word) (s : State) :
    cmdResetEngine ps s = (.ok, s.activeCut.finishEnding.abandonJobs.engineAtRest) := by
  unfold cmdResetEngine State.activeCut
  cases s.engine.active <;> rfl

theorem State.activeCut_endsJobs (s : State) : s.abortRecovery.EndsJobs s.activeCut := by
  unfold State.activeCut
  split
  · exact .refl _
  · exact State.endActive_endsJobs _ _ _

theorem State.activeCut_seats (s : State) :
    s.activeCut.engine.seats = (none, s.engine.parked, s.engine.queued, s.engine.ending) := by
  have engine := s.abortRecovery_engine
  unfold State.activeCut
  split
  next idle => rw [engine, Engine.seats, idle]
  next j active =>
    refine (State.endActive_seats .abandoned _ _).trans ?_
    rw [engine]

theorem State.activeCut_files (s : State) :
    ∃ ks, s.Files .abandoned ks s.activeCut ∧ ks ⊆ s.engine.active.toList.map s.chargeRunning ∧
      ((∀ k ∈ s.engine.active, k.reservation = true) → ks = s.engine.active.toList.map s.chargeRunning) := by
  have results : s.abortRecovery.results = s.results := by rw [State.abortRecovery_frame]
  unfold State.activeCut
  cases active : s.engine.active with
  | none => exact ⟨[], .nil results, List.nil_subset _, fun _ => rfl⟩
  | some j =>
    have files := State.endJob_files .abandoned (s.chargeRunning j)
      ((s.abortRecovery.withEngine (fun e => { e with active := none })).setRecoveryRequest false)
    have start : s.Files .abandoned [] ((s.abortRecovery.withEngine (fun e => { e with active := none })).setRecoveryRequest false) :=
      .nil results
    refine ⟨_, start.trans files, ?_, fun reserved => ?_⟩
    · rw [List.nil_append]
      split
      · exact List.Subset.refl _
      · exact List.nil_subset _
    · have kept : (s.chargeRunning j).reservation = true := by
        rw [State.chargeRunning_same]
        exact reserved j (Option.mem_some_self j)
      rw [kept, Bool.true_or, if_pos rfl]
      rfl

theorem State.finishEnding_idle_seats (idle : s.engine.active = none) :
    s.finishEnding.engine.seats = (none, s.engine.parked, s.engine.queued, none) := by
  unfold State.finishEnding
  split
  next left => rw [Engine.seats, idle, left]
  next j left =>
    refine (State.closeJob_idle_seats .abandoned j (s := s.withEngine (fun e => { e with ending := none })) idle).trans ?_
    show (s.engine.active, s.engine.parked, s.engine.queued, none) = _
    rw [idle]

/-- The records of a reset, in their order. -/
theorem State.resetJobs_files (s : State) :
    let t := s.activeCut.finishEnding.abandonJobs
    ∃ ks, s.Files .abandoned ks t ∧ (∀ k ∈ ks, ∃ j ∈ s.engine.jobs, j.track = k.track) ∧
      (s.queuesWf = true →
        let room := 64 - (s.results.length + s.engine.reservations)
        ks = s.engine.active.toList.map s.chargeRunning ++ s.engine.ending.toList ++ s.engine.parked.toList ++ s.engine.queued.take room ∧
        (room < s.engine.queued.length → hasEvent .resultsFull t.events = true)) := by
  intro t
  obtain ⟨ks₁, files₁, among₁, exact₁⟩ := s.activeCut_files
  obtain ⟨idle₁, parked₁, queued₁, ending₁⟩ : _ ∧ _ ∧ _ ∧ _ := by simpa [Engine.seats] using s.activeCut_seats
  obtain ⟨ks₂, files₂, among₂, exact₂⟩ := s.activeCut.finishEnding_files
  obtain ⟨idle₂, parked₂, queued₂, ending₂⟩ : _ ∧ _ ∧ _ ∧ _ := by simpa [Engine.seats] using State.finishEnding_idle_seats idle₁
  have row : t = ((s.activeCut.finishEnding.endParked .abandoned).endQueued .abandoned
      (s.activeCut.finishEnding.endParked .abandoned).engine.queued.length) := by
    show s.activeCut.finishEnding.abandonJobs = _
    unfold State.abandonJobs
    rw [idle₂]
  obtain ⟨ks₃, files₃, among₃, exact₃⟩ := s.activeCut.finishEnding.endParked_files
  obtain ⟨idle₃, parked₃, queued₃, ending₃⟩ : _ ∧ _ ∧ _ ∧ _ := by simpa [Engine.seats] using State.endParked_seats .abandoned idle₂
  obtain ⟨ks₄, files₄, among₄, exact₄⟩ := State.endQueued_files _ idle₃ (Nat.le_refl _)
  rw [ending₁] at among₂ exact₂
  rw [parked₂, parked₁] at among₃ exact₃
  rw [← row] at files₄ exact₄
  rw [queued₃, queued₂, queued₁] at among₄ exact₄
  refine ⟨_, ((files₁.trans files₂).trans files₃).trans files₄, fun k mem => ?_, fun wf => ?_⟩
  · have stays {l : List Job} (sub : ∀ j ∈ l, j ∈ s.engine.jobs) (mem : k ∈ l) : ∃ j ∈ s.engine.jobs, j.track = k.track :=
      ⟨k, sub k mem, rfl⟩
    rcases List.mem_append.mp mem with mem | mem
    · rcases List.mem_append.mp mem with mem | mem
      · rcases List.mem_append.mp mem with mem | mem
        · obtain ⟨j, active, rfl⟩ := List.mem_map.mp (among₁ mem)
          refine ⟨j, by simp [Engine.jobs, Engine.placed, List.mem_append, active], ?_⟩
          rw [State.chargeRunning_same]
        · exact stays (fun j mem => by simp [Engine.jobs, Engine.placed, mem]) (among₂ mem)
      · exact stays (fun j mem => by simp [Engine.jobs, Engine.placed, mem]) (among₃ mem)
    · exact stays (fun j mem => by simp [Engine.jobs, Engine.placed, mem]) (among₄ mem)
  · intro room
    have well : s.WellQueued := s.queuesWf_iff.mp wf
    have reserved (k : Job) (mem : k ∈ s.engine.placed) : k.reservation = true := (well.placed k mem).1
    have ks₁ := exact₁ fun k is => reserved k (by simp [Engine.placed, Option.mem_def.mp is])
    have ks₂ := exact₂ fun k is => reserved k (by simp [Engine.placed, Option.mem_def.mp is])
    have ks₃ := exact₃ fun k is => reserved k (by simp [Engine.placed, Option.mem_def.mp is])
    obtain ⟨ks₄, dropped⟩ := exact₄ parked₃ (ending₃.trans ending₂) fun k mem => (well.queued k mem).1
    have count : s.engine.reservations = s.engine.active.toList.length + s.engine.parked.toList.length + s.engine.ending.toList.length := by
      unfold Engine.reservations
      rw [List.filter_eq_self.mpr reserved]
      simp [Engine.placed, Nat.add_assoc]
    have length := ((files₁.trans files₂).trans files₃).length
    rw [ks₁, ks₂, ks₃] at length
    simp only [List.length_append, List.length_map] at length
    have same : 64 - (s.activeCut.finishEnding.endParked .abandoned).results.length = room := by
      rw [length]
      show _ = 64 - (s.results.length + s.engine.reservations)
      omega
    rw [same] at ks₄ dropped
    exact ⟨by rw [ks₁, ks₂, ks₃, ks₄], dropped⟩

/-! ## SUSPEND and RESUME ENGINE (R132) -/

/-- The ACTIVE job of an engine that is not stopped has its request standing while no grant of it runs (R116, R124). -/
theorem State.poke_requests (active : s.poke.engine.active = some j) (free : s.engine.stopped = false)
    (idle : s.drive.recoveryRunning = false) : s.poke.drive.recoveryRequest = true := by
  rcases s.preempt_cases with same | ⟨k, -, -, -, -, -, -, -, parks⟩
  · rw [State.poke_stays s same] at active ⊢
    have active : s.engine.active = some j := active
    show (s.engine.active.isSome && !s.engine.stopped && !s.drive.recoveryRunning) = true
    rw [active, free, idle]
    rfl
  · have none : s.poke.engine.active = none := by
      unfold State.poke
      rw [parks]
      rfl
    rw [none] at active
    cases active

/-- What the jobs ended by RESET ENGINE leave, from a state with nothing held. -/
theorem State.resetJobs_frame (held : s.port.hold = none) :
    let w := s.activeCut.finishEnding.abandonJobs
    w = { s with
      map := w.map
      results := w.results
      events := w.events
      engine := { s.engine with
        active := none
        parked := none
        ending := none
        queued := []
        window := w.engine.window
        resultsFull := w.engine.resultsFull
        banks := w.engine.banks }
      drive := { s.drive with
        grant := s.abortRecovery.drive.grant
        activity := s.abortRecovery.drive.activity
        recoveryRequest := w.drive.recoveryRequest } } := by
  intro w
  have ends : s.abortRecovery.EndsJobs w :=
    (s.activeCut_endsJobs.trans (State.finishEnding_endsJobs _)).trans (State.abandonJobs_endsJobs _)
  have seats : w.engine.seats = (none, none, [], none) :=
    s.activeCut.finishEnding.abandonJobs_seats.trans (by rw [State.finishEnding_ending])
  have start := s.abortRecovery_frame
  obtain ⟨port, said⟩ := ends.unheld (by rw [start]; exact held)
  have frame := ends.frame
  generalize w = w at *
  obtain ⟨active, parked, queued, left⟩ : _ ∧ _ ∧ _ ∧ _ := by simpa [Engine.seats] using seats
  have kept : s.abortRecovery.port = s.port ∧ s.abortRecovery.completions = s.completions := by
    rw [start]
    exact ⟨rfl, rfl⟩
  rw [port, said, active, parked, queued, left, kept.1, kept.2] at frame
  refine frame.trans ?_
  generalize s.abortRecovery = v at start ⊢
  rw [start]

/-- Settles O45, command by command. -/
theorem engineCommands : Obligations.EngineCommands := by
  unfold Obligations.EngineCommands
  intro s ps takes
  refine ⟨?_, ?_, ?_⟩
  · intro u
    exact exec_row (body := cmdSuspendEngine ps) rfl takes (by decide) rfl
  · have row : exec (.resumeEngine ps) s = .next (concludeCommand (.ok,
        ((s.commandTaken false 0o043).withEngine (fun e => { e with suspended := false })).poke)) := exec_row rfl takes (by decide) rfl
    have frame := State.poke_frame ((s.commandTaken false 0o043).withEngine (fun e => { e with suspended := false }))
    have jobs := State.poke_jobs ((s.commandTaken false 0o043).withEngine (fun e => { e with suspended := false }))
    refine ⟨_, row, ?_, ?_, jobs, ?_, ?_, ?_, fun j active running idle => ?_⟩
    · exact (congrArg (·.engine.suspended) frame :)
    · exact (congrArg (·.engine.queued) frame :)
    · exact congrArg (fun c : CommandInterface => { c with lastResult := .ok }) (congrArg State.ci frame :)
    · exact (congrArg State.results frame :)
    · exact (congrArg State.map frame :)
    · have held : s.engine.held = false := (congrArg (·.engine.held) frame :).symm.trans running
      have free : ({ s.engine with suspended := false } : Engine).stopped = false := Bool.or_eq_false_iff.mpr ⟨held, rfl⟩
      exact State.poke_requests active free idle
  · have row : exec (.resetEngine ps) s = .next (concludeCommand (.ok,
        (s.commandTaken false 0o044).activeCut.finishEnding.abandonJobs.engineAtRest)) :=
      exec_row rfl takes (by decide) (cmdResetEngine_eq ps _)
    have frame := State.resetJobs_frame (s := s.commandTaken false 0o044) rfl
    obtain ⟨ks, ⟨records, results, files⟩, among, exact'⟩ := State.resetJobs_files (s.commandTaken false 0o044)
    obtain ⟨stopped, aborted, other⟩ := State.abortRecovery_drive (s.commandTaken false 0o044)
    dsimp only at frame results
    generalize (s.commandTaken false 0o044).activeCut.finishEnding.abandonJobs = w at *
    generalize (s.commandTaken false 0o044).abortRecovery = v at *
    have engine := (congrArg State.engine frame :)
    have drive := (congrArg State.drive frame :)
    have grant : w.drive.grant = v.drive.grant := (congrArg Drive.grant drive :)
    have activity : w.drive.activity = v.drive.activity := (congrArg Drive.activity drive :)
    have running : w.drive.recoveryRunning = v.drive.recoveryRunning := by
      unfold Drive.recoveryRunning
      rw [grant]
    refine ⟨_, row, ?_, rfl, rfl, rfl, fun b mem => ?_, rfl, running.trans stopped, (congrArg Engine.noPack engine :),
      (congrArg Engine.speed engine :), (congrArg Engine.transparent engine :), ⟨records, results, fun r mem => ?_, fun wf => ?_⟩,
      ⟨fun g is => ?_, fun none => ?_, ?_⟩, congrArg (fun c : CommandInterface => { c with lastResult := .ok }) (congrArg State.ci frame :),
      (congrArg State.regions frame :), (congrArg State.ladders frame :), (congrArg State.posts frame :),
      (congrArg State.buffers frame :), (congrArg State.timing frame :)⟩
    · show (w.engine.active.toList ++ w.engine.parked.toList ++ w.engine.ending.toList) ++ w.engine.queued = []
      rw [engine]
      rfl
    · obtain ⟨_, -, rfl⟩ := List.mem_map.mp mem
      rfl
    · obtain ⟨k, here, same⟩ := ResultRecord.of_filed files mem
      obtain ⟨j, member, track⟩ := among k here
      exact ⟨(congrArg ResultRecord.ending same).symm, j, member, track.trans (congrArg ResultRecord.track same)⟩
    · obtain ⟨whole, dropped⟩ := exact' wf
      refine ⟨?_, dropped, fun j g active here runs => ?_⟩
      · rw [ResultRecord.map_filed files (fun x => (x.track, x.origin, x.epoch, x.passes, x.misSeeks)) fun _ => rfl, whole]
        simp only [List.map_append, List.map_map]
        refine congrArg (· ++ _ ++ _ ++ _) (List.map_congr_left fun j _ => ?_)
        exact (congrArg (fun k : Job => (k.track, k.origin, k.epoch, k.passes, k.misSeeks))
          (State.chargeRunning_same j (s.commandTaken false 0o044)) :)
      · have member : (s.commandTaken false 0o044).chargeRunning j ∈ ks := by
          have here : j ∈ s.engine.active.toList := by
            rw [active]
            exact List.mem_cons_self
          rw [whole]
          exact List.mem_append_left _ (List.mem_append_left _ (List.mem_append_left _ (List.mem_map_of_mem here)))
        obtain ⟨r, mem, same⟩ := ResultRecord.filed_of files member
        have charged := State.chargeRunning_eq (s := s.commandTaken false 0o044) runs here j
        rw [charged] at same
        exact ⟨r, mem, congrArg ResultRecord.track same, congrArg ResultRecord.settles same, congrArg ResultRecord.clamped same⟩
    · obtain ⟨moving, still⟩ := aborted g is
      exact ⟨fun r d is => ⟨grant.trans (moving r d is).1, activity.trans (moving r d is).2⟩,
        fun rests => ⟨grant.trans (still rests).1, activity.trans (still rests).2⟩⟩
    · rw [other none] at grant activity
      exact ⟨grant, activity⟩
    · refine (congrArg (fun d : Drive => { d with recoveryRequest := false }) drive).trans ?_
      dsimp only
      rw [← grant, ← activity]
      rfl

end Sys2Proof.Machine
end

