-- ==== Sys2Proof/Proofs/TrackCommands.lean ====
section
/-! RECOVER TRACK and CANCEL TRACK: the parameters read, the named sectors treated, the request's job, and the cancelled job with its
grant (R100, R117 to R119, R131, R149). -/

namespace Sys2Proof.Machine

variable {s t : State} {j : Job} {n : Nat} {x : Track}

/-! ## The parameters of RECOVER TRACK (R117) -/

/-- The two words of the sector set name the sector. -/
def setNames (first second : Word) (n : Nat) : Prop :=
  (n < 16 ∧ first.getLsbD n = true) ∨ (16 ≤ n ∧ n < 32 ∧ second.getLsbD (n - 16) = true)

theorem mem_sectorSet {first second : Word} : n ∈ sectorSet first second ↔ setNames first second n := by
  unfold sectorSet setNames
  rw [List.mem_filter, List.mem_range]
  split
  next low =>
    have high : ¬ 16 ≤ n := by omega
    have word : n < 32 := by omega
    simp only [low, high, word, true_and, false_and, or_false]
  next high =>
    have above : 16 ≤ n := by omega
    simp only [above, high, false_and, true_and, false_or]

theorem setNames_zero (n : Nat) : ¬ setNames 0 0 n := by simp [setNames]

/-- A set that names no sector is that of two zero words. -/
theorem words_zero_of_unnamed {first second : Word} (empty : ∀ n, ¬ setNames first second n) : first = 0 ∧ second = 0 := by
  refine ⟨BitVec.eq_of_getLsbD_eq fun i low => ?_, BitVec.eq_of_getLsbD_eq fun i low => ?_⟩
  · rw [BitVec.ofNat_eq_ofNat, BitVec.getLsbD_zero]
    exact Bool.eq_false_iff.mpr fun named => empty i (.inl ⟨low, named⟩)
  · rw [BitVec.ofNat_eq_ofNat, BitVec.getLsbD_zero]
    refine Bool.eq_false_iff.mpr fun named => empty (i + 16) (.inr ⟨by omega, by omega, ?_⟩)
    rwa [Nat.add_sub_cancel]

theorem sectorSet_isEmpty {first second : Word} : (sectorSet first second).isEmpty = true ↔ first = 0 ∧ second = 0 := by
  rw [List.isEmpty_iff, List.eq_nil_iff_forall_not_mem]
  simp only [mem_sectorSet]
  constructor
  · exact words_zero_of_unnamed
  · rintro ⟨rfl, rfl⟩
    exact setNames_zero

theorem namedSectors_outside {g : Geometry} {first second : Word} (named : setNames first second n) (outside : g.sectors ≤ n) :
    namedSectors g first second = none := by
  have member := mem_sectorSet.mpr named
  unfold namedSectors
  dsimp only
  rw [if_neg fun empty => List.ne_nil_of_mem member (List.isEmpty_iff.mp empty), if_neg]
  intro all
  exact absurd (of_decide_eq_true (List.all_eq_true.mp all n member)) (Nat.not_lt.mpr outside)

/-- The sectors named: an empty set names every one of the track. -/
theorem namedSectors_within {g : Geometry} {first second : Word} (within : ∀ n, setNames first second n → n < g.sectors) :
    ∃ ns, namedSectors g first second = some ns ∧
      ∀ n, n ∈ ns ↔ n < g.sectors ∧ ((first = 0 ∧ second = 0) ∨ setNames first second n) := by
  unfold namedSectors
  dsimp only
  by_cases empty : first = 0 ∧ second = 0
  · rw [if_pos (sectorSet_isEmpty.mpr empty)]
    exact ⟨_, rfl, fun n => by simp only [List.mem_range, empty, and_self, true_or, and_true]⟩
  · rw [if_neg (sectorSet_isEmpty.not.mpr empty), if_pos (List.all_eq_true.mpr fun n member =>
      decide_eq_true (within n (mem_sectorSet.mp member)))]
    refine ⟨_, rfl, fun n => ?_⟩
    rw [mem_sectorSet, or_iff_right empty]
    exact ⟨fun named => ⟨within n named, named⟩, And.right⟩

theorem Track.within_iff (x : Track) (g : Geometry) : x.within g = true ↔ x.cyl < g.cylinders ∧ x.head < g.heads := by
  simp [Track.within]

/-- The ladder and keep-best a RECOVER TRACK names, the default being the region's. -/
def ladderNamed (r : Region) (lad : Word) : Nat := if lad = 0o177777 then r.ladder else lad.toNat

def keepNamed (r : Region) (kb : Word) : Bool := if kb = 0o177777 then r.keepBest else decide (kb = 1)

theorem ladderParam_eq (r : Region) (lad : Word) :
    (if lad = Config.regionDefault then some r.ladder else if lad.toNat < Config.ladders then some lad.toNat else none) =
      if 7 < lad.toNat ∧ lad ≠ 0o177777 then none else some (ladderNamed r lad) := by
  unfold ladderNamed Config.regionDefault Config.ladders
  by_cases default : lad = 0o177777
  · simp [default]
  · simp only [default, if_false, ne_eq, not_false_eq_true, and_true]
    split
    · rw [if_neg (by omega)]
    · rw [if_pos (by omega)]

theorem keepParam_eq (r : Region) (kb : Word) :
    (if kb = Config.regionDefault then some r.keepBest else flagOf kb) =
      if 1 < kb.toNat ∧ kb ≠ 0o177777 then none else some (keepNamed r kb) := by
  unfold keepNamed Config.regionDefault
  by_cases default : kb = 0o177777
  · simp [default]
  · simp only [default, if_false, ne_eq, not_false_eq_true, and_true]
    by_cases large : 1 < kb.toNat
    · rw [if_pos large, flagOf_none]
      exact large
    · rw [if_neg large, flagOf_some]
      have zero := word_eq_iff kb 0 (by omega)
      have one := word_eq_iff kb 1 (by omega)
      rcases (by omega : kb.toNat = 0 ∨ kb.toNat = 1) with is | is
      · rw [zero.mpr is]
        rfl
      · rw [one.mpr is]
        rfl

theorem recoverParams_short {ps : List Word} (short : ps.length < 6) : recoverParams s ps = none := by
  unfold recoverParams
  split
  · simp only [List.length_cons] at short
    omega
  · rfl

section parameters
variable {c h lad set1 set2 kb : Word} {rest : List Word}

theorem recoverParams_eq : recoverParams s (c :: h :: lad :: set1 :: set2 :: kb :: rest) =
    if (7 < lad.toNat ∧ lad ≠ 0o177777) ∨ (1 < kb.toNat ∧ kb ≠ 0o177777) ∨ s.geom.cylinders ≤ c.toNat ∨ s.geom.heads ≤ h.toNat then none
    else (namedSectors s.geom set1 set2).map fun ns => (⟨c.toNat, h.toNat⟩, ns, ladderNamed (s.regionAt c.toNat) lad,
      keepNamed (s.regionAt c.toNat) kb) := by
  unfold recoverParams
  dsimp only
  rw [ladderParam_eq, keepParam_eq]
  by_cases ladder : 7 < lad.toNat ∧ lad ≠ 0o177777
  · rw [if_pos ladder]
    exact (if_pos (.inl ladder)).symm
  by_cases keep : 1 < kb.toNat ∧ kb ≠ 0o177777
  · rw [if_neg ladder, if_pos keep]
    exact (if_pos (.inr (.inl keep))).symm
  rw [if_neg ladder, if_neg keep]
  cases namedSectors s.geom set1 set2 with
  | none => rw [Option.map_none, ite_self]
  | some ns =>
    have inside := Track.within_iff ⟨c.toNat, h.toNat⟩ s.geom
    by_cases within : s.geom.cylinders ≤ c.toNat ∨ s.geom.heads ≤ h.toNat
    · rw [if_pos (Or.inr (Or.inr within))]
      exact if_neg (by rw [inside]; dsimp only; omega)
    · rw [if_neg (not_or.mpr ⟨ladder, not_or.mpr ⟨keep, within⟩⟩)]
      exact if_pos (inside.mpr (by dsimp only; omega))

/-- The parameters of a RECOVER TRACK hold a value that R117's first test refuses. -/
def trackRefused (g : Geometry) (c h lad set1 set2 kb : Word) : Prop :=
  g.cylinders ≤ c.toNat ∨ g.heads ≤ h.toNat ∨ (7 < lad.toNat ∧ lad ≠ 0o177777) ∨ (1 < kb.toNat ∧ kb ≠ 0o177777) ∨
    (∃ n, n < 32 ∧ g.sectors ≤ n ∧ ((n < 16 ∧ set1.getLsbD n = true) ∨ (16 ≤ n ∧ set2.getLsbD (n - 16) = true)))

theorem recoverParams_refused (refused : trackRefused s.geom c h lad set1 set2 kb) :
    recoverParams s (c :: h :: lad :: set1 :: set2 :: kb :: rest) = none := by
  rw [recoverParams_eq]
  rcases refused with cylinder | head | ladder | keep | ⟨n, word, outside, named⟩
  · exact if_pos (.inr (.inr (.inl cylinder)))
  · exact if_pos (.inr (.inr (.inr head)))
  · exact if_pos (.inl ladder)
  · exact if_pos (.inr (.inl keep))
  · have names : setNames set1 set2 n := named.imp_right fun ⟨above, bit⟩ => ⟨above, word, bit⟩
    rw [namedSectors_outside names outside, Option.map_none, ite_self]

theorem recoverParams_read (good : ¬ trackRefused s.geom c h lad set1 set2 kb) :
    ∃ ns, recoverParams s (c :: h :: lad :: set1 :: set2 :: kb :: rest) =
        some (⟨c.toNat, h.toNat⟩, ns, ladderNamed (s.regionAt c.toNat) lad, keepNamed (s.regionAt c.toNat) kb) ∧
      ∀ n, n ∈ ns ↔ n < s.geom.sectors ∧ ((set1 = 0 ∧ set2 = 0) ∨ setNames set1 set2 n) := by
  unfold trackRefused at good
  have within (n : Nat) (names : setNames set1 set2 n) : n < s.geom.sectors := by
    unfold setNames at names
    by_contra outside
    refine good (.inr (.inr (.inr (.inr ⟨n, by omega, by omega, ?_⟩))))
    exact names.imp_right fun ⟨above, _, bit⟩ => ⟨above, bit⟩
  obtain ⟨ns, named, members⟩ := namedSectors_within within
  refine ⟨ns, ?_, members⟩
  rw [recoverParams_eq, named]
  refine if_neg ?_
  tauto

end parameters

/-! ## The named sectors treated (R118) -/

theorem mem_insertSector {m : Nat} {l : List Nat} : m ∈ insertSector n l ↔ m = n ∨ m ∈ l := by
  induction l with
  | nil => simp [insertSector]
  | cons k l ih =>
    unfold insertSector
    split
    · simp
    split
    next same => simp [same]
    next => rw [List.mem_cons, ih, List.mem_cons, or_left_comm]

/-- An outcome entered for a sector that has none. -/
theorem mem_insertOutcome {e f : OutcomeEntry} {l : List OutcomeEntry} (fresh : ∀ g ∈ l, g.sector ≠ e.sector) :
    f ∈ insertOutcome e l ↔ f = e ∨ f ∈ l := by
  induction l with
  | nil => simp [insertOutcome]
  | cons g l ih =>
    obtain ⟨here, later⟩ := List.forall_mem_cons.mp fresh
    unfold insertOutcome
    split
    · exact List.mem_cons
    · rw [if_neg here.symm, List.mem_cons, ih later, List.mem_cons, or_left_comm]

theorem State.treatAll_nil (s : State) (j : Job) : s.treatAll [] j = j := rfl

/-- Treating the sectors changes the pending set and the outcomes alone. -/
theorem State.treatAll_same (ns : List Nat) (j : Job) (s : State) : j.SameCase (s.treatAll ns j) := by
  unfold State.treatAll Job.SameCase
  induction ns generalizing j with
  | nil => rfl
  | cons n ns ih =>
    rw [List.foldl_cons, ih, Job.treat_eq]

theorem State.treatAll_track (ns : List Nat) (j : Job) (s : State) : (s.treatAll ns j).track = j.track := by
  rw [State.treatAll_same]

/-- The last of the sectors treated. -/
theorem State.treatAll_concat (ns : List Nat) (n : Nat) (j : Job) (s : State) :
    s.treatAll (ns ++ [n]) j = (s.treatAll ns j).treat (s.servingAt (j.track.at n)) n := by
  have track := s.treatAll_track ns j
  unfold State.treatAll at track ⊢
  rw [List.foldl_append, List.foldl_cons, List.foldl_nil, track]

/-- Each named sector without a serving entry is pending. -/
theorem State.mem_treatAll_pending {ns : List Nat} {m : Nat} :
    m ∈ (s.treatAll ns j).pending ↔ m ∈ j.pending ∨ (m ∈ ns ∧ s.servingAt (j.track.at m) = false) := by
  induction ns using List.reverseRecOn with
  | nil => simp [State.treatAll_nil]
  | append_singleton ns n ih =>
    rw [State.treatAll_concat, Job.treat_eq]
    dsimp only
    simp only [List.mem_append, List.mem_singleton]
    split
    next stays =>
      rw [ih]
      by_cases same : m = n
      · subst same
        rcases stays with here | serving
        · have := ih.mp here
          tauto
        · simp [serving]
      · simp [same]
    next joins =>
      obtain ⟨-, unserved⟩ := not_or.mp joins
      rw [mem_insertSector, ih]
      by_cases same : m = n
      · subst same
        simp [unserved]
      · simp [same]

/-- A new job's outcomes: each named sector with a serving entry. -/
theorem State.mem_treatAll_outcomes {ns : List Nat} (bare : j.pending = [] ∧ j.outcomes = []) {e : OutcomeEntry} :
    e ∈ (s.treatAll ns j).outcomes ↔
      e.outcome = .alreadyHeld ∧ e.step = j.step ∧ e.sector ∈ ns ∧ s.servingAt (j.track.at e.sector) = true := by
  induction ns using List.reverseRecOn generalizing e with
  | nil => simp [State.treatAll_nil, bare.2]
  | append_singleton ns n ih =>
    rw [State.treatAll_concat, Job.treat_eq]
    simp only [List.mem_append, List.mem_singleton]
    have step : (s.treatAll ns j).step = j.step := by rw [State.treatAll_same]
    split
    next stays =>
      rw [ih]
      by_cases same : e.sector = n
      · have known : s.servingAt (j.track.at n) = true → n ∈ ns := by
          intro serving
          rcases stays with pending | ⟨-, g, member, sector⟩
          · have unserved := State.mem_treatAll_pending.mp pending
            simp [bare.1, serving] at unserved
          · exact sector ▸ (ih.mp member).2.2.1
        rw [same]
        tauto
      · simp [same]
    next treated =>
      have fresh : s.servingAt (j.track.at n) = true → ∀ g ∈ (s.treatAll ns j).outcomes, g.sector ≠ n :=
        fun serving g member sector => treated (.inr ⟨serving, g, member, sector⟩)
      split
      next serving =>
        rw [mem_insertOutcome (fresh serving), ih, step]
        constructor
        · rintro (rfl | ⟨outcome, at', member, held⟩)
          · exact ⟨rfl, rfl, .inr rfl, serving⟩
          · exact ⟨outcome, at', .inl member, held⟩
        · rintro ⟨outcome, at', member | last, held⟩
          · exact .inr ⟨outcome, at', member, held⟩
          · refine .inl ?_
            cases e
            cases outcome
            cases at'
            cases last
            rfl
      next unserved =>
        rw [List.mem_filter, ih]
        by_cases same : e.sector = n
        · simp [same, unserved]
        · simp [same]

/-! ## The request in the Recovery Queue (R118, R119) -/

theorem State.windowDeadline_eq (s : State) : s.windowDeadline = s.now + 100 * s.timing.batchWindow := by
  rw [Nat.mul_comm]
  rfl

/-- The window after a merge: an open one restarted. -/
def State.restarted (s : State) : Option Nat :=
  if s.engine.window.isSome then some (s.now + 100 * s.timing.batchWindow) else none

theorem State.restartWindow_eq (s : State) :
    s.restartWindow = { s with engine := { s.engine with window := s.restarted } } := by
  unfold State.restartWindow State.restarted State.withEngine
  rw [State.windowDeadline_eq]
  refine congrArg (fun e : Engine => { s with engine := e }) ?_
  dsimp only
  split
  · rfl
  next closed => rw [← Option.not_isSome_iff_eq_none.mp closed]

/-- The window after a new job: opened while the engine is IDLE, restarted while COLLECTING, not touched while RUNNING. -/
theorem State.placeCommanded_eq (j : Job) (s : State) : s.placeCommanded j = { s with engine := { s.engine with
    queued := s.engine.queued ++ [j]
    window := if s.engine.window.isSome ∨ (s.engine.jobs = [] ∧ 0 < s.timing.batchWindow)
      then some (s.now + 100 * s.timing.batchWindow) else none } } := by
  unfold State.placeCommanded Engine.runPhase Engine.length
  rw [State.windowDeadline_eq]
  cases window : s.engine.window with
  | some d => rfl
  | none =>
    by_cases idle : s.engine.jobs = []
    · by_cases closed : s.timing.batchWindow = 0
      · simp [State.withEngine, idle, closed]
      · simp [State.withEngine, idle, closed, Nat.pos_of_ne_zero closed]
    · simp [State.withEngine, idle, window]

theorem State.mergeInto_same (ns : List Nat) (j : Job) (s : State) : s.mergeInto ns false j = s.treatAll ns j := by
  unfold State.mergeInto
  dsimp only
  rw [Bool.or_false]

/-- The engine's tests leave the placed jobs what they are. -/
theorem State.poke_placed (s : State) : s.poke.engine.active.toList ++ s.poke.engine.parked.toList =
    s.engine.active.toList ++ s.engine.parked.toList := by
  have live := s.poke_liveJobs
  have queued : s.poke.engine.queued = s.engine.queued := by rw [State.poke_frame]
  unfold Engine.liveJobs at live
  rwa [queued, List.append_cancel_right_eq] at live

theorem Engine.accumulator_of_banks {e f : Engine} (same : e.banks = f.banks) (b : Option Nat) (n : Nat) :
    e.accumulator b n = f.accumulator b n := by
  unfold Engine.accumulator Engine.bank
  rw [same]

/-- The jobs beside the PARKED job are of other tracks. -/
theorem Engine.WellQueued.parked_apart {e : Engine} {records : Nat} {unloading : Prop} (wf : e.WellQueued records unloading)
    (parked : e.parked = some j) : ∀ k ∈ e.active.toList ++ e.queued, k.track ≠ j.track :=
  wf.others_apart (by simp [Engine.liveJobs, parked])

/-- The sectors that join change the accumulators alone. -/
theorem Engine.emptyJoined_active (ns before : List Nat) (b : Option Nat) (a : Option Job) (e : Engine) :
    ({ e.emptyJoined ns before b with active := a } : Engine) =
      { e with banks := (e.emptyJoined ns before b).banks, active := a } :=
  congrArg (fun f : Engine => { f with active := a }) (Engine.emptyJoined_eq ns before b e)

theorem Engine.emptyJoined_parked (ns before : List Nat) (b : Option Nat) (p : Option Job) (e : Engine) :
    ({ e.emptyJoined ns before b with parked := p } : Engine) =
      { e with banks := (e.emptyJoined ns before b).banks, parked := p } :=
  congrArg (fun f : Engine => { f with parked := p }) (Engine.emptyJoined_eq ns before b e)

section request
variable {ns : List Nat} {ladder : Nat} {keep : Bool}

/-- A request for the track of the ACTIVE or PARKED job is merged into it. -/
theorem State.commandedRequest_placed (wf : s.WellQueued) (here : j ∈ s.engine.active.toList ++ s.engine.parked.toList)
    (track : j.track = x) : ∃ e : Engine, s.commandedRequest x ns ladder keep = some ({ s with engine := e } : State).poke ∧
      e = { s.engine with
        banks := (s.engine.emptyJoined ns j.pending j.bank).banks
        active := e.active
        parked := e.parked
        window := s.restarted } ∧
      s.treatAll ns j ∈ e.active.toList ++ e.parked.toList := by
  have live : j ∈ s.engine.liveJobs := List.mem_append_left _ here
  rcases List.mem_append.mp here with active | parked
  · have active := Option.mem_toList.mp active
    refine ⟨{ s.engine with
      banks := (s.engine.emptyJoined ns j.pending j.bank).banks
      active := some (s.treatAll ns j)
      window := s.restarted }, ?_, rfl, List.mem_append_left _ List.mem_cons_self⟩
    unfold State.commandedRequest
    rw [Engine.place_of_active active track]
    show some (({ s with engine := { s.engine.emptyJoined ns j.pending j.bank with
      active := some (s.mergeInto ns false j) } } : State).restartWindow.poke) = _
    rw [Engine.emptyJoined_active, State.mergeInto_same, State.restartWindow_eq]
    rfl
  · have parked := Option.mem_toList.mp parked
    have away : ∀ k ∈ s.engine.active, k.track ≠ x := fun k active =>
      track ▸ wf.parked_apart parked k (List.mem_append_left _ (Option.mem_toList.mpr active))
    refine ⟨{ s.engine with
      banks := (s.engine.emptyJoined ns j.pending j.bank).banks
      parked := some (s.treatAll ns j)
      window := s.restarted }, ?_, rfl, List.mem_append_right _ List.mem_cons_self⟩
    unfold State.commandedRequest
    rw [Engine.place_of_parked away parked track]
    show some (({ s with engine := { s.engine.emptyJoined ns j.pending j.bank with
      parked := some (s.mergeInto ns false j) } } : State).restartWindow.poke) = _
    rw [Engine.emptyJoined_parked, State.mergeInto_same, State.restartWindow_eq]
    rfl

theorem State.commandedRequest_queued {before after : List Job}
    (unplaced : ∀ k ∈ s.engine.active.toList ++ s.engine.parked.toList, k.track ≠ x)
    (queued : s.engine.queued = before ++ j :: after) (track : j.track = x) (earlier : ∀ k ∈ before, k.track ≠ x) :
    s.commandedRequest x ns ladder keep = some ({ s with engine := { s.engine with
      queued := before ++ s.treatAll ns j :: after
      window := s.restarted } } : State).poke := by
  unfold State.commandedRequest
  rw [Engine.place_of_queued unplaced queued track earlier]
  dsimp only
  rw [State.mergeInto_same, State.restartWindow_eq]
  rfl

theorem State.commandedRequest_full (absent : ∀ k ∈ s.engine.liveJobs, k.track ≠ x) (full : 16 ≤ s.engine.length) :
    s.commandedRequest x ns ladder keep = none := by
  unfold State.commandedRequest
  rw [Engine.place_of_absent absent]
  exact if_pos full

/-- The new job of a RECOVER TRACK (R114, R118). -/
def State.trackJob (s : State) (x : Track) (ns : List Nat) (ladder : Nat) (keep : Bool) : Job :=
  s.treatAll ns (newJob x ladder .commanded false keep s.pack.epoch)

theorem State.trackJob_same : s.trackJob x ns ladder keep = { newJob x ladder .commanded false keep s.pack.epoch with
    pending := (s.trackJob x ns ladder keep).pending, outcomes := (s.trackJob x ns ladder keep).outcomes } :=
  State.treatAll_same ..

theorem State.mem_trackJob_pending : n ∈ (s.trackJob x ns ladder keep).pending ↔ n ∈ ns ∧ s.servingAt (x.at n) = false := by
  refine State.mem_treatAll_pending.trans (or_iff_right ?_)
  exact List.not_mem_nil

theorem State.mem_trackJob_outcomes {e : OutcomeEntry} : e ∈ (s.trackJob x ns ladder keep).outcomes ↔
    e.outcome = .alreadyHeld ∧ e.step = 0 ∧ e.sector ∈ ns ∧ s.servingAt (x.at e.sector) = true :=
  State.mem_treatAll_outcomes ⟨rfl, rfl⟩

theorem State.commandedRequest_new (absent : ∀ k ∈ s.engine.liveJobs, k.track ≠ x) (room : s.engine.length < 16) :
    s.commandedRequest x ns ladder keep =
      if (s.trackJob x ns ladder keep).pending = [] then some (s.closeJob .completed (s.trackJob x ns ladder keep))
      else some (s.placeCommanded (s.trackJob x ns ladder keep)).poke := by
  unfold State.commandedRequest
  rw [Engine.place_of_absent absent]
  refine (if_neg (Nat.not_le.mpr room)).trans ?_
  show (if (s.trackJob x ns ladder keep).pending.isEmpty = true then _ else _) = _
  by_cases none : (s.trackJob x ns ladder keep).pending = []
  · rw [if_pos none, if_pos (List.isEmpty_iff.mpr none)]
    exact congrArg some (State.endJob_decided none _ _)
  · rw [if_neg none, if_neg (List.isEmpty_iff.not.mpr none)]
    rfl

end request

/-- A request taken changes the engine and the standing RECOVERY request alone. -/
def State.TakesRequest (s t : State) : Prop :=
  t = { s with engine := t.engine, drive := { s.drive with recoveryRequest := t.drive.recoveryRequest } }

theorem State.poke_takesRequest (e : Engine) (s : State) : s.TakesRequest ({ s with engine := e } : State).poke := by
  unfold State.TakesRequest
  rw [State.poke_frame]

section command
variable {ns : List Nat} {ladder : Nat} {keep : Bool}

/-- What a merge into the ACTIVE or PARKED job leaves (R118, R149). -/
theorem State.commandedRequest_merges (wf : s.WellQueued) (here : j ∈ s.engine.active.toList ++ s.engine.parked.toList)
    (track : j.track = x) : ∃ v, s.commandedRequest x ns ladder keep = some v ∧ s.TakesRequest v ∧
      s.treatAll ns j ∈ v.engine.active.toList ++ v.engine.parked.toList ∧
      (∀ n, n ∈ j.pending → v.engine.accumulator j.bank n = s.engine.accumulator j.bank n) ∧
      (∀ n, n ∈ ns → n ∉ j.pending → v.engine.accumulator j.bank n = Accumulator.empty) ∧
      v.engine.queued = s.engine.queued ∧ v.engine.window = s.restarted := by
  obtain ⟨e, request, frame, merged⟩ := s.commandedRequest_placed (ns := ns) (ladder := ladder) (keep := keep) wf here track
  have placed := ({ s with engine := e } : State).poke_placed
  have tested := ({ s with engine := e } : State).poke_frame
  have takes := s.poke_takesRequest e
  refine ⟨_, request, takes, ?_⟩
  generalize ({ s with engine := e } : State).poke = v at placed tested ⊢
  have banks : v.engine.banks = (s.engine.emptyJoined ns j.pending j.bank).banks :=
    (congrArg (·.engine.banks) tested).trans (congrArg Engine.banks frame :)
  refine ⟨placed ▸ merged, fun n old => ?_, fun n joins new => ?_, ?_, ?_⟩
  · rw [Engine.accumulator_of_banks banks, Engine.emptyJoined_kept (.inr (.inr old))]
  · rw [Engine.accumulator_of_banks banks, Engine.emptyJoined_joined wf.tables joins new]
  · exact (congrArg (·.engine.queued) tested).trans (congrArg Engine.queued frame :)
  · exact (congrArg (·.engine.window) tested).trans (congrArg Engine.window frame :)

theorem State.commandedRequest_requeues {before after : List Job}
    (unplaced : ∀ k ∈ s.engine.active.toList ++ s.engine.parked.toList, k.track ≠ x)
    (queued : s.engine.queued = before ++ j :: after) (track : j.track = x) (earlier : ∀ k ∈ before, k.track ≠ x) :
    ∃ v, s.commandedRequest x ns ladder keep = some v ∧ s.TakesRequest v ∧
      v.engine.queued = before ++ s.treatAll ns j :: after ∧ v.engine.window = s.restarted := by
  refine ⟨_, State.commandedRequest_queued unplaced queued track earlier, s.poke_takesRequest _, ?_, ?_⟩ <;>
    rw [State.poke_frame]

/-- A new job with sectors pending stands at the end of the queued portion (R119). -/
theorem State.commandedRequest_enters (absent : ∀ k ∈ s.engine.liveJobs, k.track ≠ x) (room : s.engine.length < 16)
    (needed : n ∈ ns) (unserved : s.servingAt (x.at n) = false) :
    ∃ v, s.commandedRequest x ns ladder keep = some v ∧ s.TakesRequest v ∧
      v.engine.queued = s.engine.queued ++ [s.trackJob x ns ladder keep] ∧
      v.engine.jobs.Perm (s.trackJob x ns ladder keep :: s.engine.jobs) ∧
      v.engine.window = if s.engine.window.isSome ∨ (s.engine.jobs = [] ∧ 0 < s.timing.batchWindow)
        then some (s.now + 100 * s.timing.batchWindow) else none := by
  have request := s.commandedRequest_new (ns := ns) (ladder := ladder) (keep := keep) absent room
  have pending : (s.trackJob x ns ladder keep).pending ≠ [] :=
    List.ne_nil_of_mem (State.mem_trackJob_pending.mpr ⟨needed, unserved⟩)
  rw [if_neg pending, State.placeCommanded_eq] at request
  refine ⟨_, request, s.poke_takesRequest _, ?_, (State.poke_jobs _).trans ?_, ?_⟩
  · rw [State.poke_frame]
  · show (s.engine.placed ++ (s.engine.queued ++ [_])).Perm (_ :: (s.engine.placed ++ s.engine.queued))
    rw [← List.append_assoc]
    exact List.perm_append_comm
  · rw [State.poke_frame]

/-- The ending of a job without a reservation that has nothing pending (R129, R130). -/
theorem State.closeJob_unreserved (ending : Ending) (unreserved : j.reservation = false) :
    let t := s.closeJob ending j
    t.engine.jobs = s.engine.jobs ∧ t.engine.queued = s.engine.queued ∧
      t.engine.window = (if s.engine.jobs = [] then none else s.engine.window) ∧ t.map = s.map ∧ t.ci = s.ci ∧
      (s.canReserve = true → t.results = s.results ++ [j.record ending]) ∧
      (s.canReserve = false → t.results = s.results ∧ hasEvent .resultsFull t.events = true) := by
  intro t
  have jobs := s.closeJob_jobs ending j
  have closed := s.closeJob_eq ending j
  have keeps : s.keepsRecord j = s.canReserve := by
    unfold State.keepsRecord
    rw [unreserved, Bool.false_or]
  rw [keeps] at closed
  have events : t.events = if s.canReserve = true then s.events else withEvent .resultsFull s.events := (congrArg State.events closed :)
  have results : t.results = if s.canReserve = true then s.results ++ [j.record ending] else s.results :=
    (congrArg State.results closed :)
  refine ⟨jobs, (congrArg (·.engine.queued) closed :), (congrArg (·.engine.window) closed :), (congrArg State.map closed :),
    (congrArg State.ci closed :), fun place => results.trans (if_pos place), fun full => ?_⟩
  have off : ¬ s.canReserve = true := by
    rw [full]
    exact Bool.false_ne_true
  rw [results, events, if_neg off, if_neg off]
  exact ⟨rfl, hasEvent_withEvent_self _ _⟩

/-- A new job with nothing pending ends at once (R117, R118). -/
theorem State.commandedRequest_ends (absent : ∀ k ∈ s.engine.liveJobs, k.track ≠ x) (room : s.engine.length < 16)
    (served : ∀ n ∈ ns, s.servingAt (x.at n) = true) :
    s.commandedRequest x ns ladder keep = some (s.closeJob .completed (s.trackJob x ns ladder keep)) := by
  rw [State.commandedRequest_new absent room, if_pos]
  refine List.eq_nil_iff_forall_not_mem.mpr fun n member => ?_
  obtain ⟨named, unserved⟩ := State.mem_trackJob_pending.mp member
  exact Bool.false_ne_true (unserved.symm.trans (served n named))

end command

section body
variable {ps : List Word} {ns : List Nat} {ladder : Nat} {keep : Bool}

theorem cmdRecoverTrack_unread (unread : recoverParams s ps = none) : cmdRecoverTrack ps s = (.badParameter, s) := by
  unfold cmdRecoverTrack
  rw [unread]

theorem cmdRecoverTrack_unserved (read : recoverParams s ps = some (x, ns, ladder, keep))
    (unserved : packServes s.pack.state = false) : cmdRecoverTrack ps s = (.noPack, s) := by
  unfold cmdRecoverTrack
  rw [read]
  exact if_pos (by rw [unserved]; rfl)

theorem cmdRecoverTrack_serves (read : recoverParams s ps = some (x, ns, ladder, keep)) (serves : packServes s.pack.state = true) :
    cmdRecoverTrack ps s = match s.commandedRequest x ns ladder keep with
      | none => (.full, s)
      | some t => (.ok, t) := by
  unfold cmdRecoverTrack
  rw [read]
  exact if_neg (by rw [serves]; exact Bool.false_ne_true)

theorem cmdRecoverTrack_full (read : recoverParams s ps = some (x, ns, ladder, keep)) (serves : packServes s.pack.state = true)
    (full : s.commandedRequest x ns ladder keep = none) : cmdRecoverTrack ps s = (.full, s) := by
  rw [cmdRecoverTrack_serves read serves, full]

theorem cmdRecoverTrack_taken (read : recoverParams s ps = some (x, ns, ladder, keep)) (serves : packServes s.pack.state = true)
    (taken : s.commandedRequest x ns ladder keep = some t) : cmdRecoverTrack ps s = (.ok, t) := by
  rw [cmdRecoverTrack_serves read serves, taken]

end body

/-! ## The cancelled job (R100, R129 to R131) -/

theorem State.endJob_liveJobs (ending : Ending) (j : Job) (s : State) : (s.endJob ending j).engine.liveJobs = s.engine.liveJobs :=
  (State.closeJob_liveJobs ending _ _).trans (congrArg Engine.liveJobs (s.closeSectors_engine j))

theorem State.endJob_drive (ending : Ending) (j : Job) (s : State) :
    (s.endJob ending j).drive = { s.drive with recoveryRequest := (s.endJob ending j).drive.recoveryRequest } :=
  (congrArg State.drive (s.endJob_frame ending j) :)

/-- With no job ACTIVE no RECOVERY request stands after an ending (R124). -/
theorem State.endJob_withdraws (ending : Ending) (j : Job) (idle : s.engine.active = none) :
    (s.endJob ending j).drive.recoveryRequest = false := by
  have still : (s.closeSectors j).1.engine.active = none := (congrArg Engine.active (s.closeSectors_engine j)).trans idle
  unfold State.endJob State.closeJob
  dsimp only
  generalize (s.closeSectors j).1 = v at still ⊢
  rw [State.afterQueueChange_eq, State.poke_noActive]
  rw [State.liftResultsFull_frame, State.placeRecord_frame]
  show ((v.engine.freeBank _).windowed).active = none
  rw [Engine.windowed_eq, Engine.freeBank_eq]
  exact still

/-- What a cancelled job leaves: its place, its record, and, where it was ACTIVE, its grant aborted and its request withdrawn. -/
structure State.Cancels (j : Job) (s t : State) : Prop where
  live : ∀ k, k ∈ t.engine.liveJobs ↔ k ∈ s.engine.liveJobs ∧ k.track ≠ j.track
  active : s.engine.active = some j → t.drive.grant = s.abortRecovery.drive.grant ∧
    t.drive.activity = s.abortRecovery.drive.activity ∧ t.drive.recoveryRequest = false ∧
    (j.reservation = true → s.Files .cancelled [s.chargeRunning j] t)
  other : s.engine.active ≠ some j → t.drive.grant = s.drive.grant ∧ t.drive.activity = s.drive.activity ∧
    (j.reservation = true ∨ s.canReserve = true → s.Files .cancelled [j] t)

/-- The jobs left are those of the other tracks. -/
theorem State.live_without {before after : List Job} (wf : s.WellQueued) (from' : s.engine.liveJobs = before ++ j :: after)
    (left : t.engine.liveJobs = before ++ after) (k : Job) :
    k ∈ t.engine.liveJobs ↔ k ∈ s.engine.liveJobs ∧ k.track ≠ j.track := by
  have apart := wf.others_apart from' k
  rw [from', left]
  simp only [List.mem_append, List.mem_cons] at apart ⊢
  constructor
  · exact fun member => ⟨member.imp_right .inr, apart member⟩
  · rintro ⟨before | rfl | after, other⟩
    · exact .inl before
    · exact absurd rfl other
    · exact .inr after

theorem State.cutActive_cancels (wf : s.WellQueued) (active : s.engine.active = some j) :
    s.Cancels j (s.cutActive .cancelled j) := by
  have seats := (s.abortRecovery.endActive_seats .cancelled (s.chargeRunning j))
  have engine := s.abortRecovery_engine
  have drive := State.endJob_drive .cancelled (s.chargeRunning j)
    ((s.abortRecovery.withEngine (fun e => { e with active := none })).setRecoveryRequest false)
  refine ⟨s.live_without (before := []) (after := s.engine.parked.toList ++ s.engine.queued) wf ?_ ?_, fun _ => ?_,
    fun other => absurd active other⟩
  · rw [Engine.liveJobs, active]
    rfl
  · refine (State.endJob_liveJobs ..).trans ?_
    show (none : Option Job).toList ++ s.abortRecovery.engine.parked.toList ++ s.abortRecovery.engine.queued = _
    rw [engine]
    rfl
  · refine ⟨(congrArg Drive.grant drive :), (congrArg Drive.activity drive :), State.endJob_withdraws _ _ rfl, fun reserved => ?_⟩
    have results : s.abortRecovery.results = s.results := by rw [State.abortRecovery_frame]
    have start : s.Files .cancelled []
        ((s.abortRecovery.withEngine (fun e => { e with active := none })).setRecoveryRequest false) := .nil results
    refine start.trans (State.endJob_filed ?_)
    rw [State.chargeRunning_same]
    exact reserved

/-- A job that is not ACTIVE taken from its place and ended. -/
theorem State.endJob_cancels {e : Engine} {before after : List Job} (wf : s.WellQueued)
    (from' : s.engine.liveJobs = before ++ j :: after) (left : e.liveJobs = before ++ after) (away : s.engine.active ≠ some j)
    (places : j.reservation = true ∨ ({ s with engine := e } : State).canReserve = s.canReserve) :
    s.Cancels j (({ s with engine := e } : State).endJob .cancelled j) := by
  have drive := State.endJob_drive .cancelled j ({ s with engine := e } : State)
  refine ⟨s.live_without wf from' ((State.endJob_liveJobs ..).trans left), fun active => absurd active away, fun _ =>
    ⟨(congrArg Drive.grant drive :), (congrArg Drive.activity drive :), fun room => ?_⟩⟩
  have files := State.endJob_files .cancelled j ({ s with engine := e } : State)
  rw [if_pos] at files
  · exact files
  · rcases places with reserved | same
    · rw [reserved]
      rfl
    · rw [same]
      simpa using room

/-- A live job of the track is cancelled (R131). -/
theorem cmdCancelTrack_cancels {c h : Word} {rest : List Word} (wf : s.WellQueued) (here : j ∈ s.engine.liveJobs)
    (cylinder : c.toNat < s.geom.cylinders) (head : h.toNat < s.geom.heads) (track : j.track = ⟨c.toNat, h.toNat⟩) :
    ∃ t, cmdCancelTrack (c :: h :: rest) s = (.ok, t) ∧ s.Cancels j t := by
  have within : ¬ (!(⟨c.toNat, h.toNat⟩ : Track).within s.geom) = true := by
    rw [(Track.within_iff ⟨c.toNat, h.toNat⟩ s.geom).mpr ⟨cylinder, head⟩]
    exact Bool.false_ne_true
  have one {k : Job} (live : k ∈ s.engine.liveJobs) (same : k.track = ⟨c.toNat, h.toNat⟩) : k = j :=
    wf.one_of_track live here (same.trans track.symm)
  unfold cmdCancelTrack
  dsimp only
  rw [if_neg within]
  cases place : s.engine.place ⟨c.toNat, h.toNat⟩ with
  | absent => exact absurd track (Engine.place_absent place j here)
  | active k =>
    obtain ⟨active, same⟩ := Engine.place_active place
    cases one (by simp [Engine.liveJobs, active]) same
    exact ⟨_, rfl, State.cutActive_cancels wf active⟩
  | parked k =>
    obtain ⟨parked, same⟩ := Engine.place_parked place
    cases one (by simp [Engine.liveJobs, parked]) same
    have away : s.engine.active ≠ some j := fun active =>
      wf.parked_apart parked j (by simp [active]) rfl
    refine ⟨_, rfl, State.endJob_cancels (before := s.engine.active.toList) (after := s.engine.queued) wf ?_ ?_ away
      (.inl (wf.placed j (by simp [Engine.placed, parked])).1)⟩
    · simp [Engine.liveJobs, parked]
    · simp [Engine.liveJobs]
  | queued before k after =>
    obtain ⟨queued, same, -⟩ := Engine.place_queued place
    cases one (by simp [Engine.liveJobs, queued]) same
    have split : s.engine.liveJobs = (s.engine.active.toList ++ s.engine.parked.toList ++ before) ++ j :: after := by
      simp [Engine.liveJobs, queued]
    have away : s.engine.active ≠ some j := fun active => wf.others_apart split j (by simp [active]) rfl
    refine ⟨_, rfl, State.endJob_cancels wf split ?_ away (.inr rfl)⟩
    simp [Engine.liveJobs]

theorem cmdCancelTrack_short {ps : List Word} (short : ps.length < 2) : cmdCancelTrack ps s = (.badParameter, s) := by
  unfold cmdCancelTrack
  split
  · simp only [List.length_cons] at short
    omega
  · rfl

theorem cmdCancelTrack_outside {c h : Word} {rest : List Word} (outside : s.geom.cylinders ≤ c.toNat ∨ s.geom.heads ≤ h.toNat) :
    cmdCancelTrack (c :: h :: rest) s = (.badParameter, s) := by
  have inside := Track.within_iff ⟨c.toNat, h.toNat⟩ s.geom
  refine if_pos ?_
  rw [Bool.not_eq_true', ← Bool.not_eq_true, inside]
  dsimp only
  omega

theorem cmdCancelTrack_absent {c h : Word} {rest : List Word} (cylinder : c.toNat < s.geom.cylinders) (head : h.toNat < s.geom.heads)
    (absent : ∀ k ∈ s.engine.liveJobs, k.track ≠ ⟨c.toNat, h.toNat⟩) : cmdCancelTrack (c :: h :: rest) s = (.notFound, s) := by
  have within := (Track.within_iff ⟨c.toNat, h.toNat⟩ s.geom).mpr ⟨cylinder, head⟩
  refine (if_neg ?_).trans ?_
  · rw [within]
    exact Bool.false_ne_true
  · rw [Engine.place_of_absent absent]

theorem State.Files.single {ending : Ending} (files : s.Files ending [j] t) :
    ∃ r, t.results = s.results ++ [r] ∧ r.bare = (j.record ending).bare := by
  obtain ⟨records, results, same⟩ := files
  obtain ⟨r, rfl, bare⟩ := List.map_eq_singleton_iff.mp same
  exact ⟨r, results, bare⟩

/-- The cancelled job as its record shows it: the ACTIVE job charged with the grant that is aborted. -/
def State.chargeCancelled (j : Job) (s : State) : Job := if s.engine.active = some j then s.chargeRunning j else j

theorem State.chargeCancelled_active (active : s.engine.active = some j) : s.chargeCancelled j = s.chargeRunning j := if_pos active

theorem State.chargeCancelled_idle (idle : s.engine.active = some j → s.drive.recoveryRunning = false) : s.chargeCancelled j = j := by
  unfold State.chargeCancelled
  split
  next active => exact State.chargeRunning_idle (idle active) j
  next => rfl

theorem State.chargeCancelled_same (j : Job) (s : State) : s.chargeCancelled j =
    { j with settles := (s.chargeCancelled j).settles, clamped := (s.chargeCancelled j).clamped } := by
  unfold State.chargeCancelled
  split
  · exact s.chargeRunning_same j
  · rfl

theorem State.Cancels.files (cancels : s.Cancels j t) (wf : s.WellQueued) (place : j.reservation = true ∨ s.canReserve = true) :
    s.Files .cancelled [s.chargeCancelled j] t := by
  unfold State.chargeCancelled
  split
  next active => exact (cancels.active active).2.2.2 (wf.placed j (by simp [Engine.placed, active])).1
  next other => exact (cancels.other other).2.2 place

/-- The command taken and its answer recorded: the Command Interface of one whose body leaves it alone. -/
theorem concludeCommand_ci {code : Word} {r : ResultCode} (same : t.ci = (s.commandTaken false code).ci) :
    (concludeCommand (r, t)).ci = (s.afterCommand code r).ci :=
  congrArg (fun c : CommandInterface => { c with lastResult := r }) same

theorem Engine.liveJobs_sub_jobs {e : Engine} (live : j ∈ e.liveJobs) : j ∈ e.jobs := by
  simp only [Engine.liveJobs, Engine.jobs, Engine.placed, List.mem_append] at live ⊢
  tauto

/-- Settles O44, the requests by where the track's job stands and the cancelled job by its place. -/
theorem trackCommands : Obligations.TrackCommands := by
  unfold Obligations.TrackCommands
  intro s ps takes
  refine ⟨fun short => exec_row_refuses (body := cmdRecoverTrack ps) rfl takes (by decide)
    (cmdRecoverTrack_unread (recoverParams_short short)), ?_,
    fun short => exec_row_refuses (body := cmdCancelTrack ps) rfl takes (by decide) (cmdCancelTrack_short short), ?_⟩
  · rintro c h lad set1 set2 kb rest rfl
    intro x r named bad
    let w := s.commandTaken false 0o040
    have live (absent : ∀ j ∈ s.engine.jobs, j.track ≠ x) (k : Job) (here : k ∈ w.engine.liveJobs) : k.track ≠ x :=
      absent k (Engine.liveJobs_sub_jobs here)
    have wf (queues : s.queuesWf = true) : w.WellQueued := w.queuesWf_iff.mp queues
    have row : exec (.recoverTrack (c :: h :: lad :: set1 :: set2 :: kb :: rest)) s =
      .next (s.commandStep 0o040 (c :: h :: lad :: set1 :: set2 :: kb :: rest)
        (cmdRecoverTrack (c :: h :: lad :: set1 :: set2 :: kb :: rest))) := rfl
    have read (good : ¬ bad) : ∃ ns, recoverParams w (c :: h :: lad :: set1 :: set2 :: kb :: rest) =
        some (x, ns, ladderNamed r lad, keepNamed r kb) ∧ ∀ n, n ∈ ns ↔ named n := recoverParams_read (s := w) good
    refine ⟨fun refused => ?_, fun good unserved => ?_, fun good serves absent full => ?_,
      fun good serves absent room ⟨n, needed, unserved⟩ => ?_, fun good serves absent room served => ?_,
      fun j good serves queues here track => ?_, fun before j after good serves unplaced queued track earlier => ?_⟩
    · refine exec_row_refuses row takes (by decide) (cmdRecoverTrack_unread (recoverParams_refused (s := w) refused))
    · obtain ⟨ns, read, -⟩ := read good
      exact exec_row_refuses row takes (by decide) (cmdRecoverTrack_unserved read unserved)
    · obtain ⟨ns, read, -⟩ := read good
      exact exec_row_refuses row takes (by decide) (cmdRecoverTrack_full read serves (State.commandedRequest_full (live absent) full))
    · obtain ⟨ns, read, members⟩ := read good
      obtain ⟨v, taken, changed, queued, jobs, window⟩ := State.commandedRequest_enters (s := w) (ladder := ladderNamed r lad)
        (keep := keepNamed r kb) (live absent) room ((members n).mpr needed) unserved
      have same := State.trackJob_same (s := w) (x := x) (ns := ns) (ladder := ladderNamed r lad) (keep := keepNamed r kb)
      refine ⟨_, w.trackJob x ns (ladderNamed r lad) (keepNamed r kb),
        exec_row row takes (by decide) (cmdRecoverTrack_taken read serves taken), queued, jobs, (congrArg Job.track same :),
        (congrArg Job.origin same :), (congrArg Job.urgent same :), (congrArg Job.epoch same :), (congrArg Job.ladder same :),
        (congrArg Job.keepBest same :), fun n => ?_, fun e => ?_, window,
        concludeCommand_ci (congrArg State.ci changed :), (congrArg State.results changed :), (congrArg State.map changed :)⟩
      · exact State.mem_trackJob_pending.trans (and_congr_left' (members n))
      · exact State.mem_trackJob_outcomes.trans
          (and_congr_right' (and_congr_right' (and_congr_left' (members e.sector))))
    · obtain ⟨ns, read, members⟩ := read good
      have taken := State.commandedRequest_ends (s := w) (ladder := ladderNamed r lad) (keep := keepNamed r kb) (live absent) room
        (fun n member => served n ((members n).mp member))
      have same := State.trackJob_same (s := w) (x := x) (ns := ns) (ladder := ladderNamed r lad) (keep := keepNamed r kb)
      have outcomes (e : OutcomeEntry) := State.mem_trackJob_outcomes (s := w) (x := x) (ns := ns) (ladder := ladderNamed r lad)
        (keep := keepNamed r kb) (e := e)
      generalize w.trackJob x ns (ladderNamed r lad) (keepNamed r kb) = k at taken same outcomes
      obtain ⟨jobs, queued, window, map, ci, filed, dropped⟩ := w.closeJob_unreserved .completed (j := k) (by rw [same]; rfl)
      generalize w.closeJob .completed k = v at *
      refine ⟨_, exec_row row takes (by decide) (cmdRecoverTrack_taken read serves taken), List.Perm.of_eq jobs, queued, window, map,
        concludeCommand_ci ci, fun place => ?_, dropped⟩
      refine ⟨_, filed place, (congrArg Job.track same :), (congrArg Job.origin same :), rfl, (congrArg Job.epoch same :),
        (congrArg Job.passes same :), (congrArg Job.settles same :), (congrArg Job.misSeeks same :), (congrArg Job.clamped same :),
        fun e => (outcomes e).trans (and_congr_right' (and_congr_right' ?_))⟩
      rw [members]
      exact and_iff_left_of_imp (served e.sector)
    · obtain ⟨ns, read, members⟩ := read good
      obtain ⟨v, taken, changed, merged, old, joined, queued, window⟩ := State.commandedRequest_merges (s := w) (ns := ns)
        (ladder := ladderNamed r lad) (keep := keepNamed r kb) (wf queues) here track
      have pending (n : Nat) : n ∈ (w.treatAll ns j).pending ↔ n ∈ j.pending ∨ (named n ∧ s.servingAt (x.at n) = false) := by
        rw [State.mem_treatAll_pending, members, track]
        rfl
      refine ⟨_, w.treatAll ns j, exec_row row takes (by decide) (cmdRecoverTrack_taken read serves taken), merged,
        w.treatAll_same ns j, pending, old, fun n member new => ?_, queued, fun _ => (congrArg (·.drive.grant) changed :), window,
        concludeCommand_ci (congrArg State.ci changed :), (congrArg State.results changed :), (congrArg State.map changed :)⟩
      exact joined n ((members n).mpr (((pending n).mp member).resolve_left new).1) new
    · obtain ⟨ns, read, members⟩ := read good
      obtain ⟨v, taken, changed, requeued, window⟩ := State.commandedRequest_requeues (s := w) (ns := ns)
        (ladder := ladderNamed r lad) (keep := keepNamed r kb) unplaced queued track earlier
      have same := w.treatAll_same ns j
      refine ⟨_, w.treatAll ns j, exec_row row takes (by decide) (cmdRecoverTrack_taken read serves taken), requeued,
        (congrArg Job.track same :).trans track, (congrArg Job.ladder same :), (congrArg Job.keepBest same :),
        (congrArg Job.origin same :), (congrArg Job.urgent same :), fun n => ?_, window,
        concludeCommand_ci (congrArg State.ci changed :), (congrArg State.results changed :), (congrArg State.map changed :)⟩
      rw [State.mem_treatAll_pending, members, track]
      rfl
  · rintro c h rest rfl
    intro x
    let w := s.commandTaken false 0o041
    have row : exec (.cancelTrack (c :: h :: rest)) s = .next (s.commandStep 0o041 (c :: h :: rest)
      (cmdCancelTrack (c :: h :: rest))) := rfl
    refine ⟨fun outside => exec_row_refuses row takes (by decide) (cmdCancelTrack_outside outside),
      fun cylinder head absent => exec_row_refuses row takes (by decide) (cmdCancelTrack_absent cylinder head absent),
      fun j here queues cylinder head track => ?_⟩
    obtain ⟨v, answer, cancels⟩ := cmdCancelTrack_cancels (s := w) (rest := rest) (w.queuesWf_iff.mp queues) here cylinder head track
    have cuts := cmdCancelTrack_cutsOnly (s := w) (c :: h :: rest) rfl
    rw [answer] at cuts
    have cuts : w.CutsOnly v := cuts
    obtain ⟨stopped, aborted, other⟩ := w.abortRecovery_drive
    refine ⟨_, exec_row row takes (by decide) answer, fun k mem => track ▸ ((cancels.live k).mp mem).2,
      fun k mem apart => (cancels.live k).mpr ⟨mem, track.symm ▸ apart⟩, concludeCommand_ci (congrArg State.ci cuts :), ?_⟩
    intro aborts
    refine ⟨fun g ⟨active, is⟩ => ?_, fun none => ?_, (congrArg State.drive cuts :), fun active => ?_, fun place => ?_⟩
    · obtain ⟨grant, activity, -⟩ := cancels.active active
      obtain ⟨moving, still⟩ := aborted g is
      exact ⟨fun r d is => ⟨grant.trans (moving r d is).1, activity.trans (moving r d is).2⟩,
        fun rests => ⟨grant.trans (still rests).1, activity.trans (still rests).2⟩⟩
    · by_cases active : s.engine.active = some j
      · obtain ⟨grant, activity, -⟩ := cancels.active active
        rw [other fun g is => none g ⟨active, is⟩] at grant activity
        exact ⟨grant, activity⟩
      · obtain ⟨grant, activity, -⟩ := cancels.other active
        exact ⟨grant, activity⟩
    · obtain ⟨grant, -, request, -⟩ := cancels.active active
      have running : v.drive.recoveryRunning = w.abortRecovery.drive.recoveryRunning := by
        unfold Drive.recoveryRunning
        rw [grant]
      exact ⟨request, running.trans stopped⟩
    · obtain ⟨filed, results, bare⟩ := (cancels.files (w.queuesWf_iff.mp queues) place).single
      have same := w.chargeCancelled_same j
      have trackKept : (w.chargeCancelled j).track = j.track := (congrArg Job.track same :)
      have passesKept : (w.chargeCancelled j).passes = j.passes := (congrArg Job.passes same :)
      refine ⟨filed, results, (congrArg ResultRecord.track bare).trans (trackKept.trans track), congrArg ResultRecord.ending bare,
        (congrArg ResultRecord.passes bare).trans passesKept, fun g ⟨active, here, runs⟩ => ?_, fun none => ?_⟩
      · have runs : w.drive.recoveryRunning = true := (Drive.recoveryRunning_iff _).mpr ⟨g, here, runs⟩
        have charged : w.chargeCancelled j = j.charge g :=
          (State.chargeCancelled_active active).trans (State.chargeRunning_eq runs here j)
        rw [charged] at bare
        exact ⟨congrArg ResultRecord.settles bare, congrArg ResultRecord.clamped bare⟩
      · have idle (active : w.engine.active = some j) : w.drive.recoveryRunning = false := by
          refine Bool.eq_false_iff.mpr fun runs => ?_
          obtain ⟨g, is⟩ := (Drive.recoveryRunning_iff _).mp runs
          exact none g ⟨active, is⟩
        rw [State.chargeCancelled_idle idle] at bare
        exact ⟨congrArg ResultRecord.settles bare, congrArg ResultRecord.clamped bare⟩

end Sys2Proof.Machine
end
